-- ==== Sys2Proof/Word.lean ====
section
/-!
DEFINITION. The word and byte types of the model and their plainest arithmetic.
-/
namespace Sys2Proof

/-- A 32-bit register, descriptor or entry word. -/
abbrev Word := BitVec 32

/-- A byte of host memory, on-chip memory or DRAM. -/
abbrev Byte := BitVec 8

end Sys2Proof
end

