-- ==== Sys2Proof/Machine/RegNames.lean ====
section
/-!
DEFINITION. The BAR0 offset of every register the spec names, under the spec's own name (R534: block
index × 0x1_0000 plus the offset its chapter gives; arrays take their indices), and the bits of every
field a register's table names. Written from the register tables of spec/00 to spec/23.
-/
namespace Sys2Proof.Machine

/-- A field of a register: its lowest bit and its width. -/
structure Fld where
  lo : Nat
  w : Nat
  deriving DecidableEq, Repr

namespace Reg

/-- SYS_TICK, 01_architecture.md line 123. -/
abbrev SYS_TICK : Nat := 0x100
/-- SYS_TICK_ACT, 01_architecture.md line 132. -/
abbrev SYS_TICK_ACT : Nat := 0x104
/-- SYS_SLACK, 01_architecture.md line 204. -/
abbrev SYS_SLACK (n : Nat) : Nat := 0x400 + 0x8 * n
/-- SYS_LATE, 01_architecture.md line 211. -/
abbrev SYS_LATE (n : Nat) : Nat := 0x404 + 0x8 * n
/-- SYS_SLACK_REARM, 01_architecture.md line 221. -/
abbrev SYS_SLACK_REARM : Nat := 0x500
/-- SYS_ABORT, 03_host_rings.md line 373. -/
abbrev SYS_ABORT : Nat := 0x600
/-- SYS_BOOT_ADDR, 21_startup.md line 109. -/
abbrev SYS_BOOT_ADDR : Nat := 0x700
/-- SYS_BOOT_CTRL, 21_startup.md line 116. -/
abbrev SYS_BOOT_CTRL : Nat := 0x708
/-- SYS_BOOT_STAT, 21_startup.md line 125. -/
abbrev SYS_BOOT_STAT : Nat := 0x70C
/-- SYS_RESET, 21_startup.md line 139. -/
abbrev SYS_RESET : Nat := 0x710
/-- SYS_BOOT_ABSENT, 21_startup.md line 146. -/
abbrev SYS_BOOT_ABSENT : Nat := 0x718
/-- SYS_OCC_CLR, 23_register_map.md line 142. -/
abbrev SYS_OCC_CLR : Nat := 0x800
/-- SYS_MAP_STAT, 23_register_map.md line 151. -/
abbrev SYS_MAP_STAT : Nat := 0x810
/-- SYS_MAP_LAST, 23_register_map.md line 161. -/
abbrev SYS_MAP_LAST : Nat := 0x814
/-- HIF_WD, 03_host_rings.md line 388. -/
abbrev HIF_WD : Nat := 0x10100
/-- HIF_IRQ_VEC, 03_host_rings.md line 355. -/
abbrev HIF_IRQ_VEC : Nat := 0x10104
/-- RING_NUDGE, 03_host_rings.md line 86. -/
abbrev RING_NUDGE : Nat := 0x20000
/-- RING_DB_BASE, 03_host_rings.md line 92. -/
abbrev RING_DB_BASE : Nat := 0x20008
/-- RING_DB_CFG, 03_host_rings.md line 99. -/
abbrev RING_DB_CFG : Nat := 0x20010
/-- RING_DB_STAT, 03_host_rings.md line 106. -/
abbrev RING_DB_STAT : Nat := 0x20014
/-- RING_CTRL, 03_host_rings.md line 119. -/
abbrev RING_CTRL (n : Nat) : Nat := 0x21000 + 0x20 * n
/-- RING_BASE, 03_host_rings.md line 130. -/
abbrev RING_BASE (n : Nat) : Nat := 0x21008 + 0x20 * n
/-- RING_IDX, 03_host_rings.md line 137. -/
abbrev RING_IDX (n : Nat) : Nat := 0x21010 + 0x20 * n
/-- RING_ERR, 03_host_rings.md line 144. -/
abbrev RING_ERR (n : Nat) : Nat := 0x21018 + 0x20 * n
/-- RING_MOD, 03_host_rings.md line 155. -/
abbrev RING_MOD (n : Nat) : Nat := 0x2101C + 0x20 * n
/-- SEQ_DOM_STAT, 02_modes.md line 323. -/
abbrev SEQ_DOM_STAT (n : Nat) : Nat := 0x32000 + 0x20 * n
/-- SEQ_DOM_CFG, 02_modes.md line 345. -/
abbrev SEQ_DOM_CFG (n : Nat) : Nat := 0x32004 + 0x20 * n
/-- SEQ_COMMIT, 02_modes.md line 354. -/
abbrev SEQ_COMMIT (n : Nat) : Nat := 0x32008 + 0x20 * n
/-- SEQ_COAT, 04_build_data.md line 394. -/
abbrev SEQ_COAT : Nat := 0x33000
/-- TRW_LOAD, 05_trowel.md line 254. -/
abbrev TRW_LOAD (n : Nat) : Nat := 0x40100 + 0x4 * n
/-- TRW_BUDGET, 05_trowel.md line 261. -/
abbrev TRW_BUDGET : Nat := 0x40140
/-- TRW_HEAD_CFG, 05_trowel.md line 269. -/
abbrev TRW_HEAD_CFG (n : Nat) : Nat := 0x41000 + 0x80 * n
/-- TRW_HEAD_RUNCFG, 05_trowel.md line 280. -/
abbrev TRW_HEAD_RUNCFG (n : Nat) : Nat := 0x41008 + 0x80 * n
/-- TRW_HEAD_GAP, 05_trowel.md line 288. -/
abbrev TRW_HEAD_GAP (n : Nat) : Nat := 0x4100C + 0x80 * n
/-- TRW_HEAD_LAG_ON, 05_trowel.md line 295. -/
abbrev TRW_HEAD_LAG_ON (n : Nat) : Nat := 0x41010 + 0x80 * n
/-- TRW_HEAD_LAG_OFF, 05_trowel.md line 295. -/
abbrev TRW_HEAD_LAG_OFF (n : Nat) : Nat := 0x41014 + 0x80 * n
/-- TRW_HEAD_WIN, 05_trowel.md line 302. -/
abbrev TRW_HEAD_WIN (n : Nat) (i : Nat) : Nat := 0x41018 + 0x80 * n + 0x4 * i
/-- TRW_HEAD_ZCFG, 05_trowel.md line 308. -/
abbrev TRW_HEAD_ZCFG (n : Nat) : Nat := 0x41028 + 0x80 * n
/-- TRW_HEAD_ZGAIN, 05_trowel.md line 315. -/
abbrev TRW_HEAD_ZGAIN (n : Nat) : Nat := 0x4102C + 0x80 * n
/-- TRW_HEAD_ZPARK, 05_trowel.md line 321. -/
abbrev TRW_HEAD_ZPARK (n : Nat) : Nat := 0x41030 + 0x80 * n
/-- TRW_HEAD_EMACC, 05_trowel.md line 327. -/
abbrev TRW_HEAD_EMACC (n : Nat) : Nat := 0x41034 + 0x80 * n
/-- TRW_HEAD_EMJERK, 05_trowel.md line 333. -/
abbrev TRW_HEAD_EMJERK (n : Nat) : Nat := 0x41038 + 0x80 * n
/-- TRW_HEAD_STATE, 05_trowel.md line 339. -/
abbrev TRW_HEAD_STATE (n : Nat) : Nat := 0x4103C + 0x80 * n
/-- TRW_HEAD_STAT, 05_trowel.md line 348. -/
abbrev TRW_HEAD_STAT (n : Nat) : Nat := 0x41040 + 0x80 * n
/-- TRW_HEAD_OCC, 05_trowel.md line 362. -/
abbrev TRW_HEAD_OCC (n : Nat) : Nat := 0x41044 + 0x80 * n
/-- TRW_CTX_BASE, 04_build_data.md line 171. -/
abbrev TRW_CTX_BASE (n : Nat) : Nat := 0x44000 + 0x20 * n
/-- TRW_CTX_CFG, 04_build_data.md line 179. -/
abbrev TRW_CTX_CFG (n : Nat) : Nat := 0x44008 + 0x20 * n
/-- TRW_CTX_STAT, 04_build_data.md line 186. -/
abbrev TRW_CTX_STAT (n : Nat) : Nat := 0x4400C + 0x20 * n
/-- TRW_CTX_RUNS, 04_build_data.md line 193. -/
abbrev TRW_CTX_RUNS (n : Nat) : Nat := 0x44010 + 0x20 * n
/-- OVL_CFG, 06_pergola.md line 248. -/
abbrev OVL_CFG : Nat := 0x50000
/-- OVL_PASS, 06_pergola.md line 257. -/
abbrev OVL_PASS : Nat := 0x50004
/-- OVL_EXCL, 06_pergola.md line 264. -/
abbrev OVL_EXCL : Nat := 0x50008
/-- OVL_CONE, 06_pergola.md line 272. -/
abbrev OVL_CONE : Nat := 0x5000C
/-- OVL_CONE_TAN, 06_pergola.md line 279. -/
abbrev OVL_CONE_TAN : Nat := 0x50010
/-- OVL_ZONE_CFG, 06_pergola.md line 286. -/
abbrev OVL_ZONE_CFG : Nat := 0x50014
/-- OVL_CASC_ID, 06_pergola.md line 295. -/
abbrev OVL_CASC_ID : Nat := 0x50018
/-- OVL_CASC_MEMBERS, 06_pergola.md line 302. -/
abbrev OVL_CASC_MEMBERS : Nat := 0x5001C
/-- OVL_SNAP, 06_pergola.md line 310. -/
abbrev OVL_SNAP : Nat := 0x50020
/-- OVL_RUNCNT, 06_pergola.md line 317. -/
abbrev OVL_RUNCNT (n : Nat) : Nat := 0x50028 + 0x4 * n
/-- OVL_STAT, 06_pergola.md line 323. -/
abbrev OVL_STAT : Nat := 0x50040
/-- OVL_OCC, 06_pergola.md line 332. -/
abbrev OVL_OCC : Nat := 0x50044
/-- OVL_HEAD, 06_pergola.md line 341. -/
abbrev OVL_HEAD (n : Nat) : Nat := 0x50100 + 0x10 * n
/-- OVL_HSTAT, 06_pergola.md line 351. -/
abbrev OVL_HSTAT (n : Nat) : Nat := 0x50104 + 0x10 * n
/-- OVL_HCNT, 06_pergola.md line 359. -/
abbrev OVL_HCNT (n : Nat) : Nat := 0x50108 + 0x10 * n
/-- OVL_HYIELD, 06_pergola.md line 366. -/
abbrev OVL_HYIELD (n : Nat) : Nat := 0x5010C + 0x10 * n
/-- SRV_SNAP, 07_servo.md line 214. -/
abbrev SRV_SNAP : Nat := 0x60000
/-- SRV_SNAP_TICK, 07_servo.md line 221. -/
abbrev SRV_SNAP_TICK (n : Nat) : Nat := 0x60040 + 0x4 * n
/-- SRV_MON, 07_servo.md line 227. -/
abbrev SRV_MON (n : Nat) (i : Nat) : Nat := 0x60100 + 0x10 * n + 0x4 * i
/-- SRV_AXIS_CFG, 07_servo.md line 233. -/
abbrev SRV_AXIS_CFG (n : Nat) : Nat := 0x61000 + 0x100 * n
/-- SRV_AXIS_PARK, 07_servo.md line 247. -/
abbrev SRV_AXIS_PARK (n : Nat) : Nat := 0x61004 + 0x100 * n
/-- SRV_AXIS_INJ, 07_servo.md line 253. -/
abbrev SRV_AXIS_INJ (n : Nat) : Nat := 0x61008 + 0x100 * n
/-- SRV_AXIS_KP, 07_servo.md line 262. -/
abbrev SRV_AXIS_KP (n : Nat) (i : Nat) : Nat := 0x61010 + 0x100 * n + 0x60 * i
/-- SRV_AXIS_KI, 07_servo.md line 262. -/
abbrev SRV_AXIS_KI (n : Nat) (i : Nat) : Nat := 0x61014 + 0x100 * n + 0x60 * i
/-- SRV_AXIS_KD, 07_servo.md line 262. -/
abbrev SRV_AXIS_KD (n : Nat) (i : Nat) : Nat := 0x61018 + 0x100 * n + 0x60 * i
/-- SRV_AXIS_SHIFT_PID, 07_servo.md line 268. -/
abbrev SRV_AXIS_SHIFT_PID (n : Nat) (i : Nat) : Nat := 0x6101C + 0x100 * n + 0x60 * i
/-- SRV_AXIS_ILIM, 07_servo.md line 279. -/
abbrev SRV_AXIS_ILIM (n : Nat) (i : Nat) : Nat := 0x61020 + 0x100 * n + 0x60 * i
/-- SRV_AXIS_OUT_LIM, 07_servo.md line 286. -/
abbrev SRV_AXIS_OUT_LIM (n : Nat) (i : Nat) : Nat := 0x61024 + 0x100 * n + 0x60 * i
/-- SRV_AXIS_KVF, 07_servo.md line 293. -/
abbrev SRV_AXIS_KVF (n : Nat) (i : Nat) : Nat := 0x61028 + 0x100 * n + 0x60 * i
/-- SRV_AXIS_KAF, 07_servo.md line 293. -/
abbrev SRV_AXIS_KAF (n : Nat) (i : Nat) : Nat := 0x6102C + 0x100 * n + 0x60 * i
/-- SRV_AXIS_FF_CFG, 07_servo.md line 299. -/
abbrev SRV_AXIS_FF_CFG (n : Nat) (i : Nat) : Nat := 0x61030 + 0x100 * n + 0x60 * i
/-- SRV_AXIS_FRIC_VBAND, 07_servo.md line 310. -/
abbrev SRV_AXIS_FRIC_VBAND (n : Nat) (i : Nat) : Nat := 0x61034 + 0x100 * n + 0x60 * i
/-- SRV_AXIS_BQ1_B0, 07_servo.md line 317. -/
abbrev SRV_AXIS_BQ1_B0 (n : Nat) (i : Nat) : Nat := 0x61038 + 0x100 * n + 0x60 * i
/-- SRV_AXIS_BQ1_B1, 07_servo.md line 317. -/
abbrev SRV_AXIS_BQ1_B1 (n : Nat) (i : Nat) : Nat := 0x6103C + 0x100 * n + 0x60 * i
/-- SRV_AXIS_BQ1_B2, 07_servo.md line 317. -/
abbrev SRV_AXIS_BQ1_B2 (n : Nat) (i : Nat) : Nat := 0x61040 + 0x100 * n + 0x60 * i
/-- SRV_AXIS_BQ1_A1, 07_servo.md line 317. -/
abbrev SRV_AXIS_BQ1_A1 (n : Nat) (i : Nat) : Nat := 0x61044 + 0x100 * n + 0x60 * i
/-- SRV_AXIS_BQ1_A2, 07_servo.md line 317. -/
abbrev SRV_AXIS_BQ1_A2 (n : Nat) (i : Nat) : Nat := 0x61048 + 0x100 * n + 0x60 * i
/-- SRV_AXIS_BQ1_SHIFT, 07_servo.md line 323. -/
abbrev SRV_AXIS_BQ1_SHIFT (n : Nat) (i : Nat) : Nat := 0x6104C + 0x100 * n + 0x60 * i
/-- SRV_AXIS_BQ2_B0, 07_servo.md line 317. -/
abbrev SRV_AXIS_BQ2_B0 (n : Nat) (i : Nat) : Nat := 0x61050 + 0x100 * n + 0x60 * i
/-- SRV_AXIS_BQ2_B1, 07_servo.md line 317. -/
abbrev SRV_AXIS_BQ2_B1 (n : Nat) (i : Nat) : Nat := 0x61054 + 0x100 * n + 0x60 * i
/-- SRV_AXIS_BQ2_B2, 07_servo.md line 317. -/
abbrev SRV_AXIS_BQ2_B2 (n : Nat) (i : Nat) : Nat := 0x61058 + 0x100 * n + 0x60 * i
/-- SRV_AXIS_BQ2_A1, 07_servo.md line 317. -/
abbrev SRV_AXIS_BQ2_A1 (n : Nat) (i : Nat) : Nat := 0x6105C + 0x100 * n + 0x60 * i
/-- SRV_AXIS_BQ2_A2, 07_servo.md line 317. -/
abbrev SRV_AXIS_BQ2_A2 (n : Nat) (i : Nat) : Nat := 0x61060 + 0x100 * n + 0x60 * i
/-- SRV_AXIS_BQ2_SHIFT, 07_servo.md line 323. -/
abbrev SRV_AXIS_BQ2_SHIFT (n : Nat) (i : Nat) : Nat := 0x61064 + 0x100 * n + 0x60 * i
/-- SRV_AXIS_PM_KC, 07_servo.md line 336. -/
abbrev SRV_AXIS_PM_KC (n : Nat) : Nat := 0x610D0 + 0x100 * n
/-- SRV_AXIS_PM_KT, 07_servo.md line 336. -/
abbrev SRV_AXIS_PM_KT (n : Nat) : Nat := 0x610D4 + 0x100 * n
/-- SRV_AXIS_PM_KB, 07_servo.md line 336. -/
abbrev SRV_AXIS_PM_KB (n : Nat) : Nat := 0x610D8 + 0x100 * n
/-- SRV_AXIS_PM_KS, 07_servo.md line 336. -/
abbrev SRV_AXIS_PM_KS (n : Nat) : Nat := 0x610DC + 0x100 * n
/-- SRV_AXIS_PM_L, 07_servo.md line 336. -/
abbrev SRV_AXIS_PM_L (n : Nat) : Nat := 0x610E0 + 0x100 * n
/-- SRV_AXIS_PM_LV, 07_servo.md line 336. -/
abbrev SRV_AXIS_PM_LV (n : Nat) : Nat := 0x610E4 + 0x100 * n
/-- SRV_AXIS_PM_SHIFT, 07_servo.md line 342. -/
abbrev SRV_AXIS_PM_SHIFT (n : Nat) : Nat := 0x610E8 + 0x100 * n
/-- SRV_AXIS_PM_REST, 07_servo.md line 336. -/
abbrev SRV_AXIS_PM_REST (n : Nat) : Nat := 0x610EC + 0x100 * n
/-- SRV_AXIS_PM_LIMIT, 07_servo.md line 354. -/
abbrev SRV_AXIS_PM_LIMIT (n : Nat) : Nat := 0x610F0 + 0x100 * n
/-- SRV_AXIS_STAT, 07_servo.md line 361. -/
abbrev SRV_AXIS_STAT (n : Nat) : Nat := 0x610F4 + 0x100 * n
/-- SRV_AXIS_OCC, 07_servo.md line 372. -/
abbrev SRV_AXIS_OCC (n : Nat) : Nat := 0x610F8 + 0x100 * n
/-- SRV_AXIS_PMSAFE, 07_servo.md line 379. -/
abbrev SRV_AXIS_PMSAFE (n : Nat) : Nat := 0x610FC + 0x100 * n
/-- HLK_CASC_CFG, 08_head_link.md line 279. -/
abbrev HLK_CASC_CFG : Nat := 0x70000
/-- HLK_LANE_CFG, 08_head_link.md line 286. -/
abbrev HLK_LANE_CFG (n : Nat) : Nat := 0x71000 + 0x100 * n
/-- HLK_LANE_CHK, 08_head_link.md line 297. -/
abbrev HLK_LANE_CHK (n : Nat) : Nat := 0x71004 + 0x100 * n
/-- HLK_LANE_STATE, 08_head_link.md line 304. -/
abbrev HLK_LANE_STATE (n : Nat) : Nat := 0x71008 + 0x100 * n
/-- HLK_LANE_LAT, 08_head_link.md line 313. -/
abbrev HLK_LANE_LAT (n : Nat) : Nat := 0x71010 + 0x100 * n
/-- HLK_LANE_CAP, 08_head_link.md line 322. -/
abbrev HLK_LANE_CAP (n : Nat) : Nat := 0x71018 + 0x100 * n
/-- HLK_LANE_ID, 08_head_link.md line 331. -/
abbrev HLK_LANE_ID (n : Nat) : Nat := 0x71020 + 0x100 * n
/-- HLK_LANE_DFE, 08_head_link.md line 337. -/
abbrev HLK_LANE_DFE (n : Nat) : Nat := 0x71028 + 0x100 * n
/-- HLK_LANE_STAT, 08_head_link.md line 344. -/
abbrev HLK_LANE_STAT (n : Nat) : Nat := 0x7102C + 0x100 * n
/-- HLK_LANE_OCC, 08_head_link.md line 366. -/
abbrev HLK_LANE_OCC (n : Nat) (i : Nat) : Nat := 0x71030 + 0x100 * n + 0x4 * i
/-- HLK_LANE_LOSS, 08_head_link.md line 372. -/
abbrev HLK_LANE_LOSS (n : Nat) : Nat := 0x71038 + 0x100 * n
/-- MPL_HM_BASE, 09_meltpool.md line 266. -/
abbrev MPL_HM_BASE : Nat := 0x80000
/-- MPL_HM_ORG, 09_meltpool.md line 274. -/
abbrev MPL_HM_ORG : Nat := 0x80008
/-- MPL_HM_SIZE, 09_meltpool.md line 281. -/
abbrev MPL_HM_SIZE : Nat := 0x80010
/-- MPL_HM_CFG, 09_meltpool.md line 290. -/
abbrev MPL_HM_CFG : Nat := 0x80014
/-- MPL_HM_FOLD, 09_meltpool.md line 299. -/
abbrev MPL_HM_FOLD : Nat := 0x80018
/-- MPL_HM_STAT, 09_meltpool.md line 309. -/
abbrev MPL_HM_STAT : Nat := 0x8001C
/-- MPL_HEAD_CFG, 09_meltpool.md line 320. -/
abbrev MPL_HEAD_CFG (n : Nat) : Nat := 0x81000 + 0x80 * n
/-- MPL_HEAD_DARK, 09_meltpool.md line 335. -/
abbrev MPL_HEAD_DARK (n : Nat) : Nat := 0x81004 + 0x80 * n
/-- MPL_HEAD_SPAT, 09_meltpool.md line 342. -/
abbrev MPL_HEAD_SPAT (n : Nat) : Nat := 0x81008 + 0x80 * n
/-- MPL_HEAD_PGAIN, 09_meltpool.md line 349. -/
abbrev MPL_HEAD_PGAIN (n : Nat) : Nat := 0x8100C + 0x80 * n
/-- MPL_HEAD_PSHIFT, 09_meltpool.md line 356. -/
abbrev MPL_HEAD_PSHIFT (n : Nat) : Nat := 0x81010 + 0x80 * n
/-- MPL_HEAD_FF, 09_meltpool.md line 365. -/
abbrev MPL_HEAD_FF (n : Nat) : Nat := 0x81014 + 0x80 * n
/-- MPL_HEAD_FFBASE, 09_meltpool.md line 373. -/
abbrev MPL_HEAD_FFBASE (n : Nat) : Nat := 0x81018 + 0x80 * n
/-- MPL_HEAD_OUTER, 09_meltpool.md line 380. -/
abbrev MPL_HEAD_OUTER (n : Nat) : Nat := 0x8101C + 0x80 * n
/-- MPL_HEAD_GTGT, 09_meltpool.md line 388. -/
abbrev MPL_HEAD_GTGT (n : Nat) : Nat := 0x81020 + 0x80 * n
/-- MPL_HEAD_REFSTEP, 09_meltpool.md line 396. -/
abbrev MPL_HEAD_REFSTEP (n : Nat) : Nat := 0x81024 + 0x80 * n
/-- MPL_HEAD_BURST_BASE, 09_meltpool.md line 403. -/
abbrev MPL_HEAD_BURST_BASE (n : Nat) : Nat := 0x81028 + 0x80 * n
/-- MPL_HEAD_BURST_TRIG, 09_meltpool.md line 411. -/
abbrev MPL_HEAD_BURST_TRIG (n : Nat) : Nat := 0x81030 + 0x80 * n
/-- MPL_HEAD_BAND, 09_meltpool.md line 422. -/
abbrev MPL_HEAD_BAND (n : Nat) : Nat := 0x81034 + 0x80 * n
/-- MPL_HEAD_LOOP, 09_meltpool.md line 429. -/
abbrev MPL_HEAD_LOOP (n : Nat) : Nat := 0x81040 + 0x80 * n
/-- MPL_HEAD_INTEG, 09_meltpool.md line 436. -/
abbrev MPL_HEAD_INTEG (n : Nat) : Nat := 0x81044 + 0x80 * n
/-- MPL_HEAD_BURST, 09_meltpool.md line 442. -/
abbrev MPL_HEAD_BURST (n : Nat) : Nat := 0x81048 + 0x80 * n
/-- MPL_HEAD_BURST_TICK, 09_meltpool.md line 450. -/
abbrev MPL_HEAD_BURST_TICK (n : Nat) : Nat := 0x8104C + 0x80 * n
/-- MPL_HEAD_SKIP, 09_meltpool.md line 456. -/
abbrev MPL_HEAD_SKIP (n : Nat) : Nat := 0x81050 + 0x80 * n
/-- MPL_HEAD_STAT, 09_meltpool.md line 462. -/
abbrev MPL_HEAD_STAT (n : Nat) : Nat := 0x81054 + 0x80 * n
/-- MPL_HEAD_OCC, 09_meltpool.md line 474. -/
abbrev MPL_HEAD_OCC (n : Nat) : Nat := 0x81058 + 0x80 * n
/-- CAM_CFG, 10_camera.md line 239. -/
abbrev CAM_CFG (n : Nat) : Nat := 0x91000 + 0x400 * n
/-- CAM_SIZE, 10_camera.md line 252. -/
abbrev CAM_SIZE (n : Nat) : Nat := 0x91004 + 0x400 * n
/-- CAM_TIMING, 10_camera.md line 261. -/
abbrev CAM_TIMING (n : Nat) : Nat := 0x91008 + 0x400 * n
/-- CAM_SCHED, 10_camera.md line 269. -/
abbrev CAM_SCHED (n : Nat) (i : Nat) : Nat := 0x91010 + 0x400 * n + 0x4 * i
/-- CAM_DEFECT, 10_camera.md line 275. -/
abbrev CAM_DEFECT (n : Nat) : Nat := 0x91018 + 0x400 * n
/-- CAM_MAP, 10_camera.md line 284. -/
abbrev CAM_MAP (n : Nat) (i : Nat) : Nat := 0x91020 + 0x400 * n + 0x4 * i
/-- CAM_IMG_BASE, 10_camera.md line 290. -/
abbrev CAM_IMG_BASE (n : Nat) : Nat := 0x91038 + 0x400 * n
/-- CAM_STAT, 10_camera.md line 298. -/
abbrev CAM_STAT (n : Nat) : Nat := 0x91040 + 0x400 * n
/-- CAM_OCC, 10_camera.md line 314. -/
abbrev CAM_OCC (n : Nat) : Nat := 0x91044 + 0x400 * n
/-- CAM_FRAME, 10_camera.md line 321. -/
abbrev CAM_FRAME (n : Nat) : Nat := 0x91048 + 0x400 * n
/-- CAM_OUT, 10_camera.md line 327. -/
abbrev CAM_OUT (n : Nat) : Nat := 0x9104C + 0x400 * n
/-- CAM_IMG, 10_camera.md line 334. -/
abbrev CAM_IMG (n : Nat) (i : Nat) : Nat := 0x91050 + 0x400 * n + 0x8 * i
/-- CAM_CTX_EXP, 10_camera.md line 346. -/
abbrev CAM_CTX_EXP (n : Nat) (i : Nat) : Nat := 0x91100 + 0x400 * n + 0x10 * i
/-- CAM_CTX_ROI, 10_camera.md line 356. -/
abbrev CAM_CTX_ROI (n : Nat) (i : Nat) : Nat := 0x91104 + 0x400 * n + 0x10 * i
/-- CAM_CTX_RSIZE, 10_camera.md line 365. -/
abbrev CAM_CTX_RSIZE (n : Nat) (i : Nat) : Nat := 0x91108 + 0x400 * n + 0x10 * i
/-- CAM_CTX_PROC, 10_camera.md line 374. -/
abbrev CAM_CTX_PROC (n : Nat) (i : Nat) : Nat := 0x9110C + 0x400 * n + 0x10 * i
/-- FLT_BAR_CFG, 11_float.md line 269. -/
abbrev FLT_BAR_CFG (n : Nat) : Nat := 0xA1000 + 0x400 * n
/-- FLT_BAR_LEVSEL, 11_float.md line 284. -/
abbrev FLT_BAR_LEVSEL (n : Nat) : Nat := 0xA1004 + 0x400 * n
/-- FLT_BAR_EDUTY, 11_float.md line 291. -/
abbrev FLT_BAR_EDUTY (n : Nat) : Nat := 0xA1008 + 0x400 * n
/-- FLT_BAR_ECAP, 11_float.md line 298. -/
abbrev FLT_BAR_ECAP (n : Nat) : Nat := 0xA100C + 0x400 * n
/-- FLT_BAR_BDUTY, 11_float.md line 305. -/
abbrev FLT_BAR_BDUTY (n : Nat) : Nat := 0xA1010 + 0x400 * n
/-- FLT_BAR_BCAP, 11_float.md line 312. -/
abbrev FLT_BAR_BCAP (n : Nat) : Nat := 0xA1014 + 0x400 * n
/-- FLT_BAR_TLIM, 11_float.md line 318. -/
abbrev FLT_BAR_TLIM (n : Nat) : Nat := 0xA1018 + 0x400 * n
/-- FLT_BAR_THYST, 11_float.md line 325. -/
abbrev FLT_BAR_THYST (n : Nat) : Nat := 0xA101C + 0x400 * n
/-- FLT_BAR_MEAS, 11_float.md line 332. -/
abbrev FLT_BAR_MEAS (n : Nat) : Nat := 0xA1020 + 0x400 * n
/-- FLT_BAR_VLIM, 11_float.md line 341. -/
abbrev FLT_BAR_VLIM (n : Nat) : Nat := 0xA1024 + 0x400 * n
/-- FLT_BAR_RLIM, 11_float.md line 348. -/
abbrev FLT_BAR_RLIM (n : Nat) : Nat := 0xA1028 + 0x400 * n
/-- FLT_BAR_POS, 11_float.md line 355. -/
abbrev FLT_BAR_POS (n : Nat) : Nat := 0xA1040 + 0x400 * n
/-- FLT_BAR_STATE, 11_float.md line 361. -/
abbrev FLT_BAR_STATE (n : Nat) : Nat := 0xA1044 + 0x400 * n
/-- FLT_BAR_TOK, 11_float.md line 370. -/
abbrev FLT_BAR_TOK (n : Nat) : Nat := 0xA1048 + 0x400 * n
/-- FLT_BAR_ENERGY, 11_float.md line 377. -/
abbrev FLT_BAR_ENERGY (n : Nat) : Nat := 0xA1050 + 0x400 * n
/-- FLT_BAR_HOURS, 11_float.md line 383. -/
abbrev FLT_BAR_HOURS (n : Nat) : Nat := 0xA1058 + 0x400 * n
/-- FLT_BAR_STAT, 11_float.md line 389. -/
abbrev FLT_BAR_STAT (n : Nat) : Nat := 0xA1060 + 0x400 * n
/-- FLT_BAR_OCC, 11_float.md line 409. -/
abbrev FLT_BAR_OCC (n : Nat) (i : Nat) : Nat := 0xA1064 + 0x400 * n + 0x4 * i
/-- FLT_PROG_ADDR, 11_float.md line 415. -/
abbrev FLT_PROG_ADDR (n : Nat) (i : Nat) : Nat := 0xA1100 + 0x400 * n + 0x10 * i
/-- FLT_PROG_START, 11_float.md line 423. -/
abbrev FLT_PROG_START (n : Nat) (i : Nat) : Nat := 0xA1108 + 0x400 * n + 0x10 * i
/-- FLT_PROG_SHAPE, 11_float.md line 429. -/
abbrev FLT_PROG_SHAPE (n : Nat) (i : Nat) : Nat := 0xA110C + 0x400 * n + 0x10 * i
/-- MOT_COAT_CFG, 12_motion.md line 247. -/
abbrev MOT_COAT_CFG : Nat := 0xB0000
/-- MOT_GRP_CFG, 12_motion.md line 254. -/
abbrev MOT_GRP_CFG (n : Nat) : Nat := 0xB0010 + 0x4 * n
/-- MOT_LIMMAP, 12_motion.md line 264. -/
abbrev MOT_LIMMAP (n : Nat) : Nat := 0xB0100 + 0x4 * n
/-- MOT_CHAT, 12_motion.md line 275. -/
abbrev MOT_CHAT : Nat := 0xB0180
/-- MOT_DIV_CFG, 12_motion.md line 283. -/
abbrev MOT_DIV_CFG (n : Nat) : Nat := 0xB0200 + 0x8 * n
/-- MOT_AXIS_CFG, 12_motion.md line 299. -/
abbrev MOT_AXIS_CFG (n : Nat) : Nat := 0xB1000 + 0x100 * n
/-- MOT_AXIS_VMAX, 12_motion.md line 315. -/
abbrev MOT_AXIS_VMAX (n : Nat) : Nat := 0xB1004 + 0x100 * n
/-- MOT_AXIS_ACC, 12_motion.md line 322. -/
abbrev MOT_AXIS_ACC (n : Nat) : Nat := 0xB1008 + 0x100 * n
/-- MOT_AXIS_DEC, 12_motion.md line 322. -/
abbrev MOT_AXIS_DEC (n : Nat) : Nat := 0xB100C + 0x100 * n
/-- MOT_AXIS_JERK, 12_motion.md line 328. -/
abbrev MOT_AXIS_JERK (n : Nat) : Nat := 0xB1010 + 0x100 * n
/-- MOT_AXIS_EMDEC, 12_motion.md line 334. -/
abbrev MOT_AXIS_EMDEC (n : Nat) : Nat := 0xB1014 + 0x100 * n
/-- MOT_AXIS_SVC, 12_motion.md line 340. -/
abbrev MOT_AXIS_SVC (n : Nat) : Nat := 0xB1018 + 0x100 * n
/-- MOT_AXIS_SCALE, 12_motion.md line 347. -/
abbrev MOT_AXIS_SCALE (n : Nat) : Nat := 0xB101C + 0x100 * n
/-- MOT_AXIS_STALL, 12_motion.md line 353. -/
abbrev MOT_AXIS_STALL (n : Nat) : Nat := 0xB1020 + 0x100 * n
/-- MOT_AXIS_HOMEV, 12_motion.md line 361. -/
abbrev MOT_AXIS_HOMEV (n : Nat) : Nat := 0xB1024 + 0x100 * n
/-- MOT_AXIS_HOMEPOS, 12_motion.md line 368. -/
abbrev MOT_AXIS_HOMEPOS (n : Nat) : Nat := 0xB1028 + 0x100 * n
/-- MOT_AXIS_HOMEBACK, 12_motion.md line 374. -/
abbrev MOT_AXIS_HOMEBACK (n : Nat) : Nat := 0xB102C + 0x100 * n
/-- MOT_AXIS_CMP, 12_motion.md line 381. -/
abbrev MOT_AXIS_CMP (n : Nat) : Nat := 0xB1030 + 0x100 * n
/-- MOT_AXIS_POS, 12_motion.md line 393. -/
abbrev MOT_AXIS_POS (n : Nat) : Nat := 0xB1040 + 0x100 * n
/-- MOT_AXIS_MSTAT, 12_motion.md line 399. -/
abbrev MOT_AXIS_MSTAT (n : Nat) : Nat := 0xB1044 + 0x100 * n
/-- MOT_AXIS_DEV, 12_motion.md line 410. -/
abbrev MOT_AXIS_DEV (n : Nat) : Nat := 0xB1048 + 0x100 * n
/-- MOT_AXIS_STAT, 12_motion.md line 416. -/
abbrev MOT_AXIS_STAT (n : Nat) : Nat := 0xB104C + 0x100 * n
/-- MOT_AXIS_OCC, 12_motion.md line 431. -/
abbrev MOT_AXIS_OCC (n : Nat) : Nat := 0xB1050 + 0x100 * n
/-- ENC_CFG, 12_motion.md line 437. -/
abbrev ENC_CFG (n : Nat) : Nat := 0xC1000 + 0x40 * n
/-- ENC_CHK, 12_motion.md line 451. -/
abbrev ENC_CHK (n : Nat) : Nat := 0xC1004 + 0x40 * n
/-- ENC_QCFG, 12_motion.md line 458. -/
abbrev ENC_QCFG (n : Nat) : Nat := 0xC1008 + 0x40 * n
/-- ENC_WIN, 12_motion.md line 465. -/
abbrev ENC_WIN (n : Nat) : Nat := 0xC100C + 0x40 * n
/-- ENC_POS, 12_motion.md line 472. -/
abbrev ENC_POS (n : Nat) : Nat := 0xC1010 + 0x40 * n
/-- ENC_HPOS, 12_motion.md line 472. -/
abbrev ENC_HPOS (n : Nat) : Nat := 0xC1014 + 0x40 * n
/-- ENC_SPEED, 12_motion.md line 472. -/
abbrev ENC_SPEED (n : Nat) : Nat := 0xC1018 + 0x40 * n
/-- ENC_IDXPOS, 12_motion.md line 472. -/
abbrev ENC_IDXPOS (n : Nat) : Nat := 0xC101C + 0x40 * n
/-- ENC_STAT, 12_motion.md line 478. -/
abbrev ENC_STAT (n : Nat) : Nat := 0xC1020 + 0x40 * n
/-- ENC_OCC, 12_motion.md line 491. -/
abbrev ENC_OCC (n : Nat) : Nat := 0xC1024 + 0x40 * n
/-- ENC_QERRS, 12_motion.md line 497. -/
abbrev ENC_QERRS (n : Nat) : Nat := 0xC1028 + 0x40 * n
/-- LED_CFG, 13_illumination.md line 73. -/
abbrev LED_CFG : Nat := 0xD0000
/-- LED_THR, 13_illumination.md line 81. -/
abbrev LED_THR : Nat := 0xD0004
/-- LED_GRP_DRIVE, 13_illumination.md line 89. -/
abbrev LED_GRP_DRIVE (n : Nat) : Nat := 0xD0100 + 0x40 * n
/-- LED_GRP_FLASH, 13_illumination.md line 100. -/
abbrev LED_GRP_FLASH (n : Nat) : Nat := 0xD0104 + 0x40 * n
/-- LED_GRP_CTX, 13_illumination.md line 107. -/
abbrev LED_GRP_CTX (n : Nat) : Nat := 0xD0108 + 0x40 * n
/-- LED_GRP_TC, 13_illumination.md line 114. -/
abbrev LED_GRP_TC (n : Nat) : Nat := 0xD010C + 0x40 * n
/-- LED_GRP_DISS, 13_illumination.md line 121. -/
abbrev LED_GRP_DISS (n : Nat) : Nat := 0xD0110 + 0x40 * n
/-- LED_GRP_DCAP, 13_illumination.md line 129. -/
abbrev LED_GRP_DCAP (n : Nat) : Nat := 0xD0114 + 0x40 * n
/-- LED_GRP_LEVEL, 13_illumination.md line 136. -/
abbrev LED_GRP_LEVEL (n : Nat) : Nat := 0xD0118 + 0x40 * n
/-- LED_GRP_STAT, 13_illumination.md line 143. -/
abbrev LED_GRP_STAT (n : Nat) : Nat := 0xD011C + 0x40 * n
/-- LED_CH_VAL, 13_illumination.md line 153. -/
abbrev LED_CH_VAL (n : Nat) : Nat := 0xD0400 + 0x10 * n
/-- LED_CH_MEAS, 13_illumination.md line 160. -/
abbrev LED_CH_MEAS (n : Nat) : Nat := 0xD0404 + 0x10 * n
/-- LED_CH_STAT, 13_illumination.md line 167. -/
abbrev LED_CH_STAT (n : Nat) : Nat := 0xD0408 + 0x10 * n
/-- DMC_CFG, 14_memory.md line 191. -/
abbrev DMC_CFG : Nat := 0xE0000
/-- DMC_STATE, 14_memory.md line 203. -/
abbrev DMC_STATE : Nat := 0xE0004
/-- DMC_WQ, 14_memory.md line 213. -/
abbrev DMC_WQ : Nat := 0xE0010
/-- DMC_SCRUB, 14_memory.md line 224. -/
abbrev DMC_SCRUB : Nat := 0xE0014
/-- DMC_LP, 14_memory.md line 233. -/
abbrev DMC_LP : Nat := 0xE0018
/-- DMC_DEV_BASE, 14_memory.md line 241. -/
abbrev DMC_DEV_BASE : Nat := 0xE0020
/-- DMC_DEV_SIZE, 14_memory.md line 249. -/
abbrev DMC_DEV_SIZE : Nat := 0xE0028
/-- DMC_ECC_STAT, 14_memory.md line 256. -/
abbrev DMC_ECC_STAT : Nat := 0xE0040
/-- DMC_ECC_ADDR, 14_memory.md line 268. -/
abbrev DMC_ECC_ADDR : Nat := 0xE0048
/-- DMC_WQ_SNAP, 14_memory.md line 277. -/
abbrev DMC_WQ_SNAP : Nat := 0xE0050
/-- DMC_WQ_CNT, 14_memory.md line 284. -/
abbrev DMC_WQ_CNT (n : Nat) (i : Nat) : Nat := 0xE0060 + 0x20 * n + 0x4 * i
/-- DMC_WIN_STAT, 14_memory.md line 290. -/
abbrev DMC_WIN_STAT : Nat := 0xE00A0
/-- DMC_SRAM_STAT, 14_memory.md line 298. -/
abbrev DMC_SRAM_STAT : Nat := 0xE00A4
/-- DMC_DIAG, 14_memory.md line 310. -/
abbrev DMC_DIAG : Nat := 0xE00B0
/-- DMC_PORT_LAT, 14_memory.md line 321. -/
abbrev DMC_PORT_LAT (n : Nat) : Nat := 0xE0100 + 0x10 * n
/-- DMC_PORT_MAX, 14_memory.md line 328. -/
abbrev DMC_PORT_MAX (n : Nat) : Nat := 0xE0104 + 0x10 * n
/-- DMC_PORT_STAT, 14_memory.md line 335. -/
abbrev DMC_PORT_STAT (n : Nat) : Nat := 0xE0108 + 0x10 * n
/-- NVS_CFG, 15_record_store.md line 263. -/
abbrev NVS_CFG : Nat := 0xF0000
/-- NVS_STAGE, 15_record_store.md line 272. -/
abbrev NVS_STAGE : Nat := 0xF0004
/-- NVS_GEOM, 15_record_store.md line 280. -/
abbrev NVS_GEOM : Nat := 0xF0008
/-- NVS_SEQ, 15_record_store.md line 290. -/
abbrev NVS_SEQ : Nat := 0xF0010
/-- NVS_FILL, 15_record_store.md line 297. -/
abbrev NVS_FILL : Nat := 0xF0018
/-- NVS_STAT, 15_record_store.md line 305. -/
abbrev NVS_STAT : Nat := 0xF0020
/-- NVS_OCC, 15_record_store.md line 320. -/
abbrev NVS_OCC (n : Nat) : Nat := 0xF0024 + 0x4 * n
/-- NVS_PLANE, 15_record_store.md line 326. -/
abbrev NVS_PLANE (n : Nat) : Nat := 0xF1000 + 0x8 * n
/-- SKM_STAT, 15_record_store.md line 337. -/
abbrev SKM_STAT : Nat := 0x100000
/-- SKM_SLOTS, 15_record_store.md line 349. -/
abbrev SKM_SLOTS : Nat := 0x100004
/-- EVR_CFG, 16_event_recorder.md line 118. -/
abbrev EVR_CFG : Nat := 0x110000
/-- EVR_SNAP, 16_event_recorder.md line 127. -/
abbrev EVR_SNAP : Nat := 0x110004
/-- EVR_CNT, 16_event_recorder.md line 134. -/
abbrev EVR_CNT (n : Nat) : Nat := 0x110010 + 0x4 * n
/-- EVR_SERIAL, 16_event_recorder.md line 140. -/
abbrev EVR_SERIAL : Nat := 0x110030
/-- EVR_OLDEST, 16_event_recorder.md line 146. -/
abbrev EVR_OLDEST : Nat := 0x110038
/-- EVR_FILL, 16_event_recorder.md line 152. -/
abbrev EVR_FILL : Nat := 0x110040
/-- EVR_STAT, 16_event_recorder.md line 161. -/
abbrev EVR_STAT : Nat := 0x110048
/-- EVR_LIMIT, 16_event_recorder.md line 172. -/
abbrev EVR_LIMIT (n : Nat) : Nat := 0x111000 + 0x4 * n
/-- TIM_LATCH, 17_time.md line 158. -/
abbrev TIM_LATCH : Nat := 0x120000
/-- TIM_VAL, 17_time.md line 165. -/
abbrev TIM_VAL (n : Nat) (i : Nat) : Nat := 0x120010 + 0x10 * n + 0x4 * i
/-- TIM_TICK, 17_time.md line 171. -/
abbrev TIM_TICK : Nat := 0x120050
/-- TIM_SETVAL, 17_time.md line 177. -/
abbrev TIM_SETVAL (n : Nat) : Nat := 0x120060 + 0x4 * n
/-- TIM_SETCTL, 17_time.md line 183. -/
abbrev TIM_SETCTL : Nat := 0x120070
/-- TIM_TB3, 17_time.md line 191. -/
abbrev TIM_TB3 : Nat := 0x120080
/-- TIM_STAT, 17_time.md line 201. -/
abbrev TIM_STAT : Nat := 0x120084
/-- TIM_PHASE, 17_time.md line 213. -/
abbrev TIM_PHASE : Nat := 0x120088
/-- PTP_TSQ_SNAP, 17_time.md line 222. -/
abbrev PTP_TSQ_SNAP : Nat := 0x130000
/-- PTP_TSQ_CNT, 17_time.md line 229. -/
abbrev PTP_TSQ_CNT (n : Nat) (i : Nat) : Nat := 0x130010 + 0x20 * n + 0x4 * i
/-- PTP_INST_CFG, 17_time.md line 235. -/
abbrev PTP_INST_CFG (n : Nat) : Nat := 0x130100 + 0x20 * n
/-- PTP_INST_SERVO, 17_time.md line 247. -/
abbrev PTP_INST_SERVO (n : Nat) : Nat := 0x130104 + 0x20 * n
/-- PTP_INST_LIM, 17_time.md line 254. -/
abbrev PTP_INST_LIM (n : Nat) : Nat := 0x130108 + 0x20 * n
/-- PTP_INST_STAT, 17_time.md line 263. -/
abbrev PTP_INST_STAT (n : Nat) : Nat := 0x13010C + 0x20 * n
/-- PTP_INST_OFS, 17_time.md line 276. -/
abbrev PTP_INST_OFS (n : Nat) : Nat := 0x130110 + 0x20 * n
/-- PTP_INST_ADJ, 17_time.md line 276. -/
abbrev PTP_INST_ADJ (n : Nat) : Nat := 0x130114 + 0x20 * n
/-- PTP_INST_RATE, 17_time.md line 276. -/
abbrev PTP_INST_RATE (n : Nat) : Nat := 0x130118 + 0x20 * n
/-- PTP_PORT_CFG, 17_time.md line 282. -/
abbrev PTP_PORT_CFG (n : Nat) : Nat := 0x130200 + 0x40 * n
/-- PTP_PORT_STAT, 17_time.md line 294. -/
abbrev PTP_PORT_STAT (n : Nat) : Nat := 0x130204 + 0x40 * n
/-- PTP_PORT_RX, 17_time.md line 306. -/
abbrev PTP_PORT_RX (n : Nat) : Nat := 0x130208 + 0x40 * n
/-- THM_READ, 18_thermal_power.md line 137. -/
abbrev THM_READ (n : Nat) : Nat := 0x140000 + 0x4 * n
/-- THM_LIM, 18_thermal_power.md line 148. -/
abbrev THM_LIM (n : Nat) : Nat := 0x140400 + 0x4 * n
/-- THM_CFG, 18_thermal_power.md line 163. -/
abbrev THM_CFG : Nat := 0x140800
/-- THM_THR, 18_thermal_power.md line 172. -/
abbrev THM_THR : Nat := 0x140804
/-- THM_CLASS, 18_thermal_power.md line 180. -/
abbrev THM_CLASS : Nat := 0x140808
/-- THM_STATE, 18_thermal_power.md line 189. -/
abbrev THM_STATE : Nat := 0x14080C
/-- THM_HLEVEL, 18_thermal_power.md line 199. -/
abbrev THM_HLEVEL (n : Nat) : Nat := 0x140810 + 0x4 * n
/-- THM_STAT, 18_thermal_power.md line 206. -/
abbrev THM_STAT : Nat := 0x140820
/-- THM_LAST, 18_thermal_power.md line 217. -/
abbrev THM_LAST : Nat := 0x140824
/-- THM_BRD, 18_thermal_power.md line 226. -/
abbrev THM_BRD (n : Nat) : Nat := 0x140900 + 0x4 * n
/-- PMU_CFG, 18_thermal_power.md line 240. -/
abbrev PMU_CFG : Nat := 0x150000
/-- PMU_CFG2, 18_thermal_power.md line 253. -/
abbrev PMU_CFG2 : Nat := 0x150004
/-- PMU_VID, 18_thermal_power.md line 261. -/
abbrev PMU_VID : Nat := 0x150008
/-- PMU_STAT, 18_thermal_power.md line 270. -/
abbrev PMU_STAT : Nat := 0x15000C
/-- CAL_CFG, 19_calibration.md line 91. -/
abbrev CAL_CFG : Nat := 0x160000
/-- CAL_DUE, 19_calibration.md line 102. -/
abbrev CAL_DUE (n : Nat) : Nat := 0x160010 + 0x4 * n
/-- CAL_STAT, 19_calibration.md line 108. -/
abbrev CAL_STAT : Nat := 0x160020
/-- CAL_LAST, 19_calibration.md line 119. -/
abbrev CAL_LAST : Nat := 0x160024
/-- CAL_RES, 19_calibration.md line 132. -/
abbrev CAL_RES (n : Nat) : Nat := 0x161000 + 0x10 * n
/-- CAL_QUAL, 19_calibration.md line 146. -/
abbrev CAL_QUAL (n : Nat) : Nat := 0x161004 + 0x10 * n
/-- CAL_TEMP, 19_calibration.md line 153. -/
abbrev CAL_TEMP (n : Nat) : Nat := 0x161008 + 0x10 * n
/-- CAL_TSTAT, 19_calibration.md line 160. -/
abbrev CAL_TSTAT (n : Nat) : Nat := 0x16100C + 0x10 * n
/-- BST_SUMMARY, 20_selftest_lifecycle.md line 240. -/
abbrev BST_SUMMARY : Nat := 0x170000
/-- BST_STAT, 20_selftest_lifecycle.md line 252. -/
abbrev BST_STAT : Nat := 0x170004
/-- BST_RUN, 20_selftest_lifecycle.md line 263. -/
abbrev BST_RUN : Nat := 0x170008
/-- BST_UNIT, 20_selftest_lifecycle.md line 270. -/
abbrev BST_UNIT (n : Nat) : Nat := 0x170100 + 0x10 * n
/-- BST_RPR_CFG, 20_selftest_lifecycle.md line 278. -/
abbrev BST_RPR_CFG : Nat := 0x178000
/-- BST_RPR_ARR, 20_selftest_lifecycle.md line 286. -/
abbrev BST_RPR_ARR (n : Nat) : Nat := 0x178100 + 0x4 * n
/-- LCS_STATE, 20_selftest_lifecycle.md line 296. -/
abbrev LCS_STATE : Nat := 0x180000
/-- LCS_ID, 20_selftest_lifecycle.md line 308. -/
abbrev LCS_ID : Nat := 0x180008
/-- LCS_CTRL, 20_selftest_lifecycle.md line 314. -/
abbrev LCS_CTRL : Nat := 0x180010
/-- LCS_STAT, 20_selftest_lifecycle.md line 322. -/
abbrev LCS_STAT : Nat := 0x180014
/-- The MSI-X table, HIF offset 0x8000, 256 entries of four words (03_host_rings.md, BAR table). -/
abbrev MSIX_TABLE (n : Nat) (i : Nat) : Nat := 0x18000 + 0x10 * n + 0x4 * i
/-- The MSI-X pending-bit array, HIF offset 0x9000, 32 bytes. -/
abbrev MSIX_PBA (n : Nat) : Nat := 0x19000 + 0x4 * n

end Reg

namespace F

abbrev SYS_TICK_PERIOD : Fld := ⟨0, 2⟩
abbrev SYS_TICK_SLACK_WARN : Fld := ⟨8, 7⟩
abbrev SYS_TICK_ACT_PERIOD : Fld := ⟨0, 2⟩
abbrev SYS_TICK_ACT_SLACK_WARN : Fld := ⟨8, 7⟩
abbrev SYS_SLACK_MIN_SLACK : Fld := ⟨0, 16⟩
abbrev SYS_SLACK_LAST_SLACK : Fld := ⟨16, 16⟩
abbrev SYS_LATE_TICK_LATE : Fld := ⟨0, 1⟩
abbrev SYS_LATE_SLACK_LOW : Fld := ⟨1, 1⟩
abbrev SYS_LATE_LOW_COUNT : Fld := ⟨4, 12⟩
abbrev SYS_LATE_LATE_COUNT : Fld := ⟨16, 16⟩
abbrev SYS_SLACK_REARM_REARM : Fld := ⟨0, 25⟩
abbrev SYS_ABORT_REQ : Fld := ⟨0, 1⟩
abbrev SYS_ABORT_RELEASE : Fld := ⟨1, 1⟩
abbrev SYS_ABORT_ACTIVE : Fld := ⟨4, 1⟩
abbrev SYS_ABORT_QUIESCENT : Fld := ⟨5, 1⟩
abbrev SYS_ABORT_AXES_REST : Fld := ⟨6, 1⟩
abbrev SYS_ABORT_SRC : Fld := ⟨8, 4⟩
abbrev SYS_ABORT_COUNT : Fld := ⟨16, 16⟩
abbrev SYS_BOOT_ADDR_ADDR : Fld := ⟨12, 52⟩
abbrev SYS_BOOT_CTRL_LOAD : Fld := ⟨0, 1⟩
abbrev SYS_BOOT_CTRL_RELEASE : Fld := ⟨1, 1⟩
abbrev SYS_BOOT_CTRL_LINK_MS : Fld := ⟨16, 16⟩
abbrev SYS_BOOT_STAT_FW_STATE : Fld := ⟨0, 3⟩
abbrev SYS_BOOT_STAT_RELEASED : Fld := ⟨4, 1⟩
abbrev SYS_BOOT_STAT_DONE : Fld := ⟨5, 1⟩
abbrev SYS_BOOT_STAT_LAST_RESET : Fld := ⟨8, 2⟩
abbrev SYS_BOOT_STAT_F0_ABSENT : Fld := ⟨10, 1⟩
abbrev SYS_BOOT_STAT_F1_ABSENT : Fld := ⟨11, 1⟩
abbrev SYS_RESET_KEY : Fld := ⟨0, 16⟩
abbrev SYS_OCC_CLR_BLOCK : Fld := ⟨0, 5⟩
abbrev SYS_OCC_CLR_ALL : Fld := ⟨8, 1⟩
abbrev SYS_MAP_STAT_REJECT : Fld := ⟨0, 1⟩
abbrev SYS_MAP_STAT_UNMAPPED : Fld := ⟨1, 1⟩
abbrev SYS_MAP_STAT_REJECT_CNT : Fld := ⟨16, 8⟩
abbrev SYS_MAP_STAT_UNMAPPED_CNT : Fld := ⟨24, 8⟩
abbrev SYS_MAP_LAST_OFFSET : Fld := ⟨0, 21⟩
abbrev SYS_MAP_LAST_SRC : Fld := ⟨24, 1⟩
abbrev SYS_MAP_LAST_KIND : Fld := ⟨31, 1⟩
abbrev HIF_WD_WD_MS : Fld := ⟨0, 16⟩
abbrev HIF_IRQ_VEC_ERR_VEC : Fld := ⟨0, 8⟩
abbrev HIF_IRQ_VEC_ABORT_VEC : Fld := ⟨8, 8⟩
abbrev RING_DB_BASE_ADDR : Fld := ⟨11, 53⟩
abbrev RING_DB_CFG_POLL_US : Fld := ⟨0, 7⟩
abbrev RING_DB_STAT_TORN : Fld := ⟨0, 1⟩
abbrev RING_DB_STAT_READ_ERR : Fld := ⟨1, 1⟩
abbrev RING_DB_STAT_TORN_COUNT : Fld := ⟨16, 16⟩
abbrev RING_CTRL_ENABLE : Fld := ⟨0, 1⟩
abbrev RING_CTRL_SIZE_LOG2 : Fld := ⟨4, 5⟩
abbrev RING_CTRL_VECTOR : Fld := ⟨16, 8⟩
abbrev RING_CTRL_CQ : Fld := ⟨24, 8⟩
abbrev RING_BASE_ADDR : Fld := ⟨12, 52⟩
abbrev RING_IDX_DEV_IDX : Fld := ⟨0, 32⟩
abbrev RING_IDX_HOST_SEEN : Fld := ⟨32, 32⟩
abbrev RING_ERR_STOPPED : Fld := ⟨0, 1⟩
abbrev RING_ERR_DROP : Fld := ⟨1, 1⟩
abbrev RING_ERR_CAUSE : Fld := ⟨4, 4⟩
abbrev RING_ERR_DROP_COUNT : Fld := ⟨16, 16⟩
abbrev RING_MOD_COUNT : Fld := ⟨0, 8⟩
abbrev RING_MOD_TIME_US : Fld := ⟨16, 10⟩
abbrev SEQ_DOM_STAT_MODE : Fld := ⟨0, 4⟩
abbrev SEQ_DOM_STAT_PREV_MODE : Fld := ⟨4, 4⟩
abbrev SEQ_DOM_STAT_CAUSE : Fld := ⟨8, 8⟩
abbrev SEQ_DOM_STAT_UNUSABLE : Fld := ⟨16, 1⟩
abbrev SEQ_DOM_STAT_TRANS_COUNT : Fld := ⟨20, 12⟩
abbrev SEQ_DOM_CFG_AUTO_RESUME : Fld := ⟨0, 1⟩
abbrev SEQ_DOM_CFG_RESUME_TICKS : Fld := ⟨8, 8⟩
abbrev SEQ_COMMIT_PENDING : Fld := ⟨0, 8⟩
abbrev SEQ_COMMIT_GEN : Fld := ⟨16, 16⟩
abbrev SEQ_COAT_COAT : Fld := ⟨0, 24⟩
abbrev SEQ_COAT_PHASE : Fld := ⟨24, 3⟩
abbrev SEQ_COAT_DEFINED : Fld := ⟨27, 3⟩
abbrev TRW_LOAD_SRV_LU : Fld := ⟨0, 16⟩
abbrev TRW_LOAD_TRW_LU : Fld := ⟨16, 16⟩
abbrev TRW_BUDGET_BUDGET_LU : Fld := ⟨0, 16⟩
abbrev TRW_BUDGET_GRADE_X : Fld := ⟨16, 1⟩
abbrev TRW_HEAD_CFG_SKY_EN : Fld := ⟨0, 1⟩
abbrev TRW_HEAD_CFG_ARC_EN : Fld := ⟨1, 1⟩
abbrev TRW_HEAD_CFG_WOBBLE_EN : Fld := ⟨2, 1⟩
abbrev TRW_HEAD_CFG_FOCUS_EN : Fld := ⟨3, 1⟩
abbrev TRW_HEAD_CFG_DEPTH : Fld := ⟨4, 2⟩
abbrev TRW_HEAD_RUNCFG_CORNER_TOL : Fld := ⟨0, 16⟩
abbrev TRW_HEAD_RUNCFG_GATE_MERGE : Fld := ⟨16, 8⟩
abbrev TRW_HEAD_GAP_MIN_RUN_GAP : Fld := ⟨0, 16⟩
abbrev TRW_HEAD_GAP_THROTTLE_DWELL : Fld := ⟨16, 16⟩
abbrev TRW_HEAD_LAG_ON_LAG : Fld := ⟨0, 20⟩
abbrev TRW_HEAD_LAG_OFF_LAG : Fld := ⟨0, 20⟩
abbrev TRW_HEAD_ZCFG_ZSTEP_MAX : Fld := ⟨0, 16⟩
abbrev TRW_HEAD_STATE_STATE : Fld := ⟨0, 4⟩
abbrev TRW_HEAD_STATE_STROKE : Fld := ⟨16, 13⟩
abbrev TRW_HEAD_STAT_GATE_CROWD : Fld := ⟨0, 1⟩
abbrev TRW_HEAD_STAT_GATE_CLAMP : Fld := ⟨1, 1⟩
abbrev TRW_HEAD_STAT_WOBBLE_CLIP : Fld := ⟨2, 1⟩
abbrev TRW_HEAD_STAT_FOCUS_LAG : Fld := ⟨3, 1⟩
abbrev TRW_HEAD_STAT_FEATURE_OFF : Fld := ⟨4, 1⟩
abbrev TRW_HEAD_STAT_STARVE : Fld := ⟨5, 1⟩
abbrev TRW_HEAD_STAT_FIELD_EXIT : Fld := ⟨6, 1⟩
abbrev TRW_HEAD_STAT_SPEED_CLAMP : Fld := ⟨7, 1⟩
abbrev TRW_HEAD_OCC_COUNT0 : Fld := ⟨0, 4⟩
abbrev TRW_HEAD_OCC_COUNT1 : Fld := ⟨4, 4⟩
abbrev TRW_HEAD_OCC_COUNT2 : Fld := ⟨8, 4⟩
abbrev TRW_HEAD_OCC_COUNT3 : Fld := ⟨12, 4⟩
abbrev TRW_HEAD_OCC_COUNT4 : Fld := ⟨16, 4⟩
abbrev TRW_HEAD_OCC_COUNT5 : Fld := ⟨20, 4⟩
abbrev TRW_HEAD_OCC_COUNT6 : Fld := ⟨24, 4⟩
abbrev TRW_HEAD_OCC_COUNT7 : Fld := ⟨28, 4⟩
abbrev TRW_CTX_BASE_ADDR : Fld := ⟨16, 21⟩
abbrev TRW_CTX_CFG_SIZE_LOG2 : Fld := ⟨0, 5⟩
abbrev TRW_CTX_STAT_CREDITS : Fld := ⟨0, 22⟩
abbrev TRW_CTX_RUNS_QUEUED : Fld := ⟨0, 16⟩
abbrev TRW_CTX_RUNS_SUBMITTED : Fld := ⟨16, 16⟩
abbrev OVL_CFG_STEAL_EN : Fld := ⟨0, 1⟩
abbrev OVL_CFG_AGE_PROMOTE : Fld := ⟨4, 12⟩
abbrev OVL_CFG_STEAL_MARGIN : Fld := ⟨16, 16⟩
abbrev OVL_PASS_HOLD_PASS : Fld := ⟨0, 16⟩
abbrev OVL_EXCL_DMIN : Fld := ⟨0, 24⟩
abbrev OVL_EXCL_PERSIST : Fld := ⟨24, 4⟩
abbrev OVL_EXCL_CLEAR_TICKS : Fld := ⟨28, 4⟩
abbrev OVL_CONE_CONE_LEN : Fld := ⟨0, 24⟩
abbrev OVL_CONE_TAN_TAN : Fld := ⟨0, 16⟩
abbrev OVL_ZONE_CFG_BANK : Fld := ⟨0, 1⟩
abbrev OVL_ZONE_CFG_COUNT : Fld := ⟨16, 9⟩
abbrev OVL_CASC_ID_MEMBER_ID : Fld := ⟨0, 2⟩
abbrev OVL_CASC_MEMBERS_MEMBERS : Fld := ⟨0, 4⟩
abbrev OVL_CASC_MEMBERS_PRESENT : Fld := ⟨4, 4⟩
abbrev OVL_SNAP_TAKE : Fld := ⟨0, 1⟩
abbrev OVL_STAT_CASC_MISS : Fld := ⟨0, 1⟩
abbrev OVL_STAT_STRANDED : Fld := ⟨1, 1⟩
abbrev OVL_STAT_PASS_LIMIT : Fld := ⟨2, 1⟩
abbrev OVL_OCC_CASC_MISS_CNT : Fld := ⟨0, 8⟩
abbrev OVL_OCC_STRANDED_CNT : Fld := ⟨8, 8⟩
abbrev OVL_OCC_PASS_LIMIT_CNT : Fld := ⟨16, 8⟩
abbrev OVL_HEAD_CLUSTER : Fld := ⟨0, 3⟩
abbrev OVL_HEAD_MEMBER : Fld := ⟨3, 1⟩
abbrev OVL_HEAD_STEAL_IN : Fld := ⟨4, 1⟩
abbrev OVL_HEAD_STEAL_OUT : Fld := ⟨5, 1⟩
abbrev OVL_HSTAT_BACKLOG : Fld := ⟨0, 24⟩
abbrev OVL_HSTAT_STATE : Fld := ⟨24, 4⟩
abbrev OVL_HCNT_YIELD_AGE : Fld := ⟨0, 16⟩
abbrev OVL_HCNT_STEALS_IN : Fld := ⟨16, 16⟩
abbrev SRV_SNAP_TAKE : Fld := ⟨0, 8⟩
abbrev SRV_AXIS_CFG_BQ1_EN : Fld := ⟨0, 1⟩
abbrev SRV_AXIS_CFG_BQ2_EN : Fld := ⟨1, 1⟩
abbrev SRV_AXIS_CFG_FF_EN : Fld := ⟨2, 1⟩
abbrev SRV_AXIS_CFG_FRIC_EN : Fld := ⟨3, 1⟩
abbrev SRV_AXIS_CFG_COG_SIZE : Fld := ⟨4, 2⟩
abbrev SRV_AXIS_CFG_COG_INTERP : Fld := ⟨6, 1⟩
abbrev SRV_AXIS_CFG_PM_TRIP : Fld := ⟨7, 1⟩
abbrev SRV_AXIS_CFG_CBANK : Fld := ⟨8, 1⟩
abbrev SRV_AXIS_INJ_VALUE : Fld := ⟨0, 24⟩
abbrev SRV_AXIS_SHIFT_PID_SH_KP : Fld := ⟨0, 5⟩
abbrev SRV_AXIS_SHIFT_PID_SH_KI : Fld := ⟨8, 5⟩
abbrev SRV_AXIS_SHIFT_PID_SH_KD : Fld := ⟨16, 5⟩
abbrev SRV_AXIS_ILIM_ILIM : Fld := ⟨0, 31⟩
abbrev SRV_AXIS_OUT_LIM_OUT_LIM : Fld := ⟨0, 23⟩
abbrev SRV_AXIS_FF_CFG_SH_KVF : Fld := ⟨0, 5⟩
abbrev SRV_AXIS_FF_CFG_SH_KAF : Fld := ⟨8, 5⟩
abbrev SRV_AXIS_FF_CFG_FRIC_SH : Fld := ⟨16, 4⟩
abbrev SRV_AXIS_FRIC_VBAND_VBAND : Fld := ⟨0, 24⟩
abbrev SRV_AXIS_BQ1_SHIFT_S_B0 : Fld := ⟨0, 5⟩
abbrev SRV_AXIS_BQ1_SHIFT_S_B1 : Fld := ⟨5, 5⟩
abbrev SRV_AXIS_BQ1_SHIFT_S_B2 : Fld := ⟨10, 5⟩
abbrev SRV_AXIS_BQ1_SHIFT_S_A1 : Fld := ⟨15, 5⟩
abbrev SRV_AXIS_BQ1_SHIFT_S_A2 : Fld := ⟨20, 5⟩
abbrev SRV_AXIS_BQ2_SHIFT_S_B0 : Fld := ⟨0, 5⟩
abbrev SRV_AXIS_BQ2_SHIFT_S_B1 : Fld := ⟨5, 5⟩
abbrev SRV_AXIS_BQ2_SHIFT_S_B2 : Fld := ⟨10, 5⟩
abbrev SRV_AXIS_BQ2_SHIFT_S_A1 : Fld := ⟨15, 5⟩
abbrev SRV_AXIS_BQ2_SHIFT_S_A2 : Fld := ⟨20, 5⟩
abbrev SRV_AXIS_PM_SHIFT_S_KC : Fld := ⟨0, 5⟩
abbrev SRV_AXIS_PM_SHIFT_S_KT : Fld := ⟨5, 5⟩
abbrev SRV_AXIS_PM_SHIFT_S_KB : Fld := ⟨10, 5⟩
abbrev SRV_AXIS_PM_SHIFT_S_KS : Fld := ⟨15, 5⟩
abbrev SRV_AXIS_PM_SHIFT_S_L : Fld := ⟨20, 5⟩
abbrev SRV_AXIS_PM_SHIFT_S_LV : Fld := ⟨25, 5⟩
abbrev SRV_AXIS_PM_LIMIT_PM_TOL : Fld := ⟨0, 24⟩
abbrev SRV_AXIS_PM_LIMIT_PM_COUNT : Fld := ⟨24, 8⟩
abbrev SRV_AXIS_STAT_ARITH_SAT : Fld := ⟨0, 1⟩
abbrev SRV_AXIS_STAT_I_SAT : Fld := ⟨1, 1⟩
abbrev SRV_AXIS_STAT_OUT_SAT : Fld := ⟨2, 1⟩
abbrev SRV_AXIS_STAT_PLAUS : Fld := ⟨3, 1⟩
abbrev SRV_AXIS_STAT_POS_MISS : Fld := ⟨4, 1⟩
abbrev SRV_AXIS_OCC_COUNT0 : Fld := ⟨0, 6⟩
abbrev SRV_AXIS_OCC_COUNT1 : Fld := ⟨6, 6⟩
abbrev SRV_AXIS_OCC_COUNT2 : Fld := ⟨12, 6⟩
abbrev SRV_AXIS_OCC_COUNT3 : Fld := ⟨18, 6⟩
abbrev SRV_AXIS_OCC_COUNT4 : Fld := ⟨24, 6⟩
abbrev SRV_AXIS_PMSAFE_SAFE_OUT_LIM : Fld := ⟨0, 23⟩
abbrev HLK_CASC_CFG_DEPART_MISSES : Fld := ⟨0, 4⟩
abbrev HLK_LANE_CFG_TX_SWING : Fld := ⟨0, 4⟩
abbrev HLK_LANE_CFG_TX_PRE : Fld := ⟨4, 3⟩
abbrev HLK_LANE_CFG_DFE_FREEZE : Fld := ⟨7, 1⟩
abbrev HLK_LANE_CFG_UP_OFS : Fld := ⟨8, 12⟩
abbrev HLK_LANE_CFG_UL_GUARD : Fld := ⟨20, 8⟩
abbrev HLK_LANE_CFG_LINK_CLEAR : Fld := ⟨28, 4⟩
abbrev HLK_LANE_CHK_POS_JUMP : Fld := ⟨0, 31⟩
abbrev HLK_LANE_STATE_STATE : Fld := ⟨0, 3⟩
abbrev HLK_LANE_STATE_FILL : Fld := ⟨8, 5⟩
abbrev HLK_LANE_LAT_DN_LAT : Fld := ⟨0, 20⟩
abbrev HLK_LANE_LAT_UP_OFS_MAX : Fld := ⟨20, 12⟩
abbrev HLK_LANE_LAT_CAL_DN_LAT : Fld := ⟨32, 20⟩
abbrev HLK_LANE_CAP_RTT : Fld := ⟨0, 16⟩
abbrev HLK_LANE_CAP_HEAD_DLY : Fld := ⟨16, 16⟩
abbrev HLK_LANE_CAP_HEAD_TURN : Fld := ⟨32, 16⟩
abbrev HLK_LANE_CAP_UP_TX : Fld := ⟨48, 16⟩
abbrev HLK_LANE_DFE_TAP0 : Fld := ⟨0, 6⟩
abbrev HLK_LANE_DFE_TAP1 : Fld := ⟨6, 6⟩
abbrev HLK_LANE_DFE_TAP2 : Fld := ⟨12, 6⟩
abbrev HLK_LANE_DFE_TAP3 : Fld := ⟨18, 6⟩
abbrev HLK_LANE_DFE_TAP4 : Fld := ⟨24, 6⟩
abbrev HLK_LANE_STAT_LOS : Fld := ⟨0, 1⟩
abbrev HLK_LANE_STAT_LOL : Fld := ⟨1, 1⟩
abbrev HLK_LANE_STAT_UL_LOST : Fld := ⟨2, 1⟩
abbrev HLK_LANE_STAT_CRC : Fld := ⟨3, 1⟩
abbrev HLK_LANE_STAT_SEQ : Fld := ⟨4, 1⟩
abbrev HLK_LANE_STAT_LATE : Fld := ⟨5, 1⟩
abbrev HLK_LANE_STAT_ELASTIC : Fld := ⟨6, 1⟩
abbrev HLK_LANE_STAT_SENSOR : Fld := ⟨7, 1⟩
abbrev HLK_LANE_STAT_EMIT_MISMATCH : Fld := ⟨8, 1⟩
abbrev HLK_LANE_STAT_LASER_EN_MISMATCH : Fld := ⟨9, 1⟩
abbrev HLK_LANE_STAT_LAT_SHIFT : Fld := ⟨10, 1⟩
abbrev HLK_LANE_STAT_DFE_LIMIT : Fld := ⟨11, 1⟩
abbrev HLK_LANE_STAT_LINK_FAIL : Fld := ⟨12, 1⟩
abbrev HLK_LANE_STAT_MARGIN_LOW : Fld := ⟨13, 1⟩
abbrev HLK_LANE_STAT_DEPART : Fld := ⟨14, 1⟩
abbrev HLK_LANE_STAT_HEAD_FAULT : Fld := ⟨15, 1⟩
abbrev HLK_LANE_OCC_COUNT0 : Fld := ⟨0, 4⟩
abbrev HLK_LANE_OCC_COUNT1 : Fld := ⟨4, 4⟩
abbrev HLK_LANE_OCC_COUNT2 : Fld := ⟨8, 4⟩
abbrev HLK_LANE_OCC_COUNT3 : Fld := ⟨12, 4⟩
abbrev HLK_LANE_OCC_COUNT4 : Fld := ⟨16, 4⟩
abbrev HLK_LANE_OCC_COUNT5 : Fld := ⟨20, 4⟩
abbrev HLK_LANE_OCC_COUNT6 : Fld := ⟨24, 4⟩
abbrev HLK_LANE_OCC_COUNT7 : Fld := ⟨28, 4⟩
abbrev HLK_LANE_LOSS_LOST_COUNT : Fld := ⟨0, 16⟩
abbrev HLK_LANE_LOSS_CV_COUNT : Fld := ⟨16, 16⟩
abbrev MPL_HM_BASE_ADDR : Fld := ⟨20, 17⟩
abbrev MPL_HM_ORG_X0 : Fld := ⟨0, 32⟩
abbrev MPL_HM_ORG_Y0 : Fld := ⟨32, 32⟩
abbrev MPL_HM_SIZE_WT : Fld := ⟨0, 12⟩
abbrev MPL_HM_SIZE_HT : Fld := ⟨12, 12⟩
abbrev MPL_HM_SIZE_CELL_LOG2 : Fld := ⟨24, 5⟩
abbrev MPL_HM_CFG_W_HIST : Fld := ⟨0, 9⟩
abbrev MPL_HM_CFG_W_CUR : Fld := ⟨16, 9⟩
abbrev MPL_HM_FOLD_DECAY : Fld := ⟨0, 9⟩
abbrev MPL_HM_FOLD_ESHIFT : Fld := ⟨16, 5⟩
abbrev MPL_HM_FOLD_CLEAR : Fld := ⟨31, 1⟩
abbrev MPL_HM_STAT_FOLD_BUSY : Fld := ⟨0, 1⟩
abbrev MPL_HM_STAT_ZERO_BUSY : Fld := ⟨1, 1⟩
abbrev MPL_HM_STAT_HM_SAT : Fld := ⟨8, 1⟩
abbrev MPL_HM_STAT_HM_SAT_CNT : Fld := ⟨16, 16⟩
abbrev MPL_HEAD_CFG_FB_SEL : Fld := ⟨0, 2⟩
abbrev MPL_HEAD_CFG_SPAT_CH : Fld := ⟨2, 1⟩
abbrev MPL_HEAD_CFG_OUTER_EN : Fld := ⟨3, 1⟩
abbrev MPL_HEAD_CFG_GEOM_SEL : Fld := ⟨4, 2⟩
abbrev MPL_HEAD_CFG_TRACE_EN : Fld := ⟨6, 1⟩
abbrev MPL_HEAD_CFG_TRACE_DIV : Fld := ⟨7, 3⟩
abbrev MPL_HEAD_CFG_MASK : Fld := ⟨16, 8⟩
abbrev MPL_HEAD_CFG_MIN_LIT : Fld := ⟨24, 7⟩
abbrev MPL_HEAD_DARK_DARK_A : Fld := ⟨0, 16⟩
abbrev MPL_HEAD_DARK_DARK_B : Fld := ⟨16, 16⟩
abbrev MPL_HEAD_SPAT_SPAT_THR : Fld := ⟨0, 16⟩
abbrev MPL_HEAD_PGAIN_KP_P : Fld := ⟨0, 16⟩
abbrev MPL_HEAD_PGAIN_KI_P : Fld := ⟨16, 16⟩
abbrev MPL_HEAD_PSHIFT_SH_P : Fld := ⟨0, 5⟩
abbrev MPL_HEAD_PSHIFT_SH_I : Fld := ⟨8, 5⟩
abbrev MPL_HEAD_FF_FF_GAIN : Fld := ⟨0, 16⟩
abbrev MPL_HEAD_FF_FF_LIM : Fld := ⟨16, 11⟩
abbrev MPL_HEAD_FFBASE_FF_BASE : Fld := ⟨0, 16⟩
abbrev MPL_HEAD_OUTER_KO : Fld := ⟨0, 16⟩
abbrev MPL_HEAD_OUTER_SH_O : Fld := ⟨16, 5⟩
abbrev MPL_HEAD_GTGT_G_TGT : Fld := ⟨0, 16⟩
abbrev MPL_HEAD_GTGT_TRIM_LIM : Fld := ⟨16, 15⟩
abbrev MPL_HEAD_REFSTEP_REF_STEP : Fld := ⟨0, 16⟩
abbrev MPL_HEAD_REFSTEP_OUTER_AGE : Fld := ⟨16, 16⟩
abbrev MPL_HEAD_BURST_BASE_ADDR : Fld := ⟨18, 19⟩
abbrev MPL_HEAD_BURST_TRIG_TRG_PEAK : Fld := ⟨0, 1⟩
abbrev MPL_HEAD_BURST_TRIG_TRG_SPAT : Fld := ⟨1, 1⟩
abbrev MPL_HEAD_BURST_TRIG_TRG_BAND : Fld := ⟨2, 1⟩
abbrev MPL_HEAD_BURST_TRIG_SPAT_N : Fld := ⟨8, 8⟩
abbrev MPL_HEAD_BURST_TRIG_PEAK_THR : Fld := ⟨16, 16⟩
abbrev MPL_HEAD_BAND_BAND_TICKS : Fld := ⟨0, 16⟩
abbrev MPL_HEAD_LOOP_REF : Fld := ⟨0, 16⟩
abbrev MPL_HEAD_LOOP_TRIM : Fld := ⟨16, 16⟩
abbrev MPL_HEAD_BURST_STATE : Fld := ⟨0, 2⟩
abbrev MPL_HEAD_BURST_BURST_LOST : Fld := ⟨16, 16⟩
abbrev MPL_HEAD_STAT_PD_SAT : Fld := ⟨0, 1⟩
abbrev MPL_HEAD_STAT_FF_MISS : Fld := ⟨1, 1⟩
abbrev MPL_HEAD_STAT_HM_OUT : Fld := ⟨2, 1⟩
abbrev MPL_HEAD_STAT_STALE : Fld := ⟨3, 1⟩
abbrev MPL_HEAD_STAT_BAND_LONG : Fld := ⟨4, 1⟩
abbrev MPL_HEAD_STAT_BURST_DONE : Fld := ⟨5, 1⟩
abbrev MPL_HEAD_OCC_COUNT0 : Fld := ⟨0, 4⟩
abbrev MPL_HEAD_OCC_COUNT1 : Fld := ⟨4, 4⟩
abbrev MPL_HEAD_OCC_COUNT2 : Fld := ⟨8, 4⟩
abbrev MPL_HEAD_OCC_COUNT3 : Fld := ⟨12, 4⟩
abbrev MPL_HEAD_OCC_COUNT4 : Fld := ⟨16, 4⟩
abbrev MPL_HEAD_OCC_COUNT5 : Fld := ⟨20, 4⟩
abbrev CAM_CFG_ROLE : Fld := ⟨0, 1⟩
abbrev CAM_CFG_LANES : Fld := ⟨1, 2⟩
abbrev CAM_CFG_DT : Fld := ⟨3, 2⟩
abbrev CAM_CFG_STATS_EN : Fld := ⟨5, 1⟩
abbrev CAM_CFG_STATS_DIV : Fld := ⟨6, 3⟩
abbrev CAM_CFG_LAYER_CTX : Fld := ⟨12, 4⟩
abbrev CAM_SIZE_WIDTH : Fld := ⟨0, 13⟩
abbrev CAM_SIZE_HEIGHT : Fld := ⟨16, 13⟩
abbrev CAM_TIMING_PERIOD : Fld := ⟨0, 24⟩
abbrev CAM_TIMING_LEN : Fld := ⟨24, 4⟩
abbrev CAM_SCHED_SLOT0 : Fld := ⟨0, 4⟩
abbrev CAM_SCHED_SLOT1 : Fld := ⟨4, 4⟩
abbrev CAM_SCHED_SLOT2 : Fld := ⟨8, 4⟩
abbrev CAM_SCHED_SLOT3 : Fld := ⟨12, 4⟩
abbrev CAM_SCHED_SLOT4 : Fld := ⟨16, 4⟩
abbrev CAM_SCHED_SLOT5 : Fld := ⟨20, 4⟩
abbrev CAM_SCHED_SLOT6 : Fld := ⟨24, 4⟩
abbrev CAM_SCHED_SLOT7 : Fld := ⟨28, 4⟩
abbrev CAM_DEFECT_DEF_COUNT : Fld := ⟨0, 11⟩
abbrev CAM_DEFECT_DEF_THR : Fld := ⟨16, 12⟩
abbrev CAM_IMG_BASE_ADDR : Fld := ⟨26, 11⟩
abbrev CAM_STAT_SHORT : Fld := ⟨0, 1⟩
abbrev CAM_STAT_TRUNCATED : Fld := ⟨1, 1⟩
abbrev CAM_STAT_LINE_ERR : Fld := ⟨2, 1⟩
abbrev CAM_STAT_LOST : Fld := ⟨3, 1⟩
abbrev CAM_STAT_UNEXPECTED : Fld := ⟨4, 1⟩
abbrev CAM_STAT_TRIG_SKIP : Fld := ⟨5, 1⟩
abbrev CAM_STAT_ROI_CLIP : Fld := ⟨6, 1⟩
abbrev CAM_STAT_BLOB_OVF : Fld := ⟨7, 1⟩
abbrev CAM_STAT_HDR_ERR : Fld := ⟨8, 1⟩
abbrev CAM_STAT_LAYER_FAIL : Fld := ⟨9, 1⟩
abbrev CAM_OCC_COUNT0 : Fld := ⟨0, 3⟩
abbrev CAM_OCC_COUNT1 : Fld := ⟨3, 3⟩
abbrev CAM_OCC_COUNT2 : Fld := ⟨6, 3⟩
abbrev CAM_OCC_COUNT3 : Fld := ⟨9, 3⟩
abbrev CAM_OCC_COUNT4 : Fld := ⟨12, 3⟩
abbrev CAM_OCC_COUNT5 : Fld := ⟨15, 3⟩
abbrev CAM_OCC_COUNT6 : Fld := ⟨18, 3⟩
abbrev CAM_OCC_COUNT7 : Fld := ⟨21, 3⟩
abbrev CAM_OCC_COUNT8 : Fld := ⟨24, 3⟩
abbrev CAM_OCC_COUNT9 : Fld := ⟨27, 3⟩
abbrev CAM_OUT_OUTSTANDING : Fld := ⟨0, 2⟩
abbrev CAM_IMG_COAT : Fld := ⟨0, 24⟩
abbrev CAM_IMG_VALID : Fld := ⟨24, 1⟩
abbrev CAM_IMG_WIDTH : Fld := ⟨32, 13⟩
abbrev CAM_IMG_HEIGHT : Fld := ⟨48, 13⟩
abbrev CAM_CTX_EXP_EXP : Fld := ⟨0, 20⟩
abbrev CAM_CTX_EXP_HEAD : Fld := ⟨20, 5⟩
abbrev CAM_CTX_EXP_HEAD_EN : Fld := ⟨25, 1⟩
abbrev CAM_CTX_EXP_TRACK : Fld := ⟨26, 1⟩
abbrev CAM_CTX_EXP_SPAT_AREA : Fld := ⟨27, 5⟩
abbrev CAM_CTX_ROI_X0 : Fld := ⟨0, 12⟩
abbrev CAM_CTX_ROI_Y0 : Fld := ⟨16, 12⟩
abbrev CAM_CTX_RSIZE_W : Fld := ⟨0, 9⟩
abbrev CAM_CTX_RSIZE_H : Fld := ⟨16, 9⟩
abbrev CAM_CTX_PROC_BLACK : Fld := ⟨0, 12⟩
abbrev CAM_CTX_PROC_THR : Fld := ⟨12, 12⟩
abbrev CAM_CTX_PROC_GAIN : Fld := ⟨24, 8⟩
abbrev FLT_BAR_CFG_GROUP : Fld := ⟨0, 2⟩
abbrev FLT_BAR_CFG_AXIS : Fld := ⟨2, 2⟩
abbrev FLT_BAR_CFG_EMITTERS : Fld := ⟨4, 11⟩
abbrev FLT_BAR_CFG_AUTO_MEAS : Fld := ⟨15, 1⟩
abbrev FLT_BAR_CFG_AUTO_HIDE : Fld := ⟨16, 1⟩
abbrev FLT_BAR_CFG_AUTH_REQ : Fld := ⟨17, 1⟩
abbrev FLT_BAR_CFG_COMP_BANK : Fld := ⟨18, 1⟩
abbrev FLT_BAR_CFG_HIDE_BANK : Fld := ⟨19, 1⟩
abbrev FLT_BAR_CFG_FIRE_DELAY : Fld := ⟨20, 8⟩
abbrev FLT_BAR_LEVSEL_LEVEL_BANK : Fld := ⟨0, 1⟩
abbrev FLT_BAR_EDUTY_E_DUTY : Fld := ⟨0, 11⟩
abbrev FLT_BAR_ECAP_E_CAP : Fld := ⟨0, 24⟩
abbrev FLT_BAR_BDUTY_B_DUTY : Fld := ⟨0, 21⟩
abbrev FLT_BAR_TLIM_SOFT : Fld := ⟨0, 16⟩
abbrev FLT_BAR_TLIM_HARD : Fld := ⟨16, 16⟩
abbrev FLT_BAR_THYST_HYST : Fld := ⟨0, 16⟩
abbrev FLT_BAR_MEAS_I_LO : Fld := ⟨0, 8⟩
abbrev FLT_BAR_MEAS_I_HI : Fld := ⟨8, 8⟩
abbrev FLT_BAR_MEAS_MEAS_TOL : Fld := ⟨16, 8⟩
abbrev FLT_BAR_VLIM_VF_MIN : Fld := ⟨0, 16⟩
abbrev FLT_BAR_VLIM_VF_MAX : Fld := ⟨16, 16⟩
abbrev FLT_BAR_RLIM_RS_MAX : Fld := ⟨0, 14⟩
abbrev FLT_BAR_STATE_STATE : Fld := ⟨0, 3⟩
abbrev FLT_BAR_STATE_LINE : Fld := ⟨16, 15⟩
abbrev FLT_BAR_TOK_B_LEVEL : Fld := ⟨0, 32⟩
abbrev FLT_BAR_TOK_B_COMMIT : Fld := ⟨32, 32⟩
abbrev FLT_BAR_STAT_MISSED : Fld := ⟨0, 1⟩
abbrev FLT_BAR_STAT_LINE_FAST : Fld := ⟨1, 1⟩
abbrev FLT_BAR_STAT_OVERRUN : Fld := ⟨2, 1⟩
abbrev FLT_BAR_STAT_INCOMPLETE : Fld := ⟨3, 1⟩
abbrev FLT_BAR_STAT_DUTY_CLIP : Fld := ⟨4, 1⟩
abbrev FLT_BAR_STAT_BAR_CLIP : Fld := ⟨5, 1⟩
abbrev FLT_BAR_STAT_HIDE_GAP : Fld := ⟨6, 1⟩
abbrev FLT_BAR_STAT_SOFT_LIM : Fld := ⟨7, 1⟩
abbrev FLT_BAR_STAT_HARD_LIM : Fld := ⟨8, 1⟩
abbrev FLT_BAR_STAT_NEW_DEFECT : Fld := ⟨9, 1⟩
abbrev FLT_BAR_STAT_AUTH_FAIL : Fld := ⟨10, 1⟩
abbrev FLT_BAR_STAT_MEAS_FAIL : Fld := ⟨11, 1⟩
abbrev FLT_BAR_STAT_NODATA : Fld := ⟨12, 1⟩
abbrev FLT_BAR_STAT_LATE_START : Fld := ⟨13, 1⟩
abbrev FLT_BAR_OCC_COUNT0 : Fld := ⟨0, 4⟩
abbrev FLT_BAR_OCC_COUNT1 : Fld := ⟨4, 4⟩
abbrev FLT_BAR_OCC_COUNT2 : Fld := ⟨8, 4⟩
abbrev FLT_BAR_OCC_COUNT3 : Fld := ⟨12, 4⟩
abbrev FLT_BAR_OCC_COUNT4 : Fld := ⟨16, 4⟩
abbrev FLT_BAR_OCC_COUNT5 : Fld := ⟨20, 4⟩
abbrev FLT_BAR_OCC_COUNT6 : Fld := ⟨24, 4⟩
abbrev FLT_BAR_OCC_COUNT7 : Fld := ⟨28, 4⟩
abbrev FLT_PROG_ADDR_ADDR : Fld := ⟨12, 25⟩
abbrev FLT_PROG_SHAPE_LINE_STEPS : Fld := ⟨0, 16⟩
abbrev FLT_PROG_SHAPE_LINES : Fld := ⟨16, 15⟩
abbrev FLT_PROG_SHAPE_DIR : Fld := ⟨31, 1⟩
abbrev MOT_COAT_CFG_GROUP : Fld := ⟨0, 2⟩
abbrev MOT_GRP_CFG_SAFE_EN : Fld := ⟨0, 1⟩
abbrev MOT_GRP_CFG_PASS_EN : Fld := ⟨1, 1⟩
abbrev MOT_GRP_CFG_PASS_ENC : Fld := ⟨4, 4⟩
abbrev MOT_LIMMAP_AXIS : Fld := ⟨0, 4⟩
abbrev MOT_LIMMAP_ROLE : Fld := ⟨4, 2⟩
abbrev MOT_LIMMAP_ACT_LOW : Fld := ⟨6, 1⟩
abbrev MOT_LIMMAP_DEB : Fld := ⟨8, 8⟩
abbrev MOT_CHAT_CHAT_N : Fld := ⟨0, 8⟩
abbrev MOT_CHAT_CHAT_WIN : Fld := ⟨8, 16⟩
abbrev MOT_DIV_CFG_SRC : Fld := ⟨0, 4⟩
abbrev MOT_DIV_CFG_MODE : Fld := ⟨4, 1⟩
abbrev MOT_DIV_CFG_EN : Fld := ⟨5, 1⟩
abbrev MOT_DIV_CFG_CAXIS : Fld := ⟨8, 4⟩
abbrev MOT_DIV_CFG_DIV_OVF : Fld := ⟨15, 1⟩
abbrev MOT_DIV_CFG_OVF_CNT : Fld := ⟨16, 8⟩
abbrev MOT_DIV_CFG_N : Fld := ⟨32, 16⟩
abbrev MOT_DIV_CFG_M : Fld := ⟨48, 16⟩
abbrev MOT_AXIS_CFG_STEP_W : Fld := ⟨0, 4⟩
abbrev MOT_AXIS_CFG_DIR_SETUP : Fld := ⟨4, 7⟩
abbrev MOT_AXIS_CFG_DIR_INV : Fld := ⟨11, 1⟩
abbrev MOT_AXIS_CFG_EN_LOW : Fld := ⟨12, 1⟩
abbrev MOT_AXIS_CFG_FB_EN : Fld := ⟨13, 1⟩
abbrev MOT_AXIS_CFG_FB_ENC : Fld := ⟨14, 4⟩
abbrev MOT_AXIS_CFG_STALL_ACT : Fld := ⟨18, 2⟩
abbrev MOT_AXIS_CFG_LIMIT_SAFE : Fld := ⟨20, 1⟩
abbrev MOT_AXIS_CFG_HOME_MODE : Fld := ⟨21, 2⟩
abbrev MOT_AXIS_CFG_HOME_DIR : Fld := ⟨23, 1⟩
abbrev MOT_AXIS_VMAX_V_MAX : Fld := ⟨0, 23⟩
abbrev MOT_AXIS_SVC_SVC_V : Fld := ⟨0, 16⟩
abbrev MOT_AXIS_SVC_CAL_JOG : Fld := ⟨16, 16⟩
abbrev MOT_AXIS_STALL_STALL_WIN : Fld := ⟨0, 16⟩
abbrev MOT_AXIS_STALL_STALL_TICKS : Fld := ⟨16, 8⟩
abbrev MOT_AXIS_HOMEV_HOME_V1 : Fld := ⟨0, 16⟩
abbrev MOT_AXIS_HOMEV_HOME_V2 : Fld := ⟨16, 16⟩
abbrev MOT_AXIS_HOMEBACK_BACK : Fld := ⟨0, 16⟩
abbrev MOT_AXIS_CMP_CMP_POS : Fld := ⟨0, 32⟩
abbrev MOT_AXIS_CMP_ARM : Fld := ⟨32, 1⟩
abbrev MOT_AXIS_CMP_SRC : Fld := ⟨33, 1⟩
abbrev MOT_AXIS_CMP_DIR : Fld := ⟨34, 1⟩
abbrev MOT_AXIS_CMP_PULSE_W : Fld := ⟨36, 12⟩
abbrev MOT_AXIS_CMP_INC : Fld := ⟨48, 16⟩
abbrev MOT_AXIS_MSTAT_STATE : Fld := ⟨0, 4⟩
abbrev MOT_AXIS_MSTAT_QUEUE : Fld := ⟨4, 5⟩
abbrev MOT_AXIS_MSTAT_HOMED : Fld := ⟨9, 1⟩
abbrev MOT_AXIS_MSTAT_DONE_SEQ : Fld := ⟨16, 8⟩
abbrev MOT_AXIS_MSTAT_THR_SCALE : Fld := ⟨24, 8⟩
abbrev MOT_AXIS_STAT_LIM_HIT : Fld := ⟨0, 1⟩
abbrev MOT_AXIS_STAT_CHAT_POS : Fld := ⟨1, 1⟩
abbrev MOT_AXIS_STAT_CHAT_NEG : Fld := ⟨2, 1⟩
abbrev MOT_AXIS_STAT_HOME_LIMIT : Fld := ⟨3, 1⟩
abbrev MOT_AXIS_STAT_STALL : Fld := ⟨4, 1⟩
abbrev MOT_AXIS_STAT_GEAR_LAG : Fld := ⟨5, 1⟩
abbrev MOT_AXIS_STAT_COMPARE_BEHIND : Fld := ⟨6, 1⟩
abbrev MOT_AXIS_STAT_CMP_FIRED : Fld := ⟨7, 1⟩
abbrev MOT_AXIS_STAT_RECOAT_BAD : Fld := ⟨8, 1⟩
abbrev MOT_AXIS_OCC_COUNT0 : Fld := ⟨0, 4⟩
abbrev MOT_AXIS_OCC_COUNT1 : Fld := ⟨4, 4⟩
abbrev MOT_AXIS_OCC_COUNT2 : Fld := ⟨8, 4⟩
abbrev MOT_AXIS_OCC_COUNT3 : Fld := ⟨12, 4⟩
abbrev MOT_AXIS_OCC_COUNT4 : Fld := ⟨16, 4⟩
abbrev MOT_AXIS_OCC_COUNT5 : Fld := ⟨20, 4⟩
abbrev MOT_AXIS_OCC_COUNT6 : Fld := ⟨24, 4⟩
abbrev MOT_AXIS_OCC_COUNT7 : Fld := ⟨28, 4⟩
abbrev ENC_CFG_MODE : Fld := ⟨0, 1⟩
abbrev ENC_CFG_INV : Fld := ⟨1, 1⟩
abbrev ENC_CFG_FILT : Fld := ⟨2, 3⟩
abbrev ENC_CFG_HYST : Fld := ⟨5, 4⟩
abbrev ENC_CFG_IDX_EN : Fld := ⟨9, 1⟩
abbrev ENC_CFG_SSI_BITS : Fld := ⟨10, 6⟩
abbrev ENC_CFG_SSI_GRAY : Fld := ⟨16, 1⟩
abbrev ENC_CFG_SSI_CLK : Fld := ⟨17, 7⟩
abbrev ENC_CFG_SSI_PAUSE : Fld := ⟨24, 8⟩
abbrev ENC_CHK_LINES : Fld := ⟨0, 24⟩
abbrev ENC_CHK_IDX_TOL : Fld := ⟨24, 8⟩
abbrev ENC_QCFG_QERR_MAX : Fld := ⟨0, 16⟩
abbrev ENC_QCFG_QERR_WIN : Fld := ⟨16, 16⟩
abbrev ENC_WIN_WIN_US : Fld := ⟨0, 14⟩
abbrev ENC_STAT_QERR : Fld := ⟨0, 1⟩
abbrev ENC_STAT_ENC_FAULT : Fld := ⟨1, 1⟩
abbrev ENC_STAT_SSI_ERR : Fld := ⟨2, 1⟩
abbrev ENC_STAT_IDX_ERR : Fld := ⟨3, 1⟩
abbrev ENC_STAT_INVALID : Fld := ⟨16, 1⟩
abbrev ENC_STAT_DIR : Fld := ⟨17, 1⟩
abbrev ENC_OCC_COUNT0 : Fld := ⟨0, 8⟩
abbrev ENC_OCC_COUNT1 : Fld := ⟨8, 8⟩
abbrev ENC_OCC_COUNT2 : Fld := ⟨16, 8⟩
abbrev ENC_OCC_COUNT3 : Fld := ⟨24, 8⟩
abbrev LED_CFG_CAM0 : Fld := ⟨0, 3⟩
abbrev LED_CFG_CAM1 : Fld := ⟨8, 3⟩
abbrev LED_CFG_CAM2 : Fld := ⟨16, 3⟩
abbrev LED_CFG_CAM3 : Fld := ⟨24, 3⟩
abbrev LED_CFG_MODE0 : Fld := ⟨3, 2⟩
abbrev LED_CFG_MODE1 : Fld := ⟨11, 2⟩
abbrev LED_CFG_MODE2 : Fld := ⟨19, 2⟩
abbrev LED_CFG_MODE3 : Fld := ⟨27, 2⟩
abbrev LED_THR_OPEN_V : Fld := ⟨0, 8⟩
abbrev LED_THR_SHORT_DV : Fld := ⟨8, 8⟩
abbrev LED_THR_SHORT_VON : Fld := ⟨16, 16⟩
abbrev LED_GRP_DRIVE_RANGE : Fld := ⟨0, 6⟩
abbrev LED_GRP_DRIVE_CH_EN : Fld := ⟨8, 6⟩
abbrev LED_GRP_DRIVE_TSRC : Fld := ⟨16, 8⟩
abbrev LED_GRP_FLASH_DELAY : Fld := ⟨0, 16⟩
abbrev LED_GRP_FLASH_WIDTH : Fld := ⟨16, 16⟩
abbrev LED_GRP_CTX_CTX_MASK : Fld := ⟨0, 16⟩
abbrev LED_GRP_TC_TC : Fld := ⟨0, 16⟩
abbrev LED_GRP_TC_T_REF : Fld := ⟨16, 16⟩
abbrev LED_GRP_DISS_RATE : Fld := ⟨0, 12⟩
abbrev LED_GRP_DISS_V_EST : Fld := ⟨12, 16⟩
abbrev LED_GRP_DCAP_DCAP : Fld := ⟨0, 24⟩
abbrev LED_GRP_LEVEL_LEVEL : Fld := ⟨0, 24⟩
abbrev LED_GRP_STAT_DISS_LIMIT : Fld := ⟨0, 1⟩
abbrev LED_GRP_STAT_TC_SENSOR : Fld := ⟨1, 1⟩
abbrev LED_GRP_STAT_DISS_CNT : Fld := ⟨16, 8⟩
abbrev LED_GRP_STAT_TC_CNT : Fld := ⟨24, 8⟩
abbrev LED_CH_VAL_VALUE : Fld := ⟨0, 10⟩
abbrev LED_CH_MEAS_V_ON : Fld := ⟨0, 16⟩
abbrev LED_CH_MEAS_ICUR : Fld := ⟨16, 16⟩
abbrev LED_CH_STAT_OPEN : Fld := ⟨0, 1⟩
abbrev LED_CH_STAT_SHORT : Fld := ⟨1, 1⟩
abbrev LED_CH_STAT_REG_LOW : Fld := ⟨2, 1⟩
abbrev LED_CH_STAT_COUNT0 : Fld := ⟨8, 8⟩
abbrev LED_CH_STAT_COUNT1 : Fld := ⟨16, 8⟩
abbrev LED_CH_STAT_COUNT2 : Fld := ⟨24, 8⟩
abbrev DMC_CFG_EN : Fld := ⟨0, 1⟩
abbrev DMC_CFG_SPEED : Fld := ⟨1, 4⟩
abbrev DMC_CFG_DENSITY : Fld := ⟨5, 2⟩
abbrev DMC_CFG_WIDTH : Fld := ⟨7, 2⟩
abbrev DMC_CFG_RANKS : Fld := ⟨9, 1⟩
abbrev DMC_CFG_MODULE : Fld := ⟨10, 2⟩
abbrev DMC_STATE_STATE : Fld := ⟨0, 3⟩
abbrev DMC_STATE_SIZE : Fld := ⟨8, 8⟩
abbrev DMC_STATE_DRAM_HOT : Fld := ⟨16, 1⟩
abbrev DMC_WQ_HIGH_WM : Fld := ⟨0, 7⟩
abbrev DMC_WQ_LOW_WM : Fld := ⟨8, 7⟩
abbrev DMC_WQ_YIELD : Fld := ⟨16, 4⟩
abbrev DMC_SCRUB_EN : Fld := ⟨0, 1⟩
abbrev DMC_SCRUB_HOURS : Fld := ⟨8, 8⟩
abbrev DMC_LP_SR_EN : Fld := ⟨0, 1⟩
abbrev DMC_LP_IDLE_US : Fld := ⟨16, 16⟩
abbrev DMC_DEV_BASE_ADDR : Fld := ⟨30, 7⟩
abbrev DMC_DEV_SIZE_SIZE_GIB : Fld := ⟨0, 7⟩
abbrev DMC_ECC_STAT_CE : Fld := ⟨0, 1⟩
abbrev DMC_ECC_STAT_UE : Fld := ⟨1, 1⟩
abbrev DMC_ECC_STAT_RANGE : Fld := ⟨2, 1⟩
abbrev DMC_ECC_STAT_CE_CNT : Fld := ⟨8, 8⟩
abbrev DMC_ECC_STAT_UE_CNT : Fld := ⟨16, 8⟩
abbrev DMC_ECC_STAT_RANGE_CNT : Fld := ⟨24, 8⟩
abbrev DMC_ECC_ADDR_LINE : Fld := ⟨6, 31⟩
abbrev DMC_ECC_ADDR_PORT : Fld := ⟨37, 4⟩
abbrev DMC_WQ_SNAP_TAKE : Fld := ⟨0, 2⟩
abbrev DMC_WIN_STAT_WR_DROP : Fld := ⟨0, 1⟩
abbrev DMC_WIN_STAT_DROP_CNT : Fld := ⟨16, 16⟩
abbrev DMC_SRAM_STAT_CE : Fld := ⟨0, 1⟩
abbrev DMC_SRAM_STAT_UE : Fld := ⟨1, 1⟩
abbrev DMC_SRAM_STAT_REGION : Fld := ⟨4, 4⟩
abbrev DMC_SRAM_STAT_CE_CNT : Fld := ⟨16, 8⟩
abbrev DMC_SRAM_STAT_UE_CNT : Fld := ⟨24, 8⟩
abbrev DMC_DIAG_EN : Fld := ⟨0, 1⟩
abbrev DMC_DIAG_LANE : Fld := ⟨8, 6⟩
abbrev DMC_DIAG_NEXT : Fld := ⟨16, 14⟩
abbrev DMC_PORT_LAT_LAT_NS : Fld := ⟨0, 16⟩
abbrev DMC_PORT_MAX_MAX_NS : Fld := ⟨0, 16⟩
abbrev DMC_PORT_STAT_LAT_MISS : Fld := ⟨0, 1⟩
abbrev DMC_PORT_STAT_UE : Fld := ⟨1, 1⟩
abbrev DMC_PORT_STAT_MISS_CNT : Fld := ⟨8, 8⟩
abbrev DMC_PORT_STAT_UE_CNT : Fld := ⟨16, 8⟩
abbrev NVS_CFG_SCRUB_DAYS : Fld := ⟨0, 8⟩
abbrev NVS_CFG_RELOC_BITS : Fld := ⟨8, 8⟩
abbrev NVS_CFG_WL_DELTA : Fld := ⟨16, 12⟩
abbrev NVS_STAGE_STAGE_MIB : Fld := ⟨0, 16⟩
abbrev NVS_STAGE_STAGE_HOLD : Fld := ⟨16, 8⟩
abbrev NVS_STAGE_STAGE_RESUME : Fld := ⟨24, 8⟩
abbrev NVS_GEOM_TARGETS : Fld := ⟨0, 5⟩
abbrev NVS_GEOM_LUNS : Fld := ⟨5, 2⟩
abbrev NVS_GEOM_PLANES : Fld := ⟨7, 2⟩
abbrev NVS_GEOM_BLOCKS : Fld := ⟨16, 16⟩
abbrev NVS_SEQ_FIRST_SEQ : Fld := ⟨0, 32⟩
abbrev NVS_SEQ_LAST_SEQ : Fld := ⟨32, 32⟩
abbrev NVS_FILL_FREE : Fld := ⟨0, 24⟩
abbrev NVS_FILL_STAGE_FILL : Fld := ⟨24, 7⟩
abbrev NVS_STAT_RETIRE : Fld := ⟨0, 1⟩
abbrev NVS_STAT_SPARE_LOW : Fld := ⟨1, 1⟩
abbrev NVS_STAT_RECORD_FULL : Fld := ⟨2, 1⟩
abbrev NVS_STAT_STAGE_HOLD : Fld := ⟨3, 1⟩
abbrev NVS_STAT_STAGE_LOST : Fld := ⟨4, 1⟩
abbrev NVS_STAT_UNCORR : Fld := ⟨5, 1⟩
abbrev NVS_STAT_RECOVERED : Fld := ⟨6, 1⟩
abbrev NVS_STAT_TABLE_LOST : Fld := ⟨7, 1⟩
abbrev NVS_STAT_CONFIG : Fld := ⟨8, 1⟩
abbrev NVS_OCC_COUNT0 : Fld := ⟨0, 4⟩
abbrev NVS_OCC_COUNT1 : Fld := ⟨4, 4⟩
abbrev NVS_OCC_COUNT2 : Fld := ⟨8, 4⟩
abbrev NVS_OCC_COUNT3 : Fld := ⟨12, 4⟩
abbrev NVS_OCC_COUNT4 : Fld := ⟨16, 4⟩
abbrev NVS_OCC_COUNT5 : Fld := ⟨20, 4⟩
abbrev NVS_OCC_COUNT6 : Fld := ⟨24, 4⟩
abbrev NVS_OCC_COUNT7 : Fld := ⟨28, 4⟩
abbrev NVS_PLANE_GOOD : Fld := ⟨0, 16⟩
abbrev NVS_PLANE_SPARE : Fld := ⟨16, 16⟩
abbrev NVS_PLANE_RETIRED : Fld := ⟨32, 16⟩
abbrev NVS_PLANE_RETIRING : Fld := ⟨48, 16⟩
abbrev SKM_STAT_VERIFY_FAIL : Fld := ⟨0, 1⟩
abbrev SKM_STAT_OUT_FULL : Fld := ⟨1, 1⟩
abbrev SKM_STAT_CORRUPT : Fld := ⟨2, 1⟩
abbrev SKM_STAT_VERIFY_CNT : Fld := ⟨8, 8⟩
abbrev SKM_STAT_FULL_CNT : Fld := ⟨16, 8⟩
abbrev SKM_STAT_CORRUPT_CNT : Fld := ⟨24, 8⟩
abbrev SKM_SLOTS_BUSY : Fld := ⟨0, 12⟩
abbrev EVR_CFG_RING_EN : Fld := ⟨0, 1⟩
abbrev EVR_CFG_FLUSH_MS : Fld := ⟨8, 8⟩
abbrev EVR_SNAP_TAKE : Fld := ⟨0, 1⟩
abbrev EVR_FILL_PINNED : Fld := ⟨0, 13⟩
abbrev EVR_FILL_STAGED : Fld := ⟨16, 9⟩
abbrev EVR_STAT_LOST : Fld := ⟨0, 1⟩
abbrev EVR_STAT_CLEARED : Fld := ⟨1, 1⟩
abbrev EVR_STAT_CLEAR_DENIED : Fld := ⟨2, 1⟩
abbrev EVR_STAT_DAMAGED : Fld := ⟨3, 1⟩
abbrev EVR_STAT_COUNT0 : Fld := ⟨16, 4⟩
abbrev EVR_STAT_COUNT1 : Fld := ⟨20, 4⟩
abbrev EVR_STAT_COUNT2 : Fld := ⟨24, 4⟩
abbrev EVR_STAT_COUNT3 : Fld := ⟨28, 4⟩
abbrev EVR_LIMIT_BURST : Fld := ⟨0, 4⟩
abbrev EVR_LIMIT_PER_MS : Fld := ⟨4, 16⟩
abbrev TIM_LATCH_TAKE : Fld := ⟨0, 1⟩
abbrev TIM_SETCTL_TB : Fld := ⟨0, 1⟩
abbrev TIM_SETCTL_GO : Fld := ⟨1, 1⟩
abbrev TIM_TB3_SRC : Fld := ⟨0, 1⟩
abbrev TIM_TB3_ROLE : Fld := ⟨1, 1⟩
abbrev TIM_TB3_SLEW : Fld := ⟨2, 8⟩
abbrev TIM_TB3_HOLD_MS : Fld := ⟨10, 14⟩
abbrev TIM_TB3_ACQ_S : Fld := ⟨24, 8⟩
abbrev TIM_STAT_ALIGNED : Fld := ⟨0, 1⟩
abbrev TIM_STAT_HOLD : Fld := ⟨1, 1⟩
abbrev TIM_STAT_ACQ_TIMEOUT : Fld := ⟨2, 1⟩
abbrev TIM_STAT_TICK_MISMATCH : Fld := ⟨3, 1⟩
abbrev TIM_STAT_ALIGN_LOST : Fld := ⟨4, 1⟩
abbrev TIM_STAT_COUNT0 : Fld := ⟨16, 4⟩
abbrev TIM_STAT_COUNT1 : Fld := ⟨20, 4⟩
abbrev TIM_STAT_COUNT2 : Fld := ⟨24, 4⟩
abbrev TIM_STAT_COUNT3 : Fld := ⟨28, 4⟩
abbrev TIM_PHASE_PHASE : Fld := ⟨0, 16⟩
abbrev PTP_TSQ_SNAP_TAKE : Fld := ⟨0, 2⟩
abbrev PTP_INST_CFG_EN : Fld := ⟨0, 1⟩
abbrev PTP_INST_CFG_PORTS : Fld := ⟨1, 2⟩
abbrev PTP_INST_CFG_SLAVE_ONLY : Fld := ⟨3, 1⟩
abbrev PTP_INST_CFG_DOMAIN : Fld := ⟨8, 8⟩
abbrev PTP_INST_CFG_PRIO1 : Fld := ⟨16, 8⟩
abbrev PTP_INST_CFG_PRIO2 : Fld := ⟨24, 8⟩
abbrev PTP_INST_SERVO_KP : Fld := ⟨0, 16⟩
abbrev PTP_INST_SERVO_KI : Fld := ⟨16, 16⟩
abbrev PTP_INST_LIM_ADJ_MAX : Fld := ⟨0, 19⟩
abbrev PTP_INST_LIM_STEP_EN : Fld := ⟨19, 1⟩
abbrev PTP_INST_LIM_LOCK_NS : Fld := ⟨20, 8⟩
abbrev PTP_INST_LIM_QUAL : Fld := ⟨28, 4⟩
abbrev PTP_INST_STAT_STATE : Fld := ⟨0, 3⟩
abbrev PTP_INST_STAT_STEPPED : Fld := ⟨8, 1⟩
abbrev PTP_INST_STAT_HOLDOVER : Fld := ⟨9, 1⟩
abbrev PTP_INST_STAT_PARENT_CHG : Fld := ⟨10, 1⟩
abbrev PTP_INST_STAT_COUNT0 : Fld := ⟨16, 4⟩
abbrev PTP_INST_STAT_COUNT1 : Fld := ⟨20, 4⟩
abbrev PTP_INST_STAT_COUNT2 : Fld := ⟨24, 4⟩
abbrev PTP_PORT_CFG_MODE : Fld := ⟨0, 1⟩
abbrev PTP_PORT_CFG_TRANSPORT : Fld := ⟨1, 1⟩
abbrev PTP_PORT_CFG_DELAY : Fld := ⟨2, 1⟩
abbrev PTP_PORT_CFG_LOG_SYNC : Fld := ⟨4, 4⟩
abbrev PTP_PORT_CFG_ASYM : Fld := ⟨16, 16⟩
abbrev PTP_PORT_STAT_LINK : Fld := ⟨0, 1⟩
abbrev PTP_PORT_STAT_LINK_DOWN : Fld := ⟨1, 1⟩
abbrev PTP_PORT_STAT_TSQ_OVF : Fld := ⟨2, 1⟩
abbrev PTP_PORT_STAT_DOWN_CNT : Fld := ⟨16, 4⟩
abbrev PTP_PORT_STAT_OVF_CNT : Fld := ⟨20, 4⟩
abbrev THM_READ_VALUE : Fld := ⟨0, 16⟩
abbrev THM_READ_BROKEN : Fld := ⟨16, 1⟩
abbrev THM_READ_FAST : Fld := ⟨17, 1⟩
abbrev THM_READ_AT_SOFT : Fld := ⟨18, 1⟩
abbrev THM_READ_AT_HARD : Fld := ⟨19, 1⟩
abbrev THM_LIM_SOFT : Fld := ⟨0, 16⟩
abbrev THM_LIM_HARD : Fld := ⟨16, 16⟩
abbrev THM_CFG_HYST : Fld := ⟨0, 10⟩
abbrev THM_CFG_STEP_MS : Fld := ⟨16, 8⟩
abbrev THM_CFG_FLT_SCALE : Fld := ⟨24, 8⟩
abbrev THM_THR_DWELL_STEP : Fld := ⟨0, 13⟩
abbrev THM_THR_GAP_STEP : Fld := ⟨16, 16⟩
abbrev THM_CLASS_STUCK_DIE : Fld := ⟨0, 8⟩
abbrev THM_CLASS_STUCK_HEAD : Fld := ⟨8, 8⟩
abbrev THM_CLASS_STUCK_BAR : Fld := ⟨16, 8⟩
abbrev THM_CLASS_STUCK_BRD : Fld := ⟨24, 8⟩
abbrev THM_STATE_DIE_LEVEL : Fld := ⟨0, 3⟩
abbrev THM_STATE_F0_THR : Fld := ⟨4, 1⟩
abbrev THM_STATE_F1_THR : Fld := ⟨5, 1⟩
abbrev THM_HLEVEL_LEVEL0 : Fld := ⟨0, 3⟩
abbrev THM_HLEVEL_LEVEL1 : Fld := ⟨4, 3⟩
abbrev THM_HLEVEL_LEVEL2 : Fld := ⟨8, 3⟩
abbrev THM_HLEVEL_LEVEL3 : Fld := ⟨12, 3⟩
abbrev THM_HLEVEL_LEVEL4 : Fld := ⟨16, 3⟩
abbrev THM_HLEVEL_LEVEL5 : Fld := ⟨20, 3⟩
abbrev THM_HLEVEL_LEVEL6 : Fld := ⟨24, 3⟩
abbrev THM_HLEVEL_LEVEL7 : Fld := ⟨28, 3⟩
abbrev THM_STAT_SOFT_REACHED : Fld := ⟨0, 1⟩
abbrev THM_STAT_HARD_REACHED : Fld := ⟨1, 1⟩
abbrev THM_STAT_BROKEN : Fld := ⟨2, 1⟩
abbrev THM_STAT_TRIP : Fld := ⟨3, 1⟩
abbrev THM_STAT_COUNT0 : Fld := ⟨16, 4⟩
abbrev THM_STAT_COUNT1 : Fld := ⟨20, 4⟩
abbrev THM_STAT_COUNT2 : Fld := ⟨24, 4⟩
abbrev THM_STAT_COUNT3 : Fld := ⟨28, 4⟩
abbrev THM_LAST_SOFT_IDX : Fld := ⟨0, 8⟩
abbrev THM_LAST_HARD_IDX : Fld := ⟨8, 8⟩
abbrev THM_LAST_BROKEN_IDX : Fld := ⟨16, 8⟩
abbrev THM_BRD_EN : Fld := ⟨0, 1⟩
abbrev THM_BRD_ADDR : Fld := ⟨1, 7⟩
abbrev THM_BRD_REG : Fld := ⟨8, 8⟩
abbrev THM_BRD_FORMAT : Fld := ⟨16, 2⟩
abbrev THM_BRD_PEC : Fld := ⟨18, 1⟩
abbrev THM_BRD_ACTION : Fld := ⟨19, 1⟩
abbrev PMU_CFG_VMIN : Fld := ⟨0, 7⟩
abbrev PMU_CFG_VMAX : Fld := ⟨8, 7⟩
abbrev PMU_CFG_TARGET_PCT : Fld := ⟨16, 7⟩
abbrev PMU_CFG_BAND_PCT : Fld := ⟨24, 7⟩
abbrev PMU_CFG_EN : Fld := ⟨31, 1⟩
abbrev PMU_CFG2_WIN : Fld := ⟨0, 8⟩
abbrev PMU_CFG2_HOLD_WIN : Fld := ⟨8, 8⟩
abbrev PMU_VID_CODE : Fld := ⟨0, 7⟩
abbrev PMU_VID_VMEAS : Fld := ⟨16, 10⟩
abbrev PMU_STAT_VMAX_LIMIT : Fld := ⟨0, 1⟩
abbrev PMU_STAT_SUPPLY_LOW : Fld := ⟨1, 1⟩
abbrev PMU_STAT_PG_LOST : Fld := ⟨2, 1⟩
abbrev PMU_STAT_RAIL : Fld := ⟨8, 3⟩
abbrev PMU_STAT_COUNT0 : Fld := ⟨16, 4⟩
abbrev PMU_STAT_COUNT1 : Fld := ⟨20, 4⟩
abbrev PMU_STAT_COUNT2 : Fld := ⟨24, 4⟩
abbrev CAL_CFG_CAL_DT : Fld := ⟨0, 12⟩
abbrev CAL_CFG_CODE_TOL : Fld := ⟨12, 3⟩
abbrev CAL_CFG_EYE_MIN : Fld := ⟨16, 6⟩
abbrev CAL_CFG_RES_MAX : Fld := ⟨24, 8⟩
abbrev CAL_STAT_CAL_FAIL : Fld := ⟨0, 1⟩
abbrev CAL_STAT_RESTORE_STALE : Fld := ⟨1, 1⟩
abbrev CAL_STAT_CAL_DUE : Fld := ⟨2, 1⟩
abbrev CAL_STAT_COUNT0 : Fld := ⟨16, 4⟩
abbrev CAL_STAT_COUNT1 : Fld := ⟨20, 4⟩
abbrev CAL_STAT_COUNT2 : Fld := ⟨24, 4⟩
abbrev CAL_LAST_FAIL_T : Fld := ⟨0, 7⟩
abbrev CAL_LAST_STALE_T : Fld := ⟨8, 7⟩
abbrev CAL_LAST_DUE_T : Fld := ⟨16, 7⟩
abbrev CAL_QUAL_QUALITY : Fld := ⟨0, 16⟩
abbrev CAL_QUAL_QUALITY2 : Fld := ⟨16, 16⟩
abbrev CAL_TEMP_TEMP : Fld := ⟨0, 16⟩
abbrev CAL_TSTAT_STATE : Fld := ⟨0, 3⟩
abbrev CAL_TSTAT_RUNS : Fld := ⟨16, 16⟩
abbrev BST_SUMMARY_EXP_DONE : Fld := ⟨0, 1⟩
abbrev BST_SUMMARY_REC_DONE : Fld := ⟨1, 1⟩
abbrev BST_SUMMARY_REC_SRC : Fld := ⟨2, 2⟩
abbrev BST_SUMMARY_SHUT : Fld := ⟨4, 2⟩
abbrev BST_SUMMARY_FAILED : Fld := ⟨8, 8⟩
abbrev BST_STAT_UNIT_FAIL : Fld := ⟨0, 1⟩
abbrev BST_STAT_RUN_DONE : Fld := ⟨1, 1⟩
abbrev BST_STAT_REC_STORE_FAIL : Fld := ⟨2, 1⟩
abbrev BST_STAT_COUNT0 : Fld := ⟨16, 4⟩
abbrev BST_STAT_COUNT1 : Fld := ⟨20, 4⟩
abbrev BST_STAT_COUNT2 : Fld := ⟨24, 4⟩
abbrev BST_RUN_UNIT : Fld := ⟨0, 8⟩
abbrev BST_UNIT_RESULT : Fld := ⟨0, 2⟩
abbrev BST_UNIT_SIG : Fld := ⟨32, 64⟩
abbrev BST_RPR_CFG_LEGACY : Fld := ⟨0, 1⟩
abbrev BST_RPR_CFG_FUSE : Fld := ⟨1, 1⟩
abbrev BST_RPR_ARR_FUSED : Fld := ⟨0, 4⟩
abbrev BST_RPR_ARR_SOFT : Fld := ⟨4, 4⟩
abbrev LCS_STATE_STATE : Fld := ⟨0, 3⟩
abbrev LCS_STATE_TAP_OPEN : Fld := ⟨3, 1⟩
abbrev LCS_STATE_OWNER_KEY : Fld := ⟨4, 1⟩
abbrev LCS_STATE_CLEAR_KEY : Fld := ⟨5, 1⟩
abbrev LCS_STATE_RB : Fld := ⟨8, 6⟩
abbrev LCS_CTRL_EXIT_SVC : Fld := ⟨0, 1⟩
abbrev LCS_CTRL_RB_COMMIT : Fld := ⟨1, 1⟩
abbrev LCS_STAT_TOKEN_DENIED : Fld := ⟨0, 1⟩
abbrev LCS_STAT_FW_REJECT : Fld := ⟨1, 1⟩
abbrev LCS_STAT_LC_CHANGE : Fld := ⟨2, 1⟩
abbrev LCS_STAT_COUNT0 : Fld := ⟨16, 4⟩
abbrev LCS_STAT_COUNT1 : Fld := ⟨20, 4⟩
abbrev LCS_STAT_COUNT2 : Fld := ⟨24, 4⟩

end F
end Sys2Proof.Machine
end

