-- ==== Sys2Proof/Machine/Num.lean ====
section
/-!
DEFINITION. Arithmetic helpers: fields of words, two's complement views, the saturating and rounding
integer arithmetic the engines share, byte order, CRC-32 (R233).
-/
namespace Sys2Proof.Machine

/-- Bit `i` of a natural number. -/
def bit (x i : Nat) : Bool := x / 2 ^ i % 2 == 1

/-- Bits `lo + w - 1 : lo` of a natural number. -/
def bits (x lo w : Nat) : Nat := x / 2 ^ lo % 2 ^ w

/-- A Bool as 0 or 1. -/
def b2n (b : Bool) : Nat := if b then 1 else 0

/-- The value of a field of a word. -/
def Fld.get (f : Fld) (v : Word) : Nat := v.toNat / 2 ^ f.lo % 2 ^ f.w

/-- A word with a field replaced; the value is taken modulo the field's size. -/
def Fld.put (f : Fld) (x : Nat) (v : Word) : Word :=
  BitVec.ofNat 32 (v.toNat - v.toNat / 2 ^ f.lo % 2 ^ f.w * 2 ^ f.lo + x % 2 ^ f.w * 2 ^ f.lo)

/-- The two's complement reading of the low `w` bits. -/
def sgn (w x : Nat) : Int :=
  let y := x % 2 ^ w
  if y < 2 ^ (w - 1) then Int.ofNat y else Int.ofNat y - Int.ofNat (2 ^ w)

/-- The `w`-bit two's complement pattern of an integer. -/
def unsgn (w : Nat) (x : Int) : Nat := (x % Int.ofNat (2 ^ w)).toNat

/-- An integer clamped to a range. -/
def clampI (lo hi x : Int) : Int := if x < lo then lo else if hi < x then hi else x

/-- Saturation to signed 32 bits. -/
def sat32 (x : Int) : Int := clampI (-2147483648) 2147483647 x

/-- Floor of `x / 2^s`. -/
def shr (s : Nat) (x : Int) : Int := x / Int.ofNat (2 ^ s)

/-- A word holding an integer in two's complement. -/
def wordI (x : Int) : Word := BitVec.ofNat 32 (unsgn 32 x)

/-- A word read as a signed integer. -/
def intW (v : Word) : Int := sgn 32 v.toNat

/-- Saturating increment of a counter of `w` bits. -/
def satInc (w x : Nat) : Nat := if x + 1 < 2 ^ w then x + 1 else 2 ^ w - 1

/-- Binary search for the integer square root, `fuel` halvings. -/
def isqrtAux : Nat → Nat → Nat → Nat → Nat
  | 0, lo, _, _ => lo
  | fuel + 1, lo, hi, n =>
    if hi ≤ lo + 1 then lo
    else
      let mid := (lo + hi) / 2
      if mid * mid ≤ n then isqrtAux fuel mid hi n else isqrtAux fuel lo mid n

/-- Floor of the square root. -/
def isqrt (n : Nat) : Nat := isqrtAux (n.log2 + 3) 0 (2 ^ (n.log2 / 2 + 1)) n

/-- The bytes of a word, least significant first (multi-byte fields are little-endian). -/
def wordBytes (v : Word) : List Byte :=
  [BitVec.ofNat 8 v.toNat, BitVec.ofNat 8 (v.toNat / 256), BitVec.ofNat 8 (v.toNat / 65536),
    BitVec.ofNat 8 (v.toNat / 16777216)]

/-- The little-endian value of a list of bytes. -/
def leBytes : List Byte → Nat
  | [] => 0
  | b :: bs => b.toNat + 256 * leBytes bs

/-- `n` little-endian bytes of a value. -/
def toBytes : Nat → Nat → List Byte
  | 0, _ => []
  | n + 1, x => BitVec.ofNat 8 x :: toBytes n (x / 256)

/-- `n` little-endian words of a value. -/
def toWords : Nat → Nat → List Word
  | 0, _ => []
  | n + 1, x => BitVec.ofNat 32 x :: toWords n (x / 4294967296)

/-- The little-endian value of a list of words. -/
def leWords : List Word → Nat
  | [] => 0
  | w :: ws => w.toNat + 4294967296 * leWords ws

/-- Bytes grouped into little-endian words; a last short group is filled with zeros. -/
def bytesToWordsAux : Nat → List Byte → List Word
  | 0, _ => []
  | n + 1, bs => BitVec.ofNat 32 (leBytes (bs.take 4)) :: bytesToWordsAux n (bs.drop 4)

def bytesToWords (bs : List Byte) : List Word := bytesToWordsAux ((bs.length + 3) / 4) bs

/-- One bit step of the reflected CRC-32. -/
def crcBit (c : Nat) : Nat := if c % 2 = 1 then Nat.xor (c / 2) 0xEDB88320 else c / 2

/-- One byte step of the reflected CRC-32. -/
def crcByte (c : Nat) (b : Byte) : Nat :=
  crcBit (crcBit (crcBit (crcBit (crcBit (crcBit (crcBit (crcBit (Nat.xor c b.toNat))))))))

/-- CRC-32 of R233: polynomial 0x04C1_1DB7, initial value all ones, reflected, complemented. -/
def crc32 (bs : List Byte) : Nat := Nat.xor (bs.foldl crcByte 0xFFFFFFFF) 0xFFFFFFFF

/-- CRC-32 over the bytes of words. -/
def crcWords (ws : List Word) : Nat := crc32 (ws.flatMap wordBytes)

end Sys2Proof.Machine
end

