-- ==== Sys2Proof/Machine/Types.lean ====
section
/-!
DEFINITION. Types shared by every part of the machine: modes, causes, life-cycle states, clocks,
outputs, events, ring entries.
-/
namespace Sys2Proof.Machine

/-- The twelve modes of R33. -/
inductive Mode
  | off | reset | selftest | setup | calibrate | home | armed | expose | hold | drain | safe | service
  deriving DecidableEq, Repr

/-- The MODE code of R33. -/
def modeCode : Mode → Nat
  | .off => 0 | .reset => 1 | .selftest => 2 | .setup => 3 | .calibrate => 4 | .home => 5
  | .armed => 6 | .expose => 7 | .hold => 8 | .drain => 9 | .safe => 10 | .service => 11

/-- The mode of a code; codes 12 to 15 are not used (SEQ_DOM_STAT.MODE) and read as OFF. -/
def modeOf : Nat → Mode
  | 1 => .reset | 2 => .selftest | 3 => .setup | 4 => .calibrate | 5 => .home | 6 => .armed
  | 7 => .expose | 8 => .hold | 9 => .drain | 10 => .safe | 11 => .service | _ => .off

/-- The causes of SEQ_DOM_STAT.CAUSE. -/
inductive Cause
  | command | powerUp | bistFail | done | tickLate | linkLoss | plausibility | safeIn | abort | core
  | thermal | homeLimit | calFail | lifecycle | domainFault
  deriving DecidableEq, Repr

/-- The code of a cause. -/
def causeCode : Cause → Nat
  | .command => 0 | .powerUp => 1 | .bistFail => 2 | .done => 3 | .tickLate => 4 | .linkLoss => 5
  | .plausibility => 6 | .safeIn => 7 | .abort => 8 | .core => 9 | .thermal => 10 | .homeLimit => 11
  | .calFail => 12 | .lifecycle => 13 | .domainFault => 14

/-- The domain kinds of R32. -/
inductive Kind
  | head | float | motion | camera | storage | core
  deriving DecidableEq, Repr

/-- The kind of a domain index. -/
def kindOf (d : Nat) : Kind :=
  if d < 32 then .head else if d < 34 then .float else if d < 38 then .motion
  else if d < 46 then .camera else if d = 46 then .storage else .core

/-- Domain index of bar `b`. -/
abbrev dFloat (b : Nat) : Nat := 32 + b
/-- Domain index of motion group `g`. -/
abbrev dGroup (g : Nat) : Nat := 34 + g
/-- Domain index of camera `c`. -/
abbrev dCam (c : Nat) : Nat := 38 + c
/-- Domain index of the storage domain. -/
abbrev dStore : Nat := 46
/-- Domain index of the core. -/
abbrev dCore : Nat := 47

/-- The time bases of R438 in units of 2⁻⁴⁸ ns (R439), and the tick count of R441. -/
structure Clock where
  tb0 : Nat
  tb1 : Nat
  tb2 : Nat
  tb3 : Nat
  tick : Nat
  deriving DecidableEq, Repr

/-- Nanoseconds of a time base. -/
def tbNs (x : Nat) : Nat := x / 281474976710656

/-- The 128-bit time stamp of a time base value (layout of R3; reads truncate to SUBNS, R439). -/
def stampOf (x : Nat) : Nat :=
  let ns := tbNs x
  ns / 1000000000 * 2 ^ 64 + ns % 1000000000 * 2 ^ 32 + x / 4294967296 % 65536 * 65536

/-- A time stamp is valid under R5: NSEC below 10⁹ and reserved bits 0. -/
def stampValid (t : Nat) : Bool :=
  bits t 0 16 == 0 && bits t 62 2 == 0 && decide (bits t 32 30 ≤ 999999999)

/-- The time base value a valid stamp names. -/
def ofStamp (t : Nat) : Nat :=
  (bits t 64 64 * 1000000000 + bits t 32 30) * 281474976710656 + bits t 16 16 * 4294967296

/-- What the outside sees of one command. -/
inductive Output
  /-- A write of words to host memory. -/
  | hostWrite (addr : Nat) (ws : List Word)
  /-- An MSI-X message: vector, address and data of its table entry. -/
  | msix (vector addr data : Nat)
  /-- A doorbell or host read that begins. -/
  | hostRead (addr bytes : Nat)
  /-- A frame or ordered set sent on a lane: 0 tick frame, 1 capability request, 2 CUT, 3 PRB, 4 DEP,
  5 cascade frame, 6 bar command frame, 7 the SKP and IDL of a gap, 8 ECH; and its words, of a gap the numbers of its SKP
  and of its IDL. -/
  | lane (lane kind : Nat) (ws : List Word)
  /-- A pin of a named group driven: LASER_EN, CAM_TRIG, MSTEP, MDIR, MEN, DIVOUT, PASS, LED_K, VID. -/
  | pin (group : String) (index : Nat) (value : Nat)
  /-- A PTP message sent on an Ethernet port, with its kind and whether its stamp is carried in it. -/
  | ptp (port kind : Nat) (oneStep : Bool)
  /-- The words a BAR0 read returns. -/
  | readData (ws : List Word)
  /-- A NAND operation begun: kind code and page or block number. -/
  | nand (kind target page : Nat)
  deriving DecidableEq, Repr

/-- An event as raised (R426): code, instance, the data words, domain, and what was captured at the
raising bead. -/
structure Event where
  code : Nat
  inst : Nat
  d0 : Nat
  d1 : Nat
  d2 : Nat
  dom : Nat
  mode : Nat
  time : Nat
  tick : Nat
  coat : Nat
  suppressed : Nat
  deriving DecidableEq, Repr

/-- A composed record and its SERIAL. -/
structure EvRecord where
  serial : Nat
  ws : List Word
  deriving DecidableEq, Repr

/-- The bucket of one event code (R427): tokens held and the TB2 millisecond it was last refilled at. -/
structure Bucket where
  tokens : Nat
  ms : Nat
  deriving DecidableEq, Repr

/-- The event recorder's books and stores (R427 to R437). -/
structure Evr where
  intake : List Event
  staged : List EvRecord
  oldestMs : Nat
  pend : Nat
  firstLoss : Nat
  lastLoss : Nat
  raised : Nat
  recorded : Nat
  limited : Nat
  lost : Nat
  next : Nat
  supp : List (Nat × Nat)
  buckets : List (Nat × Bucket)
  pinned : List EvRecord
  circular : List EvRecord
  deriving DecidableEq, Repr

def Evr.init : Evr := ⟨[], [], 0, 0, 0, 0, 0, 0, 0, 0, 0, [], [], [], []⟩

/-- A fetched descriptor: its sixteen words, the completion ring that reserved its slot, and whether
it has begun. -/
structure Fetched where
  ws : List Word
  cq : Nat
  begun : Bool
  deriving DecidableEq, Repr

/-- What a ring holds beside its registers: fetched descriptors oldest first (R94, R95), the index at
enable (R89), the entries dropped since the last entry written (R91), the entries written since the
last message and the TB2 nanosecond of the first of them (R97), and the ring's books (R96). -/
structure Ring where
  fetched : List Fetched
  start : Nat
  gap : Nat
  since : Nat
  firstNs : Nat
  generated : Nat
  written : Nat
  dropped : Nat
  deriving DecidableEq, Repr

def Ring.init : Ring := ⟨[], 0, 0, 0, 0, 0, 0, 0⟩

/-- Which shadow words count as written in a bead interval that a command shares with its neighbour: those written in
the interval of the command in execution, which miss its boundaries (R50), those that a REG_WRITE landed in the command
before (R63), and both as they will stand for the next command. -/
structure Bead where
  late : List Nat
  lateNext : List Nat
  ring : List Nat
  ringNext : List Nat
  deriving DecidableEq, Repr

def Bead.init : Bead := ⟨[], [], [], []⟩

/-- The bead intervals move on by one command. -/
def Bead.next (x : Bead) : Bead := ⟨x.lateNext, [], x.ringNext, []⟩

/-- A TABLE_LOAD in execution (R87, R398): its ring, its destination in the BAR2 window, its length, and the bytes
written so far. -/
structure TableWrite where
  ring : Nat
  off : Nat
  bytes : Nat
  done : Nat
  deriving DecidableEq, Repr

end Sys2Proof.Machine
end

