-- ==== Sys2Proof/Machine/BuildTypes.lean ====
section
/-!
DEFINITION. Types of the build data (coats, parts, patches, parameter sets, streams) and of the books of
runs that Pergola keeps (R181).
-/
namespace Sys2Proof.Machine

/-- The order key of a run. -/
structure Key where
  coat : Nat
  part : Nat
  patch : Nat
  run : Nat
  deriving DecidableEq, Repr

/-- Order keys compared left to right. -/
def Key.lt (a b : Key) : Bool :=
  decide (a.coat < b.coat) || (a.coat == b.coat && (decide (a.part < b.part) || (a.part == b.part &&
    (decide (a.patch < b.patch) || (a.patch == b.patch && decide (a.run < b.run))))))

/-- A point in bed coordinates (bed LSB). -/
structure Pt where
  x : Int
  y : Int
  z : Int
  deriving DecidableEq, Repr

/-- How a run ended. -/
inductive RunEnd
  | complete | cut | discarded
  deriving DecidableEq, Repr

/-- The five terms of R181 that a submitted run can be counted under. -/
inductive Place
  | queued
  | transit (dest since : Nat)
  | executing
  | done (o : RunEnd)
  deriving DecidableEq, Repr

/-- A segment of a run (R194). -/
structure Seg where
  ghead : Nat
  yieldTicks : Nat
  firstStroke : Nat
  lastStroke : Nat
  firstOfs : Nat
  lastOfs : Nat
  startTick : Nat
  endTick : Nat
  closed : Bool
  deriving DecidableEq, Repr

/-- Where emission stopped in an interrupted run (R155): stroke, path length into it in 2⁻¹⁶ bed LSB, the dwell ticks
already emitted, and the path length into the blend that follows the stroke, 0 outside it. -/
structure Point where
  stroke : Nat
  ofs : Int
  dwell : Nat
  blend : Int
  deriving DecidableEq, Repr

/-- The start of stroke `i`. -/
def Point.start (i : Nat) : Point := ⟨i, 0, 0, 0⟩

/-- A submitted run. `chosen` is the head Pergola has selected it for, which it leaves for at the next edge (R174), and
`limited` says that PASS_LIMIT has been set for its present suspension (R179). -/
structure Run where
  key : Key
  home : Nat
  ctx : Nat
  strokes : Nat
  elig : Nat
  cluster : Nat
  cls : Nat
  tag : Nat
  xmin : Int
  ymin : Int
  xmax : Int
  ymax : Int
  start : Pt
  owner : Nat
  place : Place
  suspended : Bool
  stranded : Bool
  startedOnce : Bool
  point : Option Point
  segs : List Seg
  waits : Nat
  starved : Nat
  marks : List Nat
  chosen : Option Nat
  limited : Bool
  deriving DecidableEq, Repr

/-- The books of runs: the runs kept, every run ever submitted, and the done runs of coats whose phase 3
has ended, which are kept no longer. -/
structure RunBook where
  runs : List Run
  submitted : Nat
  gone : Nat
  deriving DecidableEq, Repr

def RunBook.init : RunBook := ⟨[], 0, 0⟩

def Place.isDone : Place → Bool
  | .done _ => true
  | _ => false

def Place.isQueued : Place → Bool
  | .queued => true
  | _ => false

def Place.isTransit : Place → Bool
  | .transit _ _ => true
  | _ => false

def Place.isExec : Place → Bool
  | .executing => true
  | _ => false

/-- The terms of R181. -/
def RunBook.queued (r : RunBook) : Nat := r.runs.countP fun x => x.place.isQueued
def RunBook.transit (r : RunBook) : Nat := r.runs.countP fun x => x.place.isTransit
def RunBook.executing (r : RunBook) : Nat := r.runs.countP fun x => x.place.isExec
def RunBook.done (r : RunBook) : Nat := (r.runs.countP fun x => x.place.isDone) + r.gone

/-- The run of a key. -/
def RunBook.find (r : RunBook) (k : Key) : Option Run := r.runs.find? fun x => x.key == k

/-- The operations on the books. -/
inductive RunOp
  /-- A run is submitted, queued on its owner (R132). -/
  | submit (r : Run)
  /-- A run moves to another term; a done run stays done. -/
  | place (k : Key) (p : Place)
  /-- Anything about a run but its key and its term. -/
  | touch (k : Key) (f : Run → Run)
  /-- The done runs of a coat are kept no longer. -/
  | purge (coat : Nat)
  | clear

/-- One run of a list replaced. -/
def RunBook.update (r : RunBook) (k : Key) (f : Run → Run) : RunBook :=
  { r with runs := r.runs.map fun x => if x.key == k then f x else x }

def runApply (r : RunBook) : RunOp → RunBook
  | .submit x => { r with runs := r.runs ++ [{ x with place := .queued }], submitted := r.submitted + 1 }
  | .place k p => r.update k fun x => if x.place.isDone then x else { x with place := p }
  | .touch k f => r.update k fun x => { f x with key := x.key, place := x.place }
  | .purge c =>
    let out := fun (x : Run) => x.key.coat == c && x.place.isDone
    { r with
      runs := r.runs.filter fun x => !out x
      gone := r.gone + r.runs.countP out }
  | .clear => RunBook.init

/-- A patch of a part as loaded. -/
structure Patch where
  idx : Nat
  runs : Nat
  pset : Nat
  order : Nat
  skip : Bool
  tag : Nat
  bound : Option Nat
  accepted : List Nat
  deriving DecidableEq, Repr

/-- A part of a coat as loaded. -/
structure Part where
  idx : Nat
  patches : Nat
  key : Nat
  patch : List Patch
  deriving DecidableEq, Repr

/-- A defined coat. `stage` is 0 before its boundary, then the phase it is in, and 5 once phase 4 has
ended; `ended3` says its phase 3 has ended. -/
structure Coat where
  num : Nat
  parts : Nat
  layer : Nat
  flow : Nat
  recoat : Nat
  float : Nat
  image : Bool
  auto : Bool
  tag : Nat
  released : Bool
  stage : Nat
  cut : Bool
  ended3 : Bool
  part : List Part
  deriving DecidableEq, Repr

/-- The build (R108, R551): beside its coats and the rings whose COAT_CUT waits, whether phase 2 of the present
coat is over, the coat whose fold is due (R271), a held request of MPL_HM_FOLD.CLEAR (R543), whether the map
has been zeroed in this build (R272), the numbers of the coats whose phase 4 has ended, the tick and READY_COAT of the
own cascade frame sent last, and the coat whose boundary falls at the next edge by agreement of the cascade (R251). -/
structure Build where
  isOpen : Bool
  id : Nat
  closed : Bool
  last : Nat
  coats : List Coat
  cutRings : List Nat
  p2Done : Bool
  foldFor : Option Nat
  clearReq : Bool
  zeroed : Bool
  past : List Nat
  mine : Option (Nat × Nat)
  agreed : Option Nat
  deriving DecidableEq, Repr

def Build.init : Build := ⟨false, 0, false, 0, [], [], false, none, false, false, [], none, none⟩

/-- A generation of a parameter set. -/
structure Gen where
  num : Nat
  ws : List Word
  deriving DecidableEq, Repr

/-- A parameter set: the number of its latest active generation, that generation, older ones still
held, and the content waiting for a patch boundary (R119, R120). -/
structure Pset where
  num : Nat
  active : Option Gen
  old : List Gen
  waiting : Option (List Word)
  deriving DecidableEq, Repr

def Pset.init : Pset := ⟨0, none, [], none⟩

/-- A held record: its words, the run it belongs to, whether it has left the prefetch, and whether it
is present there (R550). -/
structure Rec where
  ws : List Word
  run : Option Key
  left : Bool
  here : Bool
  deriving DecidableEq, Repr

/-- The run a stream is in the middle of: its header words and the strokes accepted so far. -/
structure OpenRun where
  a : List Word
  b : Option (List Word)
  got : Nat
  pt : Pt
  deriving DecidableEq, Repr

/-- A stream context: held records oldest first, records reserved, the key of its last run, the run
partly received, and the runs submitted from it since reset. -/
structure Ctx where
  held : List Rec
  reserved : Nat
  lastKey : Option Key
  part : Option OpenRun
  submitted : Nat
  deriving DecidableEq, Repr

def Ctx.init : Ctx := ⟨[], 0, none, none, 0⟩

end Sys2Proof.Machine
end

