-- ==== Sys2Proof/Machine/Map.lean ====
section
/-!
DEFINITION. Sparse maps from natural keys in one canonical form: keys strictly rising, and no entry
equal to what an unlisted key reads as. Registers, DRAM, the BAR2 window and sparse tables use it.
-/
namespace Sys2Proof.Machine

/-- The listed value of a key. -/
def mapFind {α : Type} : List (Nat × α) → Nat → Option α
  | [], _ => none
  | (k, v) :: m, j => if j = k then some v else if j < k then none else mapFind m j

/-- The value of a key, `dflt` of the key where it is not listed. -/
def mapGet {α : Type} (dflt : Nat → α) (m : List (Nat × α)) (j : Nat) : α :=
  (mapFind m j).getD (dflt j)

/-- The map without a key. -/
def mapErase {α : Type} : List (Nat × α) → Nat → List (Nat × α)
  | [], _ => []
  | (k, v) :: m, j => if j = k then m else if j < k then (k, v) :: m else (k, v) :: mapErase m j

/-- The map with a key listed. -/
def mapInsert {α : Type} : List (Nat × α) → Nat → α → List (Nat × α)
  | [], j, x => [(j, x)]
  | (k, v) :: m, j, x =>
    if j = k then (j, x) :: m else if j < k then (j, x) :: (k, v) :: m else (k, v) :: mapInsert m j x

/-- The map with a key set, in canonical form. -/
def mapSet {α : Type} [DecidableEq α] (dflt : Nat → α) (m : List (Nat × α)) (j : Nat) (x : α) :
    List (Nat × α) :=
  if x = dflt j then mapErase m j else mapInsert m j x

/-- Keys strictly rising, all above a bound, and no default entry. -/
def mapWfAux {α : Type} [DecidableEq α] (dflt : Nat → α) : Option Nat → List (Nat × α) → Bool
  | _, [] => true
  | lo, (k, v) :: m =>
    (match lo with | none => true | some l => decide (l < k)) && !decide (v = dflt k) &&
      mapWfAux dflt (some k) m

/-- The canonical form. -/
def mapWf {α : Type} [DecidableEq α] (dflt : Nat → α) (m : List (Nat × α)) : Bool :=
  mapWfAux dflt none m

end Sys2Proof.Machine
end

