-- ==== Sys2Proof/Machine/MemTypes.lean ====
section
/-!
DEFINITION. Types of the DRAM write queues (R379, R382, R386), of the record store and of the melt-pool units.
-/
namespace Sys2Proof.Machine

/-- One channel's write queue: the lines queued with the bytes each covers (bit `i` byte `i`), and the
books of R386. -/
structure Wq where
  queue : List (Nat × Nat)
  accepted : Nat
  merged : Nat
  inflight : Nat
  retired : Nat
  fwd : Nat
  deriving DecidableEq, Repr

def Wq.init : Wq := ⟨[], 0, 0, 0, 0, 0⟩

/-- The operations of a write queue. -/
inductive WqOp
  /-- A write reaches the queue: it merges, or takes an entry, after the oldest entry was issued where the
  queue is full (R379, R382). -/
  | accept (line mask : Nat)
  /-- The oldest entry is issued. -/
  | issue
  /-- Every entry of a line is issued (R383). -/
  | issueLine (line : Nat)
  /-- The data of every issued entry is sent. -/
  | retire
  /-- A read is served from the queue (R383). -/
  | forward
  | clear

/-- The queue's entry of a line. -/
def mergeIn : List (Nat × Nat) → Nat → Nat → List (Nat × Nat)
  | [], _, _ => []
  | (l, m) :: r, line, mask => if l = line then (l, Nat.lor m mask) :: r else (l, m) :: mergeIn r line mask

def Wq.has (q : Wq) (line : Nat) : Bool := q.queue.any fun e => e.1 == line

def Wq.issueOne (q : Wq) : Wq :=
  match q.queue with
  | [] => q
  | _ :: r => { q with queue := r, inflight := q.inflight + 1 }

def Wq.issueOf (q : Wq) (line : Nat) : Wq :=
  let r := q.queue.filter fun e => e.1 != line
  { q with queue := r, inflight := q.inflight + (q.queue.length - r.length) }

def wqApply (q : Wq) : WqOp → Wq
  | .accept line mask =>
    if q.has line then
      { q with queue := mergeIn q.queue line mask, accepted := q.accepted + 1, merged := q.merged + 1 }
    else
      let p := if 64 ≤ q.queue.length then q.issueOne else q
      { p with queue := p.queue ++ [(line, mask)], accepted := p.accepted + 1 }
  | .issue => q.issueOne
  | .issueLine line => q.issueOf line
  | .retire => { q with inflight := 0, retired := q.retired + q.inflight }
  | .forward => { q with fwd := q.fwd + 1 }
  | .clear => Wq.init

/-- A segment of the record store (R411 to R415): SEQ, KIND, coat and build, the header's bytes, the payload
so far, the seal's bytes once composed, how many of its pages are durable and where in the log its first page
lies, whether its coat's staging has ended, and its directory facts. -/
structure RecSeg where
  seq : Nat
  kind : Nat
  coat : Nat
  buildId : Nat
  head : List Byte
  data : List Byte
  sealB : List Byte
  durable : Nat
  first : Nat
  closing : Bool
  trunc : Bool
  damaged : Bool
  released : Bool
  lastTick : Nat
  lostCw : Nat
  deriving DecidableEq, Repr

/-- A Skim job of the record that is not durable yet: its raw bytes, the payload length after it, and the tick
count of its newest byte. -/
structure SkimJob where
  raw : List Byte
  out : Nat
  tick : Nat
  deriving DecidableEq, Repr

/-- The block counts of a plane (R417). -/
structure Plane where
  good : Nat
  spare : Nat
  retired : Nat
  retiring : Nat
  deriving DecidableEq, Repr

/-- The geometry of the NAND (R408, R409): targets, LUNs per target, planes per LUN, blocks per plane and
pages per block. -/
structure Geom where
  targets : Nat
  luns : Nat
  planes : Nat
  blocks : Nat
  pages : Nat
  deriving DecidableEq, Repr

/-- The record store: the coat whose record is staged with the starts of its phases (tick count, TB0), its
staged bytes that Skim has not taken and those of the segment being closed, jobs whose output is not durable,
bytes dropped and to be marked with their cause, whether staged bytes of the coat were lost, the run-start
hold of R416, the segment being written and those durable, oldest first, the output history of the present
Skim stream (newest first) with the counts of its last block, the next SEQ, the pages of the log, releases
that wait, the geometry and the planes, and how far start-up has come: enumerated, to be enumerated in this SETUP,
geometry at fault, recovered in this power-up, table lost, blocks to be erased, an append that waits for a free block, and what kinds
of NAND operation were under way at the last change of mode (0 page, 1 erase, 2 table page), of which one may still
complete (R57). -/
structure Store where
  cur : Option Nat
  starts : List (Nat × Nat)
  stage : List Byte
  rest : List Byte
  jobs : List SkimJob
  lost : Nat
  lostCause : Nat
  damaged : Bool
  hold : Bool
  seg : Option RecSeg
  segs : List RecSeg
  history : List Byte
  prev : Option (List Nat × List Nat)
  started : Bool
  next : Nat
  log : Nat
  releases : List (Nat × Nat)
  geom : Geom
  planes : List Plane
  enumerated : Bool
  enumDue : Bool
  configBad : Bool
  scanned : Bool
  tableLost : Bool
  erasable : Nat
  wait : Bool
  flight : List Nat
  newest : Nat
  deriving DecidableEq, Repr

def Store.init : Store where
  cur := none
  starts := []
  stage := []
  rest := []
  jobs := []
  lost := 0
  lostCause := 0
  damaged := false
  hold := false
  seg := none
  segs := []
  history := []
  prev := none
  started := false
  next := 0
  log := 0
  releases := []
  geom := ⟨0, 0, 0, 0, 0⟩
  planes := []
  enumerated := false
  enumDue := false
  configBad := false
  scanned := false
  tableLost := false
  erasable := 0
  wait := false
  flight := []
  newest := 0

/-- The features of one photodiode block (R255) with NLIT. -/
structure Feat where
  meanA : Nat
  meanB : Nat
  peakA : Nat
  rmsA : Nat
  spat : Nat
  nlit : Nat
  sat : Bool
  lost : Bool
  gateOn : Bool
  gateAll : Bool
  seq : Nat
  deriving DecidableEq, Repr

def Feat.none : Feat := ⟨0, 0, 0, 0, 0, 0, false, true, false, false, 0⟩

/-- A burst capture (R278, R279). -/
structure Burst where
  len : Nat
  pre : Nat
  force : Bool
  done : Nat
  deriving DecidableEq, Repr

def Burst.init : Burst := ⟨0, 0, false, 0⟩

/-- The settings of classes run and patch that a run takes with it to the melt-pool unit (R16, R120): the words of its
bound set, of the loop's gains, of the feed-forward and of the outer loop. -/
structure RunSet where
  bound : List Word
  pgain : Word
  pshift : Word
  ff : Word
  ffbase : Word
  outer : Word
  gtgt : Word
  refstep : Word
  deriving DecidableEq, Repr

def RunSet.init : RunSet := ⟨List.replicate 16 0, 0, 0, 0, 0, 0, 0, 0⟩

/-- The settings on their way to the unit, by run; the latest four. -/
def keepSets (l : List (Key × RunSet)) (k : Key) (s : RunSet) : List (Key × RunSet) :=
  let r := (l.filter fun x => x.1 != k) ++ [(k, s)]
  r.drop (r.length - 4)

/-- One head's share of its melt-pool unit: integrator and trim, features of the present tick, MEAN_S of the last lit
block and the last sample of the previous block, sample history (newest first), the feed-forward of the previous
computation, what the tile read missed, band and flag conditions, deposit accumulator with its stroke and scale, the
record of gates and LOOP for camera exposures, trace entry and burst, and the run settings on their way and in use. -/
structure Pool where
  qp : Int
  trim : Int
  pend : Option Int
  outer : Bool
  feat : Feat
  meanS : Nat
  lastS : Option Nat
  samples : List (Nat × Nat)
  ff : Int
  miss : Bool
  band : Nat
  cSat : Bool
  cOut : Bool
  cMiss : Bool
  cBand : Bool
  acc : List (Nat × Nat)
  accOf : Option (Option Key × Nat × Nat)
  hist : List (Nat × Nat × Bool)
  power : Nat
  spot : Option (Int × Int)
  trace : List (List Word)
  burst : Burst
  sets : List (Key × RunSet)
  cur : RunSet
  deriving DecidableEq, Repr

def Pool.init : Pool where
  qp := 0
  trim := 0
  pend := Option.none
  outer := false
  feat := Feat.none
  meanS := 0
  lastS := Option.none
  samples := []
  ff := 0
  miss := false
  band := 0
  cSat := false
  cOut := false
  cMiss := false
  cBand := false
  acc := []
  accOf := Option.none
  hist := []
  power := 0
  spot := Option.none
  trace := []
  burst := Burst.init
  sets := []
  cur := RunSet.init

/-- A block of a compressor: raw bytes, TYPE and payload. -/
structure SkimBlock where
  raw : Nat
  ty : Nat
  pay : List Byte
  deriving DecidableEq, Repr

/-- A target as enumerated: data bytes and spare bytes of a page, blocks per plane, planes, LUNs, pages per
block, and whether it meets the rest of R408. -/
structure Target where
  page : Nat
  spare : Nat
  blocks : Nat
  planes : Nat
  luns : Nat
  pages : Nat
  ok : Bool
  deriving DecidableEq, Repr

end Sys2Proof.Machine
end

