-- ==== Sys2Proof/Machine/ThermTypes.lean ====
section
/-!
DEFINITION. Types of the thermal unit, the core supply, calibration and start-up (R461 to R516).
-/
namespace Sys2Proof.Machine

/-- One temperature reading behind THM_READ: the value last sampled before R463 with the TB2 nanosecond since
which it has not changed, and the run of consecutive samples at or above HARD. -/
structure Temp where
  raw : Option Int
  since : Nat
  hardRun : Nat
  deriving DecidableEq, Repr

def Temp.init : Temp := ⟨none, 0, 0⟩

/-- The core supply: least slack of the window in per cent of the tick period, ticks of the window, windows
still without a fall after TICK_LATE, the one of the TICK_LATE itself included, R475's load not committed yet and the tick of its commit, and whether the
core has been in SETUP since reset. -/
structure Pmu where
  least : Nat
  ticks : Nat
  hold : Nat
  loadPend : Bool
  loadAt : Option Nat
  started : Bool
  deriving DecidableEq, Repr

def Pmu.init : Pmu := ⟨100, 0, 0, false, none, false⟩

/-- A calibration target behind its registers: a restored value pending, and whether its last run since the
present mode of its domain began was accepted. -/
structure CalTarget where
  restored : Bool
  ran : Option Bool
  deriving DecidableEq, Repr

def CalTarget.init : CalTarget := ⟨false, none⟩

/-- A tested unit of R488: its number, RESULT (1 pass, 2 fail, 3 pass REPAIRED), SIG, and for an array the
spare rows it took. -/
structure BistRes where
  unit : Nat
  result : Nat
  sig : Nat
  rows : Nat
  deriving DecidableEq, Repr

/-- The start of the part behind its registers: a release accepted, whether BIST is scheduled at it, the domains
whose SELFTEST has ended since power-up, those in their second bring-up, the TB2 nanosecond of the core's SETUP,
FW_VERSION and ROLLBACK of the running firmware, the unit under test on demand, and the record-class result that
NAND holds (R494). -/
structure Boot where
  released : Bool
  bist : Bool
  tested : List Nat
  second : List Nat
  upFrom : Option Nat
  fw : Option (Nat × Nat)
  testing : Option Nat
  stored : Option (List BistRes)
  deriving DecidableEq, Repr

def Boot.init : Boot := ⟨false, true, [], [], none, none, none, none⟩

end Sys2Proof.Machine
end

