-- ==== Sys2Proof/Machine/TimeTypes.lean ====
section
/-!
DEFINITION. Types of network time: the transmit time-stamp queues and their books (R448 to R450), the clock
servos (R451 to R453), the alignment of a cascade follower (R456 to R459).
-/
namespace Sys2Proof.Machine

/-- A transmitted event message with an ID whose frame has not departed: ID, instance, messageType, sequenceId. -/
structure TsqFrame where
  id : Nat
  inst : Nat
  mt : Nat
  seq : Nat
  deriving DecidableEq, Repr

/-- A port's queue and books: IDs issued, read and lost, the entries queued with their egress stamps, oldest
first, and the frames in flight. -/
structure Tsq where
  issued : Nat
  read : Nat
  lost : Nat
  queue : List (TsqFrame × Nat)
  flight : List TsqFrame
  deriving DecidableEq, Repr

def Tsq.init : Tsq := ⟨0, 0, 0, [], []⟩

inductive TsqOp
  /-- An ID is issued at a transmit request (R448). -/
  | issue (f : TsqFrame)
  /-- A frame departs: its entry enters the queue, or is lost where the queue holds 16 (R449). -/
  | depart (id stamp : Nat)
  /-- A frame in flight cannot depart, or its stamp is lost (R449). -/
  | drop (id : Nat)
  /-- Every frame in flight is lost (link down). -/
  | dropAll
  /-- The oldest queued stamp is lost to an SRAM error. -/
  | spoil
  /-- The firmware reads an entry. -/
  | read (id : Nat)
  | clear

/-- The first frame of an ID, and the frames without it. -/
def takeFrame : List TsqFrame → Nat → Option TsqFrame × List TsqFrame
  | [], _ => (none, [])
  | f :: r, id => if f.id = id then (some f, r) else let p := takeFrame r id; (p.1, f :: p.2)

/-- The queue without the first entry of an ID. -/
def takeEntry : List (TsqFrame × Nat) → Nat → Bool × List (TsqFrame × Nat)
  | [], _ => (false, [])
  | e :: r, id => if e.1.id = id then (true, r) else let p := takeEntry r id; (p.1, e :: p.2)

def tsqApply (q : Tsq) : TsqOp → Tsq
  | .issue f => { q with issued := q.issued + 1, flight := q.flight ++ [f] }
  | .depart id stamp =>
    match takeFrame q.flight id with
    | (none, _) => q
    | (some f, r) =>
      if 16 ≤ q.queue.length then { q with flight := r, lost := q.lost + 1 }
      else { q with flight := r, queue := q.queue ++ [(f, stamp)] }
  | .drop id =>
    match takeFrame q.flight id with
    | (none, _) => q
    | (some _, r) => { q with flight := r, lost := q.lost + 1 }
  | .dropAll => { q with flight := [], lost := q.lost + q.flight.length }
  | .spoil =>
    match q.queue with
    | [] => q
    | _ :: r => { q with queue := r, lost := q.lost + 1 }
  | .read id =>
    match takeEntry q.queue id with
    | (false, _) => q
    | (true, r) => { q with queue := r, read := q.read + 1 }
  | .clear => Tsq.init

/-- The servo of a PTP instance: I and adj in 2⁻²⁴ ppb, whether LOCKED was reached since EN, the run of offsets
within LOCK_NS, the offsets fed since HOLDOVER from the present parent, and the parent (port and identity). -/
structure PtpInst where
  i : Int
  adj : Int
  wasLocked : Bool
  run : Nat
  held : List Int
  parent : Option (Nat × Nat)
  deriving DecidableEq, Repr

def PtpInst.init : PtpInst := ⟨0, 0, false, 0, [], none⟩

/-- The alignment of a follower: adj₃ and the loop's integral term in 2⁻²⁴ ppb, the last 16 phases (newest
first, 100 ps), consecutive good frames, the TB2 nanosecond of the last valid frame of the reference and which
member that is, whether the loop holds, and a tick count to take at the next edge (R457). -/
structure Align where
  adj3 : Int
  integ : Int
  phis : List Int
  good : Nat
  lastRef : Nat
  ref : Option Nat
  holding : Bool
  newTick : Option Nat
  mismatch : Bool
  deriving DecidableEq, Repr

def Align.init : Align := ⟨0, 0, [], 0, 0, none, false, none, false⟩

/-- What a received PTP frame is to this part (R443, R446): a frame that is not a PTP message of the port's
transport; a Sync of a domain and sender with the offset the firmware computes from it in 2⁻¹⁶ ns and whether its
Follow_Up came; an Announce after which the best master clock algorithm names a parent for the domain's instance,
or none; another event message, which the firmware takes with its stamp. -/
inductive PtpMsg
  | other
  | sync (domain sender : Nat) (off : Int) (complete : Bool)
  | announce (domain : Nat) (parent : Option (Nat × Nat))
  | event
  deriving DecidableEq, Repr

end Sys2Proof.Machine
end

