-- ==== Sys2Proof/Syntax.lean ====
section
/-!
DEFINITION. The commands of the block: one constructor for each row of the opcode table. An operand is what the command
brings from outside: an index, an address, a value, the words a read returns, a measured value. Descriptor commands
name the ring whose oldest descriptor executes. An operand with a default says what accompanies the command; the
default is the plain case, in which nothing does.
-/
namespace Sys2Proof

inductive Instr
  | nop (ring : Fin 40)
  | modeSet (ring : Fin 40) (others : List (Fin 40) := [])
  | regWrite (ring : Fin 40) (late : Bool := false)
  | regRead (ring : Fin 40)
  | tableLoad (ring : Fin 40) (data : Option (List Word)) (last : Bool := true)
  | ringRelease (ring : Fin 40)
  | abort (ring : Fin 40)
  | buildOpen (ring : Fin 40)
  | buildClose (ring : Fin 40)
  | coatDefine (ring : Fin 40)
  | coatStart (ring : Fin 40)
  | coatCut (ring : Fin 40)
  | partLoad (ring : Fin 40) (data : Option (List Word))
  | patchLoad (ring : Fin 40) (data : Option (List Word))
  | psetWrite (ring : Fin 40) (data : Option (List Word))
  | streamReset (ring : Fin 40)
  | streamAppend (ring : Fin 40)
  | appendBufferRead (ring : Fin 40) (data : Option (List Word))
  | mpBurstArm (ring : Fin 40)
  | mpBurstRead (ring : Fin 40)
  | camImageRead (ring : Fin 40)
  | fltMeasure (ring : Fin 40)
  | fltFire (ring : Fin 40)
  | motMove (ring : Fin 40)
  | nvsRead (ring : Fin 40) (lost : List (Nat × Nat))
  | nvsRelease (ring : Fin 40)
  | evrRead (ring : Fin 40) (bad : List Nat)
  | evrNonce (ring : Fin 40)
  | evrClear (ring : Fin 40) (data : Option (List Word))
  | shutdown (ring : Fin 40) (results : List Machine.BistRes) (stored : Bool)
  | lcsNonce (ring : Fin 40)
  | lcsToken (ring : Fin 40) (data : Option (List Word))
  | nvsExport (ring : Fin 40) (data : Option (List Word)) (lost : List (Nat × Nat))
  | registerWrite (off : BitVec 21) (bytes : Nat) (value : BitVec 64) (place : Fin 3 := 0)
  | w1cClear (off : BitVec 21) (value : Word) (hw : Word)
  | rcRead (off : BitVec 21) (bytes : Nat) (hw : Word := 0)
  | ringNudge (value : Word)
  | ringEnable (ring : Fin 89) (value : Word)
  | ringDisable (ring : Fin 89) (value : Word)
  | msixUnmask (vector : Fin 256)
  | sysAbortReq
  | axesRest
  | sysAbortRelease
  | functionLevelReset
  | dlDown
  | hostWatchdog
  | sysSlackRearm (value : Word)
  | ovlSnap (value : Word)
  | srvSnap (value : Word)
  | dmcWqSnap (value : Word)
  | evrSnap (value : Word)
  | ptpTsqSnap (value : Word)
  | timLatch (value : Word)
  | timSetctlGo (value : Word)
  | hmFoldClear (value : Word)
  | sysOccClr (value : Word)
  | sysResetKey (value : Word)
  | bootLoad (value : Word)
  | fwLoadDone (image : Option (List Word))
  | bootRelease (value : Word)
  | bootDone
  | laneAbsent (dom : Fin 34)
  | bstRun (value : Word)
  | runDone (result : Nat) (sig : Nat) (rows : Nat)
  | bstRprFuse (value : Word)
  | exitSvc
  | rbCommit
  | calRestore (target : Fin 80) (value : Word)
  | bar2Write (off : BitVec 26) (bytes : List Byte)
  | doorbellPoll (words : Option (List (Nat × Word × Word)))
  | descriptorFetch (ring : Fin 40) (data : Option (List Word))
  | msixTimer (ring : Fin 89)
  | tickEdge (late : List (Nat × Nat)) (slack : List Nat)
  | autoResume (h : Fin 32)
  | runStart (h : Fin 32)
  | prefetchFill (ctx : Fin 128)
  | transitEnd (h : Fin 32)
  | runSuspend (h : Fin 32)
  | yieldClear (h : Fin 32)
  | runResume (h : Fin 32)
  | linkHoldClear (h : Fin 32)
  | drainComplete (d : Fin 48)
  | coatBoundary (late : List (Nat × Nat) := []) (slack : List Nat := List.replicate 25 0)
  | authResponse (bar : Fin 2) (msg : List Word)
  | authTimeout (bar : Fin 2)
  | phase2Start
  | phase3Start
  | phase3End
  | hmFold
  | segmentDurable
  | uplinkFrame (h : Fin 32) (words : List Word) (ahead : Nat) (cv : Nat) (fill : Nat := 8)
  | capabilityFrame (lane : Fin 36) (words : List Word) (cv : Nat := 0) (fill : Nat := 8)
  | probeEcho (lane : Fin 40) (rt : Nat)
  | latencyProbe (lane : Fin 40)
  | lol (lane : Fin 40) (cv : Nat)
  | los (lane : Fin 40)
  | elastic (lane : Fin 40)
  | linkFail (lane : Fin 40)
  | dfeLimit (lane : Fin 40) (tap : Fin 5 := 0) (up : Bool := false)
  | floatUplinkFrame (lane : Fin 4) (words : List Word) (cv : Nat) (fill : Nat := 8)
  | cascadeLaunch (missed : List (Fin 32) := [])
  | cascadeFrame (member : Fin 4) (words : List Word) (sof : Int) (reference : Bool) (cv : Nat := 0) (fill : Nat := 8) (prb : Bool := false)
  | cascMiss (member : Fin 4)
  | depart (member : Fin 4)
  | alignLost
  | safeIn (low : Bool)
  | frameBoundary (c : Fin 8)
  | frameStart (c : Fin 8) (hdrBad : Bool) (vc : Fin 16 := 0)
  | longPacket (c : Fin 8) (pixels : List Nat) (crcBad : Bool) (hdrBad : Bool) (vc : Fin 16 := 0) (ty : Fin 64 := 0x2C)
  | frameEnd (c : Fin 8) (hdrBad : Bool) (vc : Fin 16 := 0)
  | frameLost (c : Fin 8)
  | statsComplete (c : Fin 8)
  | darkReference (c : Fin 8)
  | defectMap (c : Fin 8)
  | flashStart (g : Fin 4)
  | flashSample (ch : Fin 24) (v : Nat) (cur : Nat)
  | flashEnd (g : Fin 4)
  | ledProbeSample (ch : Fin 24) (v : Nat) (vled : Nat)
  | stepIssue (axis : Fin 12)
  | moveBoundary (axis : Fin 12)
  | moveEnd (axis : Fin 12)
  | homing (axis : Fin 12)
  | encoderEdge (e : Fin 16) (la : Bool) (lb : Bool) (lz : Bool)
  | ssiRead (e : Fin 16) (data : Option Nat)
  | encSpeedWindow (e : Fin 16)
  | limitInput (input : Fin 24) (level : Bool) (raw : Nat)
  | measurementResult (bar : Fin 2)
  | dramRead (port : Fin 10) (line : Nat) (result : Nat) (ns : Nat) (who : Nat)
  | latMiss (port : Fin 10) (who : Nat)
  | refresh (hot : Bool)
  | driftCheck
  | selfRefreshEntry
  | selfRefreshExit
  | patrolScrub (line : Nat) (result : Nat)
  | sramUe (row : Fin 11) (who : Nat) (ce : Bool)
  | skimJob (blocks : List Machine.SkimBlock)
  | nandProgramDone (kind : Fin 3) (plane : Nat) (pass : Bool)
  | nandScrub (planes : List Nat) (lost : List (Nat × Nat))
  | storageRecovery (table : Fin 3) (bad : List Nat)
  | nandEnumeration (targets : List Machine.Target)
  | unexpectedLossOfPower
  | eventCompose
  | eventFlush (erase : Nat)
  | ptpRx (port : Fin 2) (msg : Machine.PtpMsg)
  | announceTimeout (inst : Fin 2) (offsets : Bool) (parent : Option (Nat × Nat))
  | ptpTx (port : Fin 2) (inst : Fin 2) (mt : Fin 4) (seq : Nat)
  | txTimestamp (port : Fin 2) (id : Nat) (stamp : Nat) (read : Bool)
  | linkDown (port : Fin 2)
  | acqTimeout
  | coreHomeEnd
  | thermalSample (idx : Fin 192) (value : Option Int)
  | throttleStep
  | pmuWindow (vmeas : Nat)
  | supplyLow (rail : Fin 6) (pg : Bool)
  | calRun (target : Fin 80) (meas : List (Word × Nat × Nat))
  | calibrateEnd (d : Fin 48) (ok : Bool) (ramps : Fin 4)
  | selftestEnd (d : Fin 48) (results : List Machine.BistRes)
  | coldReset
  | linkReset
  | badOpcode (ring : Fin 40)
  | synchronised (lane : Fin 40) (fill : Nat)
  | dfeAdaptationDone (lane : Fin 40) (taps : Word)
  | hostLinkUp
  | resetRelease
  | ethLinkUp (port : Fin 2)
  | nonceExpiry (which : Fin 2)
  | wearLevellingMove
  | warmResetAfterFwLoss
  deriving DecidableEq, Repr

end Sys2Proof
end

