-- ==== Sys2Proof/Decode.lean ====
section
/-!
DEFINITION. The command a word spells by the bits of the opcode table. The table gives no row any bits: a command is an
event at the block's pins, links and registers, and no word of the table's numbering spells one.
-/
namespace Sys2Proof

/-- The command read from a word: none, since no row of the table has bits. -/
def decodeTableWord (_nbits _w : Nat) : Option Instr := none

end Sys2Proof
end

