-- ==== Sys2Proof/Config.lean ====
section
/-!
DEFINITION. The free values of the model: opaque constants without a body, so that nothing can be
proved about which value the hardware produces.
-/
namespace Sys2Proof.Config

/-- A 32-bit value the spec leaves open, by a number of the draw. -/
opaque freeWord : Nat → BitVec 32

/-- The words of the identity key's public key and of its certificate (R502). -/
opaque identityWord : Nat → BitVec 32

/-- The device ID of OTP (LCS_ID). -/
opaque deviceId : BitVec 64

/-- The golden signatures that OTP holds for the logic units of R488 (R489). -/
opaque golden : Nat → BitVec 64

/-- The public keys of mask ROM (R502): firmware and manufacturing. -/
opaque firmwareKey : Nat × Nat
opaque manufacturingKey : Nat × Nat

end Sys2Proof.Config
end

