-- ==== Sys2Proof/Machine/CamTypes.lean ====
section
/-!
DEFINITION. Types of the camera pipelines (R283 to R303).
-/
namespace Sys2Proof.Machine

/-- A connected component of above pixels that is being built (R293): pixel count and moments relative to
the ROI origin, its first pixel's raster position, its peak, whether it touches the ROI's edge, and its runs
in the previous line and in the present one. -/
structure Comp where
  n : Nat
  sx : Nat
  sy : Nat
  sxx : Nat
  syy : Nat
  sxy : Nat
  first : Nat
  peak : Nat
  edge : Bool
  prev : List (Nat × Nat)
  cur : List (Nat × Nat)
  deriving DecidableEq, Repr

/-- A frame: its tags (R287), the settings captured at its boundary (R285), its place in time in 10 ns units of TB3 with
the last tick its exposure has reached, what was received, its statistics and components, and the image buffer it is
written to. `recorded` is the coat to whose record its entry goes. -/
structure CamFrame where
  num : Nat
  ctx : Nat
  gen : Nat
  cfg : Word
  size : Word
  defect : Word
  expw : Word
  proc : Word
  idle : Bool
  dark : Bool
  whole : Bool
  layer : Option Nat
  raw : Bool
  quiet : Bool
  recorded : Option Nat
  tick : Nat
  last : Nat
  ofs : Nat
  bound : Nat
  period : Nat
  expo : Nat
  x0 : Nat
  y0 : Nat
  w : Nat
  h : Nat
  clip : Bool
  buf : Option Nat
  base : Nat
  gated : Bool
  started : Bool
  lines : Nat
  short : Bool
  trunc : Bool
  lineErr : Bool
  lost : Bool
  hist : List Nat
  sum : Nat
  max : Nat
  above : Nat
  open' : List Comp
  closed : List Comp
  n12 : List Nat
  deriving DecidableEq, Repr

/-- The books of one camera (R289): frames triggered, ended, and the outstanding ones, oldest first. -/
structure CamBook where
  triggered : Nat
  ended : Nat
  frames : List CamFrame
  deriving DecidableEq, Repr

def CamBook.init : CamBook := ⟨0, 0, []⟩

inductive CamOp
  | trigger (f : CamFrame)
  | touch (f : CamFrame → CamFrame)
  | touchAll (f : CamFrame → CamFrame)
  | finish
  | clear

/-- The oldest outstanding frame changed. -/
def onFirst (f : CamFrame → CamFrame) : List CamFrame → List CamFrame
  | [] => []
  | x :: r => f x :: r

def camApply (c : CamBook) : CamOp → CamBook
  | .trigger f => { c with triggered := c.triggered + 1, frames := c.frames ++ [f] }
  | .touch f => { c with frames := onFirst f c.frames }
  | .touchAll f => { c with frames := c.frames.map f }
  | .finish => { c with ended := c.ended + min 1 c.frames.length, frames := c.frames.tail }
  | .clear => CamBook.init

/-- The sum of normalised pixels for a context's dark reference: frames, sum, pixels, and whether BLACK was written. -/
structure DarkSum where
  ctx : Nat
  frames : Nat
  sum : Nat
  count : Nat
  written : Bool
  deriving DecidableEq, Repr

/-- What a camera holds beside its books: the time its next boundary is scheduled at (10 ns of TB3), whether that is the
first since SETUP was entered from RESET or SELFTEST (R284), the schedule position, ended frames whose statistics are not
complete, the discarding of an unexpected frame, the next frame number, dark sums, defect-map sums (frames, per pixel),
whether the last map was accepted, the buffers the next layer image and the next service capture go to, and a layer frame
that is due with whether a tick edge has come since (R301). -/
structure Cam where
  due : Nat
  first : Bool
  pos : Nat
  ended : List CamFrame
  discard : Bool
  next : Nat
  dark : List DarkSum
  mapFrames : Nat
  mapSum : List Nat
  mapOk : Option Bool
  buf : Nat
  rawBuf : Nat
  layerDue : Option (Nat × Bool)
  lastBound : Nat
  lastExp : Nat
  deriving DecidableEq, Repr

def Cam.init : Cam := ⟨0, false, 0, [], false, 0, [], 0, [], none, 0, 0, none, 0, 0⟩

end Sys2Proof.Machine
end

