-- ==== Sys2Proof/Machine/FloatTypes.lean ====
section
/-!
DEFINITION. Types of the Float bars (R304 to R325): duty buckets, lines, halves, measurements.
-/
namespace Sys2Proof.Machine

/-- A duty bucket and its books (R313), in 1/1,024 token. -/
structure Tok where
  level : Nat
  committed : Nat
  initial : Nat
  refilled : Nat
  overflow : Nat
  spent : Nat
  deriving DecidableEq, Repr

def Tok.init : Tok := ⟨0, 0, 0, 0, 0, 0⟩

/-- A bucket that starts full. -/
def Tok.full (cap : Nat) : Tok := ⟨cap, 0, cap, 0, 0, 0⟩

/-- A bucket gains tokens and is cut to its capacity. -/
def Tok.refill (t : Tok) (amt cap : Nat) : Tok :=
  { t with
    level := min cap (t.level + amt)
    refilled := t.refilled + amt
    overflow := t.overflow + (t.level + amt - min cap (t.level + amt)) }

/-- Tokens move from the level to a line. -/
def Tok.commit (t : Tok) (amt : Nat) : Tok :=
  { t with level := t.level - min amt t.level, committed := t.committed + min amt t.level }

/-- Of a line's committed tokens some return to the level and the others are spent. -/
def Tok.settle (t : Tok) (amt back : Nat) : Tok :=
  let c := min amt t.committed
  let r := min back c
  { t with level := t.level + r, committed := t.committed - c, spent := t.spent + (c - r) }

/-- The buckets of a bar: of its emitters (none before the first SETUP), and its own. -/
structure TokBar where
  emit : List Tok
  bar : Tok
  deriving DecidableEq, Repr

def TokBar.init : TokBar := ⟨[], Tok.init⟩

inductive TokOp
  /-- Every bucket starts full (R313). -/
  | start (n ecap bcap : Nat)
  /-- The refill of a tick edge. -/
  | refill (eamt ecap bamt bcap : Nat)
  /-- A prepared line's tokens, by emitter. -/
  | commit (amts : List Nat)
  /-- The settlement of a line: its tokens by emitter, and what of them returns. -/
  | settle (amts backs : List Nat)
  | clear

/-- A function of a bucket and an amount applied down two lists; missing amounts are 0. -/
def tokZip (f : Tok → Nat → Tok) : List Tok → List Nat → List Tok
  | [], _ => []
  | t :: ts, [] => f t 0 :: tokZip f ts []
  | t :: ts, x :: xs => f t x :: tokZip f ts xs

def tokZip2 (f : Tok → Nat → Nat → Tok) : List Tok → List Nat → List Nat → List Tok
  | [], _, _ => []
  | t :: ts, xs, ys => f t (xs.headD 0) (ys.headD 0) :: tokZip2 f ts xs.tail ys.tail

def tokApply (t : TokBar) : TokOp → TokBar
  | .start n ecap bcap => ⟨List.replicate n (Tok.full ecap), Tok.full bcap⟩
  | .refill ea ec ba bc => ⟨t.emit.map fun x => x.refill ea ec, t.bar.refill ba bc⟩
  | .commit amts => ⟨tokZip Tok.commit t.emit amts, t.bar.commit amts.sum⟩
  | .settle amts backs => ⟨tokZip2 Tok.settle t.emit amts backs, t.bar.settle amts.sum backs.sum⟩
  | .clear => TokBar.init

/-- A line from its preparation to its end: number, final codes, their level bank and on-times in tokens,
flags of its record, its boundary (tick and offset), its start, its blank instant on each half (10 ns of TB3),
whether it is exposed, which halves started it and which held no data, and the highest temperature seen. -/
structure Line where
  n : Nat
  codes : List Nat
  bank : Nat
  amts : List Nat
  flags : Nat
  tick : Nat
  ofs : Nat
  start : Nat
  blank : List (Option Nat)
  exposed : Bool
  seen : List Bool
  nodata : List Bool
  tmax : Int
  deriving DecidableEq, Repr

/-- A measurement reading: V_LO, V_HI, OPEN, SHORT, VALID. -/
structure Reading where
  lo : Nat
  hi : Nat
  isOpen : Bool
  short : Bool
  valid : Bool
  deriving DecidableEq, Repr

/-- One half of a bar: what its last accepted frame said, whether one waits for the bead, the run of lost
frames, the frame last launched (its SEQ), whether the data of the prepared line was sent, the ticks at which it was sent
the level banks with the levels sent, the line whose FIRE it was last sent in the work at hand, its temperatures with the TB2
nanosecond they came, and a measurement reading not yet processed. -/
structure Half where
  sentSeq : Option Nat
  rx : Bool
  why : Nat
  lost : Nat
  lastLine : Nat
  late : Bool
  dataLine : Nat
  dataSent : Bool
  flags : Nat
  bankOk : Nat
  bankAt : List (Option (Nat × List Nat))
  fired : Option Nat
  temps : List Nat
  tempsAt : Option Nat
  reading : Option (Nat × Reading)
  deriving DecidableEq, Repr

def Half.init : Half := ⟨none, false, 0, 0, 0, false, 0, false, 0, 0, [none, none], none, [0, 0, 0, 0], none, none⟩

/-- What a measurement is for: CALIBRATE, FLT_MEASURE of a ring, or rotation in ARMED. -/
inductive MeasKind
  | calibrate | command (ring : Fin 40) | rotate
  deriving DecidableEq, Repr

/-- A measurement job: the emitter at hand and the one past the last, the readings taken, whether a measure
frame is out, and whether any result was invalid. -/
structure MeasJob where
  kind : MeasKind
  next : Nat
  stop : Nat
  got : List Reading
  asked : Bool
  failed : Bool
  deriving DecidableEq, Repr

/-- The authentication of a bar: the nonce of the challenge out and its TB2 deadline, whether the challenge
is still to be sent. -/
structure Auth where
  nonce : List Word
  deadline : Nat
  tosend : Bool
  deriving DecidableEq, Repr

/-- A FLT_FIRE in progress: ring, emitter, code asked for, the code used with the moment its on-time ends. -/
structure Fire where
  ring : Fin 40
  emitter : Nat
  code : Nat
  used : Option (Nat × Nat)
  deriving DecidableEq, Repr

/-- One bar: work in the coat, program slot, next line to bound, the line prepared for it and the line in
progress, ended lines whose records wait for the last reports, the time of the last boundary, conditions, halves, measurement, rotation, hides to come, challenge
and the last authenticated counters' presence, a single firing. -/
structure Bar where
  work : Bool
  slot : Nat
  fresh : Bool
  next : Nat
  prep : Option Line
  cur : Option Line
  past : List (Line × Nat)
  lastBound : Option Nat
  lastLine : Nat
  hard : Bool
  soft : Bool
  blankReq : Bool
  halves : List Half
  meas : List MeasJob
  rot : Nat
  hide : List Nat
  calOk : Option Bool
  auth : Option Auth
  fire : Option Fire
  deriving DecidableEq, Repr

def Bar.init : Bar where
  work := false
  slot := 15
  fresh := false
  next := 0
  prep := none
  cur := none
  past := []
  lastBound := none
  lastLine := 0
  hard := false
  soft := false
  blankReq := false
  halves := [Half.init, Half.init]
  meas := []
  rot := 0
  hide := []
  calOk := none
  auth := none
  fire := none

end Sys2Proof.Machine
end

