-- ==== Sys2Proof/Machine/LedTypes.lean ====
section
/-!
DEFINITION. Types of the illumination drive (R361 to R372).
-/
namespace Sys2Proof.Machine

/-- One channel: on, measured at least once, sampled in the present flash, kept out of flashes until its probe
samples are good, how many of them in a row are, and the runs of samples that show OPEN and SHORT. -/
structure LedCh where
  on : Bool
  measured : Bool
  sampled : Bool
  barred : Bool
  good : Nat
  opens : Nat
  shorts : Nat
  deriving DecidableEq, Repr

def LedCh.init : LedCh := ⟨false, false, false, false, 0, 0, 0⟩

/-- The settings of a group that a flash takes from its frame's boundary (R363): the words of LED_GRP_DRIVE, LED_GRP_TC and
LED_GRP_DISS, and VALUE of each channel. -/
structure LedSet where
  drive : Word
  tc : Word
  diss : Word
  vals : List Nat
  deriving DecidableEq, Repr

def LedSet.init : LedSet := ⟨0, 0, 0, []⟩

/-- A flash that is due: its start and on-time in 10 ns of TB3, and its settings. -/
structure LedDue where
  at' : Nat
  width : Nat
  set : LedSet
  deriving DecidableEq, Repr

/-- One colour group: the flashes that are due, oldest first, the flash in progress (start, end), the settings the
channels are driven with, corr, and the dissipation bucket in 10⁻⁸ µJ with the time it was last brought up to. -/
structure LedGrp where
  due : List LedDue
  flash : Option (Nat × Nat)
  cur : LedSet
  corr : Int
  level : Nat
  upTo : Nat
  deriving DecidableEq, Repr

def LedGrp.init : LedGrp := ⟨[], none, LedSet.init, 65536, 0, 0⟩

end Sys2Proof.Machine
end

