-- ==== Sys2Proof/Machine/LinkTypes.lean ====
section
/-!
DEFINITION. Types of the serial lanes (R220 to R252).
-/
namespace Sys2Proof.Machine

/-- A downlink tick frame as launched (R235), without its CRC. -/
structure DownFrame where
  seq : Nat
  tph : Nat
  arm : Bool
  gate0 : Bool
  edges : List Nat
  rep : Bool
  demand : List Int
  power : Nat
  upOfs : Nat
  period : Nat
  deriving DecidableEq, Repr

/-- An accepted uplink tick frame (R237) that waits for its sample bead: positions, the validity of each
sample after R239, temperatures, and the photodiode block, oldest sample first. -/
structure Rx where
  pos : List Int
  good : List Bool
  temps : List Nat
  pd : List (Nat × Nat)
  deriving DecidableEq, Repr

/-- What a latency measurement in progress is for (R241). -/
inductive Meas
  | none | bringUp | calibrate
  deriving DecidableEq, Repr

/-- One lane: the TB2 nanosecond of step 1, or of the loss of synchronisation of a lane that was UP, signal, DFE and probe
progress with a probe on its way (`flying`) and the tick edges since the last probe of R241 (`sinceProbe`), whether its
receiver's calibration in step 3 was accepted (R479), the last 64 round trips in 0.32 ns units (newest first), the frames
launched at the last two edges, what has arrived for the next bead and the reason bits of a frame that was not accepted,
the runs of lost and of accepted frames, whether a CALIBRATE measurement was ever accepted, and the last one, sensor
history with each axis's last valid position and the tick edges since, the hold of R244, the periods of DEP left, and the
temperatures of the newest accepted frame with its TB2 nanosecond. -/
structure Lane where
  start : Nat
  signal : Bool
  dfe : Bool
  meas : Meas
  flying : Bool
  rtts : List Nat
  await : Nat
  tries : Nat
  calDone : Bool
  calOk : Bool
  sinceProbe : Nat
  sent : Option DownFrame
  before : Option DownFrame
  third : Option DownFrame
  rx : Option Rx
  why : Nat
  broken : Bool
  lost : Nat
  okRun : Nat
  scnt : List (Option Nat)
  lastPos : List (Option (Int × Nat))
  enDiff : Bool
  hold : Bool
  depLeft : Nat
  temps : List Nat
  tempsAt : Option Nat
  cal : Bool
  deriving DecidableEq, Repr

def Lane.init : Lane where
  start := 0
  signal := true
  dfe := false
  meas := .none
  flying := false
  rtts := []
  await := 0
  tries := 0
  calDone := false
  calOk := false
  sinceProbe := 0
  sent := none
  before := none
  third := none
  rx := none
  why := 0
  broken := false
  lost := 0
  okRun := 0
  scnt := [none, none, none]
  lastPos := [none, none, none]
  enDiff := false
  hold := false
  depLeft := 0
  temps := []
  tempsAt := none
  cal := false

end Sys2Proof.Machine
end

