-- ==== Sys2Proof/Machine/PathTypes.lean ====
section
/-!
DEFINITION. Types of the Trowel engines: pieces of a planned path, and the state of one head.
-/
namespace Sys2Proof.Machine

/-- A stretch of constant jerk: duration in ps, speed in path units per second at its start,
acceleration at its start and jerk. A path unit is 2⁻¹⁶ bed LSB (R136). -/
structure Phase where
  dur : Nat
  v : Int
  a : Int
  j : Int
  deriving DecidableEq, Repr

/-- A position in the bed plane, in path units. -/
structure P2 where
  x : Int
  y : Int
  deriving DecidableEq, Repr

/-- The course of a piece. An arc gives its centre, its start radius vector, its radii and its signed
sweep in 2⁻³² turns. -/
inductive Geo
  | rest (p : P2)
  | line (p q : P2)
  | arc (c u : P2) (r0 r1 : Int) (sweep : Int)
  deriving DecidableEq, Repr

/-- What a piece of the path is. -/
inductive PieceKind
  | connector | runIn | main | runOut | blend | dwell | stop
  deriving DecidableEq, Repr

/-- A piece: its course with length, its speed profile, its stroke, the path length into the stroke at
which it begins and that into its course at which it ends, whether the laser is on, nominal power at start and end of the stroke, its speed for the
scaling of R144, and the focus heights at the stroke's ends. `amp`, `per` and `shape` are the wobble of R146: amplitude
in path units, period and shape; period 0 for none. `sofs` is the path length into the stroke at which the course
begins; of a connector and a run-in, that at which the stroke is taken up, and `bl` that into the blend after it; `vout` is the speed
with which the piece hands over to the next stroke. -/
structure Piece where
  kind : PieceKind
  geo : Geo
  len : Int
  prof : List Phase
  stroke : Nat
  ofs : Int
  fin : Int
  lit : Bool
  pa : Nat
  pb : Nat
  vs : Int
  slen : Int
  z0 : Int
  z1 : Int
  amp : Int
  per : Nat
  shape : Nat
  sofs : Int
  bl : Int
  vout : Int
  deriving DecidableEq, Repr

/-- A gate edge that waits for its frame: its emission time in 10 ns units from the start of the next
frame to be computed, its sense, its stroke and run, and the GATE_MERGE that run began with (R16). -/
structure Edge where
  t : Int
  on : Bool
  stroke : Nat
  run : Option Key
  merge : Nat
  deriving DecidableEq, Repr

/-- A piece followed within a tick: from `tau` ps into the tick, entered at `el` ps of its profile. -/
structure Follow where
  tau : Nat
  piece : Piece
  el : Nat
  deriving DecidableEq, Repr

/-- The command path of one tick, kept until its emission (R153): position with the wobble's offset, power, run and path
point at the tick's end, and the pieces followed in it, the latest first. -/
structure Hist where
  p : P2
  w : P2
  power : Nat
  run : Option Key
  point : Point
  segs : List Follow
  deriving DecidableEq, Repr

/-- The state codes of TRW_HEAD_STATE. -/
inductive HState
  | parked | connector | run | yield | hold | orderWait | starved | dwellBetween | emergency
  deriving DecidableEq, Repr

def hstateCode : HState → Nat
  | .parked => 0 | .connector => 1 | .run => 2 | .yield => 3 | .hold => 4 | .orderWait => 5
  | .starved => 6 | .dwellBetween => 7 | .emergency => 8

/-- The frame computed for an emission tick: level at its start, edges, nominal power, the spot, and the run and path
point it belongs to. -/
structure Emit where
  level : Bool
  edges : List Nat
  power : Nat
  spot : Option P2
  run : Option Key
  point : Option Point
  deriving DecidableEq, Repr

def Emit.dark : Emit := ⟨false, [], 0, none, none, none⟩

/-- One head of a Trowel engine. `unbegun` says that the run's first stroke is not yet planned (R142), `seqLeft` is the
time of the strokes that follow in a wobble sequence in ps (R146), `zh` the focus height last reached (R148), `dirs` the
directions of the X and Y ramps of CALIBRATE and `calLag` the following distance over the velocity at the end of each, in
ps: X up and down, Y up and down (R149). -/
structure Trowel where
  st : HState
  run : Option Key
  stroke : Nat
  pieces : List Piece
  el : Nat
  pos : P2
  sp : List Int
  next : List Int
  spFrom : List Int
  spTicks : Nat
  gate : Bool
  edges : List Edge
  hist : List Hist
  emit : Emit
  dwellLeft : Nat
  dwellDone : Nat
  wobble : Nat
  rest : Nat
  cleanTicks : Nat
  holdTicks : Nat
  yieldAge : Nat
  probes : Nat
  accepted : Bool
  cmdLit : Bool
  trimIn : Int
  resume : Option Point
  cleared : Bool
  lastPatch : Option Key
  bset : List Word
  lateRow : List Nat
  missed : Bool
  unbegun : Bool
  seqLeft : Nat
  zh : Int
  dirs : List Bool
  calLag : List Nat
  deriving DecidableEq, Repr

/-- No gate is on and no gate edge is still to be emitted. -/
def Trowel.isOut (t : Trowel) : Bool := !t.gate && t.edges.isEmpty

def Trowel.init : Trowel where
  st := .parked
  run := none
  stroke := 0
  pieces := []
  el := 0
  pos := ⟨0, 0⟩
  sp := [0, 0, 0]
  next := [0, 0, 0]
  spFrom := [0, 0, 0]
  spTicks := 0
  gate := false
  edges := []
  hist := []
  emit := Emit.dark
  dwellLeft := 0
  dwellDone := 0
  wobble := 0
  rest := 0
  cleanTicks := 0
  holdTicks := 0
  yieldAge := 0
  probes := 0
  accepted := false
  cmdLit := false
  trimIn := 0
  resume := none
  cleared := false
  lastPatch := none
  bset := List.replicate 16 0
  lateRow := [0, 0, 0, 0]
  missed := false
  unbegun := false
  seqLeft := 0
  zh := 0
  dirs := [true, true]
  calLag := [0, 0, 0, 0]

end Sys2Proof.Machine
end

