-- ==== Sys2Proof/Machine/MotTypes.lean ====
section
/-!
DEFINITION. Types of the motion axes and encoders (R326 to R360).
-/
namespace Sys2Proof.Machine

/-- A ratio change of a GEAR move: master position, numerator, denominator, downward crossing. -/
structure Ratio where
  pos : Int
  num : Int
  den : Nat
  down : Bool
  deriving DecidableEq, Repr

/-- A queued move (R333): kind 0 POS_ABS, 1 POS_REL, 2 VEL, 3 GEAR, 4 STOP; an entry of the carriage
program carries its index and WAIT. -/
structure Move where
  kind : Nat
  target : Int
  scale : Nat
  num : Int
  den : Nat
  changes : List Ratio
  notify : Bool
  seq : Nat
  prog : Option Nat
  wait : Bool
  deriving DecidableEq, Repr

/-- A move in progress: its STATE code of MOT_AXIS_MSTAT, the limits captured at its boundary, the time its
profile starts (10 ns of TB3) and the part generated (ps), the profile with signed speeds in 2⁻¹⁶ step, the
travel it starts from, the net steps generated, the target of a POS move, the moment it ends, whether a stop
has cut it short, and whether its rest is not the end of a move. -/
structure Going where
  state : Nat
  move : Move
  vlim : Int
  acc : Int
  dec : Int
  jerk : Int
  t0 : Nat
  el : Nat
  prof : List Phase
  base : Int
  cnt : Int
  goal : Int
  ended : Bool
  endAt : Nat
  halting : Bool
  quiet : Bool
  deriving DecidableEq, Repr

/-- Following a master encoder (R341): master and target origin, ratio, changes left, the last target, the
filtered master position last seen, and the lag. -/
structure Gear where
  enc : Nat
  m0 : Int
  t0 : Int
  num : Int
  den : Nat
  changes : List Ratio
  last : Int
  seenH : Int
  lag : Int
  deriving DecidableEq, Repr

/-- One side of an axis as R353 watches it: the raw changes of the last CHAT_WIN ms, each number with its TB2
millisecond, the millisecond of the last one, and whether moves toward it are inhibited. -/
structure Chat where
  raws : List (Nat × Nat)
  lastRaw : Nat
  inh : Bool
  deriving DecidableEq, Repr

/-- One axis: queue, move in progress, steps fixed and not yet issued (time, positive), time and direction of
the last step fixed, sequence number, what HOLD interrupted, calibration jogs left, stall references and run, homing step with the
latch point, the steps of the last gear tick, the moment its last move ended at rest (10 ns of TB3), and chatter. -/
structure Mot where
  queue : List Move
  go : Option Going
  gear : Option Gear
  planned : List (Nat × Bool)
  lastAt : Nat
  lastPos : Bool
  seq : Nat
  resume : Option Move
  jog : List Move
  hR : Int
  cR : Int
  stall : Nat
  home : Nat
  latch : Option Int
  homeMark : Option Int
  homeOk : Bool
  lastN : Int
  restAt : Nat
  chatPos : Chat
  chatNeg : Chat
  deriving DecidableEq, Repr

def Mot.init : Mot where
  queue := []
  go := none
  gear := none
  planned := []
  lastAt := 0
  lastPos := true
  seq := 0
  resume := none
  jog := []
  hR := 0
  cR := 0
  stall := 0
  home := 0
  latch := none
  homeMark := none
  homeOk := false
  lastN := 0
  restAt := 0
  chatPos := ⟨[], 0, false⟩
  chatNeg := ⟨[], 0, false⟩

/-- One encoder beside its registers: accepted line levels, the error window, the speed window, the position
of H at the last index event with whether D has changed since and whether the last check failed, the checks
of a calibration jog (upward, downward, failed), and the last SSI reading with the time of its last clock. -/
structure Enc where
  a : Bool
  b : Bool
  z : Bool
  errs : Nat
  errFrom : Nat
  spdPos : Int
  spdFrom : Nat
  idxH : Option Int
  turned : Bool
  bad : Bool
  up : Nat
  down : Nat
  fails : Nat
  ssi : Option Nat
  ssiAt : Nat
  deriving DecidableEq, Repr

def Enc.init : Enc := ⟨false, false, false, 0, 0, 0, 0, none, false, false, 0, 0, 0, none, 0⟩

/-- A divided output: accumulator, counts that wait, the counts it may still issue in this tick, and its
quadrature phase. -/
structure DivOut where
  acc : Int
  waiting : List Bool
  room : Nat
  phase : Nat
  deriving DecidableEq, Repr

def DivOut.init : DivOut := ⟨0, [], 0, 0⟩

/-- The carriage program (R338, R339): entries whose moves have not ended, whether one is running, held or
refused, and the coat's layer and slot. -/
structure Carriage where
  left : List Nat
  running : Bool
  held : Bool
  bad : Bool
  slot : Nat
  layer : Nat
  deriving DecidableEq, Repr

def Carriage.init : Carriage := ⟨[], false, false, false, 15, 0⟩

end Sys2Proof.Machine
end

