-- ==== Sys2Proof/Machine/ServoTypes.lean ====
section
/-!
DEFINITION. The state of one servo axis (R199 to R217).
-/
namespace Sys2Proof.Machine

/-- States of a biquad in direct form I (R204). -/
structure Bq where
  x1 : Int
  x2 : Int
  y1 : Int
  y2 : Int
  deriving DecidableEq, Repr

/-- One scan axis: controller states, biquads with their enables as last used, plausibility model, the
last computed e, i, u and res, the demand launched at the present edge and the one for the next, the
position sample with its validity, and the conditions of the sticky flags at the previous edge. -/
structure Axis where
  q : Int
  rPrev : Int
  vPrev : Int
  ePrev : Int
  bq1 : Bq
  bq2 : Bq
  en1 : Bool
  en2 : Bool
  shKi : Nat
  ilim : Int
  bank : Nat
  m : Int
  mPred : Int
  wv : Int
  ic : Int
  excess : Nat
  e : Int
  i : Int
  u : Int
  res : Int
  demand : Int
  next : Int
  y : Int
  valid : Bool
  miss : Nat
  loop : Bool
  tripped : Bool
  cArith : Bool
  cI : Bool
  cOut : Bool
  cPlaus : Bool
  deriving DecidableEq, Repr

def Axis.init : Axis where
  q := 0
  rPrev := 0
  vPrev := 0
  ePrev := 0
  bq1 := ⟨0, 0, 0, 0⟩
  bq2 := ⟨0, 0, 0, 0⟩
  en1 := false
  en2 := false
  shKi := 0
  ilim := 0
  bank := 0
  m := 0
  mPred := 0
  wv := 0
  ic := 0
  excess := 0
  e := 0
  i := 0
  u := 0
  res := 0
  demand := 0
  next := 0
  y := 0
  valid := false
  miss := 0
  loop := false
  tripped := false
  cArith := false
  cI := false
  cOut := false
  cPlaus := false

end Sys2Proof.Machine
end

