-- ==== Sys2Proof/Machine/PergolaTypes.lean ====
section
/-!
DEFINITION. Types of plume exclusion and of the cascade exchange (R183 to R192, R250 to R252).
-/
namespace Sys2Proof.Machine

/-- A proposal or probe of a head for an emission tick (R189). -/
structure Item where
  cls : Nat
  age : Nat
  ghead : Nat
  x : Int
  y : Int
  probe : Bool
  cluster : Nat
  deriving DecidableEq, Repr

/-- A spot kept in the persistence set (R184). -/
structure Spot where
  tick : Nat
  ghead : Nat
  x : Int
  y : Int
  cluster : Nat
  deriving DecidableEq, Repr

/-- What this part holds of another member: whether it is in the exchange, the tick count and check value
of its latest frame, its items, consecutive misses, the coat it is ready for, the emission tick up to which
shared clusters are refused (R191), the mask of clusters it holds heads in, whether it departed, whether a frame of it has
been seen, and whether it leaves the exchange at the next edge (R192). -/
structure Peer where
  present : Bool
  tick : Nat
  check : Nat
  items : List Item
  misses : Nat
  ready : Nat
  until_ : Nat
  clusters : Nat
  departed : Bool
  seen : Bool
  leaving : Bool
  deriving DecidableEq, Repr

def Peer.init : Peer := ⟨false, 0, 0, [], 0, 0, 0, 0, false, false, false⟩

end Sys2Proof.Machine
end

