-- ==== Sys2Proof/Machine/RegTable.lean ====
section
/-!
DEFINITION. The register map as data (R9, R12, R534, R538, R540): for every register its offset, its
array dimensions, its words, its reset value, the commit class of its shadow, the distance of its
active copy, and its fields with type and accepted range. Read-only fields appear only when they are
occurrence counters (R545). Written from the register tables of spec/00 to spec/23.
-/
namespace Sys2Proof.Machine

/-- The commit classes of R12 that have a boundary, in the bit order of SEQ_COMMIT.PENDING. -/
inductive Cls
  | tick | stroke | run | patch | coat | frame | line | mov
  deriving DecidableEq, Repr

/-- The field types of R9; `occ` is a read-only field described as an occurrence counter. -/
inductive FTy
  | rw | rws | wo | w1c | rc | occ
  deriving DecidableEq, Repr

/-- A field: lowest bit, width, type, least and greatest accepted value (R538). -/
structure FieldDef where
  lo : Nat
  w : Nat
  ty : FTy
  min : Nat
  max : Nat
  deriving DecidableEq, Repr

/-- A register or an array of registers. `dims` lists count and stride, outermost first; `act` is the
distance from a shadow to its active copy. -/
structure RegDef where
  name : String
  off : Nat
  dims : List (Nat × Nat)
  words : Nat
  reset : Nat
  cls : Option Cls
  act : Option Nat
  fields : List FieldDef
  deriving DecidableEq, Repr

def regsSYS : List RegDef := [
  ⟨"SYS_TICK", 0x100, [], 1, 0x1400, some .coat, some 0x4, [⟨0, 2, .rws, 0, 2⟩, ⟨8, 7, .rws, 1, 99⟩]⟩,
  ⟨"SYS_TICK_ACT", 0x104, [], 1, 0x1400, none, none, []⟩,
  ⟨"SYS_SLACK", 0x400, [(25, 0x8)], 1, 0xFFFF, none, none, []⟩,
  ⟨"SYS_LATE", 0x404, [(25, 0x8)], 1, 0x0, none, none, [⟨0, 1, .w1c, 0, 1⟩, ⟨1, 1, .w1c, 0, 1⟩, ⟨4, 12, .occ, 0, 0⟩, ⟨16, 16, .occ, 0, 0⟩]⟩,
  ⟨"SYS_SLACK_REARM", 0x500, [], 1, 0x0, none, none, [⟨0, 25, .wo, 0, 0x1ffffff⟩]⟩,
  ⟨"SYS_ABORT", 0x600, [], 1, 0x0, none, none, [⟨0, 1, .wo, 0, 1⟩, ⟨1, 1, .wo, 0, 1⟩]⟩,
  ⟨"SYS_BOOT_ADDR", 0x700, [], 2, 0x0, none, none, [⟨12, 52, .rw, 0, 0xfffffffffffff⟩]⟩,
  ⟨"SYS_BOOT_CTRL", 0x708, [], 1, 0x640000, none, none, [⟨0, 1, .wo, 0, 1⟩, ⟨1, 1, .wo, 0, 1⟩, ⟨16, 16, .rw, 1, 65534⟩]⟩,
  ⟨"SYS_BOOT_STAT", 0x70C, [], 1, 0x0, none, none, []⟩,
  ⟨"SYS_RESET", 0x710, [], 1, 0x0, none, none, [⟨0, 16, .wo, 0, 65535⟩]⟩,
  ⟨"SYS_BOOT_ABSENT", 0x718, [], 1, 0x0, none, none, []⟩,
  ⟨"SYS_OCC_CLR", 0x800, [], 1, 0x0, none, none, [⟨0, 5, .wo, 0, 31⟩, ⟨8, 1, .wo, 0, 1⟩]⟩,
  ⟨"SYS_MAP_STAT", 0x810, [], 1, 0x0, none, none, [⟨0, 1, .w1c, 0, 1⟩, ⟨1, 1, .w1c, 0, 1⟩, ⟨16, 8, .occ, 0, 0⟩, ⟨24, 8, .occ, 0, 0⟩]⟩,
  ⟨"SYS_MAP_LAST", 0x814, [], 1, 0x0, none, none, []⟩]

def regsHIF : List RegDef := [
  ⟨"HIF_WD", 0x10100, [], 1, 0x0, none, none, [⟨0, 16, .rw, 0, 65534⟩]⟩,
  ⟨"HIF_IRQ_VEC", 0x10104, [], 1, 0x0, none, none, [⟨0, 8, .rw, 0, 255⟩, ⟨8, 8, .rw, 0, 255⟩]⟩,
  ⟨"MSIX_TABLE", 0x18000, [(256, 0x10)], 1, 0, none, none, [⟨0, 32, .rw, 0, 0xFFFFFFFF⟩]⟩,
  ⟨"MSIX_TABLE", 0x18004, [(256, 0x10)], 1, 0, none, none, [⟨0, 32, .rw, 0, 0xFFFFFFFF⟩]⟩,
  ⟨"MSIX_TABLE", 0x18008, [(256, 0x10)], 1, 0, none, none, [⟨0, 32, .rw, 0, 0xFFFFFFFF⟩]⟩,
  ⟨"MSIX_TABLE", 0x1800C, [(256, 0x10)], 1, 1, none, none, [⟨0, 1, .rw, 0, 1⟩]⟩,
  ⟨"MSIX_PBA", 0x19000, [(8, 0x4)], 1, 0, none, none, []⟩]

def regsRING : List RegDef := [
  ⟨"RING_NUDGE", 0x20000, [], 1, 0x0, none, none, [⟨0, 32, .wo, 0, 0xffffffff⟩]⟩,
  ⟨"RING_DB_BASE", 0x20008, [], 2, 0x0, none, none, [⟨11, 53, .rw, 0, 0x1fffffffffffff⟩]⟩,
  ⟨"RING_DB_CFG", 0x20010, [], 1, 0x5, none, none, [⟨0, 7, .rw, 1, 100⟩]⟩,
  ⟨"RING_DB_STAT", 0x20014, [], 1, 0x0, none, none, [⟨0, 1, .w1c, 0, 1⟩, ⟨1, 1, .w1c, 0, 1⟩, ⟨16, 16, .occ, 0, 0⟩]⟩,
  ⟨"RING_CTRL", 0x21000, [(256, 0x20)], 1, 0x28000000, none, none, [⟨0, 1, .rw, 0, 1⟩, ⟨4, 5, .rw, 0, 31⟩, ⟨16, 8, .rw, 0, 255⟩, ⟨24, 8, .rw, 0, 255⟩]⟩,
  ⟨"RING_BASE", 0x21008, [(256, 0x20)], 2, 0x0, none, none, [⟨12, 52, .rw, 0, 0xfffffffffffff⟩]⟩,
  ⟨"RING_IDX", 0x21010, [(256, 0x20)], 2, 0x0, none, none, [⟨0, 32, .rw, 0, 0xffffffff⟩]⟩,
  ⟨"RING_ERR", 0x21018, [(256, 0x20)], 1, 0x0, none, none, [⟨1, 1, .w1c, 0, 1⟩, ⟨16, 16, .occ, 0, 0⟩]⟩,
  ⟨"RING_MOD", 0x2101C, [(256, 0x20)], 1, 0x1, none, none, [⟨0, 8, .rw, 1, 255⟩, ⟨16, 10, .rw, 0, 1023⟩]⟩]

def regsSEQ : List RegDef := [
  ⟨"SEQ_DOM_STAT", 0x32000, [(48, 0x20)], 1, 0x100, none, none, []⟩,
  ⟨"SEQ_DOM_CFG", 0x32004, [(48, 0x20)], 1, 0x4000, some .coat, some 0x8000, [⟨0, 1, .rws, 0, 1⟩, ⟨8, 8, .rws, 1, 255⟩]⟩,
  ⟨"SEQ_COMMIT", 0x32008, [(48, 0x20)], 1, 0x0, none, none, []⟩,
  ⟨"SEQ_COAT", 0x33000, [], 1, 0x0, none, none, []⟩]

def regsTRW : List RegDef := [
  ⟨"TRW_LOAD", 0x40100, [(8, 0x4)], 1, 0x23A01EA, none, none, []⟩,
  ⟨"TRW_BUDGET", 0x40140, [], 1, 0x3E8, none, none, []⟩,
  ⟨"TRW_HEAD_CFG", 0x41000, [(32, 0x80)], 1, 0x0, some .coat, some 0x1000, [⟨0, 1, .rws, 0, 1⟩, ⟨1, 1, .rws, 0, 1⟩, ⟨2, 1, .rws, 0, 1⟩, ⟨3, 1, .rws, 0, 1⟩, ⟨4, 2, .rws, 0, 2⟩]⟩,
  ⟨"TRW_HEAD_RUNCFG", 0x41008, [(32, 0x80)], 1, 0x501F4, some .run, some 0x1000, [⟨0, 16, .rws, 1, 65534⟩, ⟨16, 8, .rws, 0, 255⟩]⟩,
  ⟨"TRW_HEAD_GAP", 0x4100C, [(32, 0x80)], 1, 0x0, some .run, some 0x1000, [⟨0, 16, .rws, 0, 65534⟩]⟩,
  ⟨"TRW_HEAD_LAG_ON", 0x41010, [(32, 0x80)], 1, 0x0, some .coat, some 0x1000, [⟨0, 20, .rws, 0, 0x30d40⟩]⟩,
  ⟨"TRW_HEAD_LAG_OFF", 0x41014, [(32, 0x80)], 1, 0x0, some .coat, some 0x1000, [⟨0, 20, .rws, 0, 0x30d40⟩]⟩,
  ⟨"TRW_HEAD_WIN", 0x41018, [(32, 0x80), (4, 0x4)], 1, 0x0, some .coat, some 0x1000, [⟨0, 32, .rws, 0, 0xffffffff⟩]⟩,
  ⟨"TRW_HEAD_ZCFG", 0x41028, [(32, 0x80)], 1, 0x100, some .coat, some 0x1000, [⟨0, 16, .rws, 1, 65535⟩]⟩,
  ⟨"TRW_HEAD_ZGAIN", 0x4102C, [(32, 0x80)], 1, 0x0, some .coat, some 0x1000, [⟨0, 32, .rws, 0, 0xffffffff⟩]⟩,
  ⟨"TRW_HEAD_ZPARK", 0x41030, [(32, 0x80)], 1, 0x0, some .coat, some 0x1000, [⟨0, 32, .rws, 0, 0xffffffff⟩]⟩,
  ⟨"TRW_HEAD_EMACC", 0x41034, [(32, 0x80)], 1, 0x2FAF080, some .coat, some 0x1000, [⟨0, 32, .rws, 1, 0xfffffffe⟩]⟩,
  ⟨"TRW_HEAD_EMJERK", 0x41038, [(32, 0x80)], 1, 0xBEBC200, some .coat, some 0x1000, [⟨0, 32, .rws, 1, 0xfffffffe⟩]⟩,
  ⟨"TRW_HEAD_STATE", 0x4103C, [(32, 0x80)], 1, 0x0, none, none, []⟩,
  ⟨"TRW_HEAD_STAT", 0x41040, [(32, 0x80)], 1, 0x0, none, none, [⟨0, 1, .w1c, 0, 1⟩, ⟨1, 1, .w1c, 0, 1⟩, ⟨2, 1, .w1c, 0, 1⟩, ⟨3, 1, .w1c, 0, 1⟩, ⟨4, 1, .w1c, 0, 1⟩, ⟨5, 1, .w1c, 0, 1⟩, ⟨6, 1, .w1c, 0, 1⟩, ⟨7, 1, .w1c, 0, 1⟩]⟩,
  ⟨"TRW_HEAD_OCC", 0x41044, [(32, 0x80)], 1, 0x0, none, none, [⟨0, 4, .occ, 0, 0⟩, ⟨4, 4, .occ, 0, 0⟩, ⟨8, 4, .occ, 0, 0⟩, ⟨12, 4, .occ, 0, 0⟩, ⟨16, 4, .occ, 0, 0⟩, ⟨20, 4, .occ, 0, 0⟩, ⟨24, 4, .occ, 0, 0⟩, ⟨28, 4, .occ, 0, 0⟩]⟩,
  ⟨"TRW_CTX_BASE", 0x44000, [(128, 0x20)], 2, 0x0, none, none, [⟨16, 21, .rw, 0, 0x1fffff⟩]⟩,
  ⟨"TRW_CTX_CFG", 0x44008, [(128, 0x20)], 1, 0x10, none, none, [⟨0, 5, .rw, 16, 26⟩]⟩,
  ⟨"TRW_CTX_STAT", 0x4400C, [(128, 0x20)], 1, 0x800, none, none, []⟩,
  ⟨"TRW_CTX_RUNS", 0x44010, [(128, 0x20)], 1, 0x0, none, none, []⟩]

def regsOVL : List RegDef := [
  ⟨"OVL_CFG", 0x50000, [], 1, 0x1001900, some .coat, some 0x8000, [⟨0, 1, .rws, 0, 1⟩, ⟨4, 12, .rws, 1, 4095⟩, ⟨16, 16, .rws, 0, 65534⟩]⟩,
  ⟨"OVL_PASS", 0x50004, [], 1, 0x0, some .coat, some 0x8000, [⟨0, 16, .rws, 0, 65534⟩]⟩,
  ⟨"OVL_EXCL", 0x50008, [], 1, 0x44030D40, some .coat, some 0x8000, [⟨0, 24, .rws, 0, 0xfffffe⟩, ⟨24, 4, .rws, 0, 15⟩, ⟨28, 4, .rws, 1, 15⟩]⟩,
  ⟨"OVL_CONE", 0x5000C, [], 1, 0x1E8480, some .coat, some 0x8000, [⟨0, 24, .rws, 0, 0xfffffe⟩]⟩,
  ⟨"OVL_CONE_TAN", 0x50010, [], 1, 0x3333, some .coat, some 0x8000, [⟨0, 16, .rws, 0, 65535⟩]⟩,
  ⟨"OVL_ZONE_CFG", 0x50014, [], 1, 0x0, some .coat, some 0x8000, [⟨0, 1, .rws, 0, 1⟩, ⟨16, 9, .rws, 0, 256⟩]⟩,
  ⟨"OVL_CASC_ID", 0x50018, [], 1, 0x0, some .coat, some 0x8000, [⟨0, 2, .rws, 0, 3⟩]⟩,
  ⟨"OVL_CASC_MEMBERS", 0x5001C, [], 1, 0x0, some .tick, some 0x8000, [⟨0, 4, .rws, 0, 15⟩]⟩,
  ⟨"OVL_SNAP", 0x50020, [], 1, 0x0, none, none, [⟨0, 1, .wo, 0, 1⟩]⟩,
  ⟨"OVL_RUNCNT", 0x50028, [(6, 0x4)], 1, 0x0, none, none, []⟩,
  ⟨"OVL_STAT", 0x50040, [], 1, 0x0, none, none, [⟨0, 1, .w1c, 0, 1⟩, ⟨1, 1, .w1c, 0, 1⟩, ⟨2, 1, .w1c, 0, 1⟩]⟩,
  ⟨"OVL_OCC", 0x50044, [], 1, 0x0, none, none, [⟨0, 8, .occ, 0, 0⟩, ⟨8, 8, .occ, 0, 0⟩, ⟨16, 8, .occ, 0, 0⟩]⟩,
  ⟨"OVL_HEAD", 0x50100, [(32, 0x10)], 1, 0x30, some .coat, some 0x8000, [⟨0, 3, .rws, 0, 7⟩, ⟨3, 1, .rws, 0, 1⟩, ⟨4, 1, .rws, 0, 1⟩, ⟨5, 1, .rws, 0, 1⟩]⟩,
  ⟨"OVL_HSTAT", 0x50104, [(32, 0x10)], 1, 0x0, none, none, []⟩,
  ⟨"OVL_HCNT", 0x50108, [(32, 0x10)], 1, 0x0, none, none, []⟩,
  ⟨"OVL_HYIELD", 0x5010C, [(32, 0x10)], 1, 0x0, none, none, []⟩]

def regsSRV0 : List RegDef := [
  ⟨"SRV_SNAP", 0x60000, [], 1, 0x0, none, none, [⟨0, 8, .wo, 0, 255⟩]⟩,
  ⟨"SRV_SNAP_TICK", 0x60040, [(8, 0x4)], 1, 0x0, none, none, []⟩,
  ⟨"SRV_MON", 0x60100, [(96, 0x10), (4, 0x4)], 1, 0x0, none, none, []⟩,
  ⟨"SRV_AXIS_CFG", 0x61000, [(96, 0x100)], 1, 0x0, some .coat, some 0x8000, [⟨0, 1, .rws, 0, 1⟩, ⟨1, 1, .rws, 0, 1⟩, ⟨2, 1, .rws, 0, 1⟩, ⟨3, 1, .rws, 0, 1⟩, ⟨4, 2, .rws, 0, 3⟩, ⟨6, 1, .rws, 0, 1⟩, ⟨7, 1, .rws, 0, 1⟩, ⟨8, 1, .rws, 0, 1⟩]⟩,
  ⟨"SRV_AXIS_PARK", 0x61004, [(96, 0x100)], 1, 0x0, some .coat, some 0x8000, [⟨0, 32, .rws, 0, 0xffffffff⟩]⟩,
  ⟨"SRV_AXIS_INJ", 0x61008, [(96, 0x100)], 1, 0x0, some .tick, some 0x8000, [⟨0, 24, .rws, 0, 0xffffff⟩]⟩,
  ⟨"SRV_AXIS_KP", 0x61010, [(96, 0x100), (2, 0x60)], 1, 0x0, some .tick, some 0x8000, [⟨0, 32, .rws, 0, 0xffffffff⟩]⟩,
  ⟨"SRV_AXIS_KI", 0x61014, [(96, 0x100), (2, 0x60)], 1, 0x0, some .tick, some 0x8000, [⟨0, 32, .rws, 0, 0xffffffff⟩]⟩,
  ⟨"SRV_AXIS_KD", 0x61018, [(96, 0x100), (2, 0x60)], 1, 0x0, some .tick, some 0x8000, [⟨0, 32, .rws, 0, 0xffffffff⟩]⟩,
  ⟨"SRV_AXIS_SHIFT_PID", 0x6101C, [(96, 0x100), (2, 0x60)], 1, 0x0, some .tick, some 0x8000, [⟨0, 5, .rws, 0, 31⟩, ⟨8, 5, .rws, 0, 31⟩, ⟨16, 5, .rws, 0, 31⟩]⟩,
  ⟨"SRV_AXIS_ILIM", 0x61020, [(96, 0x100), (2, 0x60)], 1, 0x0, some .tick, some 0x8000, [⟨0, 31, .rws, 0, 0x7fffffff⟩]⟩,
  ⟨"SRV_AXIS_OUT_LIM", 0x61024, [(96, 0x100), (2, 0x60)], 1, 0x0, some .tick, some 0x8000, [⟨0, 23, .rws, 0, 0x7fffff⟩]⟩,
  ⟨"SRV_AXIS_KVF", 0x61028, [(96, 0x100), (2, 0x60)], 1, 0x0, some .tick, some 0x8000, [⟨0, 32, .rws, 0, 0xffffffff⟩]⟩,
  ⟨"SRV_AXIS_KAF", 0x6102C, [(96, 0x100), (2, 0x60)], 1, 0x0, some .tick, some 0x8000, [⟨0, 32, .rws, 0, 0xffffffff⟩]⟩,
  ⟨"SRV_AXIS_FF_CFG", 0x61030, [(96, 0x100), (2, 0x60)], 1, 0x0, some .tick, some 0x8000, [⟨0, 5, .rws, 0, 31⟩, ⟨8, 5, .rws, 0, 31⟩, ⟨16, 4, .rws, 0, 15⟩]⟩,
  ⟨"SRV_AXIS_FRIC_VBAND", 0x61034, [(96, 0x100), (2, 0x60)], 1, 0x1, some .tick, some 0x8000, [⟨0, 24, .rws, 1, 0xfffffe⟩]⟩,
  ⟨"SRV_AXIS_BQ1_B0", 0x61038, [(96, 0x100), (2, 0x60)], 1, 0x0, some .tick, some 0x8000, [⟨0, 32, .rws, 0, 0xffffffff⟩]⟩,
  ⟨"SRV_AXIS_BQ1_B1", 0x6103C, [(96, 0x100), (2, 0x60)], 1, 0x0, some .tick, some 0x8000, [⟨0, 32, .rws, 0, 0xffffffff⟩]⟩,
  ⟨"SRV_AXIS_BQ1_B2", 0x61040, [(96, 0x100), (2, 0x60)], 1, 0x0, some .tick, some 0x8000, [⟨0, 32, .rws, 0, 0xffffffff⟩]⟩,
  ⟨"SRV_AXIS_BQ1_A1", 0x61044, [(96, 0x100), (2, 0x60)], 1, 0x0, some .tick, some 0x8000, [⟨0, 32, .rws, 0, 0xffffffff⟩]⟩]

def regsSRV1 : List RegDef := [
  ⟨"SRV_AXIS_BQ1_A2", 0x61048, [(96, 0x100), (2, 0x60)], 1, 0x0, some .tick, some 0x8000, [⟨0, 32, .rws, 0, 0xffffffff⟩]⟩,
  ⟨"SRV_AXIS_BQ1_SHIFT", 0x6104C, [(96, 0x100), (2, 0x60)], 1, 0x0, some .tick, some 0x8000, [⟨0, 5, .rws, 0, 31⟩, ⟨5, 5, .rws, 0, 31⟩, ⟨10, 5, .rws, 0, 31⟩, ⟨15, 5, .rws, 0, 31⟩, ⟨20, 5, .rws, 0, 31⟩]⟩,
  ⟨"SRV_AXIS_BQ2_B0", 0x61050, [(96, 0x100), (2, 0x60)], 1, 0x0, some .tick, some 0x8000, [⟨0, 32, .rws, 0, 0xffffffff⟩]⟩,
  ⟨"SRV_AXIS_BQ2_B1", 0x61054, [(96, 0x100), (2, 0x60)], 1, 0x0, some .tick, some 0x8000, [⟨0, 32, .rws, 0, 0xffffffff⟩]⟩,
  ⟨"SRV_AXIS_BQ2_B2", 0x61058, [(96, 0x100), (2, 0x60)], 1, 0x0, some .tick, some 0x8000, [⟨0, 32, .rws, 0, 0xffffffff⟩]⟩,
  ⟨"SRV_AXIS_BQ2_A1", 0x6105C, [(96, 0x100), (2, 0x60)], 1, 0x0, some .tick, some 0x8000, [⟨0, 32, .rws, 0, 0xffffffff⟩]⟩,
  ⟨"SRV_AXIS_BQ2_A2", 0x61060, [(96, 0x100), (2, 0x60)], 1, 0x0, some .tick, some 0x8000, [⟨0, 32, .rws, 0, 0xffffffff⟩]⟩,
  ⟨"SRV_AXIS_BQ2_SHIFT", 0x61064, [(96, 0x100), (2, 0x60)], 1, 0x0, some .tick, some 0x8000, [⟨0, 5, .rws, 0, 31⟩, ⟨5, 5, .rws, 0, 31⟩, ⟨10, 5, .rws, 0, 31⟩, ⟨15, 5, .rws, 0, 31⟩, ⟨20, 5, .rws, 0, 31⟩]⟩,
  ⟨"SRV_AXIS_PM_KC", 0x610D0, [(96, 0x100)], 1, 0x0, some .coat, some 0x8000, [⟨0, 32, .rws, 0, 0xffffffff⟩]⟩,
  ⟨"SRV_AXIS_PM_KT", 0x610D4, [(96, 0x100)], 1, 0x0, some .coat, some 0x8000, [⟨0, 32, .rws, 0, 0xffffffff⟩]⟩,
  ⟨"SRV_AXIS_PM_KB", 0x610D8, [(96, 0x100)], 1, 0x0, some .coat, some 0x8000, [⟨0, 32, .rws, 0, 0xffffffff⟩]⟩,
  ⟨"SRV_AXIS_PM_KS", 0x610DC, [(96, 0x100)], 1, 0x0, some .coat, some 0x8000, [⟨0, 32, .rws, 0, 0xffffffff⟩]⟩,
  ⟨"SRV_AXIS_PM_L", 0x610E0, [(96, 0x100)], 1, 0x0, some .coat, some 0x8000, [⟨0, 32, .rws, 0, 0xffffffff⟩]⟩,
  ⟨"SRV_AXIS_PM_LV", 0x610E4, [(96, 0x100)], 1, 0x0, some .coat, some 0x8000, [⟨0, 32, .rws, 0, 0xffffffff⟩]⟩,
  ⟨"SRV_AXIS_PM_SHIFT", 0x610E8, [(96, 0x100)], 1, 0x0, some .coat, some 0x8000, [⟨0, 5, .rws, 0, 31⟩, ⟨5, 5, .rws, 0, 31⟩, ⟨10, 5, .rws, 0, 31⟩, ⟨15, 5, .rws, 0, 31⟩, ⟨20, 5, .rws, 0, 31⟩, ⟨25, 5, .rws, 0, 31⟩]⟩,
  ⟨"SRV_AXIS_PM_REST", 0x610EC, [(96, 0x100)], 1, 0x0, some .coat, some 0x8000, [⟨0, 32, .rws, 0, 0xffffffff⟩]⟩,
  ⟨"SRV_AXIS_PM_LIMIT", 0x610F0, [(96, 0x100)], 1, 0x4FFFFFE, some .coat, some 0x8000, [⟨0, 24, .rws, 1, 0xfffffe⟩, ⟨24, 8, .rws, 1, 254⟩]⟩,
  ⟨"SRV_AXIS_STAT", 0x610F4, [(96, 0x100)], 1, 0x0, none, none, [⟨0, 1, .w1c, 0, 1⟩, ⟨1, 1, .w1c, 0, 1⟩, ⟨2, 1, .w1c, 0, 1⟩, ⟨3, 1, .w1c, 0, 1⟩, ⟨4, 1, .w1c, 0, 1⟩]⟩,
  ⟨"SRV_AXIS_OCC", 0x610F8, [(96, 0x100)], 1, 0x0, none, none, [⟨0, 6, .occ, 0, 0⟩, ⟨6, 6, .occ, 0, 0⟩, ⟨12, 6, .occ, 0, 0⟩, ⟨18, 6, .occ, 0, 0⟩, ⟨24, 6, .occ, 0, 0⟩]⟩,
  ⟨"SRV_AXIS_PMSAFE", 0x610FC, [(96, 0x100)], 1, 0x0, some .coat, some 0x8000, [⟨0, 23, .rws, 0, 0x7fffff⟩]⟩]

/-- The registers of block SRV. -/
def regsSRV : List RegDef := regsSRV0 ++ regsSRV1

def regsHLK : List RegDef := [
  ⟨"HLK_CASC_CFG", 0x70000, [], 1, 0x3, some .coat, some 0x8000, [⟨0, 4, .rws, 1, 15⟩]⟩,
  ⟨"HLK_LANE_CFG", 0x71000, [(40, 0x100)], 1, 0x40A0643A, some .coat, some 0x8000, [⟨0, 4, .rws, 0, 15⟩, ⟨4, 3, .rws, 0, 6⟩, ⟨7, 1, .rw, 0, 1⟩, ⟨8, 12, .rws, 0, 3999⟩, ⟨20, 8, .rws, 1, 255⟩, ⟨28, 4, .rws, 1, 15⟩]⟩,
  ⟨"HLK_LANE_CHK", 0x71004, [(40, 0x100)], 1, 0x1000000, some .coat, some 0x8000, [⟨0, 31, .rws, 1, 0x7fffffff⟩]⟩,
  ⟨"HLK_LANE_STATE", 0x71008, [(40, 0x100)], 1, 0x0, none, none, []⟩,
  ⟨"HLK_LANE_LAT", 0x71010, [(40, 0x100)], 2, 0x0, none, none, []⟩,
  ⟨"HLK_LANE_CAP", 0x71018, [(40, 0x100)], 2, 0x0, none, none, []⟩,
  ⟨"HLK_LANE_ID", 0x71020, [(40, 0x100)], 2, 0x0, none, none, []⟩,
  ⟨"HLK_LANE_DFE", 0x71028, [(40, 0x100)], 1, 0x0, none, none, []⟩,
  ⟨"HLK_LANE_STAT", 0x7102C, [(40, 0x100)], 1, 0x0, none, none, [⟨0, 1, .w1c, 0, 1⟩, ⟨1, 1, .w1c, 0, 1⟩, ⟨2, 1, .w1c, 0, 1⟩, ⟨3, 1, .w1c, 0, 1⟩, ⟨4, 1, .w1c, 0, 1⟩, ⟨5, 1, .w1c, 0, 1⟩, ⟨6, 1, .w1c, 0, 1⟩, ⟨7, 1, .w1c, 0, 1⟩, ⟨8, 1, .w1c, 0, 1⟩, ⟨9, 1, .w1c, 0, 1⟩, ⟨10, 1, .w1c, 0, 1⟩, ⟨11, 1, .w1c, 0, 1⟩, ⟨12, 1, .w1c, 0, 1⟩, ⟨13, 1, .w1c, 0, 1⟩, ⟨14, 1, .w1c, 0, 1⟩, ⟨15, 1, .w1c, 0, 1⟩]⟩,
  ⟨"HLK_LANE_OCC", 0x71030, [(40, 0x100), (2, 0x4)], 1, 0x0, none, none, [⟨0, 4, .occ, 0, 0⟩, ⟨4, 4, .occ, 0, 0⟩, ⟨8, 4, .occ, 0, 0⟩, ⟨12, 4, .occ, 0, 0⟩, ⟨16, 4, .occ, 0, 0⟩, ⟨20, 4, .occ, 0, 0⟩, ⟨24, 4, .occ, 0, 0⟩, ⟨28, 4, .occ, 0, 0⟩]⟩,
  ⟨"HLK_LANE_LOSS", 0x71038, [(40, 0x100)], 1, 0x0, none, none, []⟩]

def regsMPL0 : List RegDef := [
  ⟨"MPL_HM_BASE", 0x80000, [], 2, 0x0, some .coat, some 0x8000, [⟨20, 17, .rws, 0, 0x1ffff⟩]⟩,
  ⟨"MPL_HM_ORG", 0x80008, [], 2, 0x0, some .coat, some 0x8000, [⟨0, 32, .rws, 0, 0xffffffff⟩, ⟨32, 32, .rws, 0, 0xffffffff⟩]⟩,
  ⟨"MPL_HM_SIZE", 0x80010, [], 1, 0xE000000, some .coat, some 0x8000, [⟨0, 12, .rws, 0, 2048⟩, ⟨12, 12, .rws, 0, 2048⟩, ⟨24, 5, .rws, 10, 20⟩]⟩,
  ⟨"MPL_HM_CFG", 0x80014, [], 1, 0x1000100, some .coat, some 0x8000, [⟨0, 9, .rws, 0, 256⟩, ⟨16, 9, .rws, 0, 256⟩]⟩,
  ⟨"MPL_HM_FOLD", 0x80018, [], 1, 0x100, some .coat, some 0x8000, [⟨0, 9, .rws, 0, 256⟩, ⟨16, 5, .rws, 0, 31⟩, ⟨31, 1, .wo, 0, 1⟩]⟩,
  ⟨"MPL_HM_STAT", 0x8001C, [], 1, 0x0, none, none, [⟨8, 1, .w1c, 0, 1⟩, ⟨16, 16, .occ, 0, 0⟩]⟩,
  ⟨"MPL_HEAD_CFG", 0x81000, [(32, 0x80)], 1, 0x5140000, some .coat, some 0x1000, [⟨0, 2, .rws, 0, 2⟩, ⟨2, 1, .rws, 0, 1⟩, ⟨3, 1, .rws, 0, 1⟩, ⟨4, 2, .rws, 0, 2⟩, ⟨6, 1, .rws, 0, 1⟩, ⟨7, 3, .rws, 0, 4⟩, ⟨16, 8, .rws, 0, 255⟩, ⟨24, 7, .rws, 1, 100⟩]⟩,
  ⟨"MPL_HEAD_DARK", 0x81004, [(32, 0x80)], 1, 0x0, some .coat, some 0x1000, [⟨0, 16, .rws, 0, 65535⟩, ⟨16, 16, .rws, 0, 65535⟩]⟩,
  ⟨"MPL_HEAD_SPAT", 0x81008, [(32, 0x80)], 1, 0x1000, some .coat, some 0x1000, [⟨0, 16, .rws, 0, 65535⟩]⟩,
  ⟨"MPL_HEAD_PGAIN", 0x8100C, [(32, 0x80)], 1, 0x0, some .run, some 0x1000, [⟨0, 16, .rws, 0, 65535⟩, ⟨16, 16, .rws, 0, 65535⟩]⟩,
  ⟨"MPL_HEAD_PSHIFT", 0x81010, [(32, 0x80)], 1, 0x0, some .run, some 0x1000, [⟨0, 5, .rws, 0, 31⟩, ⟨8, 5, .rws, 0, 31⟩]⟩,
  ⟨"MPL_HEAD_FF", 0x81014, [(32, 0x80)], 1, 0x0, some .run, some 0x1000, [⟨0, 16, .rws, 0, 65535⟩, ⟨16, 11, .rws, 0, 1024⟩]⟩,
  ⟨"MPL_HEAD_FFBASE", 0x81018, [(32, 0x80)], 1, 0x0, some .run, some 0x1000, [⟨0, 16, .rws, 0, 65535⟩]⟩,
  ⟨"MPL_HEAD_OUTER", 0x8101C, [(32, 0x80)], 1, 0x0, some .patch, some 0x1000, [⟨0, 16, .rws, 0, 65535⟩, ⟨16, 5, .rws, 0, 31⟩]⟩,
  ⟨"MPL_HEAD_GTGT", 0x81020, [(32, 0x80)], 1, 0x0, some .patch, some 0x1000, [⟨0, 16, .rws, 0, 65535⟩, ⟨16, 15, .rws, 0, 32767⟩]⟩,
  ⟨"MPL_HEAD_REFSTEP", 0x81024, [(32, 0x80)], 1, 0x280100, some .patch, some 0x1000, [⟨0, 16, .rws, 0, 65535⟩, ⟨16, 16, .rws, 1, 65534⟩]⟩,
  ⟨"MPL_HEAD_BURST_BASE", 0x81028, [(32, 0x80)], 2, 0x0, none, none, [⟨18, 19, .rw, 0, 0x7ffff⟩]⟩,
  ⟨"MPL_HEAD_BURST_TRIG", 0x81030, [(32, 0x80)], 1, 0x0, some .coat, some 0x1000, [⟨0, 1, .rws, 0, 1⟩, ⟨1, 1, .rws, 0, 1⟩, ⟨2, 1, .rws, 0, 1⟩, ⟨8, 8, .rws, 0, 63⟩, ⟨16, 16, .rws, 0, 65535⟩]⟩,
  ⟨"MPL_HEAD_BAND", 0x81034, [(32, 0x80)], 1, 0x190, some .coat, some 0x1000, [⟨0, 16, .rws, 1, 65534⟩]⟩,
  ⟨"MPL_HEAD_LOOP", 0x81040, [(32, 0x80)], 1, 0x0, none, none, []⟩]

def regsMPL1 : List RegDef := [
  ⟨"MPL_HEAD_INTEG", 0x81044, [(32, 0x80)], 1, 0x0, none, none, []⟩,
  ⟨"MPL_HEAD_BURST", 0x81048, [(32, 0x80)], 1, 0x0, none, none, []⟩,
  ⟨"MPL_HEAD_BURST_TICK", 0x8104C, [(32, 0x80)], 1, 0x0, none, none, []⟩,
  ⟨"MPL_HEAD_SKIP", 0x81050, [(32, 0x80)], 1, 0x0, none, none, []⟩,
  ⟨"MPL_HEAD_STAT", 0x81054, [(32, 0x80)], 1, 0x0, none, none, [⟨0, 1, .w1c, 0, 1⟩, ⟨1, 1, .w1c, 0, 1⟩, ⟨2, 1, .w1c, 0, 1⟩, ⟨3, 1, .w1c, 0, 1⟩, ⟨4, 1, .w1c, 0, 1⟩, ⟨5, 1, .w1c, 0, 1⟩]⟩,
  ⟨"MPL_HEAD_OCC", 0x81058, [(32, 0x80)], 1, 0x0, none, none, [⟨0, 4, .occ, 0, 0⟩, ⟨4, 4, .occ, 0, 0⟩, ⟨8, 4, .occ, 0, 0⟩, ⟨12, 4, .occ, 0, 0⟩, ⟨16, 4, .occ, 0, 0⟩, ⟨20, 4, .occ, 0, 0⟩]⟩]

/-- The registers of block MPL. -/
def regsMPL : List RegDef := regsMPL0 ++ regsMPL1

def regsCAM : List RegDef := [
  ⟨"CAM_CFG", 0x91000, [(8, 0x400)], 1, 0x10, some .coat, some 0x4000, [⟨0, 1, .rws, 0, 1⟩, ⟨1, 2, .rws, 0, 3⟩, ⟨3, 2, .rws, 0, 2⟩, ⟨5, 1, .rws, 0, 1⟩, ⟨6, 3, .rws, 0, 7⟩, ⟨12, 4, .rws, 0, 15⟩]⟩,
  ⟨"CAM_SIZE", 0x91004, [(8, 0x400)], 1, 0x400040, some .coat, some 0x4000, [⟨0, 13, .rws, 16, 4096⟩, ⟨16, 13, .rws, 1, 4096⟩]⟩,
  ⟨"CAM_TIMING", 0x91008, [(8, 0x400)], 1, 0x9C4, some .frame, some 0x4000, [⟨0, 24, .rws, 2500, 0xfffffe⟩, ⟨24, 4, .rws, 0, 15⟩]⟩,
  ⟨"CAM_SCHED", 0x91010, [(8, 0x400)], 1, 0x76543210, some .frame, some 0x4000, [⟨0, 4, .rws, 0, 15⟩, ⟨4, 4, .rws, 0, 15⟩, ⟨8, 4, .rws, 0, 15⟩, ⟨12, 4, .rws, 0, 15⟩, ⟨16, 4, .rws, 0, 15⟩, ⟨20, 4, .rws, 0, 15⟩, ⟨24, 4, .rws, 0, 15⟩, ⟨28, 4, .rws, 0, 15⟩]⟩,
  ⟨"CAM_SCHED", 0x91014, [(8, 0x400)], 1, 0xFEDCBA98, some .frame, some 0x4000, [⟨0, 4, .rws, 0, 15⟩, ⟨4, 4, .rws, 0, 15⟩, ⟨8, 4, .rws, 0, 15⟩, ⟨12, 4, .rws, 0, 15⟩, ⟨16, 4, .rws, 0, 15⟩, ⟨20, 4, .rws, 0, 15⟩, ⟨24, 4, .rws, 0, 15⟩, ⟨28, 4, .rws, 0, 15⟩]⟩,
  ⟨"CAM_DEFECT", 0x91018, [(8, 0x400)], 1, 0x1000000, some .frame, some 0x4000, [⟨0, 11, .rws, 0, 1024⟩, ⟨16, 12, .rws, 0, 4095⟩]⟩,
  ⟨"CAM_MAP", 0x91020, [(8, 0x400), (6, 0x4)], 1, 0x0, some .coat, some 0x4000, [⟨0, 32, .rws, 0, 0xffffffff⟩]⟩,
  ⟨"CAM_IMG_BASE", 0x91038, [(8, 0x400)], 2, 0x0, some .coat, some 0x4000, [⟨26, 11, .rws, 0, 2047⟩]⟩,
  ⟨"CAM_STAT", 0x91040, [(8, 0x400)], 1, 0x0, none, none, [⟨0, 1, .w1c, 0, 1⟩, ⟨1, 1, .w1c, 0, 1⟩, ⟨2, 1, .w1c, 0, 1⟩, ⟨3, 1, .w1c, 0, 1⟩, ⟨4, 1, .w1c, 0, 1⟩, ⟨5, 1, .w1c, 0, 1⟩, ⟨6, 1, .w1c, 0, 1⟩, ⟨7, 1, .w1c, 0, 1⟩, ⟨8, 1, .w1c, 0, 1⟩, ⟨9, 1, .w1c, 0, 1⟩]⟩,
  ⟨"CAM_OCC", 0x91044, [(8, 0x400)], 1, 0x0, none, none, [⟨0, 3, .occ, 0, 0⟩, ⟨3, 3, .occ, 0, 0⟩, ⟨6, 3, .occ, 0, 0⟩, ⟨9, 3, .occ, 0, 0⟩, ⟨12, 3, .occ, 0, 0⟩, ⟨15, 3, .occ, 0, 0⟩, ⟨18, 3, .occ, 0, 0⟩, ⟨21, 3, .occ, 0, 0⟩, ⟨24, 3, .occ, 0, 0⟩, ⟨27, 3, .occ, 0, 0⟩]⟩,
  ⟨"CAM_FRAME", 0x91048, [(8, 0x400)], 1, 0x0, none, none, []⟩,
  ⟨"CAM_OUT", 0x9104C, [(8, 0x400)], 1, 0x0, none, none, []⟩,
  ⟨"CAM_IMG", 0x91050, [(8, 0x400), (2, 0x8)], 2, 0x0, none, none, []⟩,
  ⟨"CAM_CTX_EXP", 0x91100, [(8, 0x400), (16, 0x10)], 1, 0x20000190, some .frame, some 0x4000, [⟨0, 20, .rws, 1, 0xffffe⟩, ⟨20, 5, .rws, 0, 31⟩, ⟨25, 1, .rws, 0, 1⟩, ⟨26, 1, .rws, 0, 1⟩, ⟨27, 5, .rws, 0, 31⟩]⟩,
  ⟨"CAM_CTX_ROI", 0x91104, [(8, 0x400), (16, 0x10)], 1, 0x0, some .frame, some 0x4000, [⟨0, 12, .rws, 0, 4095⟩, ⟨16, 12, .rws, 0, 4095⟩]⟩,
  ⟨"CAM_CTX_RSIZE", 0x91108, [(8, 0x400), (16, 0x10)], 1, 0x400040, some .frame, some 0x4000, [⟨0, 9, .rws, 1, 256⟩, ⟨16, 9, .rws, 1, 256⟩]⟩,
  ⟨"CAM_CTX_PROC", 0x9110C, [(8, 0x400), (16, 0x10)], 1, 0x20800000, some .frame, some 0x4000, [⟨0, 12, .rws, 0, 4095⟩, ⟨12, 12, .rws, 0, 4095⟩, ⟨24, 8, .rws, 0, 255⟩]⟩]

def regsFLT0 : List RegDef := [
  ⟨"FLT_BAR_CFG", 0xA1000, [(2, 0x400)], 1, 0x6000, some .coat, some 0x200, [⟨0, 2, .rws, 0, 3⟩, ⟨2, 2, .rws, 0, 2⟩, ⟨4, 11, .rws, 1, 1536⟩, ⟨15, 1, .rws, 0, 1⟩, ⟨16, 1, .rws, 0, 1⟩, ⟨17, 1, .rws, 0, 1⟩, ⟨18, 1, .rws, 0, 1⟩, ⟨19, 1, .rws, 0, 1⟩, ⟨20, 8, .rws, 0, 200⟩]⟩,
  ⟨"FLT_BAR_LEVSEL", 0xA1004, [(2, 0x400)], 1, 0x0, some .line, some 0x200, [⟨0, 1, .rws, 0, 1⟩]⟩,
  ⟨"FLT_BAR_EDUTY", 0xA1008, [(2, 0x400)], 1, 0x0, some .coat, some 0x200, [⟨0, 11, .rws, 0, 1024⟩]⟩,
  ⟨"FLT_BAR_ECAP", 0xA100C, [(2, 0x400)], 1, 0x0, some .coat, some 0x200, [⟨0, 24, .rws, 0, 0xfffffe⟩]⟩,
  ⟨"FLT_BAR_BDUTY", 0xA1010, [(2, 0x400)], 1, 0x0, some .coat, some 0x200, [⟨0, 21, .rws, 0, 0x180000⟩]⟩,
  ⟨"FLT_BAR_BCAP", 0xA1014, [(2, 0x400)], 1, 0x0, some .coat, some 0x200, [⟨0, 32, .rws, 0, 0xfffffffe⟩]⟩,
  ⟨"FLT_BAR_TLIM", 0xA1018, [(2, 0x400)], 1, 0x15401180, some .coat, some 0x200, [⟨0, 16, .rws, 0, 65535⟩, ⟨16, 16, .rws, 0, 65535⟩]⟩,
  ⟨"FLT_BAR_THYST", 0xA101C, [(2, 0x400)], 1, 0x140, some .coat, some 0x200, [⟨0, 16, .rws, 1, 16383⟩]⟩,
  ⟨"FLT_BAR_MEAS", 0xA1020, [(2, 0x400)], 1, 0xA1405, some .coat, some 0x200, [⟨0, 8, .rws, 1, 254⟩, ⟨8, 8, .rws, 0, 255⟩, ⟨16, 8, .rws, 1, 255⟩]⟩,
  ⟨"FLT_BAR_VLIM", 0xA1024, [(2, 0x400)], 1, 0x7D003E8, some .coat, some 0x200, [⟨0, 16, .rws, 0, 65535⟩, ⟨16, 16, .rws, 0, 65535⟩]⟩,
  ⟨"FLT_BAR_RLIM", 0xA1028, [(2, 0x400)], 1, 0x1F4, some .coat, some 0x200, [⟨0, 14, .rws, 0, 16383⟩]⟩,
  ⟨"FLT_BAR_POS", 0xA1040, [(2, 0x400)], 1, 0x0, none, none, []⟩,
  ⟨"FLT_BAR_STATE", 0xA1044, [(2, 0x400)], 1, 0x0, none, none, []⟩,
  ⟨"FLT_BAR_TOK", 0xA1048, [(2, 0x400)], 2, 0x0, none, none, []⟩,
  ⟨"FLT_BAR_ENERGY", 0xA1050, [(2, 0x400)], 2, 0x0, none, none, []⟩,
  ⟨"FLT_BAR_HOURS", 0xA1058, [(2, 0x400)], 1, 0x0, none, none, []⟩,
  ⟨"FLT_BAR_STAT", 0xA1060, [(2, 0x400)], 1, 0x0, none, none, [⟨0, 1, .w1c, 0, 1⟩, ⟨1, 1, .w1c, 0, 1⟩, ⟨2, 1, .w1c, 0, 1⟩, ⟨3, 1, .w1c, 0, 1⟩, ⟨4, 1, .w1c, 0, 1⟩, ⟨5, 1, .w1c, 0, 1⟩, ⟨6, 1, .w1c, 0, 1⟩, ⟨7, 1, .w1c, 0, 1⟩, ⟨8, 1, .w1c, 0, 1⟩, ⟨9, 1, .w1c, 0, 1⟩, ⟨10, 1, .w1c, 0, 1⟩, ⟨11, 1, .w1c, 0, 1⟩, ⟨12, 1, .w1c, 0, 1⟩, ⟨13, 1, .w1c, 0, 1⟩]⟩,
  ⟨"FLT_BAR_OCC", 0xA1064, [(2, 0x400), (2, 0x4)], 1, 0x0, none, none, [⟨0, 4, .occ, 0, 0⟩, ⟨4, 4, .occ, 0, 0⟩, ⟨8, 4, .occ, 0, 0⟩, ⟨12, 4, .occ, 0, 0⟩, ⟨16, 4, .occ, 0, 0⟩, ⟨20, 4, .occ, 0, 0⟩, ⟨24, 4, .occ, 0, 0⟩, ⟨28, 4, .occ, 0, 0⟩]⟩,
  ⟨"FLT_PROG_ADDR", 0xA1100, [(2, 0x400), (15, 0x10)], 2, 0x0, some .coat, some 0x200, [⟨12, 25, .rws, 0, 0x1ffffff⟩]⟩,
  ⟨"FLT_PROG_START", 0xA1108, [(2, 0x400), (15, 0x10)], 1, 0x0, some .coat, some 0x200, [⟨0, 32, .rws, 0, 0xffffffff⟩]⟩]

def regsFLT1 : List RegDef := [
  ⟨"FLT_PROG_SHAPE", 0xA110C, [(2, 0x400), (15, 0x10)], 1, 0x1, some .coat, some 0x200, [⟨0, 16, .rws, 1, 65534⟩, ⟨16, 15, .rws, 0, 32767⟩, ⟨31, 1, .rws, 0, 1⟩]⟩]

/-- The registers of block FLT. -/
def regsFLT : List RegDef := regsFLT0 ++ regsFLT1

def regsMOT0 : List RegDef := [
  ⟨"MOT_COAT_CFG", 0xB0000, [], 1, 0x0, some .coat, some 0x8000, [⟨0, 2, .rws, 0, 3⟩]⟩,
  ⟨"MOT_GRP_CFG", 0xB0010, [(4, 0x4)], 1, 0x0, some .coat, some 0x8000, [⟨0, 1, .rws, 0, 1⟩, ⟨1, 1, .rws, 0, 1⟩, ⟨4, 4, .rws, 0, 15⟩]⟩,
  ⟨"MOT_LIMMAP", 0xB0100, [(24, 0x4)], 1, 0x400, some .coat, some 0x8000, [⟨0, 4, .rws, 0, 11⟩, ⟨4, 2, .rws, 0, 3⟩, ⟨6, 1, .rws, 0, 1⟩, ⟨8, 8, .rws, 1, 255⟩]⟩,
  ⟨"MOT_CHAT", 0xB0180, [], 1, 0x6408, some .coat, some 0x8000, [⟨0, 8, .rws, 1, 255⟩, ⟨8, 16, .rws, 1, 65534⟩]⟩,
  ⟨"MOT_DIV_CFG", 0xB0200, [(4, 0x8)], 2, 0x1000100000000, some .coat, some 0x8000, [⟨0, 4, .rws, 0, 15⟩, ⟨4, 1, .rws, 0, 1⟩, ⟨5, 1, .rws, 0, 1⟩, ⟨8, 4, .rws, 0, 15⟩, ⟨15, 1, .w1c, 0, 1⟩, ⟨16, 8, .occ, 0, 0⟩, ⟨32, 16, .rws, 1, 65535⟩, ⟨48, 16, .rws, 1, 65535⟩]⟩,
  ⟨"MOT_AXIS_CFG", 0xB1000, [(12, 0x100)], 1, 0x145, some .coat, some 0x8000, [⟨0, 4, .rws, 2, 12⟩, ⟨4, 7, .rws, 1, 100⟩, ⟨11, 1, .rws, 0, 1⟩, ⟨12, 1, .rws, 0, 1⟩, ⟨13, 1, .rws, 0, 1⟩, ⟨14, 4, .rws, 0, 15⟩, ⟨18, 2, .rws, 0, 2⟩, ⟨20, 1, .rws, 0, 1⟩, ⟨21, 2, .rws, 0, 3⟩, ⟨23, 1, .rws, 0, 1⟩]⟩,
  ⟨"MOT_AXIS_VMAX", 0xB1004, [(12, 0x100)], 1, 0x2710, some .mov, some 0x8000, [⟨0, 23, .rws, 1, 0x3d0900⟩]⟩,
  ⟨"MOT_AXIS_ACC", 0xB1008, [(12, 0x100)], 1, 0x186A0, some .mov, some 0x8000, [⟨0, 32, .rws, 1, 0xfffffffe⟩]⟩,
  ⟨"MOT_AXIS_DEC", 0xB100C, [(12, 0x100)], 1, 0x186A0, some .mov, some 0x8000, [⟨0, 32, .rws, 1, 0xfffffffe⟩]⟩,
  ⟨"MOT_AXIS_JERK", 0xB1010, [(12, 0x100)], 1, 0x2710, some .mov, some 0x8000, [⟨0, 32, .rws, 1, 0xfffffffe⟩]⟩,
  ⟨"MOT_AXIS_EMDEC", 0xB1014, [(12, 0x100)], 1, 0xF4240, some .coat, some 0x8000, [⟨0, 32, .rws, 1, 0xfffffffe⟩]⟩,
  ⟨"MOT_AXIS_SVC", 0xB1018, [(12, 0x100)], 1, 0x64000A, some .coat, some 0x8000, [⟨0, 16, .rws, 1, 40000⟩, ⟨16, 16, .rws, 1, 65534⟩]⟩,
  ⟨"MOT_AXIS_SCALE", 0xB101C, [(12, 0x100)], 1, 0x10000, some .coat, some 0x8000, [⟨0, 32, .rws, 1, 0xffffffff⟩]⟩,
  ⟨"MOT_AXIS_STALL", 0xB1020, [(12, 0x100)], 1, 0x40064, some .coat, some 0x8000, [⟨0, 16, .rws, 1, 65534⟩, ⟨16, 8, .rws, 1, 255⟩]⟩,
  ⟨"MOT_AXIS_HOMEV", 0xB1024, [(12, 0x100)], 1, 0x50032, some .coat, some 0x8000, [⟨0, 16, .rws, 1, 40000⟩, ⟨16, 16, .rws, 1, 40000⟩]⟩,
  ⟨"MOT_AXIS_HOMEPOS", 0xB1028, [(12, 0x100)], 1, 0x0, some .coat, some 0x8000, [⟨0, 32, .rws, 0, 0xffffffff⟩]⟩,
  ⟨"MOT_AXIS_HOMEBACK", 0xB102C, [(12, 0x100)], 1, 0xC8, some .coat, some 0x8000, [⟨0, 16, .rws, 0, 65534⟩]⟩,
  ⟨"MOT_AXIS_CMP", 0xB1030, [(12, 0x100)], 2, 0xA000000000, none, none, [⟨0, 32, .rw, 0, 0xffffffff⟩, ⟨32, 1, .rw, 0, 1⟩, ⟨33, 1, .rw, 0, 1⟩, ⟨34, 1, .rw, 0, 1⟩, ⟨36, 12, .rw, 1, 4095⟩, ⟨48, 16, .rw, 0, 65535⟩]⟩,
  ⟨"MOT_AXIS_POS", 0xB1040, [(12, 0x100)], 1, 0x0, none, none, []⟩,
  ⟨"MOT_AXIS_MSTAT", 0xB1044, [(12, 0x100)], 1, 0xFF000000, none, none, []⟩]

def regsMOT1 : List RegDef := [
  ⟨"MOT_AXIS_DEV", 0xB1048, [(12, 0x100)], 1, 0x0, none, none, []⟩,
  ⟨"MOT_AXIS_STAT", 0xB104C, [(12, 0x100)], 1, 0x0, none, none, [⟨0, 1, .w1c, 0, 1⟩, ⟨1, 1, .w1c, 0, 1⟩, ⟨2, 1, .w1c, 0, 1⟩, ⟨3, 1, .w1c, 0, 1⟩, ⟨4, 1, .w1c, 0, 1⟩, ⟨5, 1, .w1c, 0, 1⟩, ⟨6, 1, .w1c, 0, 1⟩, ⟨7, 1, .w1c, 0, 1⟩, ⟨8, 1, .w1c, 0, 1⟩]⟩,
  ⟨"MOT_AXIS_OCC", 0xB1050, [(12, 0x100)], 1, 0x0, none, none, [⟨0, 4, .occ, 0, 0⟩, ⟨4, 4, .occ, 0, 0⟩, ⟨8, 4, .occ, 0, 0⟩, ⟨12, 4, .occ, 0, 0⟩, ⟨16, 4, .occ, 0, 0⟩, ⟨20, 4, .occ, 0, 0⟩, ⟨24, 4, .occ, 0, 0⟩, ⟨28, 4, .occ, 0, 0⟩]⟩]

/-- The registers of block MOT. -/
def regsMOT : List RegDef := regsMOT0 ++ regsMOT1

def regsENC : List RegDef := [
  ⟨"ENC_CFG", 0xC1000, [(16, 0x40)], 1, 0x14146444, some .coat, some 0x8000, [⟨0, 1, .rws, 0, 1⟩, ⟨1, 1, .rws, 0, 1⟩, ⟨2, 3, .rws, 0, 7⟩, ⟨5, 4, .rws, 0, 15⟩, ⟨9, 1, .rws, 0, 1⟩, ⟨10, 6, .rws, 8, 32⟩, ⟨16, 1, .rws, 0, 1⟩, ⟨17, 7, .rws, 1, 100⟩, ⟨24, 8, .rws, 1, 255⟩]⟩,
  ⟨"ENC_CHK", 0xC1004, [(16, 0x40)], 1, 0x2001000, some .coat, some 0x8000, [⟨0, 24, .rws, 1, 0xfffffe⟩, ⟨24, 8, .rws, 0, 255⟩]⟩,
  ⟨"ENC_QCFG", 0xC1008, [(16, 0x40)], 1, 0x3E80010, some .coat, some 0x8000, [⟨0, 16, .rws, 1, 65534⟩, ⟨16, 16, .rws, 1, 65534⟩]⟩,
  ⟨"ENC_WIN", 0xC100C, [(16, 0x40)], 1, 0x3E8, some .coat, some 0x8000, [⟨0, 14, .rws, 10, 10000⟩]⟩,
  ⟨"ENC_POS", 0xC1010, [(16, 0x40)], 1, 0x0, none, none, []⟩,
  ⟨"ENC_HPOS", 0xC1014, [(16, 0x40)], 1, 0x0, none, none, []⟩,
  ⟨"ENC_SPEED", 0xC1018, [(16, 0x40)], 1, 0x0, none, none, []⟩,
  ⟨"ENC_IDXPOS", 0xC101C, [(16, 0x40)], 1, 0x0, none, none, []⟩,
  ⟨"ENC_STAT", 0xC1020, [(16, 0x40)], 1, 0x0, none, none, [⟨0, 1, .w1c, 0, 1⟩, ⟨1, 1, .w1c, 0, 1⟩, ⟨2, 1, .w1c, 0, 1⟩, ⟨3, 1, .w1c, 0, 1⟩]⟩,
  ⟨"ENC_OCC", 0xC1024, [(16, 0x40)], 1, 0x0, none, none, [⟨0, 8, .occ, 0, 0⟩, ⟨8, 8, .occ, 0, 0⟩, ⟨16, 8, .occ, 0, 0⟩, ⟨24, 8, .occ, 0, 0⟩]⟩,
  ⟨"ENC_QERRS", 0xC1028, [(16, 0x40)], 1, 0x0, none, none, []⟩]

def regsLED : List RegDef := [
  ⟨"LED_CFG", 0xD0000, [], 1, 0x0, some .coat, some 0x2000, [⟨0, 3, .rws, 0, 7⟩, ⟨8, 3, .rws, 0, 7⟩, ⟨16, 3, .rws, 0, 7⟩, ⟨24, 3, .rws, 0, 7⟩, ⟨3, 2, .rws, 0, 2⟩, ⟨11, 2, .rws, 0, 2⟩, ⟨19, 2, .rws, 0, 2⟩, ⟨27, 2, .rws, 0, 2⟩]⟩,
  ⟨"LED_THR", 0xD0004, [], 1, 0x1F40321E, some .coat, some 0x2000, [⟨0, 8, .rws, 1, 255⟩, ⟨8, 8, .rws, 1, 255⟩, ⟨16, 16, .rws, 1000, 30000⟩]⟩,
  ⟨"LED_GRP_DRIVE", 0xD0100, [(4, 0x40)], 1, 0x0, some .frame, some 0x2000, [⟨0, 6, .rws, 0, 63⟩, ⟨8, 6, .rws, 0, 63⟩, ⟨16, 8, .rws, 0, 255⟩]⟩,
  ⟨"LED_GRP_FLASH", 0xD0104, [(4, 0x40)], 1, 0x0, some .frame, some 0x2000, [⟨0, 16, .rws, 0, 65534⟩, ⟨16, 16, .rws, 0, 65534⟩]⟩,
  ⟨"LED_GRP_CTX", 0xD0108, [(4, 0x40)], 1, 0x0, some .frame, some 0x2000, [⟨0, 16, .rws, 0, 65535⟩]⟩,
  ⟨"LED_GRP_TC", 0xD010C, [(4, 0x40)], 1, 0x6400000, some .frame, some 0x2000, [⟨0, 16, .rws, 0, 65535⟩, ⟨16, 16, .rws, 0, 65535⟩]⟩,
  ⟨"LED_GRP_DISS", 0xD0110, [(4, 0x40)], 1, 0x1388000, some .frame, some 0x2000, [⟨0, 12, .rws, 0, 2400⟩, ⟨12, 16, .rws, 1, 30000⟩]⟩,
  ⟨"LED_GRP_DCAP", 0xD0114, [(4, 0x40)], 1, 0x0, some .frame, some 0x2000, [⟨0, 24, .rws, 0, 0xfffffe⟩]⟩,
  ⟨"LED_GRP_LEVEL", 0xD0118, [(4, 0x40)], 1, 0x0, none, none, []⟩,
  ⟨"LED_GRP_STAT", 0xD011C, [(4, 0x40)], 1, 0x0, none, none, [⟨0, 1, .w1c, 0, 1⟩, ⟨1, 1, .w1c, 0, 1⟩, ⟨16, 8, .occ, 0, 0⟩, ⟨24, 8, .occ, 0, 0⟩]⟩,
  ⟨"LED_CH_VAL", 0xD0400, [(24, 0x10)], 1, 0x0, some .frame, some 0x2000, [⟨0, 10, .rws, 0, 1023⟩]⟩,
  ⟨"LED_CH_MEAS", 0xD0404, [(24, 0x10)], 1, 0x0, none, none, []⟩,
  ⟨"LED_CH_STAT", 0xD0408, [(24, 0x10)], 1, 0x0, none, none, [⟨0, 1, .w1c, 0, 1⟩, ⟨1, 1, .w1c, 0, 1⟩, ⟨2, 1, .w1c, 0, 1⟩, ⟨8, 8, .occ, 0, 0⟩, ⟨16, 8, .occ, 0, 0⟩, ⟨24, 8, .occ, 0, 0⟩]⟩]

def regsDMC0 : List RegDef := [
  ⟨"DMC_CFG", 0xE0000, [], 1, 0x0, none, none, [⟨0, 1, .rw, 0, 1⟩, ⟨1, 4, .rw, 0, 8⟩, ⟨5, 2, .rw, 0, 2⟩, ⟨7, 2, .rw, 0, 2⟩, ⟨9, 1, .rw, 0, 1⟩, ⟨10, 2, .rw, 0, 2⟩]⟩,
  ⟨"DMC_STATE", 0xE0004, [], 1, 0x0, none, none, []⟩,
  ⟨"DMC_WQ", 0xE0010, [], 1, 0x81030, some .coat, some 0x8000, [⟨0, 7, .rws, 2, 64⟩, ⟨8, 7, .rws, 0, 127⟩, ⟨16, 4, .rws, 1, 15⟩]⟩,
  ⟨"DMC_SCRUB", 0xE0014, [], 1, 0x1801, some .coat, some 0x8000, [⟨0, 1, .rws, 0, 1⟩, ⟨8, 8, .rws, 1, 255⟩]⟩,
  ⟨"DMC_LP", 0xE0018, [], 1, 0x3E80000, some .coat, some 0x8000, [⟨0, 1, .rws, 0, 1⟩, ⟨16, 16, .rws, 1, 65534⟩]⟩,
  ⟨"DMC_DEV_BASE", 0xE0020, [], 2, 0x0, none, none, [⟨30, 7, .rw, 0, 127⟩]⟩,
  ⟨"DMC_DEV_SIZE", 0xE0028, [], 1, 0x0, none, none, [⟨0, 7, .rw, 4, 64⟩]⟩,
  ⟨"DMC_ECC_STAT", 0xE0040, [], 1, 0x0, none, none, [⟨0, 1, .w1c, 0, 1⟩, ⟨1, 1, .w1c, 0, 1⟩, ⟨2, 1, .w1c, 0, 1⟩, ⟨8, 8, .occ, 0, 0⟩, ⟨16, 8, .occ, 0, 0⟩, ⟨24, 8, .occ, 0, 0⟩]⟩,
  ⟨"DMC_ECC_ADDR", 0xE0048, [], 2, 0x0, none, none, []⟩,
  ⟨"DMC_WQ_SNAP", 0xE0050, [], 1, 0x0, none, none, [⟨0, 2, .wo, 0, 3⟩]⟩,
  ⟨"DMC_WQ_CNT", 0xE0060, [(2, 0x20), (7, 0x4)], 1, 0x0, none, none, []⟩,
  ⟨"DMC_WIN_STAT", 0xE00A0, [], 1, 0x0, none, none, [⟨0, 1, .w1c, 0, 1⟩, ⟨16, 16, .occ, 0, 0⟩]⟩,
  ⟨"DMC_SRAM_STAT", 0xE00A4, [], 1, 0x0, none, none, [⟨0, 1, .w1c, 0, 1⟩, ⟨1, 1, .w1c, 0, 1⟩, ⟨16, 8, .occ, 0, 0⟩, ⟨24, 8, .occ, 0, 0⟩]⟩,
  ⟨"DMC_DIAG", 0xE00B0, [], 1, 0x0, none, none, [⟨0, 1, .rw, 0, 1⟩, ⟨8, 6, .rw, 0, 39⟩]⟩,
  ⟨"DMC_PORT_LAT", 0xE0100, [], 1, 0xFA0, some .coat, some 0x8000, [⟨0, 16, .rws, 100, 65534⟩]⟩,
  ⟨"DMC_PORT_LAT", 0xE0110, [], 1, 0x5DC, some .coat, some 0x8000, [⟨0, 16, .rws, 100, 65534⟩]⟩,
  ⟨"DMC_PORT_LAT", 0xE0120, [], 1, 0x5DC, some .coat, some 0x8000, [⟨0, 16, .rws, 100, 65534⟩]⟩,
  ⟨"DMC_PORT_LAT", 0xE0130, [], 1, 0x1388, some .coat, some 0x8000, [⟨0, 16, .rws, 100, 65534⟩]⟩,
  ⟨"DMC_PORT_LAT", 0xE0140, [], 1, 0x2710, some .coat, some 0x8000, [⟨0, 16, .rws, 100, 65534⟩]⟩,
  ⟨"DMC_PORT_LAT", 0xE0150, [], 1, 0x2710, some .coat, some 0x8000, [⟨0, 16, .rws, 100, 65534⟩]⟩]

def regsDMC1 : List RegDef := [
  ⟨"DMC_PORT_LAT", 0xE0160, [], 1, 0x4E20, some .coat, some 0x8000, [⟨0, 16, .rws, 100, 65534⟩]⟩,
  ⟨"DMC_PORT_LAT", 0xE0170, [], 1, 0x4E20, some .coat, some 0x8000, [⟨0, 16, .rws, 100, 65534⟩]⟩,
  ⟨"DMC_PORT_LAT", 0xE0180, [], 1, 0x9C4, some .coat, some 0x8000, [⟨0, 16, .rws, 100, 65534⟩]⟩,
  ⟨"DMC_PORT_LAT", 0xE0190, [], 1, 0x4E20, some .coat, some 0x8000, [⟨0, 16, .rws, 100, 65534⟩]⟩,
  ⟨"DMC_PORT_MAX", 0xE0104, [(10, 0x10)], 1, 0x0, none, none, [⟨0, 16, .rc, 0, 65535⟩]⟩,
  ⟨"DMC_PORT_STAT", 0xE0108, [(10, 0x10)], 1, 0x0, none, none, [⟨0, 1, .w1c, 0, 1⟩, ⟨1, 1, .w1c, 0, 1⟩, ⟨8, 8, .occ, 0, 0⟩, ⟨16, 8, .occ, 0, 0⟩]⟩]

/-- The registers of block DMC. -/
def regsDMC : List RegDef := regsDMC0 ++ regsDMC1

def regsNVS : List RegDef := [
  ⟨"NVS_CFG", 0xF0000, [], 1, 0xC83C1E, some .coat, some 0x8000, [⟨0, 8, .rws, 1, 255⟩, ⟨8, 8, .rws, 1, 119⟩, ⟨16, 12, .rws, 1, 4094⟩]⟩,
  ⟨"NVS_STAGE", 0xF0004, [], 1, 0x465A0400, some .coat, some 0x8000, [⟨0, 16, .rws, 0, 65535⟩, ⟨16, 8, .rws, 50, 99⟩, ⟨24, 8, .rws, 0, 255⟩]⟩,
  ⟨"NVS_GEOM", 0xF0008, [], 1, 0x0, none, none, []⟩,
  ⟨"NVS_SEQ", 0xF0010, [], 2, 0x0, none, none, []⟩,
  ⟨"NVS_FILL", 0xF0018, [], 1, 0x0, none, none, []⟩,
  ⟨"NVS_STAT", 0xF0020, [], 1, 0x0, none, none, [⟨0, 1, .w1c, 0, 1⟩, ⟨1, 1, .w1c, 0, 1⟩, ⟨2, 1, .w1c, 0, 1⟩, ⟨3, 1, .w1c, 0, 1⟩, ⟨4, 1, .w1c, 0, 1⟩, ⟨5, 1, .w1c, 0, 1⟩, ⟨6, 1, .w1c, 0, 1⟩, ⟨7, 1, .w1c, 0, 1⟩, ⟨8, 1, .w1c, 0, 1⟩]⟩,
  ⟨"NVS_OCC", 0xF0024, [(2, 0x4)], 1, 0x0, none, none, [⟨0, 4, .occ, 0, 0⟩, ⟨4, 4, .occ, 0, 0⟩, ⟨8, 4, .occ, 0, 0⟩, ⟨12, 4, .occ, 0, 0⟩, ⟨16, 4, .occ, 0, 0⟩, ⟨20, 4, .occ, 0, 0⟩, ⟨24, 4, .occ, 0, 0⟩, ⟨28, 4, .occ, 0, 0⟩]⟩,
  ⟨"NVS_PLANE", 0xF1000, [(256, 0x8)], 2, 0x0, none, none, []⟩]

def regsSKM : List RegDef := [
  ⟨"SKM_STAT", 0x100000, [], 1, 0x0, none, none, [⟨0, 1, .w1c, 0, 1⟩, ⟨1, 1, .w1c, 0, 1⟩, ⟨2, 1, .w1c, 0, 1⟩, ⟨8, 8, .occ, 0, 0⟩, ⟨16, 8, .occ, 0, 0⟩, ⟨24, 8, .occ, 0, 0⟩]⟩,
  ⟨"SKM_SLOTS", 0x100004, [], 1, 0x0, none, none, []⟩]

def regsEVR : List RegDef := [
  ⟨"EVR_CFG", 0x110000, [], 1, 0x6400, none, none, [⟨0, 1, .rw, 0, 1⟩, ⟨8, 8, .rw, 1, 255⟩]⟩,
  ⟨"EVR_SNAP", 0x110004, [], 1, 0x0, none, none, [⟨0, 1, .wo, 0, 1⟩]⟩,
  ⟨"EVR_CNT", 0x110010, [(6, 0x4)], 1, 0x0, none, none, []⟩,
  ⟨"EVR_SERIAL", 0x110030, [], 2, 0x0, none, none, []⟩,
  ⟨"EVR_OLDEST", 0x110038, [], 2, 0x0, none, none, []⟩,
  ⟨"EVR_FILL", 0x110040, [], 1, 0x0, none, none, []⟩,
  ⟨"EVR_STAT", 0x110048, [], 1, 0x0, none, none, [⟨0, 1, .w1c, 0, 1⟩, ⟨1, 1, .w1c, 0, 1⟩, ⟨2, 1, .w1c, 0, 1⟩, ⟨3, 1, .w1c, 0, 1⟩, ⟨16, 4, .occ, 0, 0⟩, ⟨20, 4, .occ, 0, 0⟩, ⟨24, 4, .occ, 0, 0⟩, ⟨28, 4, .occ, 0, 0⟩]⟩,
  ⟨"EVR_LIMIT", 0x111000, [(2048, 0x4)], 1, 0x648, some .tick, some 0x8000, [⟨0, 4, .rws, 0, 15⟩, ⟨4, 16, .rws, 1, 65534⟩]⟩]

def regsTIM : List RegDef := [
  ⟨"TIM_LATCH", 0x120000, [], 1, 0x0, none, none, [⟨0, 1, .wo, 0, 1⟩]⟩,
  ⟨"TIM_VAL", 0x120010, [(4, 0x10), (4, 0x4)], 1, 0x0, none, none, []⟩,
  ⟨"TIM_TICK", 0x120050, [], 2, 0x0, none, none, []⟩,
  ⟨"TIM_SETVAL", 0x120060, [(4, 0x4)], 1, 0x0, none, none, [⟨0, 32, .rw, 0, 0xffffffff⟩]⟩,
  ⟨"TIM_SETCTL", 0x120070, [], 1, 0x0, none, none, [⟨0, 1, .rw, 0, 1⟩, ⟨1, 1, .wo, 0, 1⟩]⟩,
  ⟨"TIM_TB3", 0x120080, [], 1, 0x1E0FA028, none, none, [⟨0, 1, .rw, 0, 1⟩, ⟨1, 1, .rw, 0, 1⟩, ⟨2, 8, .rw, 1, 100⟩, ⟨10, 14, .rw, 1, 16383⟩, ⟨24, 8, .rw, 1, 255⟩]⟩,
  ⟨"TIM_STAT", 0x120084, [], 1, 0x0, none, none, [⟨1, 1, .w1c, 0, 1⟩, ⟨2, 1, .w1c, 0, 1⟩, ⟨3, 1, .w1c, 0, 1⟩, ⟨4, 1, .w1c, 0, 1⟩, ⟨16, 4, .occ, 0, 0⟩, ⟨20, 4, .occ, 0, 0⟩, ⟨24, 4, .occ, 0, 0⟩, ⟨28, 4, .occ, 0, 0⟩]⟩,
  ⟨"TIM_PHASE", 0x120088, [], 1, 0x0, none, none, []⟩]

def regsPTP : List RegDef := [
  ⟨"PTP_TSQ_SNAP", 0x130000, [], 1, 0x0, none, none, [⟨0, 2, .wo, 0, 3⟩]⟩,
  ⟨"PTP_TSQ_CNT", 0x130010, [(2, 0x20), (6, 0x4)], 1, 0x0, none, none, []⟩,
  ⟨"PTP_INST_CFG", 0x130100, [], 1, 0x80800000, none, none, [⟨0, 1, .rw, 0, 1⟩, ⟨1, 2, .rw, 0, 3⟩, ⟨3, 1, .rw, 0, 1⟩, ⟨8, 8, .rw, 0, 127⟩, ⟨16, 8, .rw, 0, 255⟩, ⟨24, 8, .rw, 0, 255⟩]⟩,
  ⟨"PTP_INST_CFG", 0x130120, [], 1, 0x80800100, none, none, [⟨0, 1, .rw, 0, 1⟩, ⟨1, 2, .rw, 0, 3⟩, ⟨3, 1, .rw, 0, 1⟩, ⟨8, 8, .rw, 0, 127⟩, ⟨16, 8, .rw, 0, 255⟩, ⟨24, 8, .rw, 0, 255⟩]⟩,
  ⟨"PTP_INST_SERVO", 0x130104, [(2, 0x20)], 1, 0x400400, none, none, [⟨0, 16, .rw, 0, 65535⟩, ⟨16, 16, .rw, 0, 65535⟩]⟩,
  ⟨"PTP_INST_LIM", 0x130108, [(2, 0x20)], 1, 0x864986A0, none, none, [⟨0, 19, .rw, 1, 0x7a120⟩, ⟨19, 1, .rw, 0, 1⟩, ⟨20, 8, .rw, 1, 255⟩, ⟨28, 4, .rw, 1, 15⟩]⟩,
  ⟨"PTP_INST_STAT", 0x13010C, [(2, 0x20)], 1, 0x0, none, none, [⟨8, 1, .w1c, 0, 1⟩, ⟨9, 1, .w1c, 0, 1⟩, ⟨10, 1, .w1c, 0, 1⟩, ⟨16, 4, .occ, 0, 0⟩, ⟨20, 4, .occ, 0, 0⟩, ⟨24, 4, .occ, 0, 0⟩]⟩,
  ⟨"PTP_INST_OFS", 0x130110, [(2, 0x20)], 1, 0x0, none, none, []⟩,
  ⟨"PTP_INST_ADJ", 0x130114, [(2, 0x20)], 1, 0x0, none, none, []⟩,
  ⟨"PTP_INST_RATE", 0x130118, [(2, 0x20)], 1, 0x0, none, none, []⟩,
  ⟨"PTP_PORT_CFG", 0x130200, [(2, 0x40)], 1, 0xD0, none, none, [⟨0, 1, .rw, 0, 1⟩, ⟨1, 1, .rw, 0, 1⟩, ⟨2, 1, .rw, 0, 1⟩, ⟨4, 4, .rw, 0, 15⟩, ⟨16, 16, .rw, 0, 65535⟩]⟩,
  ⟨"PTP_PORT_STAT", 0x130204, [(2, 0x40)], 1, 0x0, none, none, [⟨1, 1, .w1c, 0, 1⟩, ⟨2, 1, .w1c, 0, 1⟩, ⟨16, 4, .occ, 0, 0⟩, ⟨20, 4, .occ, 0, 0⟩]⟩,
  ⟨"PTP_PORT_RX", 0x130208, [(2, 0x40)], 1, 0x0, none, none, []⟩]

def regsTHM : List RegDef := [
  ⟨"THM_READ", 0x140000, [(192, 0x4)], 1, 0x7FFF, none, none, []⟩,
  ⟨"THM_LIM", 0x140400, [(24, 0x4)], 1, 0x1A4017C0, some .coat, some 0x8000, [⟨0, 16, .rws, 0, 65535⟩, ⟨16, 16, .rws, 0, 65535⟩]⟩,
  ⟨"THM_LIM", 0x140460, [(8, 0x4)], 1, 0x0, some .coat, some 0x8000, [⟨0, 16, .rws, 0, 65535⟩, ⟨16, 16, .rws, 0, 65535⟩]⟩,
  ⟨"THM_LIM", 0x140480, [(128, 0x4)], 1, 0x11800F00, some .coat, some 0x8000, [⟨0, 16, .rws, 0, 65535⟩, ⟨16, 16, .rws, 0, 65535⟩]⟩,
  ⟨"THM_LIM", 0x140680, [(16, 0x4)], 1, 0x0, some .coat, some 0x8000, [⟨0, 16, .rws, 0, 65535⟩, ⟨16, 16, .rws, 0, 65535⟩]⟩,
  ⟨"THM_LIM", 0x1406C0, [(16, 0x4)], 1, 0x19001540, some .coat, some 0x8000, [⟨0, 16, .rws, 0, 65535⟩, ⟨16, 16, .rws, 0, 65535⟩]⟩,
  ⟨"THM_CFG", 0x140800, [], 1, 0xBF640140, some .coat, some 0x8000, [⟨0, 10, .rws, 1, 1023⟩, ⟨16, 8, .rws, 1, 255⟩, ⟨24, 8, .rws, 0, 254⟩]⟩,
  ⟨"THM_THR", 0x140804, [], 1, 0x320190, some .coat, some 0x8000, [⟨0, 13, .rws, 1, 8191⟩, ⟨16, 16, .rws, 1, 65534⟩]⟩,
  ⟨"THM_CLASS", 0x140808, [], 1, 0x3C3C3C0A, some .coat, some 0x8000, [⟨0, 8, .rws, 1, 255⟩, ⟨8, 8, .rws, 0, 255⟩, ⟨16, 8, .rws, 0, 255⟩, ⟨24, 8, .rws, 0, 255⟩]⟩,
  ⟨"THM_STATE", 0x14080C, [], 1, 0x0, none, none, []⟩,
  ⟨"THM_HLEVEL", 0x140810, [(4, 0x4)], 1, 0x0, none, none, []⟩,
  ⟨"THM_STAT", 0x140820, [], 1, 0x0, none, none, [⟨0, 1, .w1c, 0, 1⟩, ⟨1, 1, .w1c, 0, 1⟩, ⟨2, 1, .w1c, 0, 1⟩, ⟨3, 1, .w1c, 0, 1⟩, ⟨16, 4, .occ, 0, 0⟩, ⟨20, 4, .occ, 0, 0⟩, ⟨24, 4, .occ, 0, 0⟩, ⟨28, 4, .occ, 0, 0⟩]⟩,
  ⟨"THM_LAST", 0x140824, [], 1, 0x0, none, none, []⟩,
  ⟨"THM_BRD", 0x140900, [(16, 0x4)], 1, 0x0, some .coat, some 0x8000, [⟨0, 1, .rws, 0, 1⟩, ⟨1, 7, .rws, 0, 127⟩, ⟨8, 8, .rws, 0, 255⟩, ⟨16, 2, .rws, 0, 1⟩, ⟨18, 1, .rws, 0, 1⟩, ⟨19, 1, .rws, 0, 1⟩]⟩]

def regsPMU : List RegDef := [
  ⟨"PMU_CFG", 0x150000, [], 1, 0x8A1E6430, some .coat, some 0x8000, [⟨0, 7, .rws, 20, 100⟩, ⟨8, 7, .rws, 20, 100⟩, ⟨16, 7, .rws, 0, 127⟩, ⟨24, 7, .rws, 1, 50⟩, ⟨31, 1, .rws, 0, 1⟩]⟩,
  ⟨"PMU_CFG2", 0x150004, [], 1, 0x1004, some .coat, some 0x8000, [⟨0, 8, .rws, 1, 255⟩, ⟨8, 8, .rws, 0, 255⟩]⟩,
  ⟨"PMU_VID", 0x150008, [], 1, 0x50, none, none, []⟩,
  ⟨"PMU_STAT", 0x15000C, [], 1, 0x0, none, none, [⟨0, 1, .w1c, 0, 1⟩, ⟨1, 1, .w1c, 0, 1⟩, ⟨2, 1, .w1c, 0, 1⟩, ⟨16, 4, .occ, 0, 0⟩, ⟨20, 4, .occ, 0, 0⟩, ⟨24, 4, .occ, 0, 0⟩]⟩]

def regsCAL : List RegDef := [
  ⟨"CAL_CFG", 0x160000, [], 1, 0x20132200, some .coat, some 0x8000, [⟨0, 12, .rws, 64, 4095⟩, ⟨12, 3, .rws, 0, 7⟩, ⟨16, 6, .rws, 1, 63⟩, ⟨24, 8, .rws, 1, 255⟩]⟩,
  ⟨"CAL_DUE", 0x160010, [(3, 0x4)], 1, 0x0, none, none, []⟩,
  ⟨"CAL_STAT", 0x160020, [], 1, 0x0, none, none, [⟨0, 1, .w1c, 0, 1⟩, ⟨1, 1, .w1c, 0, 1⟩, ⟨2, 1, .w1c, 0, 1⟩, ⟨16, 4, .occ, 0, 0⟩, ⟨20, 4, .occ, 0, 0⟩, ⟨24, 4, .occ, 0, 0⟩]⟩,
  ⟨"CAL_LAST", 0x160024, [], 1, 0x0, none, none, []⟩,
  ⟨"CAL_RES", 0x161000, [(80, 0x10)], 1, 0x0, none, none, [⟨0, 32, .rw, 0, 0xffffffff⟩]⟩,
  ⟨"CAL_QUAL", 0x161004, [(80, 0x10)], 1, 0x0, none, none, []⟩,
  ⟨"CAL_TEMP", 0x161008, [(80, 0x10)], 1, 0x7FFF, none, none, [⟨0, 16, .rw, 0, 65535⟩]⟩,
  ⟨"CAL_TSTAT", 0x16100C, [(80, 0x10)], 1, 0x0, none, none, []⟩]

def regsBST : List RegDef := [
  ⟨"BST_SUMMARY", 0x170000, [], 1, 0x0, none, none, []⟩,
  ⟨"BST_STAT", 0x170004, [], 1, 0x0, none, none, [⟨0, 1, .w1c, 0, 1⟩, ⟨1, 1, .w1c, 0, 1⟩, ⟨2, 1, .w1c, 0, 1⟩, ⟨16, 4, .occ, 0, 0⟩, ⟨20, 4, .occ, 0, 0⟩, ⟨24, 4, .occ, 0, 0⟩]⟩,
  ⟨"BST_RUN", 0x170008, [], 1, 0x0, none, none, [⟨0, 8, .wo, 0, 255⟩]⟩,
  ⟨"BST_UNIT", 0x170100, [(168, 0x10)], 3, 0x0, none, none, []⟩,
  ⟨"BST_RPR_CFG", 0x178000, [], 1, 0x0, none, none, [⟨1, 1, .wo, 0, 1⟩]⟩,
  ⟨"BST_RPR_ARR", 0x178100, [(96, 0x4)], 1, 0x0, none, none, []⟩]

def regsLCS : List RegDef := [
  ⟨"LCS_STATE", 0x180000, [], 1, 0x0, none, none, []⟩,
  ⟨"LCS_ID", 0x180008, [], 2, 0x0, none, none, []⟩,
  ⟨"LCS_CTRL", 0x180010, [], 1, 0x0, none, none, [⟨0, 1, .wo, 0, 1⟩, ⟨1, 1, .wo, 0, 1⟩]⟩,
  ⟨"LCS_STAT", 0x180014, [], 1, 0x0, none, none, [⟨0, 1, .w1c, 0, 1⟩, ⟨1, 1, .w1c, 0, 1⟩, ⟨2, 1, .w1c, 0, 1⟩, ⟨16, 4, .occ, 0, 0⟩, ⟨20, 4, .occ, 0, 0⟩, ⟨24, 4, .occ, 0, 0⟩]⟩]

/-- The registers of a block, by block index (R534). -/
def regsOfBlock : Nat → List RegDef
  | 0 => regsSYS
  | 1 => regsHIF
  | 2 => regsRING
  | 3 => regsSEQ
  | 4 => regsTRW
  | 5 => regsOVL
  | 6 => regsSRV
  | 7 => regsHLK
  | 8 => regsMPL
  | 9 => regsCAM
  | 10 => regsFLT
  | 11 => regsMOT
  | 12 => regsENC
  | 13 => regsLED
  | 14 => regsDMC
  | 15 => regsNVS
  | 16 => regsSKM
  | 17 => regsEVR
  | 18 => regsTIM
  | 19 => regsPTP
  | 20 => regsTHM
  | 21 => regsPMU
  | 22 => regsCAL
  | 23 => regsBST
  | 24 => regsLCS
  | _ => []

end Sys2Proof.Machine
end

