-- ==== Sys2Proof/Machine/State.lean ====
section
/-!
DEFINITION. The state of the block: plain data holding every register, memory, queue and engine state
the spec names, and the queue of waiting commands.
-/
namespace Sys2Proof.Machine

/-- Why the machine would stop with a fault. No rule of the spec stops the block: an error sets a flag,
raises an event, moves a domain to SAFE or completes a descriptor with a status. No meaning raises it. -/
inductive Fault
  | none
  deriving DecidableEq, Repr

/-- Why a command has no meaning. -/
inductive Refusal
  /-- The command named is not modelled yet (safe: the machine stops). -/
  | notModelled (mnemonic : String)
  deriving DecidableEq, Repr

/-- A transition the sequencer accepted, which takes effect at the next tick edge (R39); `stale` where a trigger of SAFE
entry of its domain came after it, whose entry ends it. -/
structure Trans where
  dom : Nat
  mode : Mode
  cause : Cause
  stale : Bool
  deriving DecidableEq, Repr

/-- A trigger of SAFE entry taken in a command (R54): the domain, the cause, and the sticky flag of the
fault as its register offset and bit, which R58 asks about. -/
structure SafeReq where
  dom : Nat
  cause : Cause
  flag : Option (Nat × Nat)
  deriving DecidableEq, Repr

/-- What OTP and the key store hold beside the registers that show it (R502): the grade, SK9632-X where `gradeX`
(R1, R2), the owner key and the event-clear key as X and Y, rows repaired by fuse of each array (R497), and the
generation of the identity key, 0 for none. -/
structure Otp where
  gradeX : Bool
  owner : Option (Nat × Nat)
  clear : Option (Nat × Nat)
  fused : List (Nat × Nat)
  identity : Nat
  deriving DecidableEq, Repr

/-- A nonce with the TB2 nanosecond at which it ends (R436, R500). -/
structure Nonce where
  ws : List Word
  until_ : Nat
  deriving DecidableEq, Repr

/-- The part of the state that no conservation rule speaks of. `mmHold` is the low part of a register held by
R536 with its offset, `mmCap` the captures of R536 by offset, `reqs` the WO requests held for the next tick
edge (R543), a mask by offset, `ring0Wait` says that ring 0 waits for the next doorbell read after an abort (R101 step
7), `restDue` that AXES_REST of an abort is still to come (R101 step 9), and `lateLaunch` the heads whose proposals missed
the cascade launch bead in the present tick (R190), `deposits` the late flushes, newest first: tick, cell and the cell's
word before (R270), and `evrFlush` that the core's entry into SAFE asks for a page of events at once (R431). -/
structure Aux where
  clk : Clock
  dirty : List Nat
  trans : List Trans
  safeReq : List SafeReq
  safeFlag : List (Nat × Nat × Nat)
  safeInLow : Bool
  wdFrom : Nat
  build : Build
  psets : List Pset
  ctxs : List Ctx
  trowels : List Trowel
  axes : List Axis
  plume : List Spot
  peers : List Peer
  lanes : List Lane
  pools : List Pool
  store : Store
  poison : List Nat
  cams : List Cam
  mots : List Mot
  encs : List Enc
  divs : List DivOut
  limits : List Bool
  carriage : Carriage
  bars : List Bar
  leds : List LedGrp
  ledChs : List LedCh
  fwLost : Option Nat
  otp : Otp
  evrNonce : Option Nonce
  lcsNonce : Option Nonce
  insts : List PtpInst
  align : Align
  temps : List Temp
  pmu : Pmu
  cals : List CalTarget
  boot : Boot
  homeFrom : Nat
  nextId : Nat
  out : List Output
  irq : List Nat
  evq : List Event
  mmHold : Option (Nat × List Word)
  mmCap : List (Nat × List Word)
  reqs : List (Nat × Nat)
  bead : Bead
  loads : List TableWrite
  ring0Wait : Bool
  lateLaunch : List Nat
  deposits : List (Nat × Nat × Nat)
  restDue : Bool
  evrFlush : Bool
  inReset : Bool
  linkUp : Bool
  free : Nat
  deriving DecidableEq, Repr

def Aux.init : Aux where
  clk := ⟨0, 0, 0, 0, 0⟩
  dirty := []
  trans := []
  safeReq := []
  safeFlag := []
  safeInLow := false
  wdFrom := 0
  build := Build.init
  psets := List.replicate 256 Pset.init
  ctxs := List.replicate 128 Ctx.init
  trowels := List.replicate 32 Trowel.init
  axes := List.replicate 96 Axis.init
  plume := []
  peers := List.replicate 4 Peer.init
  lanes := List.replicate 40 Lane.init
  pools := List.replicate 32 Pool.init
  store := Store.init
  poison := []
  cams := List.replicate 8 Cam.init
  mots := List.replicate 12 Mot.init
  encs := List.replicate 16 Enc.init
  divs := List.replicate 4 DivOut.init
  limits := List.replicate 24 false
  carriage := Carriage.init
  bars := List.replicate 2 Bar.init
  leds := List.replicate 4 LedGrp.init
  ledChs := List.replicate 24 LedCh.init
  fwLost := none
  otp := ⟨false, none, none, [], 0⟩
  evrNonce := none
  lcsNonce := none
  insts := List.replicate 2 PtpInst.init
  align := Align.init
  temps := List.replicate 192 Temp.init
  pmu := Pmu.init
  cals := List.replicate 80 CalTarget.init
  boot := Boot.init
  homeFrom := 0
  nextId := 0
  out := []
  irq := []
  evq := []
  mmHold := none
  mmCap := []
  reqs := []
  bead := Bead.init
  loads := []
  ring0Wait := false
  lateLaunch := []
  deposits := []
  restDue := false
  evrFlush := false
  inReset := false
  linkUp := true
  free := 0

/-- The block without its command queue. -/
structure Blk where
  regs : List (Nat × Word)
  evr : Evr
  rings : List Ring
  runs : RunBook
  wqs : List Wq
  camBooks : List CamBook
  toks : List TokBar
  tsqs : List Tsq
  dram : List (Nat × Byte)
  win : List (Nat × Byte)
  aux : Aux
  deriving DecidableEq, Repr

/-- The block right after a cold reset (R514): every register at its reset value, nothing in memory. -/
def Blk.init : Blk where
  regs := []
  evr := Evr.init
  rings := List.replicate 89 Ring.init
  runs := RunBook.init
  wqs := List.replicate 2 Wq.init
  camBooks := List.replicate 8 CamBook.init
  toks := List.replicate 2 TokBar.init
  tsqs := List.replicate 2 Tsq.init
  dram := []
  win := []
  aux := Aux.init

/-- The machine: the block and the commands waiting for it, first in first out. -/
structure State where
  pending : List Instr
  blk : Blk
  deriving DecidableEq, Repr

/-- The machine right after reset. -/
def State.reset : State := ⟨[], Blk.init⟩

end Sys2Proof.Machine
end

