-- ==== Sys2Proof/Machine/Ops.lean ====
section
/-!
DEFINITION. The primitive operations on the block and the programs that command meanings are made of.
Every change of the block is one of the primitives, so what any command can do is said once here.
-/
namespace Sys2Proof.Machine

/-! ### The register map -/

/-- The offset inside one element of an array, where the offset falls in one. -/
def inDims : List (Nat × Nat) → Nat → Option Nat
  | [], r => some r
  | (c, s) :: ds, r => if r / s < c then inDims ds (r % s) else none

/-- The word index at which an offset meets a register's own (shadow) words. -/
def locate (d : RegDef) (off : Nat) : Option Nat :=
  if off < d.off then none
  else
    match inDims d.dims (off - d.off) with
    | some r => if r % 4 = 0 ∧ r / 4 < d.words then some (r / 4) else none
    | none => none

/-- A register met by an offset: its row, the offset of its first word, the word index, and whether it
is the active copy. -/
structure Hit where
  d : RegDef
  base : Nat
  idx : Nat
  active : Bool
  deriving DecidableEq, Repr

/-- The word index at which an offset meets a register's active copy. -/
def locateAct (d : RegDef) (off : Nat) : Option Nat :=
  match d.act with
  | some a => if a ≤ off then locate d (off - a) else none
  | none => none

/-- The register at an offset, among rows. -/
def findIn : List RegDef → Nat → Option Hit
  | [], _ => none
  | d :: ds, off =>
    match locate d off with
    | some i => some ⟨d, off - 4 * i, i, false⟩
    | none =>
      match locateAct d off with
      | some i => some ⟨d, off - 4 * i, i, true⟩
      | none => findIn ds off

/-- The register at a BAR0 offset (R534, R540). -/
def findReg (off : Nat) : Option Hit := findIn (regsOfBlock (off / 65536)) off

/-- The reset value of the word at an offset; an offset with no register reads 0 (R537, R540). -/
def defaultWord (off : Nat) : Word :=
  match findReg off with
  | some h => BitVec.ofNat 32 (h.d.reset / 2 ^ (32 * h.idx))
  | none => 0

/-- The active copy's offset of a shadowed register (R540 and the chapters that state another). -/
def actOff (off : Nat) : Nat :=
  if off < 65536 then off + 4
  else
    match off / 65536 with
    | 4 => if off % 65536 < 0x4000 ∧ 0x1000 ≤ off % 65536 then off + 0x1000 else off + 0x8000
    | 8 => if 0x1000 ≤ off % 65536 then off + 0x1000 else off + 0x8000
    | 9 => off + 0x4000
    | 10 => off + 0x200
    | 13 => off + 0x2000
    | _ => off + 0x8000

/-- The stored word of a register. -/
def Blk.w (b : Blk) (off : Nat) : Word := mapGet defaultWord b.regs off

/-- A field of a register as stored. -/
def Blk.f (b : Blk) (off : Nat) (f : Fld) : Nat := f.get (b.w off)

/-- The active word of a shadowed register. -/
def Blk.aw (b : Blk) (off : Nat) : Word := b.w (actOff off)

/-- A field of the active copy of a shadowed register. -/
def Blk.a (b : Blk) (off : Nat) (f : Fld) : Nat := f.get (b.w (actOff off))

/-- A 64-bit register as stored. -/
def Blk.w64 (b : Blk) (off : Nat) : Nat := (b.w off).toNat + 4294967296 * (b.w (off + 4)).toNat

/-- The mode of a domain. -/
def Blk.mode (b : Blk) (d : Nat) : Mode := modeOf (b.f (Reg.SEQ_DOM_STAT d) F.SEQ_DOM_STAT_MODE)

/-- A domain is marked unusable. -/
def Blk.unusable (b : Blk) (d : Nat) : Bool := b.f (Reg.SEQ_DOM_STAT d) F.SEQ_DOM_STAT_UNUSABLE == 1

/-- A byte of DRAM; the model's choice of what an unwritten byte holds is 0. -/
def Blk.dramByte (b : Blk) (a : Nat) : Byte := mapGet (fun _ => 0) b.dram a

/-- A byte of the BAR2 window's memory. -/
def Blk.winByte (b : Blk) (a : Nat) : Byte := mapGet (fun _ => 0) b.win a

/-- `n` bytes of DRAM as a little-endian value. -/
def Blk.dramNat (b : Blk) (a n : Nat) : Nat := leBytes ((List.range n).map fun i => b.dramByte (a + i))

/-- `n` bytes of the BAR2 window as a little-endian value. -/
def Blk.winNat (b : Blk) (a n : Nat) : Nat := leBytes ((List.range n).map fun i => b.winByte (a + i))

/-! ### Event recorder operations -/

/-- The words of an event record (R426), PHASE 0. -/
def recordWords (e : Event) (serial : Nat) : List Word :=
  let ws : List Word :=
    [BitVec.ofNat 32 (0x30 + e.code * 65536), BitVec.ofNat 32 serial, BitVec.ofNat 32 (serial / 2 ^ 32),
      BitVec.ofNat 32 (e.inst + e.suppressed * 65536)] ++ toWords 4 (stampOf e.time) ++ toWords 2 e.tick ++
    [BitVec.ofNat 32 (e.coat % 2 ^ 24 + e.dom * 2 ^ 24), BitVec.ofNat 32 e.mode, BitVec.ofNat 32 e.d0,
      BitVec.ofNat 32 e.d1, BitVec.ofNat 32 e.d2]
  ws ++ [BitVec.ofNat 32 (crcWords ws)]

/-- The suppressed count of a code. -/
def Evr.suppOf (v : Evr) (code : Nat) : Nat := mapGet (fun _ => 0) v.supp code

/-- The bucket of a code brought up to a TB2 millisecond: one token each `per` ms, at most `cap`. -/
def refilled (bk : Bucket) (cap per ms : Nat) : Bucket :=
  ⟨min cap (bk.tokens + (ms / per - bk.ms / per)), ms⟩

/-- An event enters the intake or is lost (R428). -/
def Evr.enter (v : Evr) (e : Event) : Evr :=
  if v.intake.length < 64 then
    { v with
      raised := v.raised + 1
      intake := v.intake ++ [{ e with suppressed := v.suppOf e.code }]
      supp := mapSet (fun _ => 0) v.supp e.code 0 }
  else
    { v with
      raised := v.raised + 1
      lost := v.lost + 1
      pend := v.pend + 1
      firstLoss := if v.pend = 0 then e.tick else v.firstLoss
      lastLoss := e.tick }

/-- An event meets the limiter of its code (R427) and then the intake (R428). -/
def Evr.raise (v : Evr) (e : Event) (cap per ms : Nat) : Evr :=
  let bk := refilled ((mapFind v.buckets e.code).getD ⟨cap, ms⟩) cap per ms
  if bk.tokens = 0 then
    { v with
      raised := v.raised + 1
      limited := v.limited + 1
      supp := mapSet (fun _ => 0) v.supp e.code (min 0xFFFF (v.suppOf e.code + 1))
      buckets := mapInsert v.buckets e.code bk }
  else
    let v1 := v.enter e
    { v1 with buckets := mapInsert v1.buckets e.code ⟨bk.tokens - 1, ms⟩ }

/-- A record is composed into staging. -/
def Evr.stage (v : Evr) (ws : Nat → List Word) (ms : Nat) : Evr :=
  { v with
    staged := v.staged ++ [⟨v.next, ws v.next⟩]
    oldestMs := if v.staged.isEmpty then ms else v.oldestMs
    next := v.next + 1 }

/-- One composition (R429): pending losses first, then the oldest intake entry. `mk` is the moment of
composition, an event with the fields of an EVENTS_LOST record other than its data. -/
def Evr.compose (v : Evr) (mk : Event) (ms : Nat) : Evr :=
  if 256 ≤ v.staged.length then v
  else if 0 < v.pend then
    let e := { mk with code := 0x470, d0 := min 0xFFFFFFFF v.pend, d1 := v.firstLoss, d2 := v.lastLoss }
    let v1 := v.stage (recordWords e) ms
    { v1 with raised := v1.raised + 1, recorded := v1.recorded + 1, pend := 0 }
  else
    match v.intake with
    | [] => v
    | e :: es =>
      let v1 := v.stage (recordWords e) ms
      { v1 with recorded := v1.recorded + 1, intake := es }

/-- An EVENT_CLEAR record is composed, bypassing limiter and intake (R427, R437). -/
def Evr.composeClear (v : Evr) (mk : Event) (outcome cleared ms : Nat) : Evr :=
  let e := { mk with code := 0x471, d0 := outcome, d1 := cleared, d2 := 0 }
  let v1 := v.stage (recordWords e) ms
  { v1 with raised := v1.raised + 1, recorded := v1.recorded + 1 }

/-- A page of staged records is programmed: SERIAL below 4,096 to the pinned area, the rest to the
circular area (R431, R433). -/
def Evr.program (v : Evr) (n : Nat) (ms : Nat) : Evr :=
  let page := v.staged.take n
  { v with
    staged := v.staged.drop n
    oldestMs := ms
    pinned := v.pinned ++ page.filter fun r => decide (r.serial < 4096)
    circular := v.circular ++ page.filter fun r => !decide (r.serial < 4096) }

/-- Staged records lost to an uncorrectable error count as lost (R434). -/
def Evr.loseStaged (v : Evr) (n tick : Nat) : Evr :=
  let k := min n v.recorded
  { v with
    staged := v.staged.drop n
    recorded := v.recorded - k
    lost := v.lost + k
    pend := v.pend + k
    firstLoss := if v.pend = 0 then tick else v.firstLoss
    lastLoss := tick }

/-- Circular records below a SERIAL cease to be present, staged ones included (R437). -/
def Evr.clearBelow (v : Evr) (s : Nat) : Evr :=
  { v with
    staged := v.staged.filter fun r => decide (r.serial < 4096 ∨ s ≤ r.serial)
    circular := v.circular.filter fun r => decide (s ≤ r.serial) }

/-- The oldest circular block is erased: its records are no longer present (R433). -/
def Evr.eraseOldest (v : Evr) (n : Nat) : Evr := { v with circular := v.circular.drop n }

/-- SERIAL is loaded from NAND (EVR_SERIAL, at storage HOME). -/
def Evr.loadNext (v : Evr) (n : Nat) : Evr := { v with next := max v.next n }

/-- Reset of the recorder's books (R514): staging and counters lost; what NAND holds is kept. -/
def Evr.restart (v : Evr) : Evr := { Evr.init with pinned := v.pinned, circular := v.circular }

/-- The operations of the recorder. -/
inductive EvrOp
  | raise (e : Event) (cap per ms : Nat)
  | compose (mk : Event) (ms : Nat)
  | composeClear (mk : Event) (outcome cleared ms : Nat)
  | program (n ms : Nat)
  | loseStaged (n tick : Nat)
  | clearBelow (s : Nat)
  | eraseOldest (n : Nat)
  | loadNext (n : Nat)
  | restart

def evrApply (v : Evr) : EvrOp → Evr
  | .raise e cap per ms => v.raise e cap per ms
  | .compose mk ms => v.compose mk ms
  | .composeClear mk o c ms => v.composeClear mk o c ms
  | .program n ms => v.program n ms
  | .loseStaged n t => v.loseStaged n t
  | .clearBelow s => v.clearBelow s
  | .eraseOldest n => v.eraseOldest n
  | .loadNext n => v.loadNext n
  | .restart => v.restart

/-! ### Ring operations -/

/-- The operations of a ring. -/
inductive RingOp
  /-- ENABLE written 1 (R77). -/
  | enable (idx : Nat)
  /-- A descriptor fetched, its completion slot reserved on a ring named in eight bits (R94). -/
  | fetch (ws : List Word) (cq : Nat)
  /-- The oldest descriptor begins. -/
  | start
  /-- The oldest ABORT descriptor that has not acted acts (R81). -/
  | markAbort
  /-- The oldest descriptor completes. -/
  | finish
  /-- A completion entry written. -/
  | completion (ns : Nat)
  /-- An entry written, with the pending GAP ahead of it where there is one. -/
  | entry (ns : Nat)
  /-- An entry dropped; `pend` when it counts for a GAP. -/
  | drop (pend : Bool)
  /-- A message sent: counting and timing restart (R97). -/
  | signalled
  /-- Return to the reset state. -/
  | clear

/-- The first fetched ABORT descriptor not marked yet is marked. -/
def markAbortIn : List Fetched → List Fetched
  | [] => []
  | d :: ds =>
    if (d.ws.getD 0 0).toNat % 256 = 0x0F ∧ !d.begun then { d with begun := true } :: ds
    else d :: markAbortIn ds

/-- What an operation does to a ring's books. Enabling forgets a GAP still pending: DESIGN CHOICE, R91 does not say what
becomes of it when the ring starts anew. -/
def ringApply (r : Ring) : RingOp → Ring
  | .enable idx => { r with start := idx, gap := 0, since := 0, firstNs := 0 }
  | .fetch ws cq =>
    if r.fetched.length < 64 then { r with fetched := r.fetched ++ [⟨ws, cq % 256, false⟩] } else r
  | .start =>
    match r.fetched with
    | [] => r
    | d :: ds => { r with fetched := { d with begun := true } :: ds }
  | .markAbort => { r with fetched := markAbortIn r.fetched }
  | .finish => { r with fetched := r.fetched.tail }
  | .completion ns =>
    { r with since := r.since + 1, firstNs := if r.since = 0 then ns else r.firstNs }
  | .entry ns =>
    { r with
      gap := 0
      generated := r.generated + 1
      written := r.written + 1
      since := r.since + (if r.gap = 0 then 1 else 2)
      firstNs := if r.since = 0 then ns else r.firstNs }
  | .drop pend =>
    { r with
      generated := r.generated + 1
      dropped := r.dropped + 1
      gap := if pend then min 0xFFFFFFFF (r.gap + 1) else r.gap }
  | .signalled => { r with since := 0, firstNs := 0 }
  | .clear => Ring.init

/-! ### Primitives and programs -/

/-- The primitive changes of the block. -/
inductive Prim
  /-- A register word takes a value. -/
  | word (off : Nat) (v : Word)
  /-- Every register returns to its reset value. -/
  | regsReset
  | evr (op : EvrOp)
  | ring (n : Nat) (op : RingOp)
  | run (op : RunOp)
  | wq (c : Nat) (op : WqOp)
  | cam (c : Nat) (op : CamOp)
  | tok (n : Nat) (op : TokOp)
  | tsq (p : Nat) (op : TsqOp)
  | dram (addr : Nat) (v : Byte)
  | dramLost
  | win (addr : Nat) (v : Byte)
  | winLost
  | aux (f : Aux → Aux)

/-- What a primitive does to the block. -/
def Prim.apply (p : Prim) (b : Blk) : Blk :=
  match p with
  | .word off v => { b with regs := mapSet defaultWord b.regs off v }
  | .regsReset => { b with regs := [] }
  | .evr op => { b with evr := evrApply b.evr op }
  | .ring n op => { b with rings := b.rings.modify n fun r => ringApply r op }
  | .run op => { b with runs := runApply b.runs op }
  | .cam c op => { b with camBooks := b.camBooks.modify c fun q => camApply q op }
  | .tsq n op => { b with tsqs := b.tsqs.modify n fun q => tsqApply q op }
  | .tok n op => { b with toks := b.toks.modify n fun q => tokApply q op }
  | .wq c op => { b with wqs := b.wqs.modify c fun q => wqApply q op }
  | .dram a v => { b with dram := mapSet (fun _ => 0) b.dram a v }
  | .dramLost => { b with dram := [] }
  | .win a v => { b with win := mapSet (fun _ => 0) b.win a v }
  | .winLost => { b with win := [] }
  | .aux f => { b with aux := f b.aux }

/-- A program: what a command does, as primitives that may depend on the block they meet. -/
inductive Prog
  | skip
  | op (p : Prim)
  | get (k : Blk → Prog)
  | seq (p q : Prog)

/-- Running a program. -/
def Prog.run : Prog → Blk → Blk
  | .skip, b => b
  | .op p, b => p.apply b
  | .get k, b => (k b).run b
  | .seq p q, b => q.run (p.run b)

/-- Programs one after the other. -/
def progAll : List Prog → Prog
  | [] => .skip
  | p :: ps => .seq p (progAll ps)

/-- A program for each element, in order. -/
def progEach {α : Type} (l : List α) (f : α → Prog) : Prog := progAll (l.map f)

/-- A program under a condition. -/
def progIf (c : Bool) (p : Prog) : Prog := if c then p else .skip

/-- A program under a condition on the block it meets. -/
def progWhen (c : Blk → Bool) (p : Prog) : Prog := .get fun b => if c b then p else .skip

/-- A register word takes a value. -/
def setW (off : Nat) (v : Word) : Prog := .op (.word off v)

/-- A field of a register takes a value. -/
def setF (off : Nat) (f : Fld) (x : Nat) : Prog := .get fun b => setW off (f.put x (b.w off))

/-- A field of a register is changed by a function of its value. -/
def modF (off : Nat) (f : Fld) (g : Nat → Nat) : Prog :=
  .get fun b => setW off (f.put (g (b.f off f)) (b.w off))

/-- A 64-bit register takes a value. -/
def setW64 (off : Nat) (x : Nat) : Prog :=
  progAll [setW off (BitVec.ofNat 32 x), setW (off + 4) (BitVec.ofNat 32 (x / 4294967296))]

/-- A change of the engines' state. -/
def modAux (f : Aux → Aux) : Prog := .op (.aux f)

/-- An output of the command. -/
def emit (o : Output) : Prog := modAux fun a => { a with out := a.out ++ [o] }

/-- A fresh free value (Config.freeWord) handed to a program. -/
def withFree (k : Nat → Prog) : Prog :=
  .get fun b => .seq (modAux fun a => { a with free := a.free + 1 }) (k b.aux.free)

/-- `n` fresh free values handed to a program by the number of the first. -/
def withFrees (n : Nat) (k : Nat → Prog) : Prog :=
  .get fun b => .seq (modAux fun a => { a with free := a.free + n }) (k b.aux.free)

/-- Bytes written to DRAM, whatever queue they pass. -/
def dramBytes (addr : Nat) (bs : List Byte) : Prog :=
  progEach (bs.zipIdx) fun (v, i) => .op (.dram (addr + i) v)

/-- Bytes written to the BAR2 window. -/
def winWrite (addr : Nat) (bs : List Byte) : Prog :=
  progEach (bs.zipIdx) fun (v, i) => .op (.win (addr + i) v)

end Sys2Proof.Machine
end

