-- ==== Sys2Proof/Machine/Flags.lean ====
section
/-!
DEFINITION. Sticky flags, their occurrence counters and their events (R544, R546), events through the
limiter into the intake (R426 to R428).
-/
namespace Sys2Proof.Machine

/-- A sticky flag: its status register, its bit, its occurrence counter where it has one, its event
code where it raises one (R546), and the instance and domain the event carries. -/
structure Flag where
  off : Nat
  bit : Nat
  cnt : Option (Nat × Fld)
  code : Option Nat
  inst : Nat
  dom : Nat
  deriving DecidableEq, Repr

/-- DOMAIN of an event of a unit that belongs to no domain (R426). -/
abbrev noDom : Nat := 63

/-- SYS_LATE[n].TICK_LATE; the event names the engine and, as its domain, the head (R26). -/
def flTickLate (n h : Nat) : Flag :=
  ⟨Reg.SYS_LATE n, 0, some (Reg.SYS_LATE n, F.SYS_LATE_LATE_COUNT), some 0x000, n, h⟩
def flSlackLow (n : Nat) : Flag :=
  ⟨Reg.SYS_LATE n, 1, some (Reg.SYS_LATE n, F.SYS_LATE_LOW_COUNT), some 0x001, n, noDom⟩
def flReject : Flag :=
  ⟨Reg.SYS_MAP_STAT, 0, some (Reg.SYS_MAP_STAT, F.SYS_MAP_STAT_REJECT_CNT), some 0x002, 0, noDom⟩
def flUnmapped : Flag :=
  ⟨Reg.SYS_MAP_STAT, 1, some (Reg.SYS_MAP_STAT, F.SYS_MAP_STAT_UNMAPPED_CNT), some 0x003, 0, noDom⟩
def flTorn : Flag :=
  ⟨Reg.RING_DB_STAT, 0, some (Reg.RING_DB_STAT, F.RING_DB_STAT_TORN_COUNT), some 0x080, 0, noDom⟩
def flReadErr : Flag := ⟨Reg.RING_DB_STAT, 1, none, some 0x081, 0, noDom⟩
def flDrop (n : Nat) : Flag :=
  ⟨Reg.RING_ERR n, 1, some (Reg.RING_ERR n, F.RING_ERR_DROP_COUNT), some 0x082, n, noDom⟩
/-- TRW_HEAD_STAT bit `i` of head `h`: 0 GATE_CROWD, 1 GATE_CLAMP, 2 WOBBLE_CLIP, 3 FOCUS_LAG,
4 FEATURE_OFF, 5 STARVE, 6 FIELD_EXIT, 7 SPEED_CLAMP. -/
def flTrw (h i : Nat) : Flag :=
  ⟨Reg.TRW_HEAD_STAT h, i, some (Reg.TRW_HEAD_OCC h, ⟨4 * i, 4⟩), some (0x100 + i), h, h⟩
/-- OVL_STAT bit `i`: 0 CASC_MISS, 1 STRANDED, 2 PASS_LIMIT. -/
def flOvl (i : Nat) : Flag :=
  ⟨Reg.OVL_STAT, i, some (Reg.OVL_OCC, ⟨8 * i, 8⟩), some (0x140 + i), 0, dCore⟩
/-- SRV_AXIS_STAT bit `i` of axis `n`: 0 ARITH_SAT, 1 I_SAT, 2 OUT_SAT, 3 PLAUS, 4 POS_MISS. -/
def flSrv (n i : Nat) : Flag :=
  ⟨Reg.SRV_AXIS_STAT n, i, some (Reg.SRV_AXIS_OCC n, ⟨6 * i, 6⟩), some (0x180 + i), n, n / 3⟩
/-- The domain of a lane (R541). -/
def laneDom (l : Nat) : Nat :=
  if l < 32 then l else if l < 36 then 32 + (l - 32) / 2 else dCore
/-- HLK_LANE_STAT bit `i` of lane `l`. -/
def flHlk (l i : Nat) : Flag :=
  ⟨Reg.HLK_LANE_STAT l, i, some (Reg.HLK_LANE_OCC l (i / 8), ⟨4 * (i % 8), 4⟩), some (0x1C0 + i), l,
    laneDom l⟩
def flHmSat : Flag :=
  ⟨Reg.MPL_HM_STAT, 8, some (Reg.MPL_HM_STAT, F.MPL_HM_STAT_HM_SAT_CNT), some 0x200, 0, noDom⟩
/-- MPL_HEAD_STAT bit `i` of head `h`: 0 PD_SAT, 1 FF_MISS, 2 HM_OUT, 3 STALE, 4 BAND_LONG,
5 BURST_DONE. -/
def flMpl (h i : Nat) : Flag :=
  ⟨Reg.MPL_HEAD_STAT h, i, some (Reg.MPL_HEAD_OCC h, ⟨4 * i, 4⟩), some (0x201 + i), h, h⟩
/-- CAM_STAT bit `i` of camera `c`: 0 SHORT, 1 TRUNCATED, 2 LINE_ERR, 3 LOST, 4 UNEXPECTED,
5 TRIG_SKIP, 6 ROI_CLIP, 7 BLOB_OVF, 8 HDR_ERR, 9 LAYER_FAIL. -/
def flCam (c i : Nat) : Flag :=
  ⟨Reg.CAM_STAT c, i, some (Reg.CAM_OCC c, ⟨3 * i, 3⟩), some (0x240 + i), c, dCam c⟩
/-- FLT_BAR_STAT bit `i` of bar `b`. -/
def flFlt (b i : Nat) : Flag :=
  ⟨Reg.FLT_BAR_STAT b, i, some (Reg.FLT_BAR_OCC b (i / 8), ⟨4 * (i % 8), 4⟩), some (0x280 + i), b,
    dFloat b⟩
def flDivOvf (x : Nat) : Flag :=
  ⟨Reg.MOT_DIV_CFG x, 15, some (Reg.MOT_DIV_CFG x, F.MOT_DIV_CFG_OVF_CNT), some 0x2C0, x, noDom⟩
/-- MOT_AXIS_STAT bit `i` of axis `a`: 0 LIM_HIT, 1 CHAT_POS, 2 CHAT_NEG, 3 HOME_LIMIT, 4 STALL,
5 GEAR_LAG, 6 COMPARE_BEHIND, 7 CMP_FIRED, 8 RECOAT_BAD (without a counter). -/
def flMot (a i : Nat) : Flag :=
  ⟨Reg.MOT_AXIS_STAT a, i, if i < 8 then some (Reg.MOT_AXIS_OCC a, ⟨4 * i, 4⟩) else none,
    some (0x2C1 + i), a, dGroup (a / 3)⟩
/-- ENC_STAT bit `i` of encoder `e`: 0 QERR, 1 ENC_FAULT, 2 SSI_ERR, 3 IDX_ERR. -/
def flEnc (e i : Nat) : Flag :=
  ⟨Reg.ENC_STAT e, i, some (Reg.ENC_OCC e, ⟨8 * i, 8⟩), some (0x300 + i), e, noDom⟩
/-- LED_GRP_STAT bit `i` of group `c` (0 DISS_LIMIT, 1 TC_SENSOR), in the domain `d` of its camera. -/
def flLedGrp (c i d : Nat) : Flag :=
  ⟨Reg.LED_GRP_STAT c, i, some (Reg.LED_GRP_STAT c, ⟨16 + 8 * i, 8⟩), some (0x340 + i), c, d⟩
/-- LED_CH_STAT bit `i` of channel `n` (0 OPEN, 1 SHORT, 2 REG_LOW). -/
def flLedCh (n i d : Nat) : Flag :=
  ⟨Reg.LED_CH_STAT n, i, some (Reg.LED_CH_STAT n, ⟨8 + 8 * i, 8⟩), some (0x342 + i), n, d⟩
/-- DMC_ECC_STAT bit `i`: 0 CE, 1 UE, 2 RANGE. -/
def flEcc (i : Nat) : Flag :=
  ⟨Reg.DMC_ECC_STAT, i, some (Reg.DMC_ECC_STAT, ⟨8 + 8 * i, 8⟩), some (0x380 + i), 0, noDom⟩
def flWrDrop : Flag :=
  ⟨Reg.DMC_WIN_STAT, 0, some (Reg.DMC_WIN_STAT, F.DMC_WIN_STAT_DROP_CNT), some 0x383, 0, noDom⟩
/-- DMC_SRAM_STAT bit `i`: 0 CE, 1 UE. -/
def flSram (i : Nat) : Flag :=
  ⟨Reg.DMC_SRAM_STAT, i, some (Reg.DMC_SRAM_STAT, ⟨16 + 8 * i, 8⟩), some (0x384 + i), 0, noDom⟩
/-- DMC_PORT_STAT bit `i` of port `q`: 0 LAT_MISS, 1 UE. -/
def flPort (q i : Nat) : Flag :=
  ⟨Reg.DMC_PORT_STAT q, i, some (Reg.DMC_PORT_STAT q, ⟨8 + 8 * i, 8⟩), some (0x386 + i), q, noDom⟩
/-- NVS_STAT bit `i`: 0 RETIRE, 1 SPARE_LOW, 2 RECORD_FULL, 3 STAGE_HOLD, 4 STAGE_LOST, 5 UNCORR,
6 RECOVERED, 7 TABLE_LOST, 8 CONFIG. -/
def flNvs (i : Nat) : Flag :=
  ⟨Reg.NVS_STAT, i, some (Reg.NVS_OCC (i / 8), ⟨4 * (i % 8), 4⟩), some (0x3C0 + i), 0, dStore⟩
/-- SKM_STAT bit `i`: 0 VERIFY_FAIL, 1 OUT_FULL, 2 CORRUPT. -/
def flSkm (i : Nat) : Flag :=
  ⟨Reg.SKM_STAT, i, some (Reg.SKM_STAT, ⟨8 + 8 * i, 8⟩), some (0x400 + i), 0, dStore⟩
/-- EVR_STAT bit `i` (0 LOST, 1 CLEARED, 2 CLEAR_DENIED, 3 DAMAGED); these flags raise no event. -/
def flEvr (i : Nat) : Flag :=
  ⟨Reg.EVR_STAT, i, some (Reg.EVR_STAT, ⟨16 + 4 * i, 4⟩), none, 0, noDom⟩
/-- TIM_STAT bit `i`: 1 HOLD, 2 ACQ_TIMEOUT, 3 TICK_MISMATCH, 4 ALIGN_LOST. -/
def flTim (i : Nat) : Flag :=
  ⟨Reg.TIM_STAT, i, some (Reg.TIM_STAT, ⟨12 + 4 * i, 4⟩), some (0x480 + i - 1), 0, noDom⟩
/-- PTP_INST_STAT bit 8 + `j` of instance `i`: 0 STEPPED, 1 HOLDOVER, 2 PARENT_CHG. -/
def flPtpInst (i j : Nat) : Flag :=
  ⟨Reg.PTP_INST_STAT i, 8 + j, some (Reg.PTP_INST_STAT i, ⟨16 + 4 * j, 4⟩), some (0x4C0 + j), i, noDom⟩
/-- PTP_PORT_STAT bit `i` of port `p`: 1 LINK_DOWN, 2 TSQ_OVF. -/
def flPtpPort (p i : Nat) : Flag :=
  ⟨Reg.PTP_PORT_STAT p, i, some (Reg.PTP_PORT_STAT p, ⟨12 + 4 * i, 4⟩), some (0x4C2 + i), p, noDom⟩
/-- THM_STAT bit `i`: 0 SOFT_REACHED, 1 HARD_REACHED, 2 BROKEN, 3 TRIP. -/
def flThm (i inst dom : Nat) : Flag :=
  ⟨Reg.THM_STAT, i, some (Reg.THM_STAT, ⟨16 + 4 * i, 4⟩), some (0x500 + i), inst, dom⟩
/-- PMU_STAT bit `i`: 0 VMAX_LIMIT, 1 SUPPLY_LOW, 2 PG_LOST. -/
def flPmu (i : Nat) : Flag :=
  ⟨Reg.PMU_STAT, i, some (Reg.PMU_STAT, ⟨16 + 4 * i, 4⟩), some (0x540 + i), 0, noDom⟩
/-- CAL_STAT bit `i`: 0 CAL_FAIL, 1 RESTORE_STALE, 2 CAL_DUE. -/
def flCal (i : Nat) : Flag :=
  ⟨Reg.CAL_STAT, i, some (Reg.CAL_STAT, ⟨16 + 4 * i, 4⟩), some (0x580 + i), 0, noDom⟩
/-- BST_STAT bit `i`: 0 UNIT_FAIL, 1 RUN_DONE, 2 REC_STORE_FAIL. -/
def flBst (i : Nat) : Flag :=
  ⟨Reg.BST_STAT, i, some (Reg.BST_STAT, ⟨16 + 4 * i, 4⟩), some (0x5C0 + i), 0, noDom⟩
/-- LCS_STAT bit `i`: 0 TOKEN_DENIED, 1 FW_REJECT, 2 LC_CHANGE. -/
def flLcs (i : Nat) : Flag :=
  ⟨Reg.LCS_STAT, i, some (Reg.LCS_STAT, ⟨16 + 4 * i, 4⟩), some (0x600 + i), 0, noDom⟩

/-- The camera of a colour group (LED_CFG). -/
def Blk.ledCam (b : Blk) (g : Nat) : Nat := b.a Reg.LED_CFG ⟨8 * g, 3⟩

/-- The domain of a group's flags: that of its camera. -/
def Blk.ledDom (b : Blk) (g : Nat) : Nat := dCam (b.ledCam g)

/-- The sticky flags of a register block that stand at a bit number. -/
def Blk.flagsOf (b : Blk) (blk i : Nat) : List Flag :=
  match blk with
  | 0 => flReject :: flUnmapped :: (List.range 25).flatMap fun n => [flTickLate n noDom, flSlackLow n]
  | 2 => flTorn :: flReadErr :: (List.range 89).map flDrop
  | 4 => (List.range 32).map (flTrw · i)
  | 5 => [flOvl i]
  | 6 => (List.range 96).map (flSrv · i)
  | 7 => (List.range 40).map (flHlk · i)
  | 8 => flHmSat :: (List.range 32).map (flMpl · i)
  | 9 => (List.range 8).map (flCam · i)
  | 10 => (List.range 2).map (flFlt · i)
  | 11 => (List.range 4).map flDivOvf ++ (List.range 12).map (flMot · i)
  | 12 => (List.range 16).map (flEnc · i)
  | 13 => (List.range 4).map (fun g => flLedGrp g i (b.ledDom g)) ++
      (List.range 24).map fun n => flLedCh n i (b.ledDom (n / 6))
  | 14 => [flWrDrop, flEcc i, flSram i] ++ (List.range 10).map (flPort · i)
  | 15 => [flNvs i]
  | 16 => [flSkm i]
  | 17 => [flEvr i]
  | 18 => [flTim i]
  | 19 => (List.range 2).map (fun n => flPtpInst n (i - 8)) ++ (List.range 2).map (flPtpPort · i)
  | 20 => [flThm i 0 noDom]
  | 21 => [flPmu i]
  | 22 => [flCal i]
  | 23 => [flBst i]
  | 24 => [flLcs i]
  | _ => []

/-- The sticky flag at a bit of the register word at an offset. A flag whose event names a part of the block that the
word does not tell (the head of TICK_LATE, the reading of THM_STAT) is taken without one. -/
def Blk.flagAt (b : Blk) (off i : Nat) : Option Flag :=
  match findReg off with
  | some h =>
    if h.idx = 0 ∧ h.d.fields.any (fun f => f.ty == .w1c && decide (f.lo ≤ i ∧ i < f.lo + f.w)) then
      (b.flagsOf (off / 65536) i).find? fun fl => fl.off == off && fl.bit == i
    else none
  | none => none

/-- TB2 in nanoseconds. -/
def Blk.ns2 (b : Blk) : Nat := tbNs b.aux.clk.tb2

/-- TB2 in milliseconds. -/
def Blk.ms2 (b : Blk) : Nat := b.ns2 / 1000000

/-- An event with what R426 captures at the raising bead. -/
def Blk.event (b : Blk) (code inst dom d0 d1 d2 : Nat) : Event where
  code := code
  inst := inst
  d0 := d0
  d1 := d1
  d2 := d2
  dom := dom
  mode := if dom < 48 then modeCode (b.mode dom) else 0
  time := b.aux.clk.tb0
  tick := b.aux.clk.tick
  coat := b.f Reg.SEQ_COAT F.SEQ_COAT_COAT
  suppressed := 0

/-- A sticky flag's bit is set and its counter incremented (R544). -/
def setFlagBit (fl : Flag) : Prog :=
  progAll [
    setF fl.off ⟨fl.bit, 1⟩ 1,
    match fl.cnt with
    | some (o, f) => modF o f (satInc f.w)
    | none => .skip]

/-- An event is raised: it is captured now and meets the limiter at the end of the command's bead
interval (R428 orders the events of one bead interval). -/
def raiseEvent (code inst dom d0 d1 d2 : Nat) : Prog :=
  .get fun b => modAux fun a => { a with evq := a.evq ++ [b.event code inst dom d0 d1 d2] }

/-- Events in ascending code, then ascending INST (R428); equal ones stay in order. -/
def insertEvent (e : Event) : List Event → List Event
  | [] => [e]
  | x :: xs =>
    if e.code < x.code ∨ (e.code = x.code ∧ e.inst < x.inst) then e :: x :: xs
    else x :: insertEvent e xs

/-- One event meets its limiter and the intake (R427, R428). A loss sets EVR_STAT.LOST. -/
def limitEvent (e : Event) : Prog :=
  .get fun b =>
    let cap := b.a (Reg.EVR_LIMIT e.code) F.EVR_LIMIT_BURST
    let per := b.a (Reg.EVR_LIMIT e.code) F.EVR_LIMIT_PER_MS
    .seq (.op (.evr (.raise e cap per b.ms2)))
      (.get fun c => progIf (decide (b.evr.lost < c.evr.lost)) (setFlagBit (flEvr 0)))

/-- The events of the bead interval reach the limiter. -/
def drainEvents : Prog :=
  .get fun b =>
    .seq (modAux fun a => { a with evq := [] })
      (progEach (b.aux.evq.foldl (fun l e => insertEvent e l) []) limitEvent)

/-- A hardware set of a sticky flag: flag, counter, and the event of the flag's name (R544, R546). -/
def setFlag (fl : Flag) : Prog :=
  .seq (setFlagBit fl)
    (.get fun b =>
      match fl.code with
      | some code =>
        raiseEvent code fl.inst fl.dom (fl.off % 65536 + fl.bit * 2 ^ 24)
          (match fl.cnt with | some (o, f) => b.f o f | none => 0) 0
      | none => .skip)

/-- A sticky flag stands. -/
def Blk.flag (b : Blk) (fl : Flag) : Bool := b.f fl.off ⟨fl.bit, 1⟩ == 1

end Sys2Proof.Machine
end

