-- ==== Sys2Proof/Machine/Rings.lean ====
section
/-!
DEFINITION. Rings in host memory: device-to-host entries with PHASE and GAP (R89, R91), completions
(R90, R92), MSI-X messages (R97, R98), ring stops (R72, R93).
-/
namespace Sys2Proof.Machine

/-- The state of a ring beside its registers. -/
def Blk.ring (b : Blk) (n : Nat) : Ring := b.rings.getD n Ring.init

/-- Entries a ring holds: 2^SIZE_LOG2. -/
def Blk.ringSize (b : Blk) (n : Nat) : Nat := 2 ^ b.f (Reg.RING_CTRL n) F.RING_CTRL_SIZE_LOG2

def Blk.ringEnabled (b : Blk) (n : Nat) : Bool := b.f (Reg.RING_CTRL n) F.RING_CTRL_ENABLE == 1

def Blk.ringStopped (b : Blk) (n : Nat) : Bool := b.f (Reg.RING_ERR n) F.RING_ERR_STOPPED == 1

/-- DEV_IDX: producer index of a device-to-host ring, consumer index of a host-to-device ring. -/
def Blk.devIdx (b : Blk) (n : Nat) : Nat := (b.w (Reg.RING_IDX n)).toNat

/-- HOST_SEEN: the host's index as last read. -/
def Blk.hostSeen (b : Blk) (n : Nat) : Nat := (b.w (Reg.RING_IDX n + 4)).toNat

/-- The difference of two free-running 32-bit indices. -/
def idxDiff (x y : Nat) : Nat := (x + 4294967296 - y % 4294967296) % 4294967296

/-- Completion slots of ring `c` reserved for fetched descriptors (R94). -/
def Blk.reserved (b : Blk) (c : Nat) : Nat :=
  (b.rings.map fun r => (r.fetched.filter fun d => d.cq == c).length).sum

/-- Free slots of a device-to-host ring (R94). -/
def Blk.freeSlots (b : Blk) (n : Nat) : Nat :=
  b.ringSize n - idxDiff (b.devIdx n) (b.hostSeen n) - b.reserved n

/-- PHASE of the entry of index `i` (R89). -/
def Blk.phase (b : Blk) (n i : Nat) : Nat :=
  if idxDiff i (b.ring n).start / b.ringSize n % 2 = 0 then 1 else 0

/-- The size of an entry of a ring in bytes (R64). -/
def entryBytes (n : Nat) : Nat :=
  if n < 40 then 64 else if n < 48 then 16 else if n < 88 then 256 else 64

/-- Host address of slot of index `i`. -/
def Blk.slotAddr (b : Blk) (n i : Nat) : Nat :=
  b.w64 (Reg.RING_BASE n) + i % b.ringSize n * entryBytes n

/-- An entry's words with its PHASE. -/
def withPhase (p : Nat) : List Word → List Word
  | [] => []
  | w :: ws => (⟨8, 1⟩ : Fld).put p w :: ws

/-- A message on a vector is due at the end of the command, after the entries it signals (R98). -/
def wantIrq (v : Nat) : Prog := modAux fun a => { a with irq := a.irq ++ [v] }

/-- A message of vector `v`: sent, or held in the pending-bit array while the vector is masked (R98). -/
def sendMsix (v : Nat) : Prog :=
  .get fun b =>
    if b.f (Reg.MSIX_TABLE v 3) ⟨0, 1⟩ = 1 then setF (Reg.MSIX_PBA (v / 32)) ⟨v % 32, 1⟩ 1
    else
      emit (.msix v
        ((b.w (Reg.MSIX_TABLE v 0)).toNat + 4294967296 * (b.w (Reg.MSIX_TABLE v 1)).toNat)
        (b.w (Reg.MSIX_TABLE v 2)).toNat)

/-- One message for each vector that is due (R98); a vector is eight bits. -/
def sendDue : Prog :=
  .get fun b =>
    .seq (modAux fun a => { a with irq := [] }) (progEach b.aux.irq.eraseDups fun v => sendMsix (v % 256))

/-- A ring's condition of R97 is met: its message is due and counting restarts. -/
def ringSignal (n : Nat) : Prog :=
  .get fun b =>
    .seq (.op (.ring n .signalled)) (wantIrq (b.f (Reg.RING_CTRL n) F.RING_CTRL_VECTOR))

/-- The count condition of R97, or an entry that signals at once. -/
def ringModerate (n : Nat) (now : Bool) : Prog :=
  .get fun b =>
    progIf (now || decide (b.f (Reg.RING_MOD n) F.RING_MOD_COUNT ≤ (b.ring n).since)) (ringSignal n)

/-- A device-to-host entry is dropped and counted (R76, R91). -/
def dropEntry (n : Nat) (pend : Bool) : Prog :=
  .seq (.op (.ring n (.drop pend))) (setFlag (flDrop n))

/-- Words written at an index of a device-to-host ring, the producer index moving past it. -/
def putSlot (n : Nat) (ws : List Word) : Prog :=
  .get fun b =>
    let i := b.devIdx n
    .seq (emit (.hostWrite (b.slotAddr n i) (withPhase (b.phase n i) ws)))
      (setW (Reg.RING_IDX n) (BitVec.ofNat 32 (i + 1)))

/-- A GAP entry (R91): KIND 0xFF, word 1 the number dropped. -/
def gapWords (n count : Nat) : List Word :=
  BitVec.ofNat 32 0xFF :: BitVec.ofNat 32 count :: List.replicate (entryBytes n / 4 - 2) 0

/-- A TRACE, STATS or EVENT entry falls due on its ring (R91, R76, R106). -/
def deliver (n : Nat) (ws : List Word) : Prog :=
  .get fun b =>
    let r := b.ring n
    if !b.ringEnabled n || b.ringStopped n then dropEntry n false
    else if b.f Reg.SYS_ABORT F.SYS_ABORT_QUIESCENT = 1 then dropEntry n true
    else if b.freeSlots n < (if r.gap = 0 then 1 else 2) then dropEntry n true
    else
      progAll [
        progIf (r.gap != 0) (putSlot n (gapWords n r.gap)),
        putSlot n ws,
        .op (.ring n (.entry b.ns2)),
        ringModerate n (r.gap != 0)]

/-- The oldest fetched descriptor of a ring. -/
def Blk.front (b : Blk) (ring : Nat) : Option Fetched := (b.ring ring).fetched.head?

/-- A word of a descriptor; missing words are 0. -/
def dw (ws : List Word) (i : Nat) : Nat := (ws.getD i 0).toNat

/-- The opcode of a descriptor (R78). -/
def opcodeOf (ws : List Word) : Nat := dw ws 0 % 256

/-- The oldest descriptor of a ring completes with a status (R90, R92). -/
def complete (ring status detail : Nat) : Prog :=
  .get fun b =>
    match b.front ring with
    | none => .skip
    | some d =>
      let cons := (b.devIdx ring + 1) % 4294967296
      let cq := d.cq
      let irq := bit (dw d.ws 0) 8
      let ws : List Word := [
        BitVec.ofNat 32 (1 + dw d.ws 0 / 65536 * 65536),
        BitVec.ofNat 32 (ring + status * 256 + detail % 65536 * 65536),
        BitVec.ofNat 32 cons, BitVec.ofNat 32 b.aux.clk.tick]
      progAll [
        setW (Reg.RING_IDX ring) (BitVec.ofNat 32 cons),
        .op (.ring ring .finish),
        if !b.ringEnabled cq || b.ringStopped cq then dropEntry cq false
        else
          progAll [
            putSlot cq ws,
            .op (.ring cq (.completion b.ns2)),
            ringModerate cq (irq || status != 0)]]

/-- Completion with OK. -/
def completeOk (ring detail : Nat) : Prog := complete ring 0 detail

/-- A ring stops with a cause (R72, R93): 1 DB_RANGE, 2 FETCH_ERR; the message goes on ERR_VEC. -/
def stopRing (n cause : Nat) : Prog :=
  .get fun b =>
    progAll [
      setF (Reg.RING_ERR n) F.RING_ERR_STOPPED 1,
      setF (Reg.RING_ERR n) F.RING_ERR_CAUSE cause,
      wantIrq (b.f Reg.HIF_IRQ_VEC F.HIF_IRQ_VEC_ERR_VEC)]

/-- The end of every command: events of the bead interval reach the limiter, due messages go out. -/
def finishCommand : Prog := .seq drainEvents sendDue

end Sys2Proof.Machine
end

