-- ==== Sys2Proof/Machine/Modes.lean ====
section
/-!
DEFINITION. Modes and their transitions (R33 to R42, R54, R58): which requests are accepted, and the
two ways a transition waits, a list for the next tick edge (R39) and a list of SAFE triggers for the end
of the command (R54).
-/
namespace Sys2Proof.Machine

/-- The rows of R36 whose trigger is, or includes, a MODE_SET command. -/
def modeSetRow : Mode → Mode → Bool
  | .off, .reset => true
  | .setup, .calibrate => true
  | .setup, .home => true
  | .setup, .armed => true
  | .setup, .service => true
  | .setup, .off => true
  | .armed, .calibrate => true
  | .armed, .setup => true
  | .armed, .expose => true
  | .expose, .hold => true
  | .expose, .drain => true
  | .hold, .expose => true
  | .hold, .drain => true
  | .safe, .setup => true
  | .safe, .off => true
  | .service, .setup => true
  | .off, .safe => false
  | _, .safe => true
  | _, _ => false

/-- Every row of R36, whatever its trigger; `back` is the mode CALIBRATE was entered from. -/
def row36 (back : Mode) : Mode → Mode → Bool
  | .reset, .selftest => true
  | .reset, .setup => true
  | .selftest, .setup => true
  | .selftest, .off => true
  | .calibrate, m => m == back || m == .setup || m == .safe
  | .home, .setup => true
  | .drain, .armed => true
  | a, m => modeSetRow a m

/-- The mode before the last transition. -/
def Blk.prevMode (b : Blk) (d : Nat) : Mode :=
  modeOf (b.f (Reg.SEQ_DOM_STAT d) F.SEQ_DOM_STAT_PREV_MODE)

/-- The cause of the last transition. -/
def Blk.cause (b : Blk) (d : Nat) : Nat := b.f (Reg.SEQ_DOM_STAT d) F.SEQ_DOM_STAT_CAUSE

/-- SEQ_DOM_STAT after a transition. -/
def transWord (w : Word) (m : Mode) (c : Cause) : Word :=
  F.SEQ_DOM_STAT_TRANS_COUNT.put (F.SEQ_DOM_STAT_TRANS_COUNT.get w + 1)
    (F.SEQ_DOM_STAT_CAUSE.put (causeCode c)
      (F.SEQ_DOM_STAT_PREV_MODE.put (F.SEQ_DOM_STAT_MODE.get w) (F.SEQ_DOM_STAT_MODE.put (modeCode m) w)))

/-- A domain's mode register takes a transition. -/
def setMode (d : Nat) (m : Mode) (c : Cause) : Prog :=
  .get fun b => setW (Reg.SEQ_DOM_STAT d) (transWord (b.w (Reg.SEQ_DOM_STAT d)) m c)

/-- A transition is accepted and waits for the next tick edge (R39). -/
def requestMode (d : Nat) (m : Mode) (c : Cause) : Prog :=
  modAux fun a => { a with trans := a.trans ++ [⟨d, m, c, false⟩] }

/-- A transition of a domain that waits when a trigger of SAFE entry is taken. -/
def Trans.aged (d : Nat) (t : Trans) : Trans := { t with stale := t.stale || t.dom == d }

/-- A trigger of SAFE entry is taken (R54); transitions that wait for the domain do not outlive the entry (R36). -/
def requestSafe (d : Nat) (c : Cause) (fl : Option (Nat × Nat)) : Prog :=
  modAux fun a => { a with safeReq := a.safeReq ++ [⟨d, c, fl⟩], trans := a.trans.map (Trans.aged d) }

/-- A sticky flag as R58 asks about it. -/
def Flag.key (fl : Flag) : Option (Nat × Nat) := some (fl.off, fl.bit)

/-- The sticky flag of the fault that put the domain into SAFE is still set (R58). -/
def Blk.faultStands (b : Blk) (d : Nat) : Bool :=
  b.aux.safeFlag.any fun (e, off, i) => e == d && b.f off ⟨i, 1⟩ == 1

/-- The storage effect g: phase 3 does not begin and no head enters EXPOSE (R43). -/
def Blk.storageG (b : Blk) : Bool :=
  !(b.mode dStore == .armed || b.mode dStore == .expose || b.mode dStore == .drain)

/-- The life-cycle state (LCS_STATE.STATE), by code. -/
def Blk.lifeCycle (b : Blk) : Nat := b.f Reg.LCS_STATE F.LCS_STATE_STATE

/-- An abort is active (SYS_ABORT.ACTIVE). -/
def Blk.abortActive (b : Blk) : Bool := b.f Reg.SYS_ABORT F.SYS_ABORT_ACTIVE == 1

/-! ### Units under test (R488 to R492) -/

/-- The units of a domain's row in R491. -/
def unitsOf (d : Nat) : List Nat :=
  match kindOf d with
  | .head => [d / 4, 8 + d / 4, 16, 17, 18 + d, 72 + 12 + d / 2, 72 + 28 + d / 8, 72 + 44 + d / 8]
  | .float =>
    let f := d - 32
    [18 + 32 + 2 * f, 18 + 33 + 2 * f, 72 + 64 + 2 * f, 72 + 65 + 2 * f]
  | .motion => [58 + (d - 34)]
  | .camera =>
    let c := d - 38
    [62 + c, 72 + 48 + 2 * c, 72 + 49 + 2 * c]
  | .storage => [70, 71] ++ (List.range 10).map (72 + 68 + ·)
  | .core => (List.range 12).map (72 + ·) ++ (List.range 4).map (72 + 32 + ·) ++ (List.range 6).map (72 + 78 + ·)

/-- RESULT of a unit. -/
def Blk.unitResult (b : Blk) (u : Nat) : Nat := b.f (Reg.BST_UNIT u) F.BST_UNIT_RESULT

/-- A unit of a domain's row has failed. -/
def Blk.rowFailed (b : Blk) (d : Nat) : Bool := (unitsOf d).any fun u => b.unitResult u == 2

/-- A unit is under a test on demand: its outputs hold their reset values and what other units send it is ignored
(R490, R496). -/
def Blk.tests (b : Blk) (u : Nat) : Bool := b.aux.boot.testing == some u

/-- A unit of a head's row is under a test on demand (R496). -/
def Blk.headTested (b : Blk) (h : Nat) : Bool :=
  match b.aux.boot.testing with
  | some u => (unitsOf h).contains u
  | none => false

/-- A test of a unit runs: one on demand, or that of a domain's SELFTEST (R490). -/
def Blk.underTest (b : Blk) : Bool :=
  b.aux.boot.testing.isSome ||
    (List.range 48).any fun d => b.mode d == .selftest && !b.aux.boot.tested.contains d

/-! ### Temperature readings (R461 to R469) -/

/-- A reading's domain: head, bar and none for the die and board. -/
def readingDom (n : Nat) : Option Nat :=
  if 32 ≤ n ∧ n < 160 then some ((n - 32) / 4)
  else if 160 ≤ n ∧ n < 176 then some (dFloat ((n - 160) / 8))
  else none

/-- A reading that is not sampled: of a domain in OFF, RESET or SELFTEST, of a board sensor with EN 0, or unused
(R461, R464). -/
def Blk.thmIdle (b : Blk) (n : Nat) : Bool :=
  match readingDom n with
  | some d => b.mode d == .off || b.mode d == .reset || b.mode d == .selftest
  | none => if n < 24 then false else if 176 ≤ n ∧ n < 192 then b.a (Reg.THM_BRD (n - 176)) F.THM_BRD_EN == 0 else true

/-- A temperature reading, 1/64 °C. -/
def Blk.reading (b : Blk) (n : Nat) : Nat :=
  if b.thmIdle n then 0x7FFF else b.f (Reg.THM_READ n) F.THM_READ_VALUE

/-- SOFT and HARD of a reading; a bar's readings use their bar's. -/
def Blk.thmLim (b : Blk) (n : Nat) : Int × Int :=
  if 160 ≤ n ∧ n < 176 then
    let f := (n - 160) / 8
    (sgn 16 (b.a (Reg.FLT_BAR_TLIM f) F.FLT_BAR_TLIM_SOFT), sgn 16 (b.a (Reg.FLT_BAR_TLIM f) F.FLT_BAR_TLIM_HARD))
  else (sgn 16 (b.a (Reg.THM_LIM n) F.THM_LIM_SOFT), sgn 16 (b.a (Reg.THM_LIM n) F.THM_LIM_HARD))

/-- A board reading that counts as a die reading. -/
def Blk.thmAction (b : Blk) (n : Nat) : Bool :=
  decide (176 ≤ n ∧ n < 192) && b.a (Reg.THM_BRD (n - 176)) F.THM_BRD_ACTION == 1

/-- The sampled readings that govern a domain (R466, R468): the die and board readings of the core, the four of
a head. -/
def Blk.governs (b : Blk) (d : Nat) : List Nat :=
  ((List.range 192).filter fun n =>
    if d = dCore then n < 24 || b.thmAction n else readingDom n == some d).filter fun n => !b.thmIdle n

/-- R469: a governing reading stands at or above HARD − HYST of a domain in SAFE with cause THERMAL. -/
def Blk.thermalHolds (b : Blk) (d : Nat) : Bool :=
  b.mode d == .safe && b.cause d == causeCode .thermal &&
    (b.governs d).any fun n =>
      decide ((b.thmLim n).2 - Int.ofNat (b.a Reg.THM_CFG F.THM_CFG_HYST) ≤ sgn 16 (b.reading n))

/-- The storage domain leaves SETUP only with a sound configuration (R403). -/
def Blk.storageHeld (b : Blk) (d : Nat) (m : Mode) : Bool :=
  d == dStore && b.mode d == .setup && b.aux.store.configBad && (m == .calibrate || m == .home || m == .armed)

/-- The transition a MODE_SET names from a mode `h` is refused under R37, R42, R58, R105, R469, R498
or the storage effect g. -/
def Blk.modeRefused (b : Blk) (d : Nat) (h m : Mode) : Bool :=
  !modeSetRow h m || (h == .safe && (b.aux.safeInLow || b.faultStands d || b.abortActive)) ||
    (m == .service && !(b.lifeCycle == 1 || b.lifeCycle == 4)) ||
    ((m == .armed || m == .expose || m == .calibrate) && (b.lifeCycle == 0 || b.lifeCycle == 5)) ||
    (kindOf d == .head && m == .expose && h == .armed && b.storageG) || b.thermalHolds d || b.storageHeld d m

end Sys2Proof.Machine
end

