-- ==== Sys2Proof/Machine/Links.lean ====
section
/-!
DEFINITION. The serial lanes (R220 to R249): bring-up, latency, tick frames down and up, the checks of an
uplink frame, frame loss.
-/
namespace Sys2Proof.Machine

def Blk.lane (b : Blk) (l : Nat) : Lane := b.aux.lanes.getD l Lane.init

def modLane (l : Nat) (f : Lane → Lane) : Prog := modAux fun a => { a with lanes := a.lanes.modify l f }

/-- HLK_LANE_STATE.STATE: 0 IDLE, 1 SIGNAL, 2 SYNC, 3 CAP, 4 MEASURE, 5 UP, 6 DEPARTED. -/
def Blk.laneState (b : Blk) (l : Nat) : Nat := b.f (Reg.HLK_LANE_STATE l) F.HLK_LANE_STATE_STATE

def setLaneState (l s : Nat) : Prog := setF (Reg.HLK_LANE_STATE l) F.HLK_LANE_STATE_STATE s

/-- The lane is UP, and its framer is under no test on demand (R490). -/
def Blk.laneUp (b : Blk) (l : Nat) : Bool := b.laneState l == 5 && !b.tests (18 + l)

/-- The receiver is synchronised (R226). -/
def Blk.laneSynced (b : Blk) (l : Nat) : Bool := decide (2 ≤ b.laneState l ∧ b.laneState l ≤ 5)

/-- The number of this part in its cascade. -/
def Blk.memberId (b : Blk) : Nat := b.a Reg.OVL_CASC_ID F.OVL_CASC_ID_MEMBER_ID

/-- A cascade lane in use: its member is named and is not this part (R250). -/
def Blk.cascLane (b : Blk) (j : Nat) : Bool :=
  j != b.memberId && b.a Reg.OVL_CASC_MEMBERS ⟨j, 1⟩ == 1

/-- LASER_EN[h]: high only in ARMED, EXPOSE, HOLD or DRAIN (R34), low under effect L of the core's SELFTEST
(R43), throughout every test of a unit (R490), under SAFE_IN_N low (R55), during an abort (R101, R105) and in reset. -/
def Blk.laserEn (b : Blk) (h : Nat) : Bool :=
  (b.mode h == .armed || b.mode h == .expose || b.mode h == .hold || b.mode h == .drain) &&
    b.mode dCore != .selftest && !b.underTest && !b.aux.safeInLow && !b.abortActive && !b.aux.inReset

/-! ### Bring-up (R229 to R231) -/

/-- Step 1 of R229: the transmitter sends IDL and SKP and STATE becomes SIGNAL. -/
def laneStart (l : Nat) : Prog :=
  .get fun b =>
    .seq (setLaneState l 1)
      (modLane l fun x => { Lane.init with
        start := b.ns2, signal := x.signal, calDone := x.calDone, depLeft := x.depLeft
        temps := x.temps, tempsAt := x.tempsAt })

/-- A lane goes idle: its domain is in OFF (R221). -/
def laneIdle (l : Nat) : Prog :=
  .seq (setLaneState l 0) (modLane l fun x => { Lane.init with calDone := x.calDone, depLeft := x.depLeft })

/-- A measurement of 64 probes begins (R240); they go out one at each tick edge (`probeLaunch`). -/
def measureFrom (l : Nat) (m : Meas) (tries : Nat) : Prog :=
  modLane l fun x => { x with
    meas := m, rtts := [], await := 64, flying := false, tries := tries, calOk := x.calOk && m != .calibrate }

/-- A probe of a measurement goes out directly after the EOF of the frame launched at a tick edge, in bring-up where no
tick frames go out yet at the edge itself (R240). -/
def probeLaunch (l : Nat) : Prog :=
  progWhen (fun b => (b.lane l).meas != .none && decide (0 < (b.lane l).await) && !(b.lane l).flying)
    (.seq (modLane l fun x => { x with flying := true }) (emit (.lane l 3 [])))

/-- Capability requests go out until a valid capability frame returns (R229 step 4), one at each tick edge. -/
def capRequest (l : Nat) : Prog :=
  progWhen (fun b => decide (l < 36) && b.laneState l == 2 && (b.lane l).dfe)
    (emit (.lane l 1 [0x10000, BitVec.ofNat 32 (crcWords [0x10000])]))

/-! ### The gaps between frames, the elastic buffer and the equaliser (R223, R225, R228) -/

/-- The SKP of a gap of `n` code groups: two, or one for every 1,024 code groups (R223); the transmitter sends no more than
it must (DESIGN CHOICE). -/
def gapSkp (n : Nat) : Nat := max 2 ((n + 1023) / 1024)

/-- The gap of a tick in which a lane sends `frame` code groups of frames: SKP and IDL (R223). -/
def gapFill (l frame : Nat) : Prog :=
  .get fun b =>
    let p := 2 ^ b.f Reg.SYS_TICK_ACT F.SYS_TICK_ACT_PERIOD
    let n := (if l < 36 then 3125 else 6250) * p / 4 - frame
    progIf (b.laneState l != 0 && (b.lane l).depLeft == 0) (emit (.lane l 7 [BitVec.ofNat 32 (gapSkp n), BitVec.ofNat 32 (n / 2 - gapSkp n)]))

/-- The code groups of a frame of some words: its bytes with SOF and EOF. -/
def frameGroups (words : Nat) : Nat := 4 * words + 2

/-- What the elastic buffer holds after a SKP that found it holding `fill` code groups (R225). -/
def skpFill (fill : Nat) : Nat := if 10 < fill then fill - 2 else if fill < 6 then fill + 2 else fill

/-- A SKP received ahead of a frame (R225). -/
def laneSkp (l fill : Nat) : Prog :=
  progWhen (fun b => b.laneSynced l) (setF (Reg.HLK_LANE_STATE l) F.HLK_LANE_STATE_FILL (skpFill (min 16 fill)))

/-- The taps of a synchronised receiver adapt (R228): sign-sign LMS on a signal the spec does not give leaves them free. -/
def dfeAdapt (l : Nat) : Prog :=
  progWhen (fun b => b.laneSynced l && (b.lane l).dfe && b.f (Reg.HLK_LANE_CFG l) F.HLK_LANE_CFG_DFE_FREEZE == 0)
    (withFrees 1 fun k => setW (Reg.HLK_LANE_DFE l) (Config.freeWord k &&& 0x3FFFFFFF))

/-- SYNCHRONISED (R226, R229 step 2): three IDL or SKP at one comma alignment, or the signal's return;
`fill` is what the elastic buffer holds then. A departed cascade member's lane comes back the same way. -/
def synchronisedProg (l fill : Nat) : Prog :=
  .get fun b =>
    if b.laneState l = 1 ∨ (b.laneState l = 6 ∧ 36 ≤ l) then
      progAll [
        modLane l fun x => { x with signal := true },
        setF (Reg.HLK_LANE_STATE l) F.HLK_LANE_STATE_FILL (min 16 fill),
        setLaneState l 2]
    else .skip

/-- DFE_ADAPTATION_DONE (R229 step 3), after the receiver's calibration (R479, R486): the taps stand in HLK_LANE_DFE, where
DFE_FREEZE does not hold them as they were (R228); capability requests go out, or on a cascade lane, which has no
capability exchange, the measurement begins (R250). -/
def dfeDoneProg (l : Nat) (taps : Word) : Prog :=
  .get fun b =>
    if b.laneState l = 2 ∧ !(b.lane l).dfe ∧ (b.lane l).cal then
      progAll [
        modLane l fun x => { x with dfe := true },
        progIf (b.f (Reg.HLK_LANE_CFG l) F.HLK_LANE_CFG_DFE_FREEZE == 0)
          (setW (Reg.HLK_LANE_DFE l) (taps &&& 0x3FFFFFFF)),
        if l < 36 then capRequest l else measureFrom l .bringUp 1]
    else .skip

/-- Code violations are counted (HLK_LANE_LOSS.CV_COUNT). -/
def countViolations (l n : Nat) : Prog :=
  modF (Reg.HLK_LANE_LOSS l) F.HLK_LANE_LOSS_CV_COUNT fun c => min 0xFFFF (c + n)

/-- A frame with a right CRC in its last word. -/
def crcOk (ws : List Word) : Bool :=
  match ws.getLast? with
  | some c => c.toNat == crcWords ws.dropLast
  | none => false

/-- CAPABILITY_FRAME (R229 step 4): a valid TYPE 1 frame during the capability exchange is kept, STATE
becomes CAP and the measurement begins. A frame that is not valid changes no more than its CRC flag and the count of its
`cv` code violations. `fill` is what the elastic buffer held at the SKP before it. -/
def capabilityFrameProg (l : Nat) (ws : List Word) (cv fill : Nat) : Prog :=
  .get fun b =>
    let w := fun i => (ws.getD i 0).toNat
    progAll [
     countViolations l cv,
     laneSkp l fill,
     if b.laneState l ≠ 2 ∨ !(b.lane l).dfe ∨ 36 ≤ l ∨ 0 < cv then .skip
     else if ws.length ≠ 6 ∨ bits (w 0) 16 2 ≠ 1 then .skip
     else if !crcOk ws then setFlag (flHlk l 3)
     else
      progAll [
        setW64 (Reg.HLK_LANE_ID l) (w 1 + 4294967296 * w 2),
        setF (Reg.HLK_LANE_CAP l) ⟨16, 16⟩ (bits (w 3) 0 16),
        setF (Reg.HLK_LANE_CAP l + 4) ⟨0, 16⟩ (bits (w 3) 16 16),
        setF (Reg.HLK_LANE_CAP l + 4) ⟨16, 16⟩ (bits (w 4) 0 16),
        setLaneState l 3,
        measureFrom l .bringUp 1]]

/-! ### Latency (R240 to R242) -/

/-- The reported delays of a far end, 100 ps units. -/
def Blk.headDly (b : Blk) (l : Nat) : Nat := bits (b.w (Reg.HLK_LANE_CAP l)).toNat 16 16
def Blk.headTurn (b : Blk) (l : Nat) : Nat := bits (b.w (Reg.HLK_LANE_CAP l + 4)).toNat 0 16
def Blk.upTx (b : Blk) (l : Nat) : Nat := bits (b.w (Reg.HLK_LANE_CAP l + 4)).toNat 16 16
def Blk.rtt (b : Blk) (l : Nat) : Nat := bits (b.w (Reg.HLK_LANE_CAP l)).toNat 0 16
def Blk.dnLat (b : Blk) (l : Nat) : Nat := bits (b.w (Reg.HLK_LANE_LAT l)).toNat 0 20
def Blk.calDnLat (b : Blk) (l : Nat) : Nat := bits (b.w (Reg.HLK_LANE_LAT l + 4)).toNat 0 20

/-- Mean of round trips of 0.32 ns, in 100 ps units, to nearest. -/
def meanRtt (l : List Nat) : Nat := if l.isEmpty then 0 else (l.sum * 32 + 5 * l.length) / (10 * l.length)

/-- The number of photodiode samples of an uplink frame at a period code. -/
def pdCount (period : Nat) : Nat := 25 * 2 ^ period

/-- The duration of an uplink tick frame in 100 ps: its words and SOF, EOF at 3.2 ns a code group. -/
def upFrameDur (period : Nat) : Nat := (4 * (9 + pdCount period) + 2) * 32

/-- UP_OFS_MAX (R242). -/
def Blk.upOfsMax (b : Blk) (l dn rtt : Nat) : Nat :=
  let p := b.f Reg.SYS_TICK_ACT F.SYS_TICK_ACT_PERIOD
  let g := b.a (Reg.HLK_LANE_CFG l) F.HLK_LANE_CFG_UL_GUARD
  let x : Int := Int.ofNat (25000 * 2 ^ p) - Int.ofNat (g * 100) - Int.ofNat dn - Int.ofNat (b.upTx l) -
    Int.ofNat (upFrameDur p) - 480
  ((2 * x - (Int.ofNat rtt - Int.ofNat (b.headTurn l))) / 200).toNat

/-- DN_LAT of a round trip: 19.2 ns + (RTT − HEAD_TURN) / 2 + HEAD_DLY (R240). -/
def Blk.dnLatOf (b : Blk) (l rtt : Nat) : Nat :=
  (192 + (Int.ofNat rtt - Int.ofNat (b.headTurn l)) / 2 + Int.ofNat (b.headDly l)).toNat

/-- DN_LAT and what follows from it take the mean of the round trips (R240 to R242). -/
def setLatency (l : Nat) : Prog :=
  .get fun b =>
    let rtt := meanRtt (b.lane l).rtts
    let dn := b.dnLatOf l rtt
    progAll [
      setF (Reg.HLK_LANE_CAP l) ⟨0, 16⟩ rtt,
      setF (Reg.HLK_LANE_LAT l) ⟨0, 20⟩ dn,
      setF (Reg.HLK_LANE_LAT l) ⟨20, 12⟩ (if l < 32 then b.upOfsMax l dn rtt else 0)]

/-- LAT_SHIFT is set when DN_LAT differs from CAL_DN_LAT by more than 10 ns, once a CALIBRATE measurement
was taken (R241). -/
def checkShift (l : Nat) : Prog :=
  progWhen (fun b => (b.lane l).calDone &&
      (decide (b.calDnLat l + 100 < b.dnLat l) || decide (b.dnLat l + 100 < b.calDnLat l)))
    (setFlag (flHlk l 10))

/-- A measurement of 64 probes is complete: accepted, repeated, or failed (R240). -/
def measureDone (l : Nat) : Prog :=
  .get fun b =>
    let x := b.lane l
    let spread := x.rtts.foldl max 0 - x.rtts.foldl min (x.rtts.headD 0)
    if 5 < spread then
      if x.tries < 3 then measureFrom l x.meas (x.tries + 1)
      else .seq (modLane l fun y => { y with meas := .none, await := 0 }) (setFlag (flHlk l 12))
    else
      progAll [
        setLatency l,
        match x.meas with
        | .calibrate =>
          .seq (.get fun c => setF (Reg.HLK_LANE_LAT l + 4) ⟨0, 20⟩ (c.dnLat l))
            (modLane l fun y => { y with calDone := true, calOk := true })
        | .bringUp => setLaneState l 4
        | .none => .skip,
        modLane l fun y => { y with meas := .none },
        checkShift l]

/-- PROBE_ECHO (R240, R241): the echo of a probe on its way adds its round trip of `rt` × 0.32 ns. -/
def probeEchoProg (l rt : Nat) : Prog :=
  .get fun b =>
    let x := b.lane l
    if !x.flying ∨ !b.laneSynced l then .skip
    else
      let y := { x with rtts := (rt :: x.rtts).take 64, await := x.await - 1, flying := false }
      .seq (modLane l fun _ => y)
        (if y.meas = .none then .seq (setLatency l) (checkShift l)
         else progIf (y.await == 0) (measureDone l))

/-- The echo of a probe sent after a downlink frame would not end 100 ns before the uplink frame's SOF. -/
def Blk.probeCrowds (b : Blk) (l : Nat) : Bool :=
  l < 32 &&
    decide (Int.ofNat (b.dnLat l) + Int.ofNat (b.a (Reg.HLK_LANE_CFG l) F.HLK_LANE_CFG_UP_OFS) * 100 +
        Int.ofNat (b.upTx l) + (Int.ofNat (b.rtt l) - Int.ofNat (b.headTurn l)) / 2 <
      192 + 1088 + Int.ofNat (b.rtt l) + 64 + 1000)

/-- LATENCY_PROBE (R241): 4,096 ticks after the last one, on a lane that is UP, after the frame just launched. The lanes
of the bars are measured at bring-up only (R249). -/
def latencyProbeProg (l : Nat) : Prog :=
  .get fun b =>
    let x := b.lane l
    if b.laneUp l ∧ x.meas = .none ∧ 4096 ≤ x.sinceProbe ∧ !(32 ≤ l ∧ l < 36) then
      .seq (modLane l fun y => { y with sinceProbe := 0, flying := y.flying || !b.probeCrowds l })
        (progIf (!b.probeCrowds l) (emit (.lane l 3 [])))
    else .skip

/-- In CALIBRATE a head measures latency, after its lane's trims have run (R241, R479). -/
def calibrateLatency (h : Nat) : Prog :=
  progWhen (fun b => b.laneUp h) (measureFrom h .calibrate 1)

/-- Step 6 of R229 at a tick edge. -/
def laneStep6 (l : Nat) : Prog :=
  progWhen (fun b => b.laneState l == 4)
    (.seq (setLaneState l 5) (modLane l fun x => { x with sinceProbe := 0, lost := 0, okRun := 0 }))

/-! ### Loss of synchronisation and the lane's sticky conditions -/

/-- A synchronised lane returns to step 2; the 10 ms of R229 start again only for one that was UP (R231). -/
def laneLose (l : Nat) : Prog :=
  .get fun b =>
    progIf (b.laneSynced l)
      (.seq (setLaneState l 1)
        (modLane l fun x => { x with
          start := if b.laneUp l then b.ns2 else x.start, dfe := false, cal := false, meas := .none, flying := false
          rtts := [], await := 0, tries := 0, rx := none, sent := none, before := none, third := none }))

/-- LOL (R226): a synchronised receiver loses synchronisation; `cv` code violations came with it. -/
def lolProg (l cv : Nat) : Prog :=
  .get fun b =>
    progIf (b.laneSynced l) (progAll [countViolations l cv, setFlag (flHlk l 1), laneLose l])

/-- LOS (R227): the onset of a lost signal; the receiver counts as not synchronised. -/
def losProg (l : Nat) : Prog :=
  .get fun b =>
    progIf ((b.lane l).signal && b.laneState l != 0)
      (progAll [modLane l fun x => { x with signal := false }, setFlag (flHlk l 0), laneLose l])

/-- ELASTIC (R225): the frame in flight is lost. -/
def elasticProg (l : Nat) : Prog :=
  .get fun b =>
    progIf (b.laneSynced l)
      (.seq (setFlag (flHlk l 6)) (modLane l fun x => { x with broken := true }))

/-- LINK_FAIL (R229): 10 ms from step 1 without step 6 restarts the sequence. -/
def linkFailProg (l : Nat) : Prog :=
  .get fun b =>
    progIf (decide (1 ≤ b.laneState l ∧ b.laneState l ≤ 4 ∧ (b.lane l).start + 10000000 ≤ b.ns2))
      (.seq (setFlag (flHlk l 12)) (laneStart l))

/-- DFE_LIMIT (R228): tap `t` has been at its upper or lower limit for 1 ms while it adapts. -/
def dfeLimitProg (l t : Nat) (up : Bool) : Prog :=
  progWhen (fun b => b.laneSynced l && b.f (Reg.HLK_LANE_CFG l) F.HLK_LANE_CFG_DFE_FREEZE == 0)
    (.seq (setF (Reg.HLK_LANE_DFE l) ⟨6 * t, 6⟩ (if up then 31 else 32)) (setFlag (flHlk l 11)))

/-! ### Downlink (R234 to R236) -/

/-- The launch delay after a tick edge in 0.8 ns units: the code groups of 3.2 ns hold a fixed phase to TB3 (R234), whose
origin is that of the base (DESIGN CHOICE). -/
def Blk.tph (b : Blk) : Nat := (4 - tbNs b.aux.clk.tb3 * 5 / 4 % 4) % 4

/-- The words of a downlink tick frame (R235). -/
def DownFrame.words (f : DownFrame) : List Word :=
  let e := fun i => f.edges.getD i 0
  let ws : List Word :=
    [BitVec.ofNat 32 (f.seq % 65536 + f.tph * 2 ^ 18 + b2n f.arm * 2 ^ 20 + b2n f.gate0 * 2 ^ 21 +
        f.edges.length * 2 ^ 22 + b2n f.rep * 2 ^ 25)] ++
    ((List.range 3).map fun i => BitVec.ofNat 32 (unsgn 24 (f.demand.getD i 0))) ++
    [BitVec.ofNat 32 (f.power + f.upOfs * 65536 + f.period * 2 ^ 28), BitVec.ofNat 32 (e 0 + e 1 * 65536),
      BitVec.ofNat 32 (e 2 + e 3 * 65536)]
  ws ++ [BitVec.ofNat 32 (crcWords ws)]

/-- The gate level of a frame at a time, 10 ns units; edges toggle it. -/
def DownFrame.levelAt (f : DownFrame) (t : Nat) : Bool :=
  (f.edges.filter fun e => decide (e ≤ t)).foldl (fun g _ => !g) f.gate0

/-- The commanded gate was off throughout the tick period that ends at the latch instant of `f`, which
follows `p` (R248). Where no frame went before, none commanded a gate. -/
def gateOff (p : Option DownFrame) (f : DownFrame) : Bool :=
  (match p with
    | some p => !p.levelAt f.upOfs && (p.edges.all fun e => decide (e ≤ f.upOfs))
    | none => true) &&
    !f.gate0 && (f.edges.all fun e => decide (f.upOfs < e))

/-! ### Uplink (R237 to R239, R248) -/

/-- The sample of one axis is valid (R239). -/
def Blk.sampleGood (b : Blk) (h i : Nat) (loop : Bool) (pos : Int) (sst : Nat) : Bool :=
  let x := b.lane h
  let jump := Int.ofNat (b.a (Reg.HLK_LANE_CHK h) F.HLK_LANE_CHK_POS_JUMP)
  let cnt := match x.scnt.getD i none with
    | some c => !loop || sst % 16 == (c + 1) % 16
    | none => true
  let near := match x.lastPos.getD i none with
    | some (p, n) =>
      let d := pos - p
      decide ((if d < 0 then -d else d) ≤ jump * Int.ofNat n)
    | none => true
  !bit sst 4 && cnt && near

/-- The faults a frame reports (R248). -/
def upFaults (h status : Nat) : Prog :=
  .get fun b =>
    let x := b.lane h
    let en := bit status 3
    let diff := match x.sent with | some f => f.arm != en | none => false
    let dark := match x.sent with
      | some f => gateOff x.before f
      | none => false
    let bad := fun (c : Bool) (i : Nat) =>
      progIf c (.seq (setFlag (flHlk h i)) (requestSafe h .domainFault (flHlk h i).key))
    progAll [
      bad (bit status 0 || bit status 1) 15,
      bad (bit status 2 && dark) 8,
      bad (diff && x.enDiff) 9,
      modLane h fun y => { y with enDiff := diff }]

/-- An accepted frame: its samples are checked and it waits for the bead (R238, R239, R248). `loops` says
which axes are past their loop start. -/
def acceptUplink (h : Nat) (loops : List Bool) (n : Nat) (ws : List Word) (ahead : Nat) : Prog :=
  .get fun b =>
    let w := fun i => (ws.getD i 0).toNat
    let pos := (List.range 3).map fun i => sgn 32 (w (1 + i))
    let sst := fun i => bits (w 4) (8 * i) 8
    let good := (List.range 3).map fun i => b.sampleGood h i (loops.getD i false) (pos.getD i 0) (sst i)
    let temps := [bits (w 5) 0 16, bits (w 5) 16 16, bits (w 6) 0 16, bits (w 6) 16 16]
    progAll [
      modLane h fun x => { x with
        temps := temps, tempsAt := some b.ns2
        rx := some ⟨pos, good, temps,
          (List.range n).map fun i => (bits (w (8 + i)) 0 16, bits (w (8 + i)) 16 16)⟩
        scnt := (List.range 3).map fun i => some (sst i % 16)
        lastPos := (List.range 3).map fun i =>
          if good.getD i false then some (pos.getD i 0, 0) else x.lastPos.getD i none },
      progIf (decide (ahead < b.a (Reg.HLK_LANE_CFG h) F.HLK_LANE_CFG_UL_GUARD)) (setFlag (flHlk h 13)),
      progEach (good.filter fun g => !g) fun _ => setFlag (flHlk h 7),
      upFaults h (w 7)]

/-- UPLINK_FRAME (R238): a frame of head `h` has arrived, `ahead` × 10 ns before the next sample bead, with
`cv` code violations, `fill` in the elastic buffer at the SKP before it. A frame for an edge whose bead has passed is
late. The reason bits kept for a frame that is not accepted are 8 CRC and 16 SEQ. -/
def uplinkFrameProg (h : Nat) (loops : List Bool) (ws : List Word) (ahead cv fill : Nat) : Prog :=
  .get fun b =>
    let x := b.lane h
    let w0 := (ws.getD 0 0).toNat
    let why := fun (r : Nat) => modLane h fun y => { y with why := Nat.lor y.why r }
    .seq (.seq (countViolations h cv) (laneSkp h fill))
     (match x.sent with
     | none => .skip
     | some f =>
      let n := pdCount f.period
        if !b.laneUp h then .skip
         else if x.broken then modLane h fun y => { y with broken := false }
         else if 0 < cv ∨ ws.length ≠ 9 + n ∨ bits w0 16 2 ≠ 0 then .skip
         else if !crcOk ws then why 8
         else if x.rx.isSome then
           progIf (w0 % 65536 == f.seq % 65536) (setFlag (flHlk h 4))
         else if w0 % 65536 = f.seq % 65536 then acceptUplink h loops n ws ahead
         else if 0 < x.lost ∧ w0 % 65536 = (f.seq + 65535) % 65536 then setFlag (flHlk h 5)
         else why 16)

/-! ### The sample bead and frame loss (R238, R244, R245) -/

/-- Frames are expected of a head at a bead (R229, R231). -/
def Blk.expects (b : Blk) (h : Nat) : Bool :=
  if b.laneUp h then (b.lane h).sent.isSome
  else !(b.mode h == .off || b.mode h == .reset || b.mode h == .selftest)

/-- The flags and counts of a lost frame (R238, R244): the second in succession puts the head into SAFE. -/
def frameLost (h : Nat) : Prog :=
  .get fun b =>
    let x := b.lane h
    progAll [
      setFlag (flHlk h 2),
      progIf (bit x.why 3) (setFlag (flHlk h 3)),
      progIf (bit x.why 4) (setFlag (flHlk h 4)),
      modF (Reg.HLK_LANE_LOSS h) F.HLK_LANE_LOSS_LOST_COUNT (· + 1),
      progIf (x.lost == 1) (requestSafe h .linkLoss (flHlk h 2).key),
      modLane h fun y => { y with lost := y.lost + 1, okRun := 0, enDiff := false }]

/-- The bead of one head: what arrived is answered with the lane cleared for the next tick. -/
def beadClear (h : Nat) (ok : Bool) : Prog :=
  modLane h fun y => { y with
    rx := none, why := 0, broken := false, lost := if ok then 0 else y.lost
    okRun := if ok then y.okRun + 1 else y.okRun }

/-- A tick edge on a lane: what counts in tick edges (R239, R241). -/
def laneEdge (l : Nat) : Prog :=
  modLane l fun x => { x with
    sinceProbe := x.sinceProbe + 1
    lastPos := x.lastPos.map fun o => o.map fun (p, n) => (p, n + 1) }

end Sys2Proof.Machine
end

