-- ==== Sys2Proof/Machine/Mem.lean ====
section
/-!
DEFINITION. DRAM as the ports reach it: capacity, channels, the write queues, poisoned lines (R373 to R393).
-/
namespace Sys2Proof.Machine

/-- Installed capacity in bytes (DMC_STATE.SIZE). -/
def Blk.dramSize (b : Blk) : Nat := b.f Reg.DMC_STATE F.DMC_STATE_SIZE * 1073741824

/-- The channel of an address (R375). -/
def channelOf (a : Nat) : Nat := (a / 2 ^ 7 % 2 + a / 2 ^ 15 % 2 + a / 2 ^ 23 % 2) % 2

/-- A line and a port are recorded in DMC_ECC_ADDR. -/
def setEccAddr (line port : Nat) : Prog := setW64 Reg.DMC_ECC_ADDR (line % 2 ^ 31 * 64 + port * 2 ^ 37)

/-- Bytes `lo` up to `hi` of a line as a mask. -/
def byteMask (lo hi : Nat) : Nat := 2 ^ hi - 2 ^ lo

/-- The oldest entries of one channel's queue issue. -/
def issueAll : Nat → Nat → Prog
  | 0, _ => .skip
  | n + 1, c => .seq (.op (.wq c .issue)) (issueAll n c)

/-- A queue that has reached HIGH_WM drains to LOW_WM, oldest first (R379). The slots of the drain pass before anything
else reaches the queue, which leaves out the urgent reads between them (timing). -/
def drainWq (c : Nat) : Prog :=
  .get fun b =>
    let n := (b.wqs.getD c Wq.init).queue.length
    progIf (decide (b.a Reg.DMC_WQ F.DMC_WQ_HIGH_WM ≤ n)) (issueAll (n - b.a Reg.DMC_WQ F.DMC_WQ_LOW_WM) c)

/-- A request takes the channels out of self-refresh (R389). -/
def wakeDram : Prog :=
  progWhen (fun b => b.f Reg.DMC_STATE F.DMC_STATE_STATE == 3) (setF Reg.DMC_STATE F.DMC_STATE_STATE 4)

/-- One line of a write of `n` bytes from byte `lo` passes its port: beyond the capacity it is discarded (R376); a write
of all 64 bytes ends a line's poison (R391). `p` puts the bytes. -/
def passLine (port line lo n : Nat) (p : Prog) : Prog :=
  .get fun b =>
    if b.dramSize ≤ 64 * line then .seq (setEccAddr line port) (setFlag (flEcc 2))
    else
      progAll [
        wakeDram,
        .op (.wq (channelOf (64 * line)) (.accept line (byteMask lo (lo + n)))),
        drainWq (channelOf (64 * line)),
        progIf (n == 64) (modAux fun a => { a with poison := a.poison.filter (· != line) }),
        p]

/-- One line of a write. -/
def writeLine (port line lo : Nat) (bs : List Byte) : Prog :=
  passLine port line lo bs.length (dramBytes (64 * line + lo) bs)

/-- Bytes cut at line boundaries. -/
def writeLines : Nat → Nat → Nat → List Byte → Prog
  | 0, _, _, _ => .skip
  | fuel + 1, port, a, bs =>
    if bs.isEmpty then .skip
    else
      let n := 64 - a % 64
      .seq (writeLine port (a / 64) (a % 64) (bs.take n)) (writeLines fuel port (a + n) (bs.drop n))

/-- A write of bytes through a port. -/
def dramWrite (port a : Nat) (bs : List Byte) : Prog := writeLines (bs.length / 64 + 2) port a bs

/-- `n` bytes from an address are written 0 through a port; a line that holds nothing there passes with the zeros it
holds. -/
def dramZero (port a n : Nat) : Prog :=
  .get fun b =>
    let live := ((b.dram.filter fun (x, _) => decide (a ≤ x ∧ x < a + n)).map fun (x, _) => x / 64).eraseDups
    progEach (List.range ((a % 64 + n + 63) / 64)) fun i =>
      let lo := if i = 0 then a % 64 else 0
      let k := min 64 (a % 64 + n - 64 * i) - lo
      if live.contains (a / 64 + i) then writeLine port (a / 64 + i) lo (List.replicate k 0)
      else passLine port (a / 64 + i) lo k .skip

/-- The line at which a read of `n` bytes from an address fails: a poisoned one (R391), or one beyond the installed
capacity (R376). -/
def Blk.badLine (b : Blk) (a n : Nat) : Option Nat :=
  match b.aux.poison.find? fun l => decide (a ≤ 64 * l + 63 ∧ 64 * l < a + n) with
  | some l => some l
  | none => if 0 < n ∧ b.dramSize < a + n then some (max (a / 64) (b.dramSize / 64)) else none

/-- A read of a port fails at a line: UE, or RANGE beyond the capacity, with the line recorded. -/
def badRead (port line : Nat) : Prog :=
  .get fun b => progAll [
    setEccAddr line port,
    setFlag (flEcc (if b.dramSize ≤ 64 * line then 2 else 1)),
    setFlag (flPort port 1)]

/-- Bytes read from DRAM. -/
def Blk.dramRead (b : Blk) (a n : Nat) : List Byte := (List.range n).map fun i => b.dramByte (a + i)

/-- Words read from DRAM. -/
def Blk.dramWords (b : Blk) (a n : Nat) : List Word :=
  (List.range n).map fun i => BitVec.ofNat 32 (b.dramNat (a + 4 * i) 4)


/-- The command slots of one tick (R379): the data of issued entries is sent, and with no read waiting the
queued writes issue. -/
def drainQueues : Prog :=
  progEach [0, 1] fun c =>
    .seq (.op (.wq c .retire)) (.get fun b => issueAll ((b.wqs.getD c Wq.init).queue.length) c)

/-- The latch of DMC_WQ_SNAP for one channel (R386). -/
def wqLatch (c : Nat) : Prog :=
  .get fun b =>
    let q := b.wqs.getD c Wq.init
    progEach ([q.accepted, q.merged, q.queue.length, q.inflight, q.retired, q.fwd, b.aux.clk.tick].zipIdx)
      fun (x, i) => setW (Reg.DMC_WQ_CNT c i) (BitVec.ofNat 32 x)

/-! ### Record staging (R413, R414, R416) -/

def modStore (f : Store → Store) : Prog := modAux fun a => { a with store := f a.store }

/-- Bytes of the staging ring in use: staged input, and input whose output is not durable. -/
def Store.fill (s : Store) : Nat :=
  s.stage.length + s.rest.length + (s.jobs.map fun j => j.raw.length).sum

/-- The size of the staging ring in bytes. -/
def Blk.stageSize (b : Blk) : Nat := b.a Reg.NVS_STAGE F.NVS_STAGE_STAGE_MIB * 1048576

/-- Staged bytes pass into the write queues (features through port Q4, statistics entries through Q5: R13, R296). The
staging ring lies at the start of the device area and its fill is its write position (DESIGN CHOICE: R393 leaves the
division of the area to the part); the staged bytes themselves are kept in the store, and what of them lies beyond the
installed capacity passes no queue. -/
def stageLines (port n : Nat) : Prog :=
  .get fun b =>
    let base := (b.w Reg.DMC_DEV_BASE).toNat + 4294967296 * (b.w (Reg.DMC_DEV_BASE + 4)).toNat
    let a := base + b.aux.store.fill
    progEach (List.range ((a % 64 + n + 63) / 64)) fun i =>
      let lo := if i = 0 then a % 64 else 0
      progIf (decide (64 * (a / 64 + i) < b.dramSize))
        (passLine port (a / 64 + i) lo (min 64 (a % 64 + n - 64 * i) - lo) .skip)

/-- A section (R414). -/
def sectionBytes (type count ctx : Nat) (payload : List Byte) : List Byte :=
  toBytes 4 (type + count * 65536) ++ toBytes 4 payload.length ++ toBytes 8 ctx ++ payload

/-- A MARK section of a cause and the bytes lost. -/
def markSection (cause lost : Nat) : List Byte := sectionBytes 0x000C 1 0 (toBytes 8 cause ++ toBytes 8 lost)

/-- Staging fill meets its thresholds (R416), and NVS_FILL.STAGE_FILL follows it. -/
def stageLevels : Prog :=
  .get fun b =>
    let s := b.aux.store
    let pct := if b.stageSize = 0 then 0 else min 100 (100 * s.fill / b.stageSize)
    progAll [
      setF Reg.NVS_FILL F.NVS_FILL_STAGE_FILL pct,
      if !s.hold && decide (b.a Reg.NVS_STAGE F.NVS_STAGE_STAGE_HOLD ≤ pct) then
        .seq (modStore fun x => { x with hold := true }) (setFlag (flNvs 3))
      else progIf (s.hold && decide (pct < b.a Reg.NVS_STAGE F.NVS_STAGE_STAGE_RESUME))
        (modStore fun x => { x with hold := false })]

/-- A section is staged to the coat's record, or dropped and counted when staging is full; a MARK section
goes ahead of the next one that fits (R416). -/
def stageSection (type count ctx : Nat) (payload : List Byte) : Prog :=
  .get fun b =>
    let s := b.aux.store
    let mk := if s.lost = 0 then [] else markSection s.lostCause s.lost
    let bs := sectionBytes type count ctx payload
    progIf s.cur.isSome
      (if b.stageSize < s.fill + mk.length + bs.length then
        .seq (modStore fun x => { x with lost := x.lost + bs.length, lostCause := 3 }) (setFlag (flNvs 4))
      else
        progAll [
          stageLines (if type = 0x0007 then 5 else 4) (mk.length + bs.length),
          modStore fun x => { x with
            stage := x.stage ++ mk ++ bs, lost := 0, lostCause := 0, newest := b.aux.clk.tick },
          stageLevels])

end Sys2Proof.Machine
end

