-- ==== Sys2Proof/Machine/Commit.lean ====
section
/-!
DEFINITION. Shadow and active copies (R12, R15 to R18, R45 to R53, R540 to R542, R547).
-/
namespace Sys2Proof.Machine

/-- The commit class of the register at an offset. -/
def clsOf (off : Nat) : Option Cls := (findReg off).bind fun h => h.d.cls

/-- The domain of an RWS register (R541), with the active LED_CFG for the colour groups. -/
def ownerDom (led : Word) (off : Nat) : Nat :=
  let blk := off / 65536
  let r := off % 65536
  match blk with
  | 3 => if 0x2000 ≤ r ∧ r < 0x2600 then (r - 0x2000) / 0x20 else dCore
  | 4 => if 0x1000 ≤ r ∧ r < 0x2000 then (r - 0x1000) / 0x80 else dCore
  | 6 => if 0x1000 ≤ r ∧ r < 0x7000 then (r - 0x1000) / 0x100 / 3 else dCore
  | 7 =>
    if 0x1000 ≤ r ∧ r < 0x3800 then
      let l := (r - 0x1000) / 0x100
      if l < 32 then l else if l < 36 then 32 + (l - 32) / 2 else dCore
    else dCore
  | 8 => if 0x1000 ≤ r ∧ r < 0x2000 then (r - 0x1000) / 0x80 else dCore
  | 9 => if 0x1000 ≤ r ∧ r < 0x3000 then dCam ((r - 0x1000) / 0x400) else dCore
  | 10 => if 0x1000 ≤ r ∧ r < 0x1800 then dFloat ((r - 0x1000) / 0x400) else dCore
  | 11 =>
    if 0x10 ≤ r ∧ r < 0x20 then dGroup ((r - 0x10) / 4)
    else if 0x1000 ≤ r ∧ r < 0x1C00 then dGroup ((r - 0x1000) / 0x100 / 3) else dCore
  | 13 =>
    if 0x100 ≤ r ∧ r < 0x200 then dCam ((⟨8 * ((r - 0x100) / 0x40), 3⟩ : Fld).get led)
    else if 0x400 ≤ r ∧ r < 0x580 then dCam ((⟨8 * ((r - 0x400) / 0x10 / 6), 3⟩ : Fld).get led) else dCore
  | 15 => dStore
  | _ => dCore

def Blk.ownerDom (b : Blk) (off : Nat) : Nat := Machine.ownerDom (b.aw Reg.LED_CFG) off

/-- A shadow word counts as written and not yet committed (R542). -/
def markDirty (off : Nat) : Prog :=
  modAux fun a => { a with dirty := if a.dirty.contains off then a.dirty else a.dirty ++ [off] }

/-- The device itself writes a field of a shadow (R547); a host write of the same bead interval lands second, so its
value stays. -/
def deviceWrite (off : Nat) (f : Fld) (x : Nat) : Prog :=
  .seq (progWhen (fun b => !b.aux.bead.late.contains off) (setF off f x)) (markDirty off)

/-- The shadows of a class written and not yet committed, for the domains selected. -/
def Blk.writtenOf (b : Blk) (sel : Nat → Bool) (c : Cls) : List Nat :=
  b.aux.dirty.filter fun o => clsOf o == some c && sel (b.ownerDom o)

/-- The shadows of a class that commit at a boundary of the command in execution: those written before its bead
interval (R50). -/
def Blk.pendingOf (b : Blk) (sel : Nat → Bool) (c : Cls) : List Nat :=
  (b.writtenOf sel c).filter fun o => !b.aux.bead.late.contains o

/-- A committed encoder setting starts its index events or its speed windows afresh (R348, R349); a new
ENC_CFG starts SSI readings afresh. -/
def encCommit (o : Nat) : Prog :=
  .get fun b =>
    let e := (o - 0xC1000) / 0x40
    let k := (o - 0xC1000) % 0x40 / 4
    progIf (decide (0xC1000 ≤ o ∧ o < 0xC1400))
      (modAux fun a => { a with
        encs := a.encs.modify e fun x =>
          if k = 3 then { x with spdFrom := tbNs a.clk.tb3 / 10, spdPos := intW (b.w (Reg.ENC_POS e)) }
          else if k = 0 ∨ k = 1 then
            { x with idxH := none, turned := false, bad := false, ssi := if k = 0 then none else x.ssi }
          else x })

/-- Shadows commit: every named word goes to its active copy, and GEN of each domain with one of them
increments by 1 (R12, R18, R49). -/
def commitWords (ws : List Nat) : Prog :=
  .get fun b =>
    progAll [
      modAux fun a => { a with dirty := a.dirty.filter fun o => !ws.contains o },
      progEach ws fun o => setW (actOff o) (b.w o),
      progEach ws encCommit,
      progEach (ws.map b.ownerDom).eraseDups fun d =>
        modF (Reg.SEQ_COMMIT d) F.SEQ_COMMIT_GEN (· + 1)]

/-- A boundary of a class falls for the domains selected. -/
def commitClass (sel : Nat → Bool) (c : Cls) : Prog :=
  .get fun b => let ws := b.pendingOf sel c; progIf (!ws.isEmpty) (commitWords ws)

/-- Boundaries of several classes fall together (R18). -/
def commitClasses (sel : Nat → Bool) (cs : List Cls) : Prog :=
  .get fun b => let ws := cs.flatMap (b.pendingOf sel); progIf (!ws.isEmpty) (commitWords ws)

/-- A boundary of a class falls for the registers of a range alone. -/
def commitRange (lo n : Nat) (c : Cls) : Prog :=
  .get fun b =>
    let ws := (b.pendingOf (fun _ => true) c).filter fun o => decide (lo ≤ o ∧ o < lo + n)
    progIf (!ws.isEmpty) (commitWords ws)

/-- The class's bit of SEQ_COMMIT.PENDING. -/
def clsBit : Cls → Nat
  | .tick => 0 | .stroke => 1 | .run => 2 | .patch => 3 | .coat => 4 | .frame => 5 | .line => 6 | .mov => 7

/-- SEQ_COMMIT.PENDING of a domain: one bit per class with a shadow written and not yet committed. -/
def Blk.pendingBits (b : Blk) (d : Nat) : Nat :=
  ([Cls.tick, .stroke, .run, .patch, .coat, .frame, .line, .mov].map fun c =>
    if (b.writtenOf (· == d) c).isEmpty then 0 else 2 ^ clsBit c).sum

end Sys2Proof.Machine
end

