-- ==== Sys2Proof/Machine/Desc.lean ====
section
/-!
DEFINITION. Descriptors: the checks of R80 in their order, which descriptor of a ring is in execution,
and the commands NOP, MODE_SET, RING_RELEASE and those with an undefined opcode.
-/
namespace Sys2Proof.Machine

/-- A check that failed: STATUS and DETAIL. -/
structure Fail where
  status : Nat
  detail : Nat
  deriving DecidableEq, Repr

/-- The first failing check, in order. -/
def firstFail : List (Option Fail) → Option Fail
  | [] => none
  | some f :: _ => some f
  | none :: l => firstFail l

/-- A check: fails with a status and detail unless the condition holds. -/
def need (ok : Bool) (status detail : Nat) : Option Fail := if ok then none else some ⟨status, detail⟩

/-- The layout of one descriptor word: the bits the layout uses, and the values its fields may take. -/
structure WordRule where
  i : Nat
  mask : Nat
  ok : Nat → Bool

/-- A word that may hold any value. -/
def anyW (i : Nat) : WordRule := ⟨i, 0xFFFFFFFF, fun _ => true⟩

/-- Step 3 of R80: reserved bits, fields out of range and unused words, word by word (R78). -/
def fieldFail (ws : List Word) (rules : List WordRule) : Option Fail :=
  match (List.range 16).find? fun i =>
      let w := dw ws i
      if i = 0 then bits w 9 7 != 0
      else
        match rules.find? fun r => r.i == i with
        | some r => Nat.land w (0xFFFFFFFF - r.mask) != 0 || !r.ok w
        | none => w != 0 with
  | some i => some ⟨0x04, i⟩
  | none => none

/-- Step 4 of R80 for one word: all ones, then too long (R6, R7). -/
def lenFail (ws : List Word) (i ones : Nat) (excess : Bool) : Option Fail :=
  if dw ws i % (ones + 1) = ones then some ⟨0x05, i⟩ else if excess then some ⟨0x06, i⟩ else none

/-- Step 5 of R80: an address word that is not a multiple. -/
def alignFail (ws : List Word) (i m : Nat) : Option Fail := need (dw ws i % m == 0) 0x07 i

/-- The host address in two words. -/
def addr64 (ws : List Word) (i : Nat) : Nat := dw ws i + 4294967296 * dw ws (i + 1)

/-- Ring types by number (R64). -/
def isControl (n : Nat) : Bool := n == 0
def isCommand (n : Nat) : Bool := decide (1 ≤ n ∧ n ≤ 7)
def isBuild (n : Nat) : Bool := decide (8 ≤ n ∧ n ≤ 39)

/-- The opcodes of R79 and of the subject chapters, with the rings that take them: bit 0 CONTROL,
bit 1 COMMAND, bit 2 BUILD. -/
def opcodeRings : Nat → Option Nat
  | 0x01 => some 3 | 0x02 => some 3 | 0x03 => some 3 | 0x04 => some 3 | 0x05 => some 2
  | 0x0E => some 1 | 0x0F => some 3
  | 0x10 => some 2 | 0x11 => some 2 | 0x12 => some 2 | 0x13 => some 2 | 0x14 => some 2 | 0x15 => some 2
  | 0x16 => some 2 | 0x17 => some 2 | 0x18 => some 2
  | 0x20 => some 2 | 0x21 => some 2 | 0x22 => some 2 | 0x23 => some 2 | 0x24 => some 2 | 0x25 => some 2
  | 0x26 => some 2 | 0x27 => some 2 | 0x28 => some 2 | 0x29 => some 2 | 0x2A => some 2 | 0x2B => some 1
  | 0x2C => some 2 | 0x2D => some 2 | 0x2E => some 2
  | 0x40 => some 4
  | _ => none

/-- The type bit of a ring. -/
def ringBit (n : Nat) : Nat := if isControl n then 0 else if isCommand n then 1 else 2

/-- Descriptors execute: firmware runs, and no abort waits for its step 5 (R101, R510). -/
def Blk.executing (b : Blk) : Bool :=
  b.f Reg.SYS_BOOT_STAT F.SYS_BOOT_STAT_FW_STATE == 2 &&
    !(b.abortActive && b.f Reg.SYS_ABORT F.SYS_ABORT_QUIESCENT == 0)

/-- The descriptor of a ring in execution, when it has the opcode named and is at the stage named: steps
1 and 2 of R80, then its meaning. Where there is none nothing happens. -/
def descr (ring op : Nat) (begun : Bool) (k : List Word → Prog) : Prog :=
  .get fun b =>
    match b.front ring with
    | none => .skip
    | some d =>
      if !b.executing || opcodeOf d.ws != op || d.begun != begun then .skip
      else
        match opcodeRings op with
        | none => .skip
        | some m => if bit m (ringBit ring) then k d.ws else complete ring 0x03 0

/-- The descriptor of a ring in execution, whatever its stage: its meaning is told whether it has begun. -/
def descrStage (ring op : Nat) (k : Bool → List Word → Prog) : Prog :=
  .get fun b =>
    match b.front ring with
    | none => .skip
    | some d => descr ring op d.begun (k d.begun)

/-- A descriptor whose checks precede its effect. -/
def checked (ring : Nat) (f : Option Fail) (p : Prog) : Prog :=
  match f with
  | some e => complete ring e.status e.detail
  | none => p

/-- NOP (R79). -/
def nopProg (ring : Nat) : Prog :=
  descr ring 0x01 false fun ws => checked ring (fieldFail ws []) (completeOk ring 0)

/-- An opcode that is not defined completes with BAD_OPCODE (R79). -/
def badOpcodeProg (ring : Nat) : Prog :=
  .get fun b =>
    match b.front ring with
    | none => .skip
    | some d =>
      if b.executing && (opcodeRings (opcodeOf d.ws)).isNone && !d.begun then complete ring 0x02 0 else .skip

/-- The checks of MODE_SET: DOMAIN 0 to 47, MODE 0 to 11, and a usable domain (R80, R82). -/
def modeSetFail (b : Blk) (ws : List Word) : Option Fail :=
  firstFail [
    fieldFail ws [⟨1, 0xFFF, fun w => decide (bits w 0 8 ≤ 47 ∧ bits w 8 4 ≤ 11)⟩],
    need (!b.unusable (bits (dw ws 1) 0 8)) 0x0B (bits (dw ws 1) 0 8)]

/-- The transition a MODE_SET asks for, evaluated against a mode `h` of the domain: that mode (R38), refused (R37), SAFE
at once (R54), or waiting for the next tick edge (R39); then its completion (R82). -/
def modeSetBody (ring d : Nat) (h m : Mode) : Prog :=
  .get fun b =>
    if h = m then completeOk ring (modeCode h)
    else if b.modeRefused d h m then complete ring 0x01 (modeCode h)
    else if m = .safe then .seq (requestSafe d .command none) (completeOk ring (modeCode .safe))
    else .seq (requestMode d m .command) (completeOk ring (modeCode m))

/-- A MODE_SET alone in its bead interval. -/
def modeSetOne (ring : Nat) : Prog :=
  descr ring 0x02 false fun ws =>
    .get fun b =>
      let d := bits (dw ws 1) 0 8
      checked ring (modeSetFail b ws) (modeSetBody ring d (b.mode d) (modeOf (bits (dw ws 1) 8 4)))

/-- The MODE_SET in execution on a ring: its domain and mode. -/
def Blk.modeSetOf (b : Blk) (ring : Nat) : Option (Nat × Mode) :=
  match b.front ring with
  | some d =>
    if b.executing && opcodeOf d.ws == 0x02 && !d.begun && !isBuild ring && (modeSetFail b d.ws).isNone then
      some (bits (dw d.ws 1) 0 8, modeOf (bits (dw d.ws 1) 8 4))
    else none
  | none => none

/-- The rank of a mode requested in a bead interval (R40). -/
def modeRank : Mode → Nat
  | .safe => 0 | .hold => 1 | .drain => 2 | _ => 3

/-- Rings in the order of R40: the rank of the mode each names, then the ring number. -/
def Blk.byRank (b : Blk) (rings : List Nat) : List Nat :=
  let rank := fun r => match b.modeSetOf r with | some (_, m) => modeRank m | none => 4
  (List.range 5).flatMap fun k => (List.range 40).filter fun r => rings.contains r && rank r == k

/-- MODE_SETs of one bead interval in their order (R40), each evaluated against the mode that those before it leave:
`held` are the domains moved so far with the modes they will hold. -/
def modeSets : List Nat → List (Nat × Mode) → Prog
  | [], _ => .skip
  | r :: rs, held =>
    .get fun b =>
      match b.modeSetOf r with
      | none => .seq (modeSetOne r) (modeSets rs held)
      | some (d, m) =>
        let h := ((held.find? fun x => x.1 == d).map Prod.snd).getD (b.mode d)
        let ok := h == m || !b.modeRefused d h m
        .seq (modeSetBody r d h m) (modeSets rs (if ok then (d, m) :: held else held))

/-- MODE_SET (R82) of a ring, with the rings whose MODE_SETs fall in the same bead interval. -/
def modeSetProg (ring : Nat) (others : List Nat) : Prog :=
  if others = [] then modeSetOne ring else .get fun b => modeSets (b.byRank (ring :: others)) []

/-- Held rings are released once QUIESCENT is 1 (R106). -/
def releaseRings : Prog :=
  .get fun b =>
    progIf (b.f Reg.SYS_ABORT F.SYS_ABORT_QUIESCENT == 1)
      (.seq (setF Reg.SYS_ABORT F.SYS_ABORT_ACTIVE 0) (setF Reg.SYS_ABORT F.SYS_ABORT_QUIESCENT 0))

/-- RING_RELEASE (R106): DETAIL 1 when nothing was to release. -/
def ringReleaseProg (ring : Nat) : Prog :=
  descr ring 0x0E false fun ws =>
    .get fun b =>
      checked ring (fieldFail ws [])
        (if b.f Reg.SYS_ABORT F.SYS_ABORT_QUIESCENT = 1 then .seq releaseRings (completeOk ring 0)
         else completeOk ring 1)

/-! ### Abort -/

/-- Step 5 of an abort for one ring: every fetched descriptor completes, an ABORT descriptor with OK and
the DETAIL of R104, the others with ABORTED (R101, R103). -/
def abortRing (ring : Nat) : Nat → Prog
  | 0 => .skip
  | n + 1 =>
    .get fun b =>
      match b.front ring with
      | none => .skip
      | some d =>
        .seq
          (if opcodeOf d.ws = 0x0F ∧ ring ≤ 7 then completeOk ring (b2n (!d.begun))
           else complete ring 0x0A 0)
          (abortRing ring n)

/-- Steps 5 to 7 of an abort: fetched descriptors complete, QUIESCENT becomes 1, the ABORT_VEC message is
due. COAT_CUT descriptors that waited are cut with the rest, a TABLE_LOAD stops writing (R103) and no NVS_RELEASE waits. -/
def abortFinish : Prog :=
  .seq (progEach (List.range 40) fun r => .get fun b => abortRing r (b.ring r).fetched.length)
    (.get fun b =>
      progAll [
        modAux fun a => { a with build := { a.build with cutRings := [] } },
        modAux fun a => { a with loads := [], store := { a.store with releases := [] } },
        setF Reg.SYS_ABORT F.SYS_ABORT_QUIESCENT 1,
        wantIrq (b.f Reg.HIF_IRQ_VEC F.HIF_IRQ_VEC_ABORT_VEC)])

/-- An abort request of source `src` reaches the abort bead (R99 to R102, R104). With the host link down
steps 5 to 7 wait for its return. -/
def abortRequest (src : Nat) : Prog :=
  .get fun b =>
    if b.abortActive then .skip
    else
      let off := b.mode dCore == .off
      progAll [
        setF Reg.SYS_ABORT F.SYS_ABORT_ACTIVE 1,
        setF Reg.SYS_ABORT F.SYS_ABORT_QUIESCENT 0,
        setF Reg.SYS_ABORT F.SYS_ABORT_AXES_REST (b2n off),
        setF Reg.SYS_ABORT F.SYS_ABORT_SRC src,
        modF Reg.SYS_ABORT F.SYS_ABORT_COUNT (satInc 16),
        modAux fun a => { a with ring0Wait := true, restDue := !off },
        progIf (!off) (requestSafe dCore .abort none),
        progIf b.aux.linkUp abortFinish]

/-- The position of the oldest fetched ABORT descriptor that has not acted. -/
def abortAt (l : List Fetched) : Bool := l.any fun d => opcodeOf d.ws == 0x0F && !d.begun

/-- ABORT (R81, R104): it acts at decode, wherever it stands among the fetched descriptors of its ring.
While no abort is active it requests one, whose step 5 completes it; while one is active it completes in
its turn with DETAIL 1. -/
def abortProg (ring : Nat) : Prog :=
  .get fun b =>
    if isBuild ring then
      descr ring 0x0F false fun _ => .skip
    else if !abortAt (b.ring ring).fetched then .skip
    else if b.abortActive then
      descr ring 0x0F false fun ws => checked ring (fieldFail ws []) (completeOk ring 1)
    else
      match (b.ring ring).fetched.find? fun d => opcodeOf d.ws == 0x0F && !d.begun with
      | none => .skip
      | some d =>
        match fieldFail d.ws [] with
        | some _ => descr ring 0x0F false fun ws => checked ring (fieldFail ws []) .skip
        | none => .seq (.op (.ring ring .markAbort)) (abortRequest 2)

end Sys2Proof.Machine
end

