-- ==== Sys2Proof/Machine/HostIf.lean ====
section
/-!
DEFINITION. The host interface: doorbell reads, descriptor fetch, ring enable and disable, MSI-X timer
and unmask, link events, Function Level Reset, watchdog (R65 to R77, R93 to R98, R99 to R107).
-/
namespace Sys2Proof.Machine

/-- The step of a ring index a doorbell word shows (R72): out of range when it advances by more than the
ring size or leaves the two indices further apart than that. -/
def Blk.dbOutOfRange (b : Blk) (n idx : Nat) : Bool :=
  let size := b.ringSize n
  let dist := if n < 40 then idxDiff idx (b.devIdx n) else idxDiff (b.devIdx n) idx
  decide (size < idxDiff idx (b.hostSeen n)) || decide (size < dist)

/-- One doorbell word as read (R71, R72, R74, R100). A torn word, like a failed read, sets its flag alone and sends no
message on ERR_VEC: DESIGN CHOICE, the register names ERR_VEC the vector for doorbell faults, and no rule says which
faults those are. -/
def doorbellWord (n : Nat) (idx inv : Word) : Prog :=
  .get fun b =>
    if 89 ≤ n ∨ !b.ringEnabled n then .skip
    else if inv ≠ ~~~idx then setFlag flTorn
    else if idx.toNat = b.hostSeen n then .skip
    else if b.dbOutOfRange n idx.toNat then
      progIf (!b.ringStopped n) (.seq (stopRing n 1) (raiseEvent 0x0B0 n noDom 0 0 0))
    else .seq (setW (Reg.RING_IDX n + 4) idx) (modAux fun a => { a with wdFrom := tbNs a.clk.tb2 })

/-- DOORBELL_POLL (R68): the words of the enabled rings, or a failed read (R73). After an abort whose
QUIESCENT stands, this is the read at which ring 0 resumes (R101 step 7). -/
def doorbellPollProg (words : Option (List (Nat × Word × Word))) : Prog :=
  .get fun b =>
    if !((List.range 89).any b.ringEnabled) || !b.aux.linkUp then .skip
    else
      match words with
      | none => setFlag flReadErr
      | some l =>
        .seq (progEach l fun (n, i, v) => doorbellWord n i v)
          (progIf (!b.abortActive || b.f Reg.SYS_ABORT F.SYS_ABORT_QUIESCENT == 1)
            (modAux fun a => { a with ring0Wait := false }))

/-- A descriptor of a ring may be fetched now (R65, R72, R76, R94, R95, R105, R495, R510). -/
def Blk.mayFetch (b : Blk) (n : Nat) : Bool :=
  let cq := b.f (Reg.RING_CTRL n) F.RING_CTRL_CQ
  b.aux.linkUp && b.f Reg.SYS_BOOT_STAT F.SYS_BOOT_STAT_FW_STATE == 2 &&
    b.ringEnabled n && !b.ringStopped n && !(n == 0 && b.aux.ring0Wait) &&
    (n == 0 || (b.mode dCore != .off && !b.abortActive)) &&
    (b.f Reg.BST_SUMMARY F.BST_SUMMARY_SHUT == 0 || (n == 0 && b.f Reg.BST_SUMMARY F.BST_SUMMARY_SHUT == 1)) &&
    (!b.abortActive || b.f Reg.SYS_ABORT F.SYS_ABORT_QUIESCENT == 1) &&
    decide ((b.ring n).fetched.length < 64) &&
    decide ((b.ring n).fetched.length < idxDiff (b.hostSeen n) (b.devIdx n)) &&
    b.ringEnabled cq && decide (0 < b.freeSlots cq)

/-- DESCRIPTOR_FETCH (R94): the next descriptor with its completion slot reserved, or a failed read that
stops the ring (R93). -/
def descriptorFetchProg (n : Nat) (data : Option (List Word)) : Prog :=
  .get fun b =>
    progIf (b.mayFetch n)
      (match data with
      | none => stopRing n 2
      | some ws =>
        .op (.ring n (.fetch ((List.range 16).map fun i => ws.getD i 0)
          (b.f (Reg.RING_CTRL n) F.RING_CTRL_CQ))))

/-- MSIX_TIMER (R97): TIME_US of TB2 have passed since the first unsignalled entry of a ring. -/
def msixTimerProg (n : Nat) : Prog :=
  .get fun b =>
    let us := b.f (Reg.RING_MOD n) F.RING_MOD_TIME_US
    progIf (decide (40 ≤ n) && b.ringEnabled n && decide (0 < (b.ring n).since) && us != 0 &&
      decide ((b.ring n).firstNs + us * 1000 ≤ b.ns2)) (ringSignal n)

/-- The effect of ENABLE written 1 (R77). -/
def ringStart (n : Nat) : Prog :=
  .get fun b =>
    .seq (setW (Reg.RING_IDX n + 4) (b.w (Reg.RING_IDX n))) (.op (.ring n (.enable (b.devIdx n))))

/-- The effect of ENABLE written 0 (R76): the stop and its cause are cleared; descriptors already fetched
complete as they execute. -/
def ringStop (n : Nat) : Prog :=
  .seq (setF (Reg.RING_ERR n) F.RING_ERR_STOPPED 0) (setF (Reg.RING_ERR n) F.RING_ERR_CAUSE 0)

/-- MSIX_UNMASK (R98): the vector's mask is cleared and a held message goes out. -/
def msixUnmaskProg (v : Nat) : Prog :=
  .get fun b =>
    .seq (setF (Reg.MSIX_TABLE v 3) ⟨0, 1⟩ 0)
      (progIf (b.f (Reg.MSIX_PBA (v / 32)) ⟨v % 32, 1⟩ == 1)
        (.seq (setF (Reg.MSIX_PBA (v / 32)) ⟨v % 32, 1⟩ 0) (sendMsix v)))

/-- DL_DOWN (R99): the link goes down; an abort is requested while the core is not in OFF. -/
def dlDownProg : Prog :=
  .seq (modAux fun a => { a with linkUp := false })
    (progWhen (fun b => b.mode dCore != .off) (abortRequest 4))

/-- HOST_LINK_UP (R101): the link returns, and steps 5 to 7 of a pending abort take place. -/
def hostLinkUpProg : Prog :=
  .seq (modAux fun a => { a with linkUp := true })
    (progWhen (fun b => b.abortActive && b.f Reg.SYS_ABORT F.SYS_ABORT_QUIESCENT == 0) abortFinish)

/-- HOST_WATCHDOG (R100): WD_MS of TB2 have passed since the latest of the moments of R100. -/
def hostWatchdogProg : Prog :=
  .get fun b =>
    let ms := b.f Reg.HIF_WD F.HIF_WD_WD_MS
    progIf ((b.mode dCore == .expose || b.mode dCore == .hold) && ms != 0 &&
      decide (b.aux.wdFrom + ms * 1000000 ≤ b.ns2)) (abortRequest 5)

/-- Registers of a range of offsets return to their reset values. -/
def regsToReset (lo hi : Nat) : Prog :=
  .get fun b => progEach (b.regs.filter fun (o, _) => decide (lo ≤ o ∧ o < hi)) fun (o, _) => setW o (defaultWord o)

/-- RING and HIF registers, the MSI-X table and every ring return to the reset state (R107, R514). -/
def hostSideReset : Prog :=
  progAll [
    regsToReset 0x10000 0x30000,
    progEach (List.range 89) fun n => .op (.ring n .clear),
    modAux fun a => { a with loads := [] }]

/-! ### The endpoint (R59 to R61) -/

/-- What the PCIe endpoint function presents (R59): generation of the base specification, widest link, device ID, class
code, largest payload and read request in bytes, non-posted requests outstanding, MSI-X vectors, and which of AER with
ECRC, ASPM L1 and Function Level Reset it has. It has no SR-IOV, ATS, PRI, MSI, INTx, L0s or L1 PM substates. -/
structure Endpoint where
  generation : Nat
  lanes : Nat
  deviceId : Nat
  classCode : Nat
  maxPayload : Nat
  maxRead : Nat
  requests : Nat
  vectors : Nat
  aer : Bool
  aspmL1 : Bool
  functionReset : Bool
  deriving DecidableEq, Repr

/-- The endpoint of the part (R59). -/
def endpoint : Endpoint := ⟨4, 8, 0x9632, 0x118000, 512, 4096, 256, 256, true, true, true⟩

/-- The part does not request ASPM L1 entry while a head is in EXPOSE, HOLD or DRAIN (R60). -/
def Blk.l1Barred (b : Blk) : Bool :=
  (List.range 32).any fun h => b.mode h == .expose || b.mode h == .hold || b.mode h == .drain

end Sys2Proof.Machine
end

