-- ==== Sys2Proof/Machine/Skim.lean ====
section
/-!
DEFINITION. The Skim stream format (R400 to R402): canonical codes, package-merge code lengths, and the
expander that inbound appends use (R127).
-/
namespace Sys2Proof.Machine

/-- Why an expansion stops: a malformed stream, or output beyond the length asked for. -/
inductive SkimErr
  | corrupt | excess
  deriving DecidableEq, Repr

/-- A code: symbol, length, code word. -/
structure Code where
  sym : Nat
  len : Nat
  code : Nat
  deriving DecidableEq, Repr

/-- Symbols of one length in ascending order take consecutive codes. -/
def codesAt : List (Nat × Nat) → Nat → Nat → List Code × Nat
  | [], _, c => ([], c)
  | (s, l) :: r, n, c =>
    if l = n then
      let (cs, c') := codesAt r n (c + 1)
      (⟨s, n, c⟩ :: cs, c')
    else codesAt r n c

/-- Canonical codes by ascending length (R401). -/
def canonAux (ls : List (Nat × Nat)) : Nat → Nat → Nat → List Code
  | 0, _, _ => []
  | k + 1, n, c =>
    let (cs, c') := codesAt ls n c
    cs ++ canonAux ls k (n + 1) (2 * c')

/-- The canonical code of a list of lengths, in symbol order. -/
def canonical (lens : List Nat) : List Code :=
  canonAux ((lens.zipIdx).map fun (l, i) => (i, l)) 15 1 0

/-- The static code lengths of the literal/length alphabet. -/
def staticLit : List Nat := List.replicate 256 9 ++ List.replicate 21 6
/-- The static code lengths of the distance alphabet. -/
def staticDist : List Nat := List.replicate 32 5

/-- An item of package-merge: its weight and the symbols it holds. -/
structure Pack where
  w : Nat
  syms : List Nat
  deriving DecidableEq, Repr

/-- Merge of leaves and packages by weight, leaves first among equals. -/
def mergePacks : Nat → List Pack → List Pack → List Pack
  | 0, _, _ => []
  | _ + 1, [], ps => ps
  | _ + 1, ls, [] => ls
  | k + 1, l :: ls, p :: ps =>
    if l.w ≤ p.w then l :: mergePacks k ls (p :: ps) else p :: mergePacks k (l :: ls) ps

/-- Consecutive items paired; a last odd item is dropped. -/
def pairUp : List Pack → List Pack
  | a :: b :: r => ⟨a.w + b.w, a.syms ++ b.syms⟩ :: pairUp r
  | _ => []

/-- Insertion by weight that keeps earlier symbols first. -/
def insPack (p : Pack) : List Pack → List Pack
  | [] => [p]
  | q :: r => if p.w < q.w then p :: q :: r else q :: insPack p r

def levels (leaves : List Pack) : Nat → List Pack → List Pack
  | 0, l => l
  | k + 1, l =>
    let ps := pairUp l
    levels leaves k (mergePacks (leaves.length + ps.length + 1) leaves ps)

/-- Code lengths by package-merge with a limit of 15 bits (R401). -/
def packageMerge (weights : List Nat) : List Nat :=
  let leaves := (weights.zipIdx).foldl (fun l (w, i) => insPack ⟨w, [i]⟩ l) []
  let final := (levels leaves 14 leaves).take (2 * weights.length - 2)
  let all := final.flatMap Pack.syms
  (List.range weights.length).map fun i => all.count i

/-- The adaptive code lengths from the symbol counts of the previous block. -/
def adaptive (counts : List Nat) : List Nat := packageMerge (counts.map (· + 1))

/-- One code word read from bit position `p` of a bit string; the symbol and the next position. -/
def readCode (cs : List Code) (x size : Nat) : Nat → Nat → Nat → Nat → Option (Nat × Nat)
  | 0, _, _, _ => none
  | k + 1, p, n, c =>
    if size ≤ p then none
    else
      let c' := 2 * c + b2n (bit x p)
      match cs.find? fun e => e.len == n + 1 && e.code == c' with
      | some e => some (e.sym, p + 1)
      | none => readCode cs x size k (p + 1) (n + 1) c'

/-- val(n) with its extra bits: the value and the next position. -/
def readVal (n x size p : Nat) : Option (Nat × Nat) :=
  if n < 4 then some (n, p)
  else
    let e := n / 2 - 1
    if size < p + e then none else some ((2 + n % 2) * 2 ^ e + bits x p e, p + e)

/-- An overlapping copy of `n` bytes from `d` back; output newest first. -/
def copyBack : Nat → Nat → List Byte → Option (List Byte)
  | 0, _, out => some out
  | n + 1, d, out =>
    match out[d - 1]? with
    | some v => copyBack n d (v :: out)
    | none => none

def bump (l : List Nat) (i : Nat) : List Nat := l.modify i (· + 1)

/-- What a coded block's decoding carries along. -/
structure Dec where
  out : List Byte
  pos : Nat
  lits : List Nat
  dists : List Nat
  deriving Repr

/-- The symbols of a coded block up to symbol 256. -/
def readSyms (lc dc : List Code) (x size limit : Nat) : Nat → Dec → Except SkimErr Dec
  | 0, _ => .error .corrupt
  | k + 1, d =>
    match readCode lc x size 15 d.pos 0 0 with
    | none => .error .corrupt
    | some (s, p) =>
      let lits := bump d.lits s
      if s = 256 then .ok { d with pos := p, lits := lits }
      else if s < 256 then
        if limit ≤ d.out.length then .error .excess
        else readSyms lc dc x size limit k { d with out := BitVec.ofNat 8 s :: d.out, pos := p, lits := lits }
      else
        match readVal (s - 257) x size p with
        | none => .error .corrupt
        | some (lv, p1) =>
          match readCode dc x size 15 p1 0 0 with
          | none => .error .corrupt
          | some (ds, p2) =>
            match readVal ds x size p2 with
            | none => .error .corrupt
            | some (dv, p3) =>
              if d.out.length < 1 + dv then .error .corrupt
              else if limit < d.out.length + 4 + lv then .error .excess
              else
                match copyBack (4 + lv) (1 + dv) d.out with
                | none => .error .corrupt
                | some o => readSyms lc dc x size limit k ⟨o, p3, lits, bump d.dists ds⟩

/-- The blocks of a stream from the byte list after the stream header. `prev` holds the symbol counts
of the previous block; output is newest first. -/
def readBlocks (limit : Nat) : Nat → List Byte → Option (List Nat × List Nat) → List Byte →
    Except SkimErr (List Byte)
  | 0, _, _, _ => .error .corrupt
  | k + 1, inp, prev, out =>
    if inp.length < 12 then .error .corrupt
    else
      let w0 := leBytes (inp.take 4)
      let pay := leBytes ((inp.drop 4).take 4)
      let crc := leBytes ((inp.drop 8).take 4)
      let raw := bits w0 0 16 + 1
      let ty := bits w0 16 2
      let body := (inp.drop 12).take pay
      let rest := inp.drop (12 + pay)
      if bits w0 19 13 ≠ 0 ∨ ty = 3 ∨ (ty = 2 ∧ prev = none) ∨ body.length < pay then .error .corrupt
      else
        let res : Except SkimErr (List Byte × List Nat × List Nat) :=
          if ty = 0 then
            if pay ≠ raw then .error .corrupt
            else if limit < out.length + raw then .error .excess
            else
              .ok (body.reverse ++ out,
                body.foldl (fun l v => bump l v.toNat) (bump (List.replicate 277 0) 256),
                List.replicate 32 0)
          else
            let (ll, dl) :=
              if ty = 1 then (staticLit, staticDist)
              else
                match prev with
                | some (a, b) => (adaptive a, adaptive b)
                | none => (staticLit, staticDist)
            let x := leBytes body
            match readSyms (canonical ll) (canonical dl) x (8 * pay) limit (8 * pay + 1)
                ⟨out, 0, List.replicate 277 0, List.replicate 32 0⟩ with
            | .error e => .error e
            | .ok d =>
              if (d.pos + 7) / 8 ≠ pay ∨ x / 2 ^ d.pos ≠ 0 then .error .corrupt
              else .ok (d.out, d.lits, d.dists)
        match res with
        | .error e => .error e
        | .ok (o, lits, dists) =>
          let blk := (o.take (o.length - out.length)).reverse
          if blk.length ≠ raw ∨ crc32 blk ≠ crc then .error .corrupt
          else if bit w0 18 then if rest.isEmpty then .ok o else .error .corrupt
          else readBlocks limit k rest (some (lits, dists)) o

/-- The expansion of a Skim stream, at most `limit` bytes (R127, R400 to R402). -/
def skimExpand (limit : Nat) (inp : List Byte) : Except SkimErr (List Byte) :=
  if inp.length < 8 ∨ leBytes (inp.take 4) ≠ 0x4D494B53 ∨ leBytes ((inp.drop 4).take 4) ≠ 1 then
    .error .corrupt
  else (readBlocks limit (inp.length + 1) (inp.drop 8) none []).map List.reverse

/-- The bytes of an input as stored blocks of at most 65,536 bytes with a stream header: the output an
idle compressor would give, and the space a record job is given (R407). -/
def storedBlocks : Nat → List Byte → List Byte
  | 0, _ => []
  | k + 1, bs =>
    let blk := bs.take 65536
    let rest := bs.drop 65536
    toBytes 4 (blk.length - 1 + (if rest.isEmpty then 2 ^ 18 else 0)) ++ toBytes 4 blk.length ++
      toBytes 4 (crc32 blk) ++ blk ++ (if rest.isEmpty then [] else storedBlocks k rest)

/-- A stream of stored blocks. -/
def skimStored (bs : List Byte) : List Byte :=
  toBytes 4 0x4D494B53 ++ toBytes 4 1 ++ storedBlocks (bs.length / 65536 + 1) bs

end Sys2Proof.Machine
end

