-- ==== Sys2Proof/Machine/Build.lean ====
section
/-!
DEFINITION. Build data: coats, parts, patches, parameter sets, stream contexts and the records of
appends (R108 to R135, R550).
-/
namespace Sys2Proof.Machine

/-! ### Access -/

def Blk.build (b : Blk) : Build := b.aux.build

def Blk.coat (b : Blk) (n : Nat) : Option Coat := b.build.coats.find? fun c => c.num == n

/-- SEQ_COAT.COAT. -/
def Blk.coatNo (b : Blk) : Nat := b.f Reg.SEQ_COAT F.SEQ_COAT_COAT
/-- SEQ_COAT.PHASE. -/
def Blk.phaseNo (b : Blk) : Nat := b.f Reg.SEQ_COAT F.SEQ_COAT_PHASE

def Coat.findPart (c : Coat) (i : Nat) : Option Part := c.part.find? fun p => p.idx == i
def Part.findPatch (p : Part) (i : Nat) : Option Patch := p.patch.find? fun q => q.idx == i

/-- The patch of a run's key. -/
def Blk.patchOf (b : Blk) (k : Key) : Option Patch :=
  (b.coat k.coat).bind fun c => (c.findPart k.part).bind fun p => p.findPatch k.patch

def modBuild (f : Build → Build) : Prog := modAux fun a => { a with build := f a.build }

def modCoat (n : Nat) (f : Coat → Coat) : Prog :=
  modBuild fun x => { x with coats := x.coats.map fun c => if c.num == n then f c else c }

def modPatch (k : Key) (f : Patch → Patch) : Prog :=
  modCoat k.coat fun c =>
    { c with part := c.part.map fun p =>
        if p.idx == k.part then
          { p with patch := p.patch.map fun q => if q.idx == k.patch then f q else q }
        else p }

def Blk.ctx (b : Blk) (c : Nat) : Ctx := b.aux.ctxs.getD c Ctx.init

def modCtx (c : Nat) (f : Ctx → Ctx) : Prog := modAux fun a => { a with ctxs := a.ctxs.modify c f }

/-- Capacity of a context in records (R123). -/
def Blk.capacity (b : Blk) (c : Nat) : Nat := 2 ^ b.f (Reg.TRW_CTX_CFG c) F.TRW_CTX_CFG_SIZE_LOG2 / 32

/-- Credits of a context (R123). -/
def Blk.credits (b : Blk) (c : Nat) : Nat := b.capacity c - (b.ctx c).reserved - (b.ctx c).held.length

/-- SEQ_COAT.DEFINED: coats defined whose phase 3 has not ended. -/
def refreshDefined : Prog :=
  .get fun b => setF Reg.SEQ_COAT F.SEQ_COAT_DEFINED (b.build.coats.filter fun c => !c.ended3).length

/-- A build-control descriptor outside its core modes completes with BUILD_STATE (R109). -/
def stateFail (b : Blk) (ms : List Mode) : Option Fail :=
  need (ms.contains (b.mode dCore)) 0x51 (modeCode (b.mode dCore))

def inBuild : List Mode := [.armed, .expose, .hold]

/-! ### Release of records and the prefetch (R126, R550) -/

/-- The leading records that may be released: PADs, and records of done runs. -/
def releasable (r : RunBook) : List Rec → List Rec
  | [] => []
  | x :: xs =>
    match x.run with
    | none => if (dw x.ws 0) % 16 = 0xF then releasable r xs else x :: xs
    | some k =>
      match r.find k with
      | some y => if y.place.isDone then releasable r xs else x :: xs
      | none => x :: xs

/-- A record as it stands once its run may be done: a PAD and the records of a done run have left (R550). -/
def Rec.passed (r : RunBook) (x : Rec) : Rec :=
  match x.run with
  | none => if dw x.ws 0 % 16 = 0xF then { x with left := true } else x
  | some k =>
    match r.find k with
    | some y => if y.place.isDone then { x with left := true } else x
    | none => x

/-- Release in every context. -/
def releaseRecords : Prog :=
  .get fun b =>
    modAux fun a => { a with ctxs := a.ctxs.map fun c =>
      match c.held with
      | [] => c
      | l => { c with held := (releasable b.runs l).map (Rec.passed b.runs) } }

/-- The stroke records of a run among held records: its first `n` have left. -/
def leaveIn (k : Key) : Nat → List Rec → List Rec
  | _, [] => []
  | n, x :: xs =>
    if x.run = some k ∧ dw x.ws 0 % 16 = 3 then
      match n with
      | 0 => x :: xs
      | m + 1 => { x with left := true } :: leaveIn k m xs
    else x :: leaveIn k n xs

/-- The first `n` strokes of a run leave the prefetch: their last setpoints have been computed (R550). -/
def strokesLeave (r : Run) (n : Nat) : Prog := modCtx r.ctx fun x => { x with held := leaveIn r.key n x.held }

/-- The records of the prefetch: the oldest 2,048 that have not left. -/
def Ctx.window (c : Ctx) : List Rec := (c.held.filter fun r => !r.left).take 2048

/-- Records of the window become present, those beyond it stay outside; `n` counts what may still enter. -/
def fillWindow : Nat → List Rec → List Rec
  | _, [] => []
  | n, r :: rs =>
    if r.left then r :: fillWindow n rs
    else
      match n with
      | 0 => r :: fillWindow 0 rs
      | k + 1 => { r with here := true } :: fillWindow k rs

/-- PREFETCH_FILL (R550): the held records that fall among the oldest 2,048 become present. -/
def prefetchFillProg (c : Nat) : Prog := modCtx c fun x => { x with held := fillWindow 2048 x.held }

/-- The header records of a run are present in its home context's prefetch (R172, R174). -/
def Blk.headPresent (b : Blk) (r : Run) : Bool :=
  let hs := (b.ctx r.ctx).held.filter fun x => x.run == some r.key && decide (dw x.ws 0 % 16 ≤ 2)
  !hs.isEmpty && hs.all fun x => x.here

/-- The stroke records of a run in order. -/
def Blk.strokesOf (b : Blk) (r : Run) : List Rec :=
  (b.ctx r.ctx).held.filter fun x => x.run == some r.key && dw x.ws 0 % 16 == 3

/-! ### Coats -/

/-- No run of the build has run on any head yet: the first one of each is of another patch than the head's last (R17). -/
def forgetPatches : Prog := modAux fun a => { a with trowels := a.trowels.map fun t => { t with lastPatch := none } }

/-- BUILD_OPEN (R108, R498). -/
def buildOpenProg (ring : Nat) : Prog :=
  descr ring 0x10 false fun ws =>
    .get fun b =>
      checked ring (firstFail [
        fieldFail ws [anyW 1, anyW 2],
        stateFail b [.setup],
        need (!(b.lifeCycle == 0 || b.lifeCycle == 5)) 0x67 0])
        (progAll [
          modBuild fun _ => { Build.init with isOpen := true, id := addr64 ws 1 },
          forgetPatches,
          setW Reg.SEQ_COAT 0,
          requestMode dCore .armed .command,
          completeOk ring 0])

/-- The core returns to SETUP once the build is closed and no coat is left (R551). -/
def Blk.buildOver (b : Blk) : Bool :=
  b.build.isOpen && b.build.closed && b.mode dCore == .armed && b.build.coats.isEmpty

/-- BUILD_CLOSE (R108, R551). -/
def buildCloseProg (ring : Nat) : Prog :=
  descr ring 0x11 false fun ws =>
    .get fun b =>
      checked ring (firstFail [fieldFail ws [], stateFail b inBuild])
        (.seq (modBuild fun x => { x with closed := true }) (completeOk ring 0))

def coatDefineRules : List WordRule := [
  ⟨1, 0xFFFFFF, fun w => decide (1 ≤ w ∧ w ≤ 16777214)⟩, ⟨2, 0xFFFFFFFF, fun w => w != 0⟩,
  ⟨3, 0xFFFFFFFF, fun w => decide (1 ≤ w % 65536 ∧ w % 65536 ≤ 65534)⟩, ⟨4, 0x3FF, fun _ => true⟩, anyW 5]

/-- COAT_DEFINE (R110). -/
def coatDefineProg (ring : Nat) : Prog :=
  descr ring 0x12 false fun ws =>
    .get fun b =>
      let n := dw ws 1
      checked ring (firstFail [
        fieldFail ws coatDefineRules,
        lenFail ws 2 0xFFFFFFFF (decide (4095 < dw ws 2)),
        stateFail b inBuild,
        need (!b.build.closed) 0x6A 0,
        need (decide (b.build.last < n)) 0x4F 0,
        need (decide ((b.build.coats.filter fun c => !c.ended3).length < 4)) 0x4E 0])
        (progAll [
          modBuild fun x => { x with
            last := n
            coats := x.coats ++ [{
              num := n, parts := dw ws 2, layer := bits (dw ws 3) 0 16, flow := bits (dw ws 3) 16 16,
              recoat := bits (dw ws 4) 0 4, float := bits (dw ws 4) 4 4, image := bit (dw ws 4) 8,
              auto := bit (dw ws 4) 9, tag := dw ws 5, released := false, stage := 0, cut := false,
              ended3 := false, part := [] }] },
          refreshDefined,
          completeOk ring 0])

/-- COAT_START (R112). -/
def coatStartProg (ring : Nat) : Prog :=
  descr ring 0x13 false fun ws =>
    .get fun b =>
      let n := dw ws 1
      checked ring (firstFail [
        fieldFail ws [⟨1, 0xFFFFFF, fun _ => true⟩],
        stateFail b inBuild,
        need (match b.coat n with | some c => c.stage == 0 | none => false) 0x40 0])
        (.seq (modCoat n fun c => { c with released := true }) (completeOk ring 0))

/-- A run becomes done with an outcome; its last segment closes. -/
def endRun (k : Key) (o : RunEnd) : Prog :=
  .seq (.op (.run (.touch k fun r => { r with suspended := false, stranded := false })))
    (.op (.run (.place k (.done o))))

/-- Runs of a coat that are queued become done with outcome CUT, and their records are released (R114, R126). A run that
was in execution at the cut and is suspended later is among them. -/
def cutQueued (n : Nat) : Prog :=
  .get fun b =>
    .seq (progEach (b.runs.runs.filter fun r => r.key.coat == n && r.place.isQueued) fun r => endRun r.key .cut)
      releaseRecords

/-- COAT_CUT (R114, R115): the descriptor completes when phase 3 ends. -/
def coatCutProg (ring : Nat) : Prog :=
  descr ring 0x14 false fun ws =>
    .get fun b =>
      let ph := b.phaseNo
      checked ring (firstFail [
        fieldFail ws [],
        stateFail b [.expose, .hold],
        need (ph == 1 || ph == 2 || ph == 3) 0x40 0])
        (progAll [
          .op (.ring ring .start),
          modBuild fun x => { x with cutRings := x.cutRings ++ [ring] },
          modCoat b.coatNo fun c => { c with cut := true },
          progIf (ph == 3) (cutQueued b.coatNo)])

/-! ### Parts and patches -/

/-- The layout of PART_LOAD and PATCH_LOAD (word 3 is used by PATCH_LOAD alone). -/
def loadRules (patch : Bool) : List WordRule := [
  ⟨1, 0xFFFFFF, fun _ => true⟩, ⟨2, 0xFFF, fun w => decide (w ≤ 4094)⟩,
  ⟨3, if patch then 0xFFFF else 0, fun w => decide (w ≤ 65534)⟩, ⟨4, 0xFFFFFFFF, fun w => w != 0⟩,
  anyW 5, anyW 6, anyW 7]

/-- A coat is defined in the build, its phase 4 ended or not. -/
def Blk.defined (b : Blk) (n : Nat) : Bool := (b.coat n).isSome || b.build.past.contains n

/-- The phase 3 of a defined coat has not ended. -/
def Blk.open3 (b : Blk) (n : Nat) : Bool := match b.coat n with | some c => !c.ended3 | none => false

/-- The general checks and those up to the first entry (R116). -/
def loadFail (b : Blk) (ws : List Word) (patch : Bool) : Option Fail :=
  let first := if patch then dw ws 3 else dw ws 2
  let limit : Nat :=
    match b.coat (dw ws 1) with
    | none => 0
    | some c => if patch then (match c.findPart (dw ws 2) with | some p => p.patches | none => 0) else c.parts
  firstFail [
    fieldFail ws (loadRules patch),
    lenFail ws 4 0xFFFFFFFF (decide (dw ws 7 < dw ws 4 * 16)),
    lenFail ws 7 0xFFFFFFFF false,
    alignFail ws 5 16,
    stateFail b inBuild,
    need (b.defined (dw ws 1)) 0x40 0,
    need (b.open3 (dw ws 1)) 0x4F 0,
    need (!patch || ((b.coat (dw ws 1)).bind fun c => c.findPart (dw ws 2)).isSome) 0x41 0,
    need (decide (first + dw ws 4 ≤ limit)) 0x06 4]

/-- Entry `i` of a buffer of 16-byte entries. -/
def entryAt (data : List Word) (i : Nat) : List Word := (data.drop (4 * i)).take 4

/-- Part entries checked one by one (R116). -/
def partEntries (c : Coat) (first : Nat) (data : List Word) : Nat → Nat → Except Fail (List Part)
  | 0, _ => .ok []
  | n + 1, i =>
    let e := entryAt data i
    if (c.findPart (first + i)).isSome then .error ⟨0x44, i % 65536⟩
    else if !(decide (1 ≤ dw e 0 ∧ dw e 0 ≤ 65535)) || dw e 1 != 0 then .error ⟨0x04, i % 65536⟩
    else
      match partEntries c first data n (i + 1) with
      | .error f => .error f
      | .ok ps => .ok (⟨first + i, dw e 0, addr64 e 2, []⟩ :: ps)

/-- Patch entries checked one by one (R116). -/
def patchEntries (p : Part) (first : Nat) (data : List Word) : Nat → Nat → Except Fail (List Patch)
  | 0, _ => .ok []
  | n + 1, i =>
    let e := entryAt data i
    if (p.findPatch (first + i)).isSome then .error ⟨0x44, i % 65536⟩
    else if !(decide (1 ≤ dw e 0 ∧ dw e 0 ≤ 65535)) || bits (dw e 1) 8 2 == 3 || bits (dw e 1) 11 21 != 0 ||
        dw e 3 != 0 then .error ⟨0x04, i % 65536⟩
    else
      match patchEntries p first data n (i + 1) with
      | .error f => .error f
      | .ok ps =>
        .ok (⟨first + i, dw e 0, bits (dw e 1) 0 8, bits (dw e 1) 8 2, bit (dw e 1) 10, dw e 2, none, []⟩ :: ps)

/-- Patches added to a part of a coat. -/
def addPatches (part : Nat) (qs : List Patch) (c : Coat) : Coat :=
  { c with part := c.part.map fun y => if y.idx == part then { y with patch := y.patch ++ qs } else y }

/-- Patch entries held across the coats whose phase 3 has not ended (R116). -/
def Blk.patchCount (b : Blk) : Nat :=
  ((b.build.coats.filter fun c => !c.ended3).map fun c => (c.part.map fun p => p.patch.length).sum).sum

/-- PART_LOAD (R116). -/
def partLoadProg (ring : Nat) (data : Option (List Word)) : Prog :=
  descr ring 0x15 false fun ws =>
    .get fun b =>
      checked ring (loadFail b ws false)
        (match data, b.coat (dw ws 1) with
        | some d, some c =>
          match partEntries c (dw ws 2) d (dw ws 4) 0 with
          | .error f => complete ring f.status f.detail
          | .ok ps => .seq (modCoat (dw ws 1) fun x => { x with part := x.part ++ ps }) (completeOk ring 0)
        | _, _ => complete ring 0x08 0)

/-- PATCH_LOAD (R116). -/
def patchLoadProg (ring : Nat) (data : Option (List Word)) : Prog :=
  descr ring 0x16 false fun ws =>
    .get fun b =>
      checked ring (loadFail b ws true)
        (match data, (b.coat (dw ws 1)).bind fun c => c.findPart (dw ws 2) with
        | some d, some p =>
          match patchEntries p (dw ws 3) d (dw ws 4) 0 with
          | .error f => complete ring f.status f.detail
          | .ok qs =>
            if 1048576 < b.patchCount + qs.length then complete ring 0x50 0
            else
              .seq (modCoat (dw ws 1) (addPatches (dw ws 2) qs)) (completeOk ring 0)
        | _, _ => complete ring 0x08 0)

/-! ### Parameter sets -/

/-- A set's fields lie in their ranges and its reserved bits are 0 (R117). -/
def setValid (s : List Word) : Bool :=
  let w := dw s
  decide (1 ≤ bits (w 0) 16 8 ∧ bits (w 0) 16 8 ≤ 25) && bits (w 0) 24 8 == 0 &&
    ([1, 2, 3, 4].all fun i => decide (1 ≤ w i ∧ w i ≤ 0xFFFFFFFE)) &&
    decide (bits (w 5) 0 16 ≤ 65534 ∧ bits (w 5) 16 16 ≤ 65534) &&
    decide (bits (w 6) 0 16 ≤ 32768 ∧ bits (w 6) 16 2 ≤ 2) && bits (w 6) 18 14 == 0 &&
    ([10, 11, 12, 13, 14, 15].all fun i => w i == 0)

/-- Generations of a set bound to patches whose phase 3 has not ended (R120). -/
def Blk.boundGens (b : Blk) (s : Nat) : List Nat :=
  ((b.build.coats.filter fun c => !c.ended3).flatMap fun c => c.part.flatMap fun p =>
    p.patch.filterMap fun q => if q.pset == s then q.bound else none).eraseDups

def Blk.pset (b : Blk) (s : Nat) : Pset := b.aux.psets.getD s Pset.init

/-- Landing a set would need a fifth generation (R118, R120). -/
def Blk.setBusy (b : Blk) (s : Nat) : Bool :=
  match (b.pset s).active with
  | none => false
  | some g =>
    let bd := b.boundGens s
    bd.contains g.num && decide (3 ≤ (bd.filter (· != g.num)).length)

def psetRules : List WordRule := [
  ⟨1, 0xFF, fun _ => true⟩, ⟨2, 0xFFFF, fun w => w != 0⟩, anyW 4, anyW 5, anyW 6]

/-- The sets of a buffer are all valid. A set that is invalid decides before one that is busy, wherever the two stand in
the buffer: DESIGN CHOICE, R118 gives no order between them. -/
def psetEntries (b : Blk) (first : Nat) (data : List Word) : Nat → Nat → Except Fail Unit
  | 0, _ => .ok ()
  | n + 1, i =>
    if !setValid ((data.drop (16 * i)).take 16) then .error ⟨0x4A, first + i⟩
    else psetEntries b first data n (i + 1)

/-- Sets of a buffer landed as waiting generations. -/
def landSets (first : Nat) (d : List Word) (n : Nat) (l : List Pset) : List Pset :=
  (List.range n).foldl (fun l i => l.modify (first + i) fun p =>
    { p with waiting := some ((List.range 16).map fun j => d.getD (16 * i + j) 0) }) l

/-- PSET_WRITE (R118): all sets land as waiting generations, or none. -/
def psetWriteProg (ring : Nat) (data : Option (List Word)) : Prog :=
  descr ring 0x17 false fun ws =>
    .get fun b =>
      let first := dw ws 1
      let n := dw ws 2
      checked ring (firstFail [
        fieldFail ws psetRules,
        lenFail ws 2 0xFFFF (decide (256 < n) || decide (256 < first + n) || decide (dw ws 6 < n * 64)),
        lenFail ws 6 0xFFFFFFFF false,
        alignFail ws 4 64,
        stateFail b (.setup :: inBuild)])
        (match data with
        | none => complete ring 0x08 0
        | some d =>
          match psetEntries b first d n 0 with
          | .error f => complete ring f.status f.detail
          | .ok () =>
            match (List.range n).find? fun i => b.setBusy (first + i) with
            | some i => complete ring 0x49 (first + i)
            | none =>
              .seq (modAux fun a => { a with psets := landSets first d n a.psets }) (completeOk ring 0))

/-- A waiting generation becomes the active one (R119); the older one stays held. -/
def Pset.commit (p : Pset) : Pset :=
  match p.waiting with
  | none => p
  | some ws =>
    let n := (p.num + 1) % 65536
    { num := n
      active := some ⟨n, ws⟩
      old := (match p.active with | some g => [g] | none => []) ++ p.old
      waiting := none }

/-- Older generations no patch is bound to are dropped (R120). -/
def Pset.tidy (p : Pset) (bound : List Nat) : Pset := { p with old := p.old.filter fun g => bound.contains g.num }

/-- Every waiting set becomes active at a patch boundary (R119). -/
def commitPsets : Prog :=
  modAux fun a => { a with psets := a.psets.map fun p => if p.waiting.isSome then p.commit else p }

/-- The content of a generation of a set. -/
def Blk.setWords (b : Blk) (s gen : Nat) : List Word :=
  let p := b.pset s
  match (p.active.toList ++ p.old).find? fun g => g.num == gen with
  | some g => g.ws
  | none => List.replicate 16 0

/-! ### Records of an append (R128 to R133) -/

/-- The head of a BUILD ring. -/
abbrev headOfRing (ring : Nat) : Nat := ring - 8

/-- A head belongs to a cluster in the active configuration (R165). -/
def Blk.inCluster (b : Blk) (h k : Nat) : Bool :=
  b.a (Reg.OVL_HEAD h) F.OVL_HEAD_MEMBER == 1 && b.a (Reg.OVL_HEAD h) F.OVL_HEAD_CLUSTER == k

/-- ELIG after the trim of R131. A home head that is itself marked unusable is removed like any other, so ELIG may become
0: DESIGN CHOICE, the rule excepts the home head from the cluster test alone. -/
def Blk.trimElig (b : Blk) (home cluster elig : Nat) : Nat :=
  let keep := fun h => bit elig h && !b.unusable h &&
    (h == home || (b.inCluster h cluster && b.inCluster home cluster))
  ((List.range 32).map fun h => if keep h then 2 ^ h else 0).sum

/-- The ELIG_TRIM event of a run (R131). -/
def eligTrim (home : Nat) (k : Key) (removed : Nat) : Prog :=
  raiseEvent 0x0F0 home dCore removed (k.run + k.part * 65536) k.patch

/-- A record's word as a signed coordinate. -/
def rI (ws : List Word) (i : Nat) : Int := intW (ws.getD i 0)

def keyOfHead (a : List Word) : Key :=
  ⟨bits (dw a 0) 8 24, bits (dw a 1) 0 12, bits (dw a 1) 16 16, bits (dw a 2) 0 16⟩

/-- Check 2 of R133 for RUN_HEAD_A. -/
def headAOk (b : Blk) (cap : Nat) (ws : List Word) : Bool :=
  let k := keyOfHead ws
  bits (dw ws 0) 4 4 == 0 && decide (k.part ≤ 4094) && bits (dw ws 1) 12 4 == 0 && decide (k.patch ≤ 65534) &&
    decide (1 ≤ bits (dw ws 2) 16 13 ∧ bits (dw ws 2) 16 13 ≤ 4096) && bits (dw ws 2) 29 3 == 0 &&
    bits (dw ws 4) 3 5 == 0 && bits (dw ws 4) 10 22 == 0 && dw ws 6 == 0 && dw ws 7 == 0 &&
    decide (bits (dw ws 2) 16 13 + 2 ≤ cap) &&
    (match b.patchOf k with | some p => decide (k.run < p.runs) | none => true)

/-- Check 2 for RUN_HEAD_B. -/
def headBOk (ws : List Word) : Bool :=
  bits (dw ws 0) 4 28 == 0 && decide (rI ws 1 ≤ rI ws 3) && decide (rI ws 2 ≤ rI ws 4)

/-- Check 2 for STROKE: the kind, reserved bits, and the fields R128 marks 0 or bounds. -/
def strokeOk (ws : List Word) : Bool :=
  let kind := bits (dw ws 0) 4 4
  let ccw := bit (dw ws 0) 8
  let gate := bit (dw ws 0) 10
  let pa := dw ws 4
  let pb := dw ws 5
  let pwa := bits (dw ws 6) 0 16
  let pwb := bits (dw ws 6) 16 16
  decide (kind ≤ 5) && bits (dw ws 0) 11 21 == 0 && dw ws 7 == 0 && (!ccw || kind == 2) && (!gate || kind == 3) &&
    (match kind with
    | 0 => pb == 0 && pwa == 0 && pwb == 0
    | 1 => pb == 0 && pwb == 0
    | 2 => pwb == 0
    | 3 => decide (1 ≤ pa ∧ pa ≤ 4000000) && pb == 0 && pwb == 0 && (gate || pwa == 0)
    | 4 => pb == 0
    | _ => decide (1 ≤ pa ∧ pa ≤ 100000) && decide (2 ≤ pb % 65536 ∧ pb % 65536 ≤ 65534) &&
        decide (bits pb 16 2 ≤ 2) && bits pb 18 14 == 0 && pwb == 0)

/-- Squared distance in the bed plane. -/
def dist2 (x0 y0 x1 y1 : Int) : Nat := ((x1 - x0) * (x1 - x0) + (y1 - y0) * (y1 - y0)).toNat

/-- Two radii, given squared, differ by at most 10 LSB. -/
def radiiAgree (p q : Nat) : Bool :=
  let a := max p q
  let c := min p q
  decide (a ≤ c + 100) || decide ((a - c - 100) * (a - c - 100) ≤ 400 * c)

/-- Check 7 of R133: the further conditions of R128. -/
def strokeFurther (pt : Pt) (ws : List Word) : Option Nat :=
  let kind := bits (dw ws 0) 4 4
  let x := rI ws 1
  let y := rI ws 2
  let len0 := decide (x = pt.x ∧ y = pt.y)
  match kind with
  | 1 | 4 | 5 => if len0 then some 0x45 else none
  | 3 => if len0 && decide (rI ws 3 = pt.z) then none else some 0x45
  | 2 =>
    if radiiAgree (dist2 (rI ws 4) (rI ws 5) pt.x pt.y) (dist2 (rI ws 4) (rI ws 5) x y) then none
    else some 0x48
  | _ => none

/-- What the checks of an append carry from record to record: the open run, the last key, the runs
completed in the append, and the records to hold. -/
structure Parse where
  part : Option OpenRun
  lastKey : Option Key
  fresh : List Run
  recs : List Rec

/-- A run's RUN_HEAD_A is accepted in some context and its last stroke is not. -/
def Blk.partlyReceived (b : Blk) (k : Key) : Bool :=
  b.aux.ctxs.any fun c => match c.part with | some o => keyOfHead o.a == k | none => false

/-- Checks 3 to 6 of R133 for a run's header. -/
def headChecks (b : Blk) (home : Nat) (p : Parse) (ws : List Word) (i : Nat) : Option Fail :=
  let k := keyOfHead ws
  firstFail [
    need (b.defined k.coat) 0x40 i,
    need (b.open3 k.coat) 0x4F i,
    need ((b.coat k.coat).bind fun c => c.findPart k.part).isSome 0x41 i,
    need (b.patchOf k).isSome 0x42 i,
    need (!(match b.patchOf k with | some q => q.accepted.contains k.run | none => false) &&
      !(p.fresh.any fun r => r.key == k) && !b.partlyReceived k) 0x44 i,
    need (match p.lastKey with | some l => l.lt k | none => true) 0x43 i,
    need (bit (dw ws 3) home) 0x47 i]

/-- The run an open run becomes when its last stroke is accepted. -/
def mkRun (home ctx : Nat) (o : OpenRun) : Run :=
  let bw := o.b.getD []
  { key := keyOfHead o.a, home := home, ctx := ctx, strokes := bits (dw o.a 2) 16 13, elig := dw o.a 3,
    cluster := bits (dw o.a 4) 0 3, cls := bits (dw o.a 4) 8 2, tag := dw o.a 5,
    xmin := rI bw 1, ymin := rI bw 2, xmax := rI bw 3, ymax := rI bw 4, start := ⟨rI bw 5, rI bw 6, rI bw 7⟩,
    owner := home, place := .queued, suspended := false, stranded := false, startedOnce := false,
    point := none, segs := [], waits := 0, starved := 0, marks := [], chosen := none, limited := false }

/-- One record of an append (R133). A RUN_HEAD_A that no RUN_HEAD_B follows is reported under the index of the record that
stands in its place: DESIGN CHOICE, the rule leaves open which of the two fails. -/
def parseRec (b : Blk) (home ctx cap i : Nat) (ws : List Word) (p : Parse) : Except Fail Parse :=
  let ty := dw ws 0 % 16
  let bad : Except Fail Parse := .error ⟨0x45, i⟩
  match p.part with
  | some ⟨a, none, _, _⟩ =>
    if ty ≠ 2 then bad
    else if !headBOk ws then bad
    else
      .ok { p with
        part := some ⟨a, some ws, 0, ⟨rI ws 5, rI ws 6, rI ws 7⟩⟩
        recs := p.recs ++ [⟨ws, some (keyOfHead a), false, false⟩] }
  | some ⟨a, some bw, got, pt⟩ =>
    if ty = 1 ∨ ty = 0xF then .error ⟨0x46, i⟩
    else if ty ≠ 3 then bad
    else if !strokeOk ws then bad
    else
      match strokeFurther pt ws with
      | some st => .error ⟨st, i⟩
      | none =>
        let o : OpenRun := ⟨a, some bw, got + 1, ⟨rI ws 1, rI ws 2, rI ws 3⟩⟩
        let recs := p.recs ++ [⟨ws, some (keyOfHead a), false, false⟩]
        if got + 1 = bits (dw a 2) 16 13 then
          .ok { part := none, lastKey := p.lastKey, fresh := p.fresh ++ [mkRun home ctx o], recs := recs }
        else .ok { p with part := some o, recs := recs }
  | none =>
    if ty = 3 then .error ⟨0x46, i⟩
    else if ty = 0xF then
      if dw ws 0 / 16 != 0 || ((List.range 7).any fun j => dw ws (j + 1) != 0) then bad
      else .ok { p with recs := p.recs ++ [⟨ws, none, true, false⟩] }
    else if ty ≠ 1 then bad
    else if !headAOk b cap ws then bad
    else
      match headChecks b home p ws i with
      | some f => .error f
      | none =>
        .ok { p with
          part := some ⟨ws, none, 0, ⟨0, 0, 0⟩⟩
          lastKey := some (keyOfHead ws)
          recs := p.recs ++ [⟨ws, some (keyOfHead ws), false, false⟩] }

/-- The records of an append in stream order; the first that fails decides (R133). -/
def parseAll (b : Blk) (home ctx cap : Nat) : Nat → Nat → List Word → Parse → Except Fail Parse
  | 0, _, _, p => .ok p
  | n + 1, i, ws, p =>
    match parseRec b home ctx cap (min i 0xFFFF) (ws.take 8) p with
    | .error f => .error f
    | .ok q => parseAll b home ctx cap n (i + 1) (ws.drop 8) q

/-- A run is submitted (R132): its key is accepted, its ELIG trimmed when its coat's boundary has
fallen (R131), and it is done at once where its coat's phase 3 is being cut or was cut (R114, R115): a phase 3 that ended
without this run was cut. -/
def submitRun (r : Run) : Prog :=
  .get fun b =>
    let fell := match b.coat r.key.coat with | some c => c.stage != 0 | none => true
    let cut := match b.coat r.key.coat with | some c => c.cut && decide (3 ≤ c.stage) | none => true
    let el := if fell then b.trimElig r.home r.cluster r.elig else r.elig
    progAll [
      modPatch r.key fun q => { q with accepted := r.key.run :: q.accepted },
      .op (.run (.submit { r with elig := el })),
      modCtx r.ctx fun c => { c with submitted := c.submitted + 1 },
      progIf (el != r.elig) (eligTrim r.home r.key (r.elig - el)),
      progIf cut (endRun r.key .cut)]

/-! ### Appends (R122 to R127) -/

/-- The context of a STREAM_APPEND. -/
def ctxOf (ring : Nat) (ws : List Word) : Nat := 4 * headOfRing ring + bits (dw ws 1) 0 2

/-- Record bytes of an append. -/
def recordBytes (ws : List Word) : Nat := if bit (dw ws 1) 2 then dw ws 5 else dw ws 4

/-- The checks of R122 in the order of R80. -/
def appendFail (b : Blk) (ring : Nat) (ws : List Word) : Option Fail :=
  let h := headOfRing ring
  let c := ctxOf ring ws
  let comp := bit (dw ws 1) 2
  let rb := recordBytes ws
  let bad := fun (x : Nat) (i : Nat) => x % 32 != 0 && x != 0xFFFFFFFF && (if comp then i == 5 else i == 4)
  firstFail [
    fieldFail ws [
      ⟨1, 7, fun _ => true⟩, anyW 2, anyW 3, ⟨4, 0xFFFFFFFF, fun w => w != 0 && !bad w 4⟩,
      ⟨5, 0xFFFFFFFF, fun w => w == 0xFFFFFFFF || ((comp == (w != 0)) && !bad w 5)⟩],
    lenFail ws 4 0xFFFFFFFF (!comp && decide (2 ^ b.f (Reg.TRW_CTX_CFG c) F.TRW_CTX_CFG_SIZE_LOG2 < rb)),
    lenFail ws 5 0xFFFFFFFF (comp && decide (2 ^ b.f (Reg.TRW_CTX_CFG c) F.TRW_CTX_CFG_SIZE_LOG2 < rb)),
    alignFail ws 2 64,
    need (!b.unusable h) 0x0B h,
    need (!([Mode.off, .reset, .selftest, .service].contains (b.mode h))) 0x52 (modeCode (b.mode h)),
    need (decide (rb / 32 + (match (b.ctx c).part with | some o => 1 + b2n o.b.isSome + o.got | none => 0) ≤
      b.capacity c)) 0x69 0,
    need (!(comp && [Mode.off, .reset, .selftest].contains (b.mode dStore))) 0x60 0]

/-- STREAM_APPEND (R122): checked, then in execution until its credits are there (R124). -/
def streamAppendProg (ring : Nat) : Prog :=
  descr ring 0x40 false fun ws =>
    .get fun b => checked ring (appendFail b ring ws) (.op (.ring ring .start))

/-- The records of a checked append: held and submitted, or none of it (R125). -/
def acceptRecords (ring : Nat) (ws : List Word) (data : List Word) : Prog :=
  .get fun b =>
    let h := headOfRing ring
    let c := ctxOf ring ws
    let n := recordBytes ws / 32
    let x := b.ctx c
    match parseAll b h c (b.capacity c) n 0 data ⟨x.part, x.lastKey, [], []⟩ with
    | .error f => complete ring f.status f.detail
    | .ok p =>
      progAll [
        modCtx c fun y => { y with held := y.held ++ p.recs, lastKey := p.lastKey, part := p.part },
        progEach p.fresh submitRun,
        releaseRecords,
        completeOk ring (min n 0xFFFF)]

/-- APPEND_BUFFER_READ (R124): once CREDITS covers the record count, the records are reserved, the buffer
is read and expanded, and its records are checked. The bytes of the buffer are an operand, none for a
failed read. -/
def appendBufferReadProg (ring : Nat) (data : Option (List Word)) : Prog :=
  descr ring 0x40 true fun ws =>
    .get fun b =>
      let c := ctxOf ring ws
      let n := recordBytes ws / 32
      if b.credits c < n then .skip
      else
        progAll [
          modCtx c fun y => { y with reserved := n },
          modCtx c fun y => { y with reserved := 0 },
          match data with
          | none => complete ring 0x08 0
          | some d =>
            if bit (dw ws 1) 2 then
              match skimExpand (dw ws 5) ((d.flatMap wordBytes).take (dw ws 4)) with
              | .error .corrupt => .seq (setFlag (flSkm 2)) (complete ring 0x4B 0)
              | .error .excess => complete ring 0x06 5
              | .ok out =>
                if out.length < dw ws 5 then complete ring 0x4C 0
                else acceptRecords ring ws (bytesToWords out)
            else acceptRecords ring ws d]

/-- STREAM_RESET (R134). -/
def streamResetProg (ring : Nat) : Prog :=
  descr ring 0x18 false fun ws =>
    .get fun b =>
      let c := dw ws 1
      let h := c / 4
      let mine := b.runs.runs.filter fun r => r.ctx == c
      let waiting := match b.front (8 + h) with
        | some d => d.begun && ctxOf (8 + h) d.ws == c
        | none => false
      checked ring (firstFail [
        fieldFail ws [⟨1, 0x7F, fun _ => true⟩],
        need (([Mode.setup, .armed, .safe, .service].contains (b.mode h)) &&
          !(mine.any fun r => r.place.isExec || r.place.isTransit) && !waiting) 0x4D 0])
        (progAll [
          progEach (mine.filter fun r => r.place.isQueued) fun r => endRun r.key .discarded,
          modCtx c fun y => { y with held := [], lastKey := none, part := none },
          completeOk ring 0])

end Sys2Proof.Machine
end

