-- ==== Sys2Proof/Machine/Path.lean ====
section
/-!
DEFINITION. Path mathematics of the Trowel engines (R136, R139 to R148, R154 to R157), in integers: path
units of 2⁻¹⁶ bed LSB, picoseconds, and angles in 2⁻³² turns. Each result is rounded down where the spec
states no rounding.
-/
namespace Sys2Proof.Machine

/-! ### Angles -/

/-- 2π × 2⁶⁰. -/
def twoPi60 : Int := 7244019458077122843

/-- A product of two numbers of 60 fraction bits. -/
def mul60 (a b : Int) : Int := a * b / 1152921504606846976

/-- sin by its series for |x| ≤ π/4, 60 fraction bits. -/
def sinSeries (x : Int) : Int :=
  let q := mul60 x x
  let t := fun (acc : Int) (n : Int) => 1152921504606846976 - mul60 q acc / n
  mul60 x (t (t (t (t (t (t 1152921504606846976 156) 110) 72) 42) 20) 6)

/-- cos by its series for |x| ≤ π/4, 60 fraction bits. -/
def cosSeries (x : Int) : Int :=
  let q := mul60 x x
  let t := fun (acc : Int) (n : Int) => 1152921504606846976 - mul60 q acc / n
  t (t (t (t (t (t (t 1152921504606846976 182) 132) 90) 56) 30) 12) 2

/-- Rounding of 60 fraction bits to 30, to nearest with ties away from zero. -/
def to30 (x : Int) : Int :=
  if 0 ≤ x then (x + 536870912) / 1073741824 else -((-x + 536870912) / 1073741824)

/-- cos and sin of an angle in 2⁻³² turns, 60 fraction bits. -/
def cosSin60 (th : Int) : Int × Int :=
  let a := th % 4294967296
  let o := (a + 536870912) / 1073741824 % 4
  let r := (a + 536870912) % 1073741824 - 536870912
  let x := r * twoPi60 / 4294967296
  let c := cosSeries x
  let s := sinSeries x
  if o = 0 then (c, s) else if o = 1 then (-s, c) else if o = 2 then (-c, -s) else (s, -c)

/-- cos and sin in 2⁻³⁰ units. -/
def cosSin (th : Int) : Int × Int := let (c, s) := cosSin60 th; (to30 c, to30 s)

/-- The angle in the first quadrant of (x, y), x and y not negative, by bisection. -/
def angleQ (x y : Int) : Nat → Int → Int → Int
  | 0, lo, _ => lo
  | n + 1, lo, hi =>
    let mid := (lo + hi) / 2
    let (c, s) := cosSin60 mid
    if s * x ≤ c * y then angleQ x y n mid hi else angleQ x y n lo mid

/-- The angle of a vector in 2⁻³² turns, 0 to 2³² − 1. -/
def angleOf (x y : Int) : Int :=
  if x = 0 ∧ y = 0 then 0
  else if 0 < x ∧ 0 ≤ y then angleQ x y 31 0 1073741824
  else if x ≤ 0 ∧ 0 < y then 1073741824 + angleQ y (-x) 31 0 1073741824
  else if x < 0 ∧ y ≤ 0 then 2147483648 + angleQ (-x) (-y) 31 0 1073741824
  else (3221225472 + angleQ (-y) x 31 0 1073741824) % 4294967296

/-- Length of a vector. -/
def hyp (x y : Int) : Int := Int.ofNat (isqrt (x * x + y * y).toNat)

/-! ### Speed changes (R140) -/

/-- 10¹². -/
def e12 : Int := 1000000000000

/-- change_time in ps. -/
def changeTime (dv a j : Int) : Int :=
  if a ≤ 0 ∨ j ≤ 0 then 0
  else if a * a ≤ dv * j then dv * e12 / a + a * e12 / j
  else 2 * Int.ofNat (isqrt (dv * e12 * e12 / j).toNat)

/-- change_dist. -/
def changeDist (a j vA vB : Int) : Int :=
  (vA + vB) * changeTime (if vA ≤ vB then vB - vA else vA - vB) a j / (2 * e12)

/-- The largest u of [lo, hi] with a property that holds below and fails above. -/
def bisect (ok : Int → Bool) : Nat → Int → Int → Int
  | 0, lo, _ => lo
  | n + 1, lo, hi => let mid := (lo + hi + 1) / 2; if ok mid then bisect ok n mid hi else bisect ok n lo (mid - 1)

/-- The largest speed at most `cap` from which, or to which, `v` is reachable within a length. -/
def reach (a j cap v len : Int) : Int :=
  if cap ≤ v then v
  else bisect (fun u => decide (changeDist a j v u ≤ len)) 48 v cap

/-- Phases of a speed change. -/
def changePhases (a j vA vB : Int) : List Phase :=
  let up := decide (vA ≤ vB)
  let dv := if up then vB - vA else vA - vB
  let s : Int := if up then 1 else -1
  if dv = 0 ∨ a ≤ 0 ∨ j ≤ 0 then []
  else if a * a ≤ dv * j then
    let t1 := (a * e12 / j).toNat
    let t2 := (dv * e12 / a - a * e12 / j).toNat
    let d1 := a * a / (2 * j)
    [⟨t1, vA, 0, s * j⟩, ⟨t2, vA + s * d1, s * a, 0⟩, ⟨t1, vB - s * d1, s * a, -(s * j)⟩]
  else
    let t := (Int.ofNat (isqrt (dv * e12 * e12 / j).toNat)).toNat
    let ap := Int.ofNat (isqrt (dv * j).toNat)
    [⟨t, vA, 0, s * j⟩, ⟨t, (vA + vB) / 2, s * ap, -(s * j)⟩]

/-- A profile over a length from `v0` to `v1`: the highest cruise speed up to `vmax` that fits, with a
cruise for what is left (R140). -/
def planProfile (a j vmax v0 v1 len : Int) : List Phase :=
  let base := if v0 ≤ v1 then v1 else v0
  let cost := fun u => changeDist a j v0 u + changeDist a j u v1
  let vc := if vmax ≤ base then base else bisect (fun u => decide (cost u ≤ len)) 48 base vmax
  let left := len - cost vc
  changePhases a j v0 vc ++
    (if 0 < left ∧ 0 < vc then [⟨(left * e12 / vc).toNat, vc, 0, 0⟩] else []) ++ changePhases a j vc v1

/-- The stop of R154: from speed `v` and path acceleration `a0`, |a| at most `a`, |jerk| at most `j`. -/
def stopProfile (a j v a0 : Int) : List Phase :=
  if v ≤ 0 ∨ a ≤ 0 ∨ j ≤ 0 then []
  else if a0 < 0 ∧ 2 * j * v < a0 * a0 then
    let root := Int.ofNat (isqrt (a0 * a0 - 2 * j * v).toNat)
    [⟨((-a0 - root) * e12 / j).toNat, v, a0, j⟩]
  else
    let ap0 := Int.ofNat (isqrt (j * v + a0 * a0 / 2).toNat)
    let ap := if a < ap0 then a else ap0
    let t1 := ((a0 + ap) * e12 / j).toNat
    let v1 := v + (a0 * a0 - ap * ap) / (2 * j)
    let vEnd := ap * ap / (2 * j)
    let th := if a < ap0 then ((v1 - vEnd) * e12 / ap).toNat else 0
    [⟨t1, v, a0, -j⟩, ⟨th, v1, -ap, 0⟩, ⟨(ap * e12 / j).toNat, vEnd, -ap, j⟩]

/-- Path length, speed and acceleration at a time into a phase. -/
def Phase.posAt (p : Phase) (t : Int) : Int :=
  (6 * p.v * t * e12 * e12 + 3 * p.a * t * t * e12 + p.j * t * t * t) / (6 * e12 * e12 * e12)
def Phase.velAt (p : Phase) (t : Int) : Int :=
  p.v + p.a * t / e12 + p.j * t * t / (2 * e12 * e12)
def Phase.accAt (p : Phase) (t : Int) : Int := p.a + p.j * t / e12

def profDur (l : List Phase) : Nat := (l.map Phase.dur).sum

/-- Path length, speed and acceleration at a time into a profile; at rest beyond its end. -/
def profAt : List Phase → Nat → Int × Int × Int
  | [], _ => (0, 0, 0)
  | p :: ps, t =>
    if t < p.dur then (p.posAt t, p.velAt t, p.accAt t)
    else
      let (s, v, a) := profAt ps (t - p.dur)
      (p.posAt p.dur + s, (if ps.isEmpty then p.velAt p.dur else v), (if ps.isEmpty then 0 else a))

def profLen (l : List Phase) : Int := (profAt l (profDur l)).1

/-! ### Geometry -/

/-- A vector scaled to a length. -/
def scaleTo (v : P2) (len : Int) : P2 :=
  let h := hyp v.x v.y
  if h = 0 then ⟨0, 0⟩ else ⟨v.x * len / h, v.y * len / h⟩

def rot (u : P2) (th : Int) : P2 :=
  let (c, s) := cosSin60 th
  ⟨(c * u.x - s * u.y) / 1152921504606846976, (s * u.x + c * u.y) / 1152921504606846976⟩

/-- The point of a course at path length `s` of `len`. -/
def Geo.at (g : Geo) (len s : Int) : P2 :=
  match g with
  | .rest p => p
  | .line p q => if len ≤ 0 then q else ⟨p.x + (q.x - p.x) * s / len, p.y + (q.y - p.y) * s / len⟩
  | .arc c u r0 r1 sweep =>
    if len ≤ 0 ∨ r0 ≤ 0 then ⟨c.x + u.x, c.y + u.y⟩
    else
      let w := rot u (sweep * s / len)
      let r := r0 + (r1 - r0) * s / len
      ⟨c.x + w.x * r / r0, c.y + w.y * r / r0⟩

/-- The tangent of a course, of length 2³⁰, at path length `s`. -/
def Geo.tangent (g : Geo) (len s : Int) : P2 :=
  match g with
  | .rest _ => ⟨0, 0⟩
  | .line p q => scaleTo ⟨q.x - p.x, q.y - p.y⟩ 1073741824
  | .arc _ u _ _ sweep =>
    let w := rot u (if len ≤ 0 then 0 else sweep * s / len)
    scaleTo (if 0 ≤ sweep then ⟨-w.y, w.x⟩ else ⟨w.y, -w.x⟩) 1073741824

/-- The sweep of an arc (R128): a full turn when the end lies on the ray through the start. -/
def arcSweep (u w : P2) (ccw : Bool) : Int :=
  let cross := u.x * w.y - u.y * w.x
  let dot := u.x * w.x + u.y * w.y
  if cross = 0 ∧ 0 < dot then (if ccw then 4294967296 else -4294967296)
  else
    let a := angleOf dot cross
    if ccw then a else a - 4294967296

/-- Length of an arc: mean radius times sweep. -/
def arcLen (r0 r1 sweep : Int) : Int :=
  (r0 + r1) * (if 0 ≤ sweep then sweep else -sweep) * twoPi60 / (2 * 4294967296 * 1152921504606846976)

/-- The direction change of two tangents in 2⁻³² turns, 0 to half a turn. -/
def turnOf (a b : P2) : Int :=
  let cross := a.x * b.y - a.y * b.x
  angleOf (a.x * b.x + a.y * b.y) (if 0 ≤ cross then cross else -cross)

/-- A rounded blend (R143): radius and tangent length of the arc for a corner tolerance; none where there is no corner
to round. A turn of 180° leaves radius 0. -/
def blendOf (theta tol l1 l2 : Int) : Option (Int × Int) :=
  let (c, s) := cosSin60 (theta / 2)
  let one := 1152921504606846976
  if one ≤ c ∨ s ≤ 0 then none
  else if c ≤ 0 then some (0, 0)
  else
    let r := tol * c / (one - c)
    let t := r * s / c
    let m := (if l1 ≤ l2 then l1 else l2) / 2
    if m < t then some (m * c / s, m) else some (r, t)

/-! ### Units -/

/-- µm/s as path units per second (1 µm = 100 bed LSB). -/
def speedU (umps : Nat) : Int := Int.ofNat (umps * 6553600)
/-- mm/s² as path units per second². -/
def accU (mm : Nat) : Int := Int.ofNat (mm * 6553600000)
/-- m/s³ as path units per second³. -/
def jerkU (m : Nat) : Int := Int.ofNat (m * 6553600000000)
/-- Micrometres as path units. -/
def umU (um : Nat) : Int := Int.ofNat (um * 6553600)
/-- Bed LSB as path units. -/
def bedU (x : Int) : Int := x * 65536

/-- The greatest stop time from 20 m/s under emergency limits is 3,500 µs (R157). -/
def emergencyOk (acc jerk : Nat) : Bool :=
  decide (changeTime (speedU 20000000) (accU acc) (jerkU jerk) ≤ 3500000000)

/-- Bilinear interpolation in a 65 × 65 grid (R136): fractions of 64 steps of width `w` and height `h`,
the result rounded to nearest with ties upward. -/
def bilinear (g : Nat → Nat → Int) (x y w h : Int) : Int :=
  if w ≤ 0 ∨ h ≤ 0 then 0
  else
    let i := clampI 0 63 (64 * x / w)
    let j := clampI 0 63 (64 * y / h)
    let fx := 64 * x - i * w
    let fy := 64 * y - j * h
    let a := g i.toNat j.toNat
    let b := g (i.toNat + 1) j.toNat
    let c := g i.toNat (j.toNat + 1)
    let d := g (i.toNat + 1) (j.toNat + 1)
    let num := a * (w - fx) * (h - fy) + b * fx * (h - fy) + c * (w - fx) * fy + d * fx * fy
    (2 * num + w * h) / (2 * w * h)

end Sys2Proof.Machine
end

