-- ==== Sys2Proof/Machine/Trowel.lean ====
section
/-!
DEFINITION. The Trowel engine of one head (R136 to R159): strokes resolved to geometry, the plan over a
window, the command path of one tick, gate edges and the frame of the next emission tick.
-/
namespace Sys2Proof.Machine

/-- What a head's engine works with in a tick: the tick period in ps, the limits and fields of the run's
bound set and of the executing head's active registers. -/
structure HCfg where
  tick : Nat
  acc : Int
  jerk : Int
  mark : Nat
  jump : Nat
  skyIn : Int
  skyOut : Int
  corner : Nat
  cmode : Nat
  tol : Int
  lagOn : Int
  lagOff : Int
  merge : Nat
  power : Nat
  arcEn : Bool
  wobEn : Bool
  skyOff : Bool
  focusOff : Bool
  focusOfs : Int
  eacc : Int
  ejerk : Int

/-- The tick period in ps (SYS_TICK_ACT.PERIOD). -/
def Blk.tickPs (b : Blk) : Nat := 2500000 * 2 ^ b.f Reg.SYS_TICK_ACT F.SYS_TICK_ACT_PERIOD

def Blk.trowel (b : Blk) (h : Nat) : Trowel := b.aux.trowels.getD h Trowel.init

def modTrowel (h : Nat) (f : Trowel → Trowel) : Prog :=
  modAux fun a => { a with trowels := a.trowels.modify h f }

/-- The bound set of a run's patch (R120). -/
def Blk.boundSet (b : Blk) (k : Key) : List Word :=
  match b.patchOf k with
  | some p => b.setWords p.pset (p.bound.getD 0)
  | none => List.replicate 16 0

/-- The configuration of a head for a bound set; SKY_EN 0 takes SKY_IN and SKY_OUT as 0 (R159). -/
def Blk.hcfg (b : Blk) (h : Nat) (s : List Word) : HCfg :=
  let sky := b.a (Reg.TRW_HEAD_CFG h) F.TRW_HEAD_CFG_SKY_EN == 1
  { tick := b.tickPs, acc := accU (dw s 3), jerk := jerkU (dw s 4), mark := dw s 1, jump := dw s 2,
    skyIn := if sky then umU (bits (dw s 5) 0 16) else 0,
    skyOut := if sky then umU (bits (dw s 5) 16 16) else 0,
    corner := bits (dw s 6) 0 16, cmode := bits (dw s 6) 16 2,
    tol := bedU (Int.ofNat (b.a (Reg.TRW_HEAD_RUNCFG h) F.TRW_HEAD_RUNCFG_CORNER_TOL)),
    lagOn := Int.ofNat (b.a (Reg.TRW_HEAD_LAG_ON h) F.TRW_HEAD_LAG_ON_LAG) + sgn 16 (dw s 7),
    lagOff := Int.ofNat (b.a (Reg.TRW_HEAD_LAG_OFF h) F.TRW_HEAD_LAG_OFF_LAG) + sgn 16 (dw s 7 / 65536),
    merge := b.a (Reg.TRW_HEAD_RUNCFG h) F.TRW_HEAD_RUNCFG_GATE_MERGE,
    power := bits (dw s 0) 0 16,
    arcEn := b.a (Reg.TRW_HEAD_CFG h) F.TRW_HEAD_CFG_ARC_EN == 1,
    wobEn := b.a (Reg.TRW_HEAD_CFG h) F.TRW_HEAD_CFG_WOBBLE_EN == 1,
    skyOff := !sky && dw s 5 != 0,
    focusOff := b.a (Reg.TRW_HEAD_CFG h) F.TRW_HEAD_CFG_FOCUS_EN == 0,
    focusOfs := sgn 32 (dw s 8),
    eacc := accU (b.aw (Reg.TRW_HEAD_EMACC h)).toNat, ejerk := jerkU (b.aw (Reg.TRW_HEAD_EMJERK h)).toNat }

/-! ### Strokes -/

/-- A stroke resolved: its course and length, speed limit, kind after R159, light and power, focus heights,
wobble, dwell ticks, and the flags it sets (bits of TRW_HEAD_STAT). -/
structure Res where
  kind : Nat
  geo : Geo
  len : Int
  vmax : Int
  lit : Bool
  pa : Nat
  pb : Nat
  z0 : Int
  z1 : Int
  amp : Int
  per : Nat
  shape : Nat
  noSky : Bool
  last : Bool
  ticks : Nat
  flags : List Nat
  stop : Pt

/-- The speed limit of R140 in path units per second, and whether it was clamped. -/
def limitOf (umps : Nat) : Int × Bool :=
  if 20000000 < umps then (speedU 20000000, true) else (speedU umps, false)

/-- A wobble's amplitude after R147, and whether it was clipped. -/
def wobbleAmp (c : HCfg) (amp : Int) (per shape : Nat) : Int × Bool :=
  let k : Int := if shape = 1 then 2 else 1
  let t := Int.ofNat (per * c.tick)
  let lim := c.acc * t * t * 1000000 / (k * 39478418 * e12 * e12)
  if lim < amp then (lim, true) else (amp, false)

def p2 (p : Pt) : P2 := ⟨bedU p.x, bedU p.y⟩

/-- A stroke from a start point (R128, R140, R145 to R147, R159). -/
def resolve (c : HCfg) (src : Pt) (last : Bool) (ws : List Word) : Res :=
  let k0 := bits (dw ws 0) 4 4
  let arcOff := k0 == 2 && !c.arcEn
  let focOff := c.focusOff && (src.z != 0 || rI ws 3 != 0 || c.focusOfs != 0)
  let wobOff := k0 == 5 && !c.wobEn
  let kind := if arcOff then 0 else if wobOff then 1 else k0
  let dst : Pt := ⟨rI ws 1, rI ws 2, rI ws 3⟩
  let a := p2 src
  let z := p2 dst
  let spd := if arcOff then c.jump else if k0 = 2 then c.mark
    else if k0 = 0 then (if dw ws 4 = 0 then c.jump else dw ws 4)
    else if k0 = 5 then c.mark else if k0 = 3 then c.mark
    else if dw ws 4 = 0 then c.mark else dw ws 4
  let (v0, clamp) := limitOf spd
  let pw := fun (x : Nat) => if x = 0 then c.power else x
  let pA := bits (dw ws 6) 0 16
  let pB := bits (dw ws 6) 16 16
  let cen : P2 := ⟨bedU (rI ws 4), bedU (rI ws 5)⟩
  let u : P2 := ⟨a.x - cen.x, a.y - cen.y⟩
  let w : P2 := ⟨z.x - cen.x, z.y - cen.y⟩
  let r0 := hyp u.x u.y
  let r1 := hyp w.x w.y
  let sweep := arcSweep u w (bit (dw ws 0) 8)
  let isArc := kind == 2
  let geo := if isArc then Geo.arc cen u r0 r1 sweep else if kind = 3 then .rest a else .line a z
  let len := if isArc then arcLen r0 r1 sweep else if kind = 3 then 0 else hyp (z.x - a.x) (z.y - a.y)
  let vArc := Int.ofNat (isqrt (c.acc * (if r0 ≤ r1 then r0 else r1)).toNat)
  let vmax := if isArc && decide (vArc < v0) then vArc else v0
  let per := if kind = 5 then dw ws 5 % 65536 else 0
  let shape := bits (dw ws 5) 16 2
  let (amp, clip) := if kind = 5 then wobbleAmp c (bedU (Int.ofNat (dw ws 4))) per shape else (0, false)
  { kind := kind, geo := geo, len := len, vmax := vmax,
    lit := kind == 1 || kind == 2 || kind == 4 || kind == 5 || (kind == 3 && bit (dw ws 0) 10),
    pa := if k0 = 4 then pA else pw pA, pb := if k0 = 4 then pB else pw pA,
    z0 := src.z, z1 := dst.z, amp := amp, per := per, shape := shape, noSky := bit (dw ws 0) 9, last := last,
    ticks := dw ws 4,
    flags := (if arcOff || wobOff || focOff then [4] else []) ++ (if clamp && kind != 3 then [7] else []) ++
      (if clip then [2] else []),
    stop := dst }

/-- Strokes resolved one after the other. -/
def resolveAll (c : HCfg) : Pt → List (List Word) → Bool → List Res
  | _, [], _ => []
  | src, ws :: r, lastIn =>
    let x := resolve c src (lastIn && r.isEmpty) ws
    x :: resolveAll c x.stop r lastIn

/-- A lit stroke moves with the laser on. -/
def Res.litMove (r : Res) : Bool := r.lit && r.kind != 3

/-- The treatment of a junction (R143): a rounded blend with its speed limit, arc radius, tangent length and turn, or a
rest at the junction, after a run-out and before a run-in where these follow. -/
inductive Junc
  | blend (v r t theta : Int)
  | rest (runOut runIn : Bool)

def absI (x : Int) : Int := if x < 0 then -x else x
def minI (x y : Int) : Int := if x ≤ y then x else y

/-- Both courses are lines. -/
def bothLines (a b : Res) : Bool :=
  match a.geo, b.geo with
  | .line _ _, .line _ _ => true
  | _, _ => false

def junction (c : HCfg) (a b : Res) : Junc :=
  let th := turnOf (a.geo.tangent a.len a.len) (b.geo.tangent b.len 0)
  let m := minI a.vmax b.vmax
  let blend : Junc :=
    if th = 0 then .blend m 0 0 0
    else
      match blendOf th c.tol a.len b.len with
      | none => .blend m 0 0 0
      | some (r, t) => .blend (minI m (Int.ofNat (isqrt (c.acc * r).toNat))) r t th
  let sky := decide (0 < c.skyIn ∧ 0 < c.skyOut)
  if a.kind = 3 ∨ b.kind = 3 then .rest false false
  else if a.litMove && b.litMove then
    if th * 65536 ≤ Int.ofNat c.corner * 4294967296 ∨ c.cmode = 0 then blend
    else if c.cmode = 2 && !a.noSky && sky then .rest true true
    else .rest false false
  else if a.litMove then .rest (!a.noSky && decide (0 < c.skyOut)) false
  else if b.litMove then .rest false (decide (0 < c.skyIn))
  else blend

/-- The greatest speed from which, or to which, rest is reached within a length. -/
def restSpeed (c : HCfg) (vmax len : Int) : Int := if len ≤ 0 then 0 else reach c.acc c.jerk vmax 0 len

/-- The exit speed of the first stroke of a window (R140, R143): the backward pass of the plan. -/
def exitSpeed (c : HCfg) : List Res → Int
  | [] => 0
  | [a] => if a.last && a.litMove && !a.noSky then restSpeed c a.vmax c.skyOut else 0
  | a :: b :: r =>
    match junction c a b with
    | .rest true _ => restSpeed c a.vmax c.skyOut
    | .rest false _ => 0
    | .blend v _ _ _ =>
      minI (minI v (reach c.acc c.jerk b.vmax (exitSpeed c (b :: r)) b.len)) a.vmax

/-- The speed at the start of a window's first stroke that a run-in gives it (R143). -/
def entrySpeed (c : HCfg) (win : List Res) : Int :=
  match win with
  | [] => 0
  | a :: _ => minI (restSpeed c a.vmax c.skyIn) (reach c.acc c.jerk a.vmax (exitSpeed c win) a.len)

/-- The point `len` before a point on a tangent. -/
def backOff (p tan : P2) (len : Int) : P2 :=
  let d := scaleTo tan len
  ⟨p.x - d.x, p.y - d.y⟩

/-- A stroke along a line from its start to another end. -/
def Res.toPoint (a : Res) (q : P2) : Res :=
  let p := a.geo.at a.len 0
  { a with geo := .line p q, len := hyp (q.x - p.x) (q.y - p.y) }

/-- A JUMP ahead of a lit stroke ends at the start of that stroke's run-in (R143). -/
def aimJumps (c : HCfg) : List Res → List Res
  | a :: b :: r =>
    let l := aimJumps c (b :: r)
    if a.kind = 0 && b.litMove && decide (0 < c.skyIn) then
      a.toPoint (backOff (b.geo.at b.len 0) (b.geo.tangent b.len 0) (changeDist c.acc c.jerk 0 (entrySpeed c l))) :: l
    else a :: l
  | l => l

/-- The course of the blend of two strokes and its length (R143): the arc tangent to both lines; where one of them is an
arc, the circle tangent to the exit stroke through the point of the entry stroke at the tangent length (DESIGN CHOICE: the
spec gives the radius for straight strokes only). -/
def blendCourse (a b : Res) (r t th : Int) : Geo × Int :=
  let p := a.geo.at a.len (a.len - t)
  let ta := a.geo.tangent a.len (a.len - t)
  let side := fun (left : Bool) (len : Int) => scaleTo (if left then ⟨-ta.y, ta.x⟩ else ⟨ta.y, -ta.x⟩) len
  let arcOf := fun (left : Bool) (r th : Int) =>
    let n := side left r
    let sw := if left then th else -th
    (Geo.arc ⟨p.x + n.x, p.y + n.y⟩ ⟨-n.x, -n.y⟩ r r sw, arcLen r r sw)
  if bothLines a b then
    let tb := b.geo.tangent b.len 0
    arcOf (decide (0 ≤ ta.x * tb.y - ta.y * tb.x)) r th
  else
    let q := b.geo.at b.len t
    let d : P2 := ⟨q.x - p.x, q.y - p.y⟩
    let cross := ta.x * d.y - ta.y * d.x
    if cross = 0 then (.line p q, hyp d.x d.y)
    else arcOf (decide (0 < cross)) ((d.x * d.x + d.y * d.y) * 1073741824 / (2 * absI cross)) (2 * turnOf ta d)

/-- How a stroke that starts from rest is approached: at once, by a run-in ahead of it, or by the run-in at whose start
the JUMP before it has ended (R143). -/
inductive Entry
  | rest | runIn | jumped
  deriving DecidableEq, Repr

/-- What ends the first stroke of a window: the treatment of its junction, its exit speed, and the radius, tangent length
and turn of the blend that follows it from path length `ofs` on. -/
structure Leaving where
  jn : Junc
  out : Int
  r : Int
  t : Int
  th : Int

def leaving (c : HCfg) (ofs : Int) (win : List Res) : Leaving :=
  let out := exitSpeed c win
  match win with
  | a :: b :: _ =>
    match junction c a b with
    | .blend v r t th =>
      if 0 < out ∧ 0 < t ∧ ofs ≤ a.len - t then ⟨.blend v r t th, out, r, t, th⟩ else ⟨.blend v r t th, out, 0, 0, 0⟩
    | j => ⟨j, out, 0, 0, 0⟩
  | _ => ⟨.rest (decide (0 < out)) false, out, 0, 0, 0⟩

/-- Where a point of the path lies and the path's tangent there, on the first stroke of a window or the blend after it. -/
def spotAt (c : HCfg) (p : Point) (win : List Res) : P2 × P2 :=
  match win with
  | [] => (⟨0, 0⟩, ⟨0, 0⟩)
  | a :: rest =>
    match rest, decide (0 < p.blend) with
    | b :: _, true =>
      let x := leaving c 0 win
      let (g, l) := blendCourse a b x.r x.t x.th
      (g.at l p.blend, g.tangent l p.blend)
    | _, _ => (a.geo.at a.len p.ofs, a.geo.tangent a.len p.ofs)

/-- A dark piece at rest at both ends, at the focus height of the stroke it leads to. -/
def connector (c : HCfg) (p : Point) (z : Int) (src dst : P2) : List Piece :=
  let len := hyp (dst.x - src.x) (dst.y - src.y)
  if len = 0 then []
  else
    let v := (limitOf c.jump).1
    [{ kind := .connector, geo := .line src dst, len := len, prof := planProfile c.acc c.jerk v 0 0 len,
       stroke := p.stroke, ofs := 0, fin := len, lit := false, pa := 0, pb := 0, vs := v, slen := len, z0 := z, z1 := z,
       amp := 0, per := 0, shape := 0, sofs := p.ofs, bl := p.blend, vout := 0 }]

/-- A JUMP leaves from where the spot is: a run-out, or the blend before it, has taken it there. One that resumes inside
keeps its course. -/
def Res.fromSpot (a : Res) (pos : P2) (vin : Int) (p : Point) : Res × Point :=
  if a.kind = 0 ∧ p.stroke ≠ 0 ∧ (0 < vin ∨ p.ofs = 0) then
    let q := a.geo.at a.len a.len
    ({ a with geo := .line pos q, len := hyp (q.x - pos.x) (q.y - pos.y) }, { p with ofs := 0 })
  else (a, p)

/-- The pieces of the first stroke of a window from point `p` of it, entered at speed `vin`, with what precedes it
where it starts from rest (connector and run-in) and what follows it up to the next stroke's start. Answers the pieces
and the trim of the next stroke's start. -/
def strokePieces (c : HCfg) (pos : P2) (vin : Int) (p0 : Point) (entry : Entry) (win0 : List Res) : List Piece × Int :=
  match win0 with
  | [] => ([], 0)
  | a0 :: rest =>
    let (a, p) := a0.fromSpot pos vin p0
    let win := a :: rest
    let base : Piece :=
      { kind := .main, geo := a.geo, len := a.len, prof := [], stroke := p.stroke, ofs := p.ofs, fin := a.len,
        lit := a.lit, pa := a.pa, pb := a.pb, vs := a.vmax, slen := a.len, z0 := a.z0, z1 := a.z1, amp := a.amp,
        per := a.per, shape := a.shape, sofs := 0, bl := 0, vout := 0 }
    let (startP, tin) := spotAt c p win
    if a.kind = 3 then
      (connector c p a.z0 pos startP ++
        [{ base with kind := .dwell, prof := [⟨(a.ticks - p.dwell) * c.tick, 0, 0, 0⟩] }], 0)
    else
      let inBlend := decide (0 < p.blend)
      let x := leaving c (if inBlend then 0 else p.ofs) win
      let (course, cl) : Geo × Int := match rest with
        | b :: _ => if 0 < x.t then blendCourse a b x.r x.t x.th else (.rest startP, 0)
        | [] => (.rest startP, 0)
      let left := if inBlend then cl - p.blend else a.len - p.ofs - x.t
      let cap := if inBlend then minI a.vmax x.out else a.vmax
      let veMax := reach c.acc c.jerk cap (minI cap x.out) left
      let jumpL := hyp (startP.x - pos.x) (startP.y - pos.y)
      let room := match entry with
        | .rest => 0
        | .runIn => c.skyIn
        | .jumped => jumpL
      let ve := if 0 < vin then vin else if a.litMove then minI (restSpeed c cap room) veMax else 0
      let skyL := if entry = .jumped then jumpL else changeDist c.acc c.jerk 0 ve
      let runStart := if entry = .jumped then pos else backOff startP tin skyL
      let pre : List Piece :=
        if 0 < vin then []
        else if 0 < ve then
          connector c p a.z0 pos runStart ++
            [{ base with kind := .runIn, geo := .line runStart startP, len := skyL, ofs := 0, fin := skyL, lit := false,
                         amp := 0, per := 0, prof := planProfile c.acc c.jerk ve 0 ve skyL, sofs := p.ofs,
                         bl := p.blend }]
        else connector c p a.z0 pos startP
      let vo := minI x.out (reach c.acc c.jerk cap ve left)
      let main : List Piece :=
        if inBlend then []
        else [{ base with fin := a.len - x.t, prof := planProfile c.acc c.jerk a.vmax ve vo left, vout := vo }]
      let endP := a.geo.at a.len a.len
      let runOut : List Piece :=
        let l := changeDist c.acc c.jerk vo 0
        let d := scaleTo (a.geo.tangent a.len a.len) l
        [{ base with kind := .runOut, geo := .line endP ⟨endP.x + d.x, endP.y + d.y⟩, len := l, fin := l, lit := false,
                     amp := 0, per := 0, ofs := 0, prof := changePhases c.acc c.jerk vo 0 }]
      let wob := match rest with | b :: _ => b.per != 0 | [] => false
      let arcPiece : List Piece :=
        [{ base with kind := .blend, geo := course, len := cl, ofs := p.blend, fin := cl,
                     amp := if wob then a.amp else 0, per := if wob then a.per else 0, sofs := a.len - x.t, vout := vo,
                     prof := if inBlend then planProfile c.acc c.jerk cap ve vo left
                       else [⟨(cl * e12 / vo).toNat, vo, 0, 0⟩] }]
      match x.jn with
      | .rest true _ => (pre ++ main ++ (if 0 < vo then runOut else []), 0)
      | .rest false _ => (pre ++ main, 0)
      | .blend _ _ _ _ => if 0 < x.t ∧ 0 < vo then (pre ++ main ++ arcPiece, x.t) else (pre ++ main, 0)

/-- Place and speed at the end of pieces that begin at a place. -/
def piecesEnd (pos : P2) (ps : List Piece) : P2 × Int :=
  match ps.getLast? with
  | some p => (p.geo.at p.len p.fin, p.vout)
  | none => (pos, 0)

/-- The time in ps of the WOBBLE strokes a window begins with (R146), entered at a place, speed and trim. -/
def seqTime (c : HCfg) : Nat → P2 → Int → Int → List Res → Nat
  | _, _, _, _, [] => 0
  | i, pos, v, trim, a :: w =>
    if a.per = 0 then 0
    else
      let (ps, t) := strokePieces c pos v ⟨i, trim, 0, 0⟩ .rest (a :: w)
      let (q, u) := piecesEnd pos ps
      (ps.map fun p => profDur p.prof).sum + seqTime c (i + 1) q u t w

/-! ### The command path of one tick -/

/-- A quotient to the nearest integer, ties upward; the spec leaves the rounding of R144 open. -/
def divNear (x y : Int) : Int := (2 * x + y) / (2 * y)

/-- Power of a lit piece at length `s` of its course and speed `v` (R144): interpolated along the stroke, and on along
the blend after it, scaled by v / vs while below the stroke's speed; a dwell's power is unscaled. -/
def Piece.powerAt (p : Piece) (s v : Int) : Nat :=
  let at' := if p.slen ≤ 0 then Int.ofNat p.pa * p.vs
    else Int.ofNat p.pa * p.vs +
      divNear ((Int.ofNat p.pb - Int.ofNat p.pa) * clampI 0 p.slen (p.sofs + s) * p.vs) p.slen
  if !p.lit then 0
  else if p.vs ≤ 0 then p.pa
  else if p.kind = .dwell ∨ p.vs ≤ v then (divNear at' p.vs).toNat
  else (divNear (at' * (if v ≤ 0 then 0 else v)) (p.vs * p.vs)).toNat

/-- The wobble offset of R146 at `n` ticks into the sequence with `left` ps of it left. -/
def Piece.wobbleAt (p : Piece) (c : HCfg) (tan : P2) (n : Nat) (left : Nat) : P2 :=
  if p.per = 0 then ⟨0, 0⟩
  else
    let one : Int := 1073741824
    let up := one * Int.ofNat n / Int.ofNat p.per
    let dn := one * Int.ofNat left / Int.ofNat (p.per * c.tick)
    let e := clampI 0 one (if up ≤ dn then up else dn)
    let th := Int.ofNat (n % p.per) * 4294967296 / Int.ofNat p.per
    let (cs, sn) := cosSin th
    let (_, s2) := cosSin (2 * th)
    let ta := if p.shape = 0 then cs else if p.shape = 1 then s2 / 2 else 0
    let am := p.amp * e / one
    ⟨am * (ta * tan.x - sn * tan.y) / (one * one), am * (ta * tan.y + sn * tan.x) / (one * one)⟩

/-- The focus height of a piece at length `s` of its course (R148): interpolated along the stroke, and on along the blend
after it, that of the stroke's start ahead of it and that of its end after it. -/
def Piece.heightAt (p : Piece) (s : Int) : Int :=
  match p.kind with
  | .connector | .runIn => p.z0
  | .main | .blend =>
    if p.slen ≤ 0 then p.z1 else p.z0 + (p.z1 - p.z0) * clampI 0 p.slen (p.sofs + s) / p.slen
  | .dwell | .runOut | .stop => p.z1

/-- The path point that length `s` of a piece's course counts as, for a resumption (R155): ahead of a stroke the point at
which it is taken up, after a run-out's start the stroke's end. -/
def Piece.pointAt (p : Piece) (s : Int) (dwell : Nat) : Point :=
  match p.kind with
  | .main => ⟨p.stroke, s, dwell, 0⟩
  | .runOut => ⟨p.stroke, p.slen, dwell, 0⟩
  | .blend => ⟨p.stroke, p.sofs, dwell, s⟩
  | .connector | .runIn | .stop => ⟨p.stroke, p.sofs, dwell, p.bl⟩
  | .dwell => ⟨p.stroke, 0, dwell, 0⟩

/-- What the engine needs of the run beside the configuration: its key, its strokes present in the prefetch, the
number of strokes, the start of the stroke that comes next, and the window depth. -/
structure RunCtx where
  key : Key
  c : HCfg
  strokes : List Rec
  total : Nat
  start : Pt
  depth : Nat

/-- The end point of stroke `i - 1`, or the run's start point. -/
def RunCtx.from' (r : RunCtx) (i : Nat) : Pt :=
  if i = 0 then r.start
  else match r.strokes[i - 1]? with
    | some x => ⟨rI x.ws 1, rI x.ws 2, rI x.ws 3⟩
    | none => r.start

/-- The window from stroke `i`: at most `depth` strokes, only those present in the prefetch (R140). A stroke that has
left it is there again for a resumption (R155; DEDUCED). -/
def RunCtx.window (r : RunCtx) (i : Nat) : List Res :=
  let l := ((r.strokes.drop i).takeWhile fun x => x.here).take r.depth
  aimJumps r.c (resolveAll r.c (r.from' i) (l.map Rec.ws) (decide (i + l.length = r.total)))

/-- How stroke `i` is approached where it starts from rest (R139, R143): a run's first stroke by a run-in, a later one as
its junction says. -/
def RunCtx.entry (r : RunCtx) (i : Nat) (a : Res) : Entry :=
  if i = 0 then .runIn
  else
    match r.strokes[i - 1]? with
    | none => .rest
    | some x =>
      let q := resolve r.c (r.from' (i - 1)) false x.ws
      match junction r.c q a with
      | .rest _ true => if q.kind = 0 then .jumped else .runIn
      | _ => .rest

/-- The flags a stroke sets as it begins (R140, R147, R159), with that of a connector to it (R140). -/
def RunCtx.strokeFlags (r : RunCtx) (a : Res) (ps : List Piece) : List Nat :=
  let fl := if r.c.skyOff && a.litMove && !a.flags.contains 4 then 4 :: a.flags else a.flags
  if (ps.any fun p => p.kind == .connector) && (limitOf r.c.jump).2 && !fl.contains 7 then 7 :: fl else fl

/-- A stroke is begun, or taken up again at a point: its pieces and what goes with them. -/
def Trowel.takeUp (t : Trowel) (r : RunCtx) (v : Int) (p : Point) (entry : Entry) (win : List Res) : Trowel :=
  let (ps, trim) := strokePieces r.c t.pos v p entry win
  let (q, u) := piecesEnd t.pos ps
  let wob := match win with | a :: _ => a.per != 0 | [] => false
  { t with
    stroke := p.stroke, pieces := ps, el := 0, trimIn := trim, dwellDone := p.dwell, unbegun := false
    wobble := if wob then t.wobble else 0
    seqLeft := if wob then seqTime r.c (p.stroke + 1) q u trim (win.drop 1) else 0 }

/-- An edge in order of emission time; equal ones stay in order. -/
def insEdge (e : Edge) : List Edge → List Edge
  | [] => [e]
  | x :: xs => if e.t < x.t then e :: x :: xs else x :: insEdge e xs

/-- What a tick of the engine gives beside its state: flags of TRW_HEAD_STAT, the strokes to be marked in their records
(R152, R159), stroke boundaries, whether the run ended, whether it starved, and the pieces followed, the latest first. -/
structure TickOut where
  t : Trowel
  flags : List Nat
  marks : List (Key × Nat)
  boundary : Bool
  ended : Bool
  starved : Bool
  segs : List Follow

/-- The gate event of a change of light at `tau` ps into the tick (R150, R151). -/
def gateEvent (c : HCfg) (on : Bool) (tau : Nat) (o : TickOut) : TickOut :=
  if o.t.cmdLit = on then o
  else
    let lag := if on then c.lagOn else c.lagOff
    let lc := clampI 0 200000 lag
    let e := (Int.ofNat tau - Int.ofNat c.tick + lc * 10000 + 5000) / 10000
    let ec := if e < 0 then 0 else e
    { o with
      t := { o.t with cmdLit := on, edges := insEdge ⟨ec, on, o.t.stroke, o.t.run, c.merge⟩ o.t.edges }
      flags := if lc ≠ lag ∨ ec ≠ e then 1 :: o.flags else o.flags }

/-- The next stroke of the run begins (R141), or the run ends, or the spot starves (R142). A stroke that was starved for
starts from rest. -/
def nextStroke (r : RunCtx) (tau : Nat) (v : Int) (o : TickOut) : TickOut :=
  let i := if o.t.unbegun then 0 else o.t.stroke + 1
  if r.total ≤ i then { gateEvent r.c false tau o with ended := true }
  else
    match r.window i with
    | [] =>
      let o := gateEvent r.c false tau o
      { o with starved := true, flags := 5 :: o.flags, t := { o.t with st := .starved } }
    | a :: w =>
      let entry := if o.t.st = .starved ∧ i ≠ 0 then .rest else r.entry i a
      let t := o.t.takeUp r v ⟨i, o.t.trimIn, 0, 0⟩ entry (a :: w)
      let fl := r.strokeFlags a t.pieces
      { o with
        t := { t with st := .run }
        flags := fl ++ o.flags
        marks := if fl.contains 4 then (r.key, i) :: o.marks else o.marks
        boundary := true }

/-- The command path advanced to the end of the tick, piece by piece; `tau` is the time already used. A
dwell begins at a tick edge. -/
def advance (r : Option RunCtx) (c : HCfg) : Nat → Nat → TickOut → TickOut
  | 0, _, o => o
  | n + 1, tau, o =>
    match o.t.pieces with
    | [] =>
      match r with
      | none => o
      | some rc =>
        if o.ended || o.starved then o
        else
          let o' := nextStroke rc tau 0 o
          if o'.ended || o'.starved then o' else advance r c n tau o'
    | p :: ps =>
      if p.kind = .dwell ∧ o.t.el = 0 ∧ tau ≠ 0 then gateEvent c false tau o
      else
        let o := if o.t.el = 0 then gateEvent c p.lit tau o else o
        let o := { o with segs := ⟨tau, p, o.t.el⟩ :: o.segs }
        let d := profDur p.prof
        let room := c.tick - tau
        if o.t.el + room < d then
          let s := (profAt p.prof (o.t.el + room)).1
          { o with t := { o.t with
              el := o.t.el + room
              pos := p.geo.at p.len (p.ofs + s)
              dwellDone := if p.kind = .dwell then o.t.dwellDone + 1 else o.t.dwellDone } }
        else
          let used := d - o.t.el
          let t := { o.t with
            pieces := ps
            el := 0
            zh := p.heightAt p.fin
            pos := p.geo.at p.len p.fin }
          let o := { o with t := t }
          match ps, r with
          | [], some rc =>
            if p.kind = .stop then gateEvent c false (tau + used) o
            else
              let o' := nextStroke rc (tau + used) p.vout o
              if o'.ended || o'.starved then o' else advance r c n (tau + used) o'
          | [], none => gateEvent c false (tau + used) o
          | _ :: _, _ => advance r c n (tau + used) o

/-! ### Gate edges of a frame (R151, R152) -/

/-- Consecutive edges at one time leave in pairs. -/
def dropPairs : List Edge → List Edge
  | [] => []
  | e :: r =>
    match dropPairs r with
    | [] => [e]
    | x :: xs => if x.t = e.t then xs else e :: x :: xs

/-- A gate-off edge and a gate-on edge less than the GATE_MERGE of the gate-off edge's run after it leave together. -/
def mergeEdges : List Edge → List Edge
  | [] => []
  | e :: r =>
    match mergeEdges r with
    | [] => [e]
    | x :: xs => if !e.on && x.on && decide (x.t - e.t < Int.ofNat e.merge) then xs else e :: x :: xs

/-- At most four edges are kept, with the parity of their number, and the others removed (R152). -/
def crowd (l : List Edge) : List Edge × List Edge :=
  if l.length ≤ 4 then (l, [])
  else
    let keep := if l.length % 2 = 0 then 3 else 2
    (l.take keep ++ l.drop (l.length - 1), (l.drop keep).take (l.length - 1 - keep))

/-- The command point of one tick `rem` ps before its end: the piece followed at that instant gives place, power and
path point (R153); the wobble's offset is that of the tick's end. -/
def Hist.before (a : Hist) (tick rem : Nat) : Hist :=
  if rem = 0 then a
  else
    match a.segs.find? fun g => decide (g.tau ≤ tick - rem) with
    | none => a
    | some g =>
      let p := g.piece
      let el := g.el + (tick - rem - g.tau)
      if profDur p.prof ≤ el then
        { a with p := p.geo.at p.len p.fin, power := 0, point := p.pointAt p.fin a.point.dwell }
      else
        let (s, v, _) := profAt p.prof el
        let q := p.geo.at p.len (p.ofs + s)
        { a with
          p := ⟨q.x + a.w.x, q.y + a.w.y⟩, power := p.powerAt (p.ofs + s) v
          point := p.pointAt (p.ofs + s) a.point.dwell }

/-- The command point at an emission instant: `n` whole ticks and `rem` ps before the newest end of tick. -/
def histAt (hist : List Hist) (tick n rem : Nat) : Option Hist :=
  match hist[n]? with
  | none => hist.getLast?
  | some a => some (a.before tick rem)

/-- The strokes of edges, to be marked in their runs' records. -/
def marksOf (l : List Edge) : List (Key × Nat) := l.filterMap fun e => e.run.map fun k => (k, e.stroke)

/-- The frame of the next emission tick (R151 to R153); answers the state after it and the edges R152 removed. -/
def nextFrame (c : HCfg) (t : Trowel) : Trowel × List Edge :=
  let t10 := Int.ofNat (c.tick / 10000)
  let mine := t.edges.filter fun e => decide (e.t < t10)
  let later := (t.edges.filter fun e => decide (t10 ≤ e.t)).map fun e => { e with t := e.t - t10 }
  let (kept, gone) := crowd (mergeEdges (dropPairs mine))
  let lit := t.gate || !kept.isEmpty
  let lag := (clampI 0 200000 c.lagOn).toNat * 10000
  let at' := histAt t.hist c.tick (lag / c.tick) (lag % c.tick)
  let em : Emit :=
    { level := t.gate, edges := kept.map fun e => e.t.toNat,
      power := match at' with | some x => x.power | none => 0,
      spot := if lit then at'.map Hist.p else none,
      run := at'.bind Hist.run, point := at'.map Hist.point }
  ({ t with edges := later, emit := em, gate := if kept.length % 2 = 1 then !t.gate else t.gate }, gone)

/-- Where the first piece stands: length of its course, speed, acceleration and tangent. -/
def Trowel.motion (t : Trowel) : Int × Int × Int × P2 :=
  match t.pieces with
  | [] => (0, 0, 0, ⟨0, 0⟩)
  | p :: _ =>
    let (s, v, a) := profAt p.prof t.el
    (p.ofs + s, v, a, p.geo.tangent p.len (p.ofs + s))

/-- The history entry of a tick: the present command point, with the wobble's offset in it and the pieces followed. -/
def Trowel.now (t : Trowel) (w : P2) (segs : List Follow) : Hist :=
  match t.pieces with
  | [] => ⟨t.pos, w, 0, t.run, ⟨t.stroke, 0, t.dwellDone, 0⟩, segs⟩
  | p :: _ =>
    let (s, v, _, _) := t.motion
    ⟨t.pos, w, p.powerAt s v, t.run, p.pointAt s t.dwellDone, segs⟩

/-- The time left of a wobble sequence in ps (R146): that of the present piece, and of what follows in the sequence. -/
def Trowel.wobbleLeft (t : Trowel) : Nat :=
  match t.pieces with
  | [] => 0
  | p :: ps =>
    profDur p.prof - t.el + (if t.seqLeft = 0 then 0 else (ps.map fun q => profDur q.prof).sum + t.seqLeft)

/-- One tick of a head's engine: the path, its history, the frame of the next emission tick. -/
def engineTick (r : Option RunCtx) (c : HCfg) (t : Trowel) : TickOut :=
  let o := advance r c 64 0 ⟨t, [], [], false, false, false, []⟩
  let t1 := o.t
  let (t2, w) : Trowel × P2 := match t1.pieces with
    | p :: _ =>
      let (_, _, _, tan) := t1.motion
      let w := p.wobbleAt c tan t1.wobble t1.wobbleLeft
      ({ t1 with
          pos := ⟨t1.pos.x + w.x, t1.pos.y + w.y⟩
          wobble := if p.per = 0 ∧ t1.wobble = 0 then 0 else t1.wobble + 1 }, w)
    | [] => (t1, ⟨0, 0⟩)
  let depth := 2000000000 / c.tick + 3
  let live := t2.run.isSome || !t2.edges.isEmpty || t2.gate
  let t3 := { t2 with hist := if live then (t2.now w o.segs :: t2.hist).take depth else [] }
  let (t4, gone) := nextFrame c t3
  { o with t := t4, flags := (if gone.isEmpty then [] else [0]) ++ o.flags, marks := marksOf gone ++ o.marks }

/-- The spot is at rest with no planned motion. -/
def Trowel.atRest (t : Trowel) : Bool := t.pieces.isEmpty

/-- Emission ends: no gate is on, and no edge is still to be emitted (R154). -/
def Trowel.putOut (t : Trowel) : Trowel :=
  { t with edges := [], gate := false, cmdLit := false, emit := Emit.dark, hist := [] }

/-- A stop from a place along a tangent at a speed and path acceleration, under limits (R154, R156). -/
def stopPieces (i : Nat) (pos tan : P2) (v a acc jerk : Int) : List Piece :=
  let prof := stopProfile acc jerk v a
  let l := profLen prof
  let d := scaleTo tan l
  if prof.isEmpty then []
  else
    [{ kind := .stop, geo := .line pos ⟨pos.x + d.x, pos.y + d.y⟩, len := l, prof := prof,
       stroke := i, ofs := 0, fin := l, lit := false, pa := 0, pb := 0, vs := 0, slen := 0, z0 := 0, z1 := 0,
       amp := 0, per := 0, shape := 0, sofs := 0, bl := 0, vout := 0 }]

/-- A stop along the velocity under limits (R154, R156); queued edges are cancelled and the gate is off. -/
def Trowel.stopUnder (t : Trowel) (acc jerk : Int) (st : HState) : Trowel :=
  let (_, v, a, tan) := t.motion
  { t.putOut with st := st, pieces := stopPieces t.stroke t.pos tan v a acc jerk, el := 0, trimIn := 0 }

/-- The point at which emission of the present run stopped (R155): where it stands already, that of the frame that is not
lit where it belongs to the run, else the run's start. -/
def Trowel.interrupted (t : Trowel) : Option Point :=
  if t.resume.isSome then t.resume
  else if t.run.isNone then none
  else some (if t.emit.run = t.run then t.emit.point.getD (.start 0) else .start 0)

/-- The hold trajectory begins (R154): the interrupted point is the path point whose emission falls at
the edge of the frame that is not lit (R155). -/
def Trowel.holdFrom (t : Trowel) (c : HCfg) (st : HState) : Trowel :=
  { t.stopUnder c.acc c.jerk st with resume := t.interrupted }

/-- The interrupted run resumes (R155): connector, run-in and emission from the interrupted point. -/
def Trowel.resumeFrom (t : Trowel) (r : RunCtx) (p : Point) : Trowel :=
  { t.takeUp r 0 p .runIn (r.window p.stroke) with st := .run, resume := none, hist := [] }

/-- A run begins at its run boundary (R139): its first stroke with the connector before it. -/
def Trowel.begin' (t : Trowel) (r : RunCtx) : Trowel :=
  let u := { t with run := some r.key, stroke := 0, st := .connector, wobble := 0, resume := none, zh := r.start.z }
  match r.window 0 with
  | [] => { u with pieces := [], el := 0, trimIn := 0, dwellDone := 0, unbegun := true }
  | a :: w => u.takeUp r 0 (.start 0) .runIn (a :: w)

/-! ### Bed and field (R136) -/

/-- An entry of a head's correction or focus grid in the BAR2 window. -/
def Blk.gridAt (b : Blk) (h ofs stride i j : Nat) : Int :=
  sgn 32 (b.winNat (0x200000 + 0x10000 * h + ofs + stride * (65 * j + i)) 4)

/-- An edge of a head's active field window in path units: 0 XMIN, 1 YMIN, 2 XMAX, 3 YMAX. -/
def Blk.winEdge (b : Blk) (h i : Nat) : Int := bedU (intW (b.aw (Reg.TRW_HEAD_WIN h i)))

/-- A grid of a head interpolated at a bed position (R136). -/
def Blk.fieldOf (b : Blk) (h ofs stride : Nat) (p : P2) : Int :=
  bilinear (b.gridAt h ofs stride) (p.x - b.winEdge h 0) (p.y - b.winEdge h 1)
    (b.winEdge h 2 - b.winEdge h 0) (b.winEdge h 3 - b.winEdge h 1)

/-- X and Y setpoints of a bed position (R136). -/
def Blk.fieldXY (b : Blk) (h : Nat) (p : P2) : List Int := [b.fieldOf h 0 8 p, b.fieldOf h 4 8 p]

/-- How far a bed position's field coordinates are from given ones. -/
def Blk.fieldMiss (b : Blk) (h : Nat) (sp : List Int) (p : P2) : Int :=
  absI (b.fieldOf h 0 8 p - sp.getD 0 0) + absI (b.fieldOf h 4 8 p - sp.getD 1 0)

/-- The nearest of a place and its eight neighbours at a step. -/
def Blk.bedBest (b : Blk) (h : Nat) (sp : List Int) (dx dy : Int) (p : P2) : P2 :=
  ([(-1, -1), (-1, 0), (-1, 1), (0, -1), (0, 1), (1, -1), (1, 0), (1, 1)] : List (Int × Int)).foldl
    (fun best d =>
      let q : P2 := ⟨p.x + d.1 * dx, p.y + d.2 * dy⟩
      if b.fieldMiss h sp q < b.fieldMiss h sp best then q else best) p

/-- The bed position where field coordinates put the spot: the correction grid inverted by a search of halving steps from
the middle of the field window (DESIGN CHOICE: the spec gives the grid in one direction only). -/
def Blk.bedSearch (b : Blk) (h : Nat) (sp : List Int) : Nat → Int → Int → P2 → P2
  | 0, _, _, p => p
  | n + 1, dx, dy, p => b.bedSearch h sp n (dx / 2) (dy / 2) (b.bedBest h sp dx dy p)

def Blk.bedAt (b : Blk) (h : Nat) (sp : List Int) : P2 :=
  let w := b.winEdge h 2 - b.winEdge h 0
  let l := b.winEdge h 3 - b.winEdge h 1
  b.bedSearch h sp 48 (w / 4) (l / 4) ⟨b.winEdge h 0 + w / 2, b.winEdge h 1 + l / 2⟩

/-- A head that stands parked knows its place in the bed from its setpoint (R139). -/
def Blk.located (b : Blk) (h : Nat) (t : Trowel) : Trowel :=
  if t.st = .parked then { t with pos := b.bedAt h t.sp } else t

/-- The stop of a head whose setpoints moved without a run (R156): its velocity in the bed is that of its last two
setpoints, and it stops along it in the field, from where it is. `spFrom` keeps the field offset of the path followed. -/
def Blk.stopParked (b : Blk) (h : Nat) (acc jerk : Int) (t : Trowel) : Trowel :=
  let p := b.bedAt h t.next
  let q := b.bedAt h t.sp
  let d : P2 := ⟨p.x - q.x, p.y - q.y⟩
  let v := hyp d.x d.y * e12 / Int.ofNat b.tickPs
  let f := b.fieldXY h p
  { t.putOut with
    st := .emergency, pos := p, pieces := stopPieces t.stroke p d v 0 acc jerk, el := 0, trimIn := 0
    spFrom := [t.next.getD 0 0 - f.getD 0 0, t.next.getD 1 0 - f.getD 1 0] }

/-- One axis of the ramps of CALIBRATE (R149): on by a length, turned back at the window's edges. -/
def rampStep (lo hi len x : Int) (up : Bool) : Int × Bool :=
  if up then (if x + len ≤ hi then (x + len, true) else (minI hi x, false))
  else if lo ≤ x - len then (x - len, false) else (if lo ≤ x then x else lo, true)

end Sys2Proof.Machine
end

