-- ==== Sys2Proof/Machine/Servo.lean ====
section
/-!
DEFINITION. The servo engines (R196 to R219): the control law of one axis, its filters and tables, its
plausibility model, loop starts and coefficient swaps, snapshots.
-/
namespace Sys2Proof.Machine

/-- rsh of R196. -/
def rsh (x : Int) (s : Nat) : Int := if s = 0 then x else (x + Int.ofNat (2 ^ (s - 1))) / Int.ofNat (2 ^ s)

/-- sat32 that notes whether it altered its argument (R197). -/
def satS (x : Int) : StateM Bool Int := do
  let y := sat32 x
  if y ≠ x then set true
  pure y

/-- ms of R196. -/
def msS (c : Int) (s : Nat) (x : Int) : StateM Bool Int := satS (rsh (c * x) s)

/-- The active settings of an axis. -/
structure AxCfg where
  bq1 : Bool
  bq2 : Bool
  ff : Bool
  fric : Bool
  cog : Nat
  interp : Bool
  trip : Bool
  bank : Nat
  kp : Int
  ki : Int
  kd : Int
  shKp : Nat
  shKi : Nat
  shKd : Nat
  ilim : Int
  outLim : Int
  kvf : Int
  kaf : Int
  shKvf : Nat
  shKaf : Nat
  fricSh : Nat
  vband : Int
  b1 : List Int
  s1 : List Nat
  b2 : List Int
  s2 : List Nat
  pm : List Int
  ps : List Nat
  rest : Int
  tol : Int
  count : Nat
  safeLim : Int
  fricTab : Nat → Nat
  cogTab : Nat → Int

/-- Five 5-bit shifts of a word. -/
def shifts (w : Word) (n : Nat) : List Nat := (List.range n).map fun j => bits w.toNat (5 * j) 5

/-- The active settings of axis `n`. -/
def Blk.axCfg (b : Blk) (n : Nat) : AxCfg :=
  let f := fun x => b.a (Reg.SRV_AXIS_CFG n) x
  let k := f F.SRV_AXIS_CFG_CBANK
  let i := fun off => intW (b.aw off)
  let at' := Reg.SRV_AXIS_KP n k
  { bq1 := f F.SRV_AXIS_CFG_BQ1_EN == 1, bq2 := f F.SRV_AXIS_CFG_BQ2_EN == 1, ff := f F.SRV_AXIS_CFG_FF_EN == 1,
    fric := f F.SRV_AXIS_CFG_FRIC_EN == 1, cog := f F.SRV_AXIS_CFG_COG_SIZE,
    interp := f F.SRV_AXIS_CFG_COG_INTERP == 1, trip := f F.SRV_AXIS_CFG_PM_TRIP == 1, bank := k,
    kp := i at', ki := i (at' + 4), kd := i (at' + 8),
    shKp := bits (b.aw (at' + 0xC)).toNat 0 5, shKi := bits (b.aw (at' + 0xC)).toNat 8 5,
    shKd := bits (b.aw (at' + 0xC)).toNat 16 5,
    ilim := Int.ofNat (bits (b.aw (at' + 0x10)).toNat 0 31), outLim := Int.ofNat (bits (b.aw (at' + 0x14)).toNat 0 23),
    kvf := i (at' + 0x18), kaf := i (at' + 0x1C), shKvf := bits (b.aw (at' + 0x20)).toNat 0 5,
    shKaf := bits (b.aw (at' + 0x20)).toNat 8 5, fricSh := bits (b.aw (at' + 0x20)).toNat 16 4,
    vband := Int.ofNat (bits (b.aw (at' + 0x24)).toNat 0 24),
    b1 := (List.range 5).map fun j => i (at' + 0x28 + 4 * j), s1 := shifts (b.aw (at' + 0x3C)) 5,
    b2 := (List.range 5).map fun j => i (at' + 0x40 + 4 * j), s2 := shifts (b.aw (at' + 0x54)) 5,
    pm := (List.range 6).map fun j => i (0x610D0 + 0x100 * n + 4 * j),
    ps := shifts (b.aw (0x610E8 + 0x100 * n)) 6,
    rest := i (0x610EC + 0x100 * n),
    tol := Int.ofNat (b.a (Reg.SRV_AXIS_PM_LIMIT n) F.SRV_AXIS_PM_LIMIT_PM_TOL),
    count := b.a (Reg.SRV_AXIS_PM_LIMIT n) F.SRV_AXIS_PM_LIMIT_PM_COUNT,
    safeLim := Int.ofNat (b.a (Reg.SRV_AXIS_PMSAFE n) F.SRV_AXIS_PMSAFE_SAFE_OUT_LIM),
    fricTab := fun e => b.winNat (0x1000 * n + 4 * e) 4,
    cogTab := fun e => sgn 32 (b.winNat (0x60000 + 0x4000 * n + 4 * e) 4) }

/-- biquad of R204. -/
def biquad (k : List Int) (s : List Nat) (z : Bq) (x : Int) : StateM Bool (Int × Bq) := do
  let g := fun j => k.getD j 0
  let t := fun j => s.getD j 0
  let p0 ← msS (g 0) (t 0) x
  let p1 ← msS (g 1) (t 1) z.x1
  let p2 ← msS (g 2) (t 2) z.x2
  let p3 ← msS (g 3) (t 3) z.y1
  let p4 ← msS (g 4) (t 4) z.y2
  let y ← satS (p0 + p1 + p2 - p3 - p4)
  pure (y, ⟨x, z.x1, y, z.y1⟩)

/-- One biquad stage with its enable (R201, R205): its states take the input at an enable and at a loop
start; disabled it passes its input. -/
def bqStage (en fresh : Bool) (k : List Int) (s : List Nat) (z : Bq) (x : Int) : StateM Bool (Int × Bq) :=
  if !en then pure (x, z) else biquad k s (if fresh then ⟨x, x, x, x⟩ else z) x

/-- Division that truncates toward zero. -/
def tdiv (x y : Int) : Int := if 0 ≤ x then x / y else -((-x) / y)

/-- friction of R206. -/
def friction (c : AxCfg) (y v : Int) : Int :=
  if !c.fric then 0
  else
    let ent := c.fricTab ((y + 2147483648) / 4194304).toNat
    let fp := sgn 16 ent * Int.ofNat (2 ^ c.fricSh)
    let fn := sgn 16 (ent / 65536) * Int.ofNat (2 ^ c.fricSh)
    if c.vband ≤ v then fp
    else if v ≤ -c.vband then fn
    else fn + tdiv ((fp - fn) * (v + c.vband)) (2 * c.vband)

/-- cogging of R207, the shifted product added to the entry. -/
def cogging (c : AxCfg) (y : Int) : StateM Bool Int :=
  if c.cog = 0 then pure 0
  else
    let m := 9 + c.cog
    let z := (y + 2147483648).toNat
    let idx := z / 2 ^ (32 - m)
    if !c.interp then pure (c.cogTab idx)
    else
      let fr := Int.ofNat (z % 2 ^ (32 - m))
      let nxt := min (idx + 1) (2 ^ m - 1)
      satS (c.cogTab idx + shr (32 - m) ((c.cogTab nxt - c.cogTab idx) * fr))

/-- The integrator re-expressed at a commit that changed SH_KI, ILIM or CBANK (R210); answers the axis and whether the
clamp altered Q. -/
def swapQ (c : AxCfg) (a : Axis) : StateM Bool (Axis × Bool) := do
  let iOld ← satS (rsh a.q a.shKi)
  let q1 := if c.shKi = a.shKi then a.q else iOld * Int.ofNat (2 ^ c.shKi)
  let lim := c.ilim * Int.ofNat (2 ^ c.shKi)
  let q2 := clampI (-lim) lim q1
  pure ({ a with q := q2, shKi := c.shKi, ilim := c.ilim, bank := c.bank }, q2 != q1)

/-- What a commit at this edge does to an axis (R210, R211). -/
def swapped (c : AxCfg) (a : Axis) : StateM Bool (Axis × Bool) :=
  if c.shKi != a.shKi || c.ilim != a.ilim || c.bank != a.bank then swapQ c a else pure (a, false)

/-- The control law of R199 for one tick, after a loop start (R201) where `fresh`. -/
def control (c : AxCfg) (a : Axis) (fresh : Bool) (r y : Int) : StateM Bool (Axis × Bool × Bool) := do
  let e ← satS (r - y)
  let q := if fresh then 0 else a.q
  let v ← satS (r - (if fresh then r else a.rPrev))
  let acc ← satS (v - (if fresh then 0 else a.vPrev))
  let p ← msS c.kp c.shKp e
  let de ← satS (e - (if fresh then e else a.ePrev))
  let d ← msS c.kd c.shKd de
  let i ← satS (rsh q c.shKi)
  let c0 ← satS (p + i + d)
  let (c1, z1) ← bqStage c.bq1 (fresh || !a.en1) c.b1 c.s1 a.bq1 c0
  let (c2, z2) ← bqStage c.bq2 (fresh || !a.en2) c.b2 c.s2 a.bq2 c1
  let fv ← if c.ff then msS c.kvf c.shKvf v else pure 0
  let fa ← if c.ff then msS c.kaf c.shKaf acc else pure 0
  let f ← if c.ff then satS (fv + fa) else pure 0
  let cg ← cogging c y
  let w ← satS (c2 + f + friction c y v + cg)
  let u := clampI (-c.outLim) c.outLim w
  let hold := u != w && decide (e.sign = w.sign)
  let lim := c.ilim * Int.ofNat (2 ^ c.shKi)
  let qn := q + c.ki * e
  let qc := clampI (-lim) lim qn
  let q' := if hold then q else qc
  pure ({ a with
    q := q', rPrev := r, vPrev := v, ePrev := e, bq1 := z1, bq2 := z2, en1 := c.bq1, en2 := c.bq2
    e := e, i := i, u := u, loop := true },
    !hold && qc != qn, u != w)

/-- The plausibility model of R212 at an edge with a valid sample; `fresh` is a loop start, which tests no residual and
leaves the count of R213 as it is. -/
def plausModel (c : AxCfg) (a : Axis) (fresh : Bool) (y uL : Int) : StateM Bool Axis :=
  if fresh then pure { a with m := y, mPred := y, wv := 0, ic := 0 }
  else do
    let g := fun j => c.pm.getD j 0
    let s := fun j => c.ps.getD j 0
    let res ← satS (y - a.mPred)
    let l ← msS (g 4) (s 4) res
    let m ← satS (a.mPred + l)
    let lv ← msS (g 5) (s 5) res
    let wv1 ← satS (a.wv + lv)
    let di ← satS (uL - a.ic)
    let kc ← msS (g 0) (s 0) di
    let ic ← satS (a.ic + kc)
    let kt ← msS (g 1) (s 1) ic
    let kb ← msS (g 2) (s 2) wv1
    let mr ← satS (m - c.rest)
    let ks ← msS (g 3) (s 3) mr
    let wv ← satS (wv1 + kt - kb - ks)
    let mp ← satS (m + wv)
    pure { a with
      res := res, m := m, mPred := mp, wv := wv, ic := ic
      excess := if c.tol < absI res then a.excess + 1 else 0 }

/-- The model at an edge with no valid sample (R212). -/
def blindModel (a : Axis) : StateM Bool Axis := do
  let p ← satS (a.mPred + a.wv)
  pure { a with m := a.mPred, mPred := p }

/-- What an axis does in one tick: its state, the flags set (bits of SRV_AXIS_STAT), and whether a
plausibility fault trips. -/
structure AxOut where
  a : Axis
  flags : List Nat
  trip : Bool

/-- A condition that holds now and did not before is a hardware set (R203). -/
def onset (now before : Bool) (i : Nat) : List Nat := if now && !before then [i] else []

/-- The conditions of the sticky flags that hold for an axis at an edge (R197, R202, R213), `swap` a clamp of Q at a
coefficient swap. -/
structure AxCond where
  arith : Bool
  iSat : Bool
  swap : Bool
  out : Bool
  plaus : Bool

/-- The end of an axis's tick: the hardware sets of R203 against the conditions of the edge before, and the trip and
clamp of R213 and R215. `u` is the demand computed. -/
def axisEnd (c : AxCfg) (old a : Axis) (u : Int) (k : AxCond) : AxOut :=
  let trip := k.plaus && !old.cPlaus && c.trip
  let tripped := old.tripped || trip
  ⟨{ a with
      next := if tripped then clampI (-c.safeLim) c.safeLim u else u
      tripped := tripped, cArith := k.arith, cI := k.iSat || k.swap, cOut := k.out, cPlaus := k.plaus },
    onset k.arith old.cArith 0 ++ (if k.swap then [1] else onset k.iSat old.cI 1) ++ onset k.out old.cOut 2 ++
      onset k.plaus old.cPlaus 3, trip⟩

/-- The residual has exceeded PM_TOL at PM_COUNT consecutive edges (R213). -/
def AxCfg.implausible (c : AxCfg) (a : Axis) : Bool := decide (c.count ≤ a.excess)

/-- An edge with no valid sample (R217): no demand is computed, the model goes on blind, and the demand repeats once. The
edge after it is a loop start in the words of R201 (DEDUCED). `a.demand` is the demand launched at this edge. -/
def axisBlind (c : AxCfg) (a : Axis) : AxOut :=
  let ((a1, sw), s1) := (swapped c a).run false
  let (a2, s2) := (blindModel a1).run s1
  let n := a.miss + 1
  let o := axisEnd c a { a2 with miss := n, loop := false } (if 2 ≤ n then 0 else a.demand) ⟨s2, false, sw, false, false⟩
  { o with flags := o.flags ++ [4] }

/-- One tick of an axis in closed loop with a valid sample: the swap of R210, the model, the law. -/
def axisTick (c : AxCfg) (a : Axis) (r : Int) : AxOut :=
  let fresh := !a.loop
  let ((a0, sw), s0) := (swapped c a).run false
  let (a1, s1) := (plausModel c { a0 with miss := 0 } fresh a.y a.demand).run s0
  let ((a2, iSat, oSat), s2) := (control c a1 fresh r a.y).run s1
  axisEnd c a a2 a2.u ⟨s2, iSat, sw, oSat, !fresh && c.implausible a2⟩

/-- One tick of an axis in SERVICE with a valid sample (R200): the injected demand, beside the model (R212). -/
def axisService (c : AxCfg) (a : Axis) (inj : Int) : AxOut :=
  let ((a0, sw), s0) := (swapped c a).run false
  let (a1, s1) := (plausModel c { a0 with miss := 0, loop := false } false a.y a.demand).run s0
  axisEnd c a a1 (clampI (-c.outLim) c.outLim inj) ⟨s1, false, sw, false, c.implausible a1⟩

def Blk.axis (b : Blk) (n : Nat) : Axis := b.aux.axes.getD n Axis.init

def modAxis (n : Nat) (f : Axis → Axis) : Prog := modAux fun a => { a with axes := a.axes.modify n f }

/-- A head's loops are closed in this mode (R200). -/
def loopMode : Mode → Bool
  | .setup | .calibrate | .home | .armed | .expose | .hold | .drain | .safe => true
  | _ => false

/-- The setpoint path of R200 at `n` ticks of 4,000 from `r0` to `rT`. -/
def parkPath (r0 rT : Int) (n : Nat) : Int :=
  if 4000 ≤ n then rT
  else
    let t := Int.ofNat n
    let num := t * t * t * (10 * 4000 * 4000 - 15 * 4000 * t + 6 * t * t)
    let den : Int := 4000 * 4000 * 4000 * 4000 * 4000
    r0 + (2 * (rT - r0) * num + den) / (2 * den)

/-- An axis that computes no demand at all: only a commit acts on it (R210). -/
def axisIdle (c : AxCfg) (a : Axis) : AxOut :=
  let ((a0, sw), s0) := (swapped c a).run false
  axisEnd c a { a0 with loop := false } 0 ⟨s0, false, sw, false, false⟩

/-- One axis of a head in one tick, by the head's mode (R200, R217). -/
def axisStage (h i : Nat) : Prog :=
  .get fun b =>
    let n := 3 * h + i
    let m := b.mode h
    let c := b.axCfg n
    let a := b.axis n
    let o :=
      if !(loopMode m || m == .service) then axisIdle c a
      else if !a.valid then axisBlind c a
      else if m = .service then axisService c a (sgn 24 (b.aw (Reg.SRV_AXIS_INJ n)).toNat)
      else axisTick c a ((b.trowel h).sp.getD i 0)
    progAll [
      modAxis n fun _ => o.a,
      progEach o.flags fun f => setFlag (flSrv n f),
      progIf o.trip (requestSafe h .plausibility (flSrv n 3).key)]

/-- The latch of SRV_SNAP for one engine (R219); `k` is the tick latched. -/
def srvLatch (s k : Nat) : Prog :=
  .get fun b =>
    .seq (setW (Reg.SRV_SNAP_TICK s) (BitVec.ofNat 32 k))
      (progEach (List.range 12) fun j =>
        let n := 12 * s + j
        let a := b.axis n
        progAll [
          setW (Reg.SRV_MON n 0) (wordI a.e), setW (Reg.SRV_MON n 1) (wordI a.i),
          setW (Reg.SRV_MON n 2) (wordI a.u), setW (Reg.SRV_MON n 3) (wordI a.res)])

end Sys2Proof.Machine
end

