-- ==== Sys2Proof/Machine/Pool.lean ====
section
/-!
DEFINITION. The melt-pool units (R253 to R279): features of photodiode blocks, the power setpoint, the heat
map, the outer loop, traces and burst captures.
-/
namespace Sys2Proof.Machine

def Blk.pool (b : Blk) (h : Nat) : Pool := b.aux.pools.getD h Pool.init

def modPool (h : Nat) (f : Pool → Pool) : Prog := modAux fun a => { a with pools := a.pools.modify h f }

/-! ### Gate history and features (R253 to R258) -/

/-- The length of a frame's tick in 10 ns units. -/
def DownFrame.span (f : DownFrame) : Int := Int.ofNat (250 * 2 ^ f.period)

/-- Gate levels of a frame that begins at `t0`: the times at which the level is set, in order. -/
def DownFrame.levels (f : DownFrame) (t0 : Int) : List (Int × Bool) :=
  (f.edges.foldl (fun (acc : List (Int × Bool) × Bool) e => (acc.1 ++ [(t0 + Int.ofNat e, !acc.2)], !acc.2))
    ([(t0, f.gate0)], f.gate0)).1

/-- The gate levels of the answered frame and the two launched before it, from the oldest; an absent frame
counts as off. -/
def gateLevels (f0 : DownFrame) (f1 f2 : Option DownFrame) : List (Int × Bool) :=
  let t1 := match f1 with | some f => -f.span | none => -f0.span
  let t2 := match f2 with | some f => t1 - f.span | none => t1 - f0.span
  (match f2 with | some f => f.levels t2 | none => [(t2, false)]) ++
    (match f1 with | some f => f.levels t1 | none => [(t1, false)]) ++ f0.levels 0

/-- The gate was on throughout a closed interval. -/
def onThroughout (lv : List (Int × Bool)) (a c : Int) : Bool :=
  (lv.foldl (fun g (t, l) => if t ≤ a then l else g) false) &&
    lv.all fun (t, l) => l || !decide (a < t ∧ t ≤ c)

/-- The gate of a frame was on at any moment, and throughout. -/
def DownFrame.anyOn (f : DownFrame) : Bool := f.gate0 || !f.edges.isEmpty
def DownFrame.allOn (f : DownFrame) : Bool := f.gate0 && f.edges.isEmpty

/-- Channel levels above dark, oldest first, with whether each sample is lit (R253 to R255). -/
structure Sample where
  a : Nat
  b : Nat
  lit : Bool
  sat : Bool

/-- The lit samples' mean of a channel. -/
def meanOf (l : List Nat) : Nat := if l.isEmpty then 0 else l.sum / l.length

/-- Samples of a channel that rise to a level from below it. -/
def countRises (level : Nat) : Bool → List (Nat × Bool) → Nat
  | _, [] => 0
  | below, (x, lit) :: r =>
    (if lit && decide (level ≤ x) && below then 1 else 0) + countRises level (decide (x < level)) r

/-- Features of a block (R255, R256) from its samples, the last lit block's mean and the sample before. -/
def featuresOf (l : List Sample) (spatB : Bool) (thr meanS : Nat) (prev : Option Nat) (f : DownFrame) : Feat :=
  let lit := l.filter Sample.lit
  let n := lit.length
  let mA := meanOf (lit.map Sample.a)
  let mB := meanOf (lit.map Sample.b)
  let sv := fun (s : Sample) => if spatB then s.b else s.a
  let level := meanS + thr
  let below := match prev with | some x => decide (x < level) | none => true
  if n = 0 then
    ⟨0, 0, 0, 0, 0, 0, false, false, f.anyOn, f.allOn, f.seq % 65536⟩
  else
    { meanA := mA, meanB := mB, peakA := (lit.map Sample.a).foldl max 0,
      rmsA := isqrt ((lit.map fun s => let d := Int.ofNat s.a - Int.ofNat mA; (d * d).toNat).sum / n),
      spat := min 63 (countRises level below (l.map fun s => (sv s, s.lit))),
      nlit := n, sat := lit.any Sample.sat, lost := false, gateOn := f.anyOn, gateAll := f.allOn,
      seq := f.seq % 65536 }

/-- The accepted block of a head becomes this tick's features (R253 to R257); with no block the features
are lost ones. -/
def takeBlock (h : Nat) : Prog :=
  .get fun b =>
    let x := b.lane h
    match x.rx, x.sent with
    | some rx, some f =>
      let p := b.pool h
      let lv := gateLevels f x.before x.third
      let n := Int.ofNat rx.pd.length
      let mask := Int.ofNat (b.a (Reg.MPL_HEAD_CFG h) F.MPL_HEAD_CFG_MASK)
      let da := b.a (Reg.MPL_HEAD_DARK h) F.MPL_HEAD_DARK_DARK_A
      let db := b.a (Reg.MPL_HEAD_DARK h) F.MPL_HEAD_DARK_DARK_B
      let spatB := b.a (Reg.MPL_HEAD_CFG h) F.MPL_HEAD_CFG_SPAT_CH == 1
      let l := rx.pd.zipIdx.map fun (v, i) =>
        let s := Int.ofNat f.upOfs - (n - 1 - Int.ofNat i) * 10
        (⟨v.1 - da, v.2 - db, onThroughout lv (s - mask) s, v.1 == 0xFFFF || v.2 == 0xFFFF⟩ : Sample)
      let ft := featuresOf l spatB (b.a (Reg.MPL_HEAD_SPAT h) F.MPL_HEAD_SPAT_SPAT_THR) p.meanS p.lastS f
      modPool h fun q => { q with
        feat := ft
        meanS := if ft.nlit = 0 then q.meanS else if spatB then ft.meanB else ft.meanA
        lastS := l.getLast?.map fun s => if spatB then s.b else s.a
        samples := (rx.pd.reverse ++ q.samples).take (4096 + rx.pd.length) }
    | _, sent =>
      modPool h fun q => { q with
        feat := { Feat.none with
          seq := match sent with | some f => f.seq % 65536 | none => 0
          gateOn := match sent with | some f => f.anyOn | none => false }
        lastS := none
        samples := let n := pdCount (match sent with | some f => f.period | none => 0)
          (List.replicate n (0, 0) ++ q.samples).take (4096 + n) }

/-! ### Heat map (R266 to R272) -/

/-- The map as configured: base, origin, tiles in X and Y, cell size. -/
structure HeatMap where
  base : Nat
  x0 : Int
  y0 : Int
  wt : Nat
  ht : Nat
  cell : Nat

def Blk.heatMap (b : Blk) : HeatMap where
  base := (b.aw Reg.MPL_HM_BASE).toNat + 4294967296 * (b.aw (Reg.MPL_HM_BASE + 4)).toNat
  x0 := intW (b.aw Reg.MPL_HM_ORG)
  y0 := intW (b.aw (Reg.MPL_HM_ORG + 4))
  wt := b.a Reg.MPL_HM_SIZE F.MPL_HM_SIZE_WT
  ht := b.a Reg.MPL_HM_SIZE F.MPL_HM_SIZE_HT
  cell := b.a Reg.MPL_HM_SIZE F.MPL_HM_SIZE_CELL_LOG2

def HeatMap.enabled (m : HeatMap) : Bool := m.wt != 0 && m.ht != 0

/-- Bytes of the map. -/
def HeatMap.bytes (m : HeatMap) : Nat := 64 * m.wt * m.ht

/-- The address of the cell of a bed point, none outside the map (R266, R267). -/
def HeatMap.cellAddr (m : HeatMap) (x y : Int) : Option Nat :=
  let cx := shr m.cell (x - m.x0)
  let cy := shr m.cell (y - m.y0)
  if 0 ≤ cx ∧ cx < 4 * Int.ofNat m.wt ∧ 0 ≤ cy ∧ cy < 4 * Int.ofNat m.ht then
    some (m.base + 64 * (cy.toNat / 4 * m.wt + cx.toNat / 4) + 4 * (4 * (cy.toNat % 4) + cx.toNat % 4))
  else none

/-- A path position in bed LSB. -/
def bedNear (u : Int) : Int := (u + 32768) / 65536

/-- The cell of a head's next emission spot. -/
def Blk.spotCell (b : Blk) (h : Nat) : Option Nat :=
  match (b.trowel h).emit.spot with
  | some p => b.heatMap.cellAddr (bedNear p.x) (bedNear p.y)
  | none => none

/-- A cell's new word with a deposit added to CUR, and whether CUR saturated (R269). -/
def depositInto (w : Nat) (e : Int) : Nat × Bool :=
  let cur := Int.ofNat (bits w 0 16) + e
  let c := clampI 0 0xFFFF cur
  (c.toNat + bits w 16 16 * 65536, c != cur)

/-- Flushes that a read issued two ticks before tick `now` may or may not see (R270): those less than 8 tick periods
before it, or after it. -/
def freshDeposits (now : Nat) (l : List (Nat × Nat × Nat)) : List (Nat × Nat × Nat) :=
  l.filter fun x => decide (now ≤ x.1 + 10)

/-- One cell of a flush (R269, R270): a locked read-modify-write through Q3. -/
def flushCell (scale esh : Nat) (cell : Nat × Nat) : Prog :=
  .get fun b =>
    let e := rsh (Int.ofNat (cell.2 * scale)) (12 + esh)
    let old := b.dramNat cell.1 4
    let (w, sat) := depositInto old e
    progIf (e != 0)
      (progAll [
        dramWrite 3 cell.1 (toBytes 4 w),
        modAux fun a => { a with deposits := (a.clk.tick, cell.1, old) :: freshDeposits a.clk.tick a.deposits },
        progIf sat (setFlag flHmSat)])

/-- The words a read of a cell may return: the present one, and those before the flushes it need not see (R270). -/
def Blk.cellWords (b : Blk) (a : Nat) : List Nat :=
  b.dramNat a 4 ::
    ((freshDeposits b.aux.clk.tick b.aux.deposits).filter fun x => x.2.1 == a).map fun x => x.2.2

/-- The run settings a unit works with take over at the first emission tick that has light of their run (R16). -/
def takeSets (h : Nat) : Prog :=
  .get fun b =>
    let em := (b.trowel h).emit
    match em.run with
    | none => .skip
    | some k =>
      match (b.pool h).sets.find? fun x => x.1 == k with
      | none => .skip
      | some x => progIf em.spot.isSome (modPool h fun p => { p with
          cur := x.2, sets := (p.sets.dropWhile fun y => y.1 != k).tail })

/-- The settings of classes run and patch are captured for a run at its boundary (R16). -/
def captureSets (h : Nat) (k : Key) (bound : List Word) : Prog :=
  .get fun b => modPool h fun p => { p with
    sets := keepSets p.sets k {
      bound := bound
      pgain := b.aw (Reg.MPL_HEAD_PGAIN h), pshift := b.aw (Reg.MPL_HEAD_PSHIFT h)
      ff := b.aw (Reg.MPL_HEAD_FF h), ffbase := b.aw (Reg.MPL_HEAD_FFBASE h)
      outer := b.aw (Reg.MPL_HEAD_OUTER h), gtgt := b.aw (Reg.MPL_HEAD_GTGT h)
      refstep := b.aw (Reg.MPL_HEAD_REFSTEP h) } }

/-- The stroke of an emission tick, with its run: that of the point emitted, or, while emission is interrupted, that of the
point at which it is (R155). -/
def Trowel.emitStroke (t : Trowel) : Option Key × Nat :=
  match t.resume with
  | some p => (t.run, p.stroke)
  | none => (t.emit.run, (t.emit.point.map Point.stroke).getD 0)

/-- A head's accumulator is flushed. -/
def flushDeposits (h : Nat) : Prog :=
  .get fun b =>
    .seq (modPool h fun p => { p with acc := [], accOf := none })
      (progEach (b.pool h).acc fun c =>
        flushCell (match (b.pool h).accOf with | some o => o.2.2 | none => 0)
          (b.a Reg.MPL_HM_FOLD F.MPL_HM_FOLD_ESHIFT) c)

/-- Energy added to the accumulator's cell. -/
def addCell : List (Nat × Nat) → Nat → Nat → List (Nat × Nat)
  | [], c, e => [(c, e)]
  | (d, x) :: r, c, e => if d = c then (d, x + e) :: r else (d, x) :: addCell r c e

/-- Gate-on time of a frame, 10 ns units. -/
def DownFrame.onTime (f : DownFrame) : Nat :=
  let stops := f.edges ++ [250 * 2 ^ f.period]
  (stops.foldl (fun (acc : Nat × Nat × Bool) e =>
    (acc.1 + (if acc.2.2 then e - acc.2.1 else 0), e, !acc.2.2)) (0, 0, f.gate0)).1

/-- The deposit of an emission tick (R269), from the frame launched at its edge. A stroke's end flushes. -/
def depositTick (h : Nat) (f : DownFrame) : Prog :=
  .get fun b =>
    let t := b.trowel h
    let p := b.pool h
    let of := t.emitStroke
    let fresh := match p.accOf with | some o => (o.1, o.2.1) != of | none => false
    let e := f.power * f.onTime
    .seq (progIf fresh (flushDeposits h))
      (match b.spotCell h with
      | none => .skip
      | some c =>
        progIf (e != 0)
          (.get fun d =>
            let q := d.pool h
            let full := decide (16 ≤ q.acc.length) && !(q.acc.any fun x => x.1 == c)
            .seq (progIf full (flushDeposits h))
              (modPool h fun r => { r with
                acc := addCell r.acc c e, accOf := some (of.1, of.2, bits (dw r.cur.bound 9) 0 16) })))

/-- Cells of the map that hold anything: addresses of the words listed. -/
def Blk.mapCells (b : Blk) (m : HeatMap) : List Nat :=
  ((b.dram.filter fun (a, _) => decide (m.base ≤ a ∧ a < m.base + m.bytes)).map fun (a, _) => a / 4 * 4).eraseDups

/-- Fold of one cell (R271). -/
def foldWord (w decay : Nat) : Nat := min (bits w 16 16 * decay / 256 + bits w 0 16) 0xFFFF * 65536

/-- Tiles of the map that hold anything. -/
def Blk.mapTiles (b : Blk) (m : HeatMap) : List Nat := ((b.mapCells m).map fun a => (a - m.base) / 64).eraseDups

/-- The words of a tile. -/
def Blk.tileWords (b : Blk) (m : HeatMap) (t : Nat) : List Nat :=
  (List.range 16).map fun i => b.dramNat (m.base + 64 * t + 4 * i) 4

/-- Every tile of the map is written through Q3, those that hold nothing with the zeros they hold. -/
def rewriteMap (new : Nat → Nat) : Prog :=
  .get fun b =>
    let m := b.heatMap
    let live := b.mapTiles m
    .seq
      (progEach (List.range (m.wt * m.ht)) fun t =>
        let a := m.base + 64 * t
        if live.contains t then dramWrite 3 a ((b.tileWords m t).flatMap fun w => toBytes 4 (new w))
        else passLine 3 (a / 64) 0 64 .skip)
      (modAux fun a => { a with deposits := [] })

/-- The fold: tiles with a nonzero CUR are staged before it, then every cell folds (R271). -/
def foldMap : Prog :=
  .get fun b =>
    let m := b.heatMap
    .seq
      (progEach ((b.mapTiles m).filter fun t => (b.tileWords m t).any fun w => bits w 0 16 != 0) fun t =>
        stageSection 0x0008 1 0 (toBytes 4 t ++ b.dramRead (m.base + 64 * t) 64))
      (rewriteMap fun w => foldWord w (b.a Reg.MPL_HM_FOLD F.MPL_HM_FOLD_DECAY))

/-- The zeroing of R272. -/
def zeroMap : Prog := rewriteMap fun _ => 0

/-! ### Power (R261 to R265) -/

/-- The bound set of the run a head executes, or executed last; all zero before the first. -/
def Blk.headSet (b : Blk) (h : Nat) : List Word := (b.trowel h).bset

/-- The reference of a head: MP_REF of the bound set plus TRIM (R273). -/
def Blk.poolRef (b : Blk) (h : Nat) : Int :=
  Int.ofNat (bits (dw (b.pool h).cur.bound 9) 16 16) + (b.pool h).trim

/-- What the power computation of a tick answers. -/
structure PowerOut where
  power : Nat
  loop : Nat
  ff : Int
  qp : Int
  miss : Bool
  outside : Bool

/-- The inner loop of a head is closed in a tick (R262): the head is in EXPOSE or DRAIN, the answered frame had the gate on
at any moment, and the block was accepted with at least MIN_LIT lit samples and without PD_SAT. -/
def Blk.loopClosed (b : Blk) (h : Nat) : Bool :=
  let f := (b.pool h).feat
  (b.mode h == .expose || b.mode h == .drain) && f.gateOn && !f.lost && !f.sat &&
    decide (b.a (Reg.MPL_HEAD_CFG h) F.MPL_HEAD_CFG_MIN_LIT ≤ f.nlit)

/-- LOOP (R262): 0 open, 1 closed, 2 held at the band's high end, 3 at its low end. -/
def loopCode (closed : Bool) (p raw : Int) : Nat :=
  if !closed then 0 else if p < raw then 2 else if raw < p then 3 else 1

/-- The gate of the next emission tick is off throughout (R263): POWER is 0, and QP and ff stand. -/
def Blk.darkPower (b : Blk) (h : Nat) : PowerOut :=
  ⟨0, loopCode (b.loopClosed h) 0 0, (b.pool h).ff, (b.pool h).qp, false, false⟩

/-- The heat of a cell's word (R268). -/
def Blk.heatOf (b : Blk) (x : Nat) : Int :=
  Int.ofNat ((bits x 16 16 * b.a Reg.MPL_HM_CFG F.MPL_HM_CFG_W_HIST +
    bits x 0 16 * b.a Reg.MPL_HM_CFG F.MPL_HM_CFG_W_CUR) / 256)

/-- The power setpoint of the next frame while it has light (R261, R262, R267, R268). `pick` chooses among the words a read
of the spot's cell may return (R270). -/
def Blk.litPower (b : Blk) (h pick : Nat) : PowerOut :=
  let p := b.pool h
  let t := b.trowel h
  let c := p.cur
  let nom := bits (dw c.bound 0) 0 16
  let w := Int.ofNat ((nom * bits (dw c.bound 0) 16 8 + 50) / 100)
  let base := Int.ofNat (F.MPL_HEAD_FFBASE_FF_BASE.get c.ffbase)
  let cell := b.spotCell h
  let heat := match cell with
    | some a => let l := b.cellWords a; b.heatOf (l.getD (pick % l.length) 0)
    | none => base
  let pn := Int.ofNat t.emit.power
  let lim := Int.ofNat (F.MPL_HEAD_FF_FF_LIM.get c.ff)
  let ffr := clampI (-lim) lim (-(rsh (Int.ofNat (F.MPL_HEAD_FF_FF_GAIN.get c.ff) * (heat - base)) 16))
  let missed := p.miss && cell.isSome
  let ff := if missed then p.ff else rsh (pn * ffr) 12
  let y := Int.ofNat (match b.a (Reg.MPL_HEAD_CFG h) F.MPL_HEAD_CFG_FB_SEL with
    | 0 => p.feat.meanA | 1 => p.feat.meanB | _ => p.feat.peakA)
  let e := sat32 (b.poolRef h - y)
  let closed := b.loopClosed h
  let shP := F.MPL_HEAD_PSHIFT_SH_P.get c.pshift
  let shI := F.MPL_HEAD_PSHIFT_SH_I.get c.pshift
  let kp := Int.ofNat (F.MPL_HEAD_PGAIN_KP_P.get c.pgain)
  let ki := Int.ofNat (F.MPL_HEAD_PGAIN_KI_P.get c.pgain)
  let fb := if closed then sat32 (rsh (kp * e) shP + rsh p.qp shI) else rsh p.qp shI
  let raw := pn + ff + fb
  let lo := if 0 ≤ pn - w then pn - w else 0
  let hi := if pn + w ≤ 0xFFFF then pn + w else 0xFFFF
  let pw := let x := if raw < lo then lo else raw; if hi < x then hi else x
  let held := pw != raw && decide (e.sign = (raw - pw).sign)
  let lim2 := w * Int.ofNat (2 ^ shI)
  let qp := if closed && !held then clampI (-lim2) lim2 (p.qp + ki * e) else p.qp
  ⟨pw.toNat, loopCode closed pw raw, ff, qp, missed, b.heatMap.enabled && cell.isNone⟩

/-- The power setpoint of the next frame (R261 to R263). -/
def Blk.powerOf (b : Blk) (h pick : Nat) : PowerOut :=
  if (b.trowel h).emit.spot.isSome then b.litPower h pick else b.darkPower h

/-- The feature record of a tick (R258). -/
def featureWords (f : Feat) (o : PowerOut) (pn : Nat) (outer : Bool) : List Word :=
  let d := Int.ofNat o.power - Int.ofNat pn
  let w := BitVec.ofNat 32
  [w (f.seq + o.power * 65536), w (f.meanA + f.meanB * 65536), w (f.peakA + f.rmsA * 65536),
    w (f.nlit + f.spat * 128 + b2n f.lost * 2 ^ 13 + b2n o.miss * 2 ^ 14 + b2n f.sat * 2 ^ 15 + o.loop * 2 ^ 16 +
      b2n outer * 2 ^ 18 + unsgn 12 (tdiv d 16) * 2 ^ 20)]

/-- A trace record with LOST 1 and zero features. -/
def lostRecord : List Word := [0, 0, 0, 0x2000]

/-- A trace entry's words: the ring header takes bits 15:0 of word 0 (R260). -/
def traceEntry (recs : List (List Word)) : List Word :=
  match recs.flatten with
  | [] => []
  | w :: ws => BitVec.ofNat 32 (0x10 + w.toNat / 65536 * 65536) :: ws

/-- An entry of a head's trace is written, what it lacks with LOST 1 and zero features; one not begun is none (R260). -/
def traceEnd (h : Nat) : Prog :=
  .get fun b =>
    let l := (b.pool h).trace
    progIf (!l.isEmpty)
      (.seq (modPool h fun q => { q with trace := [] })
        (deliver (48 + h) (traceEntry (l ++ List.replicate (16 - l.length) lostRecord))))

/-- The trace of a tick (R260). An entry that this tick does not continue ends. -/
def traceTick (h : Nat) (ws : List Word) : Prog :=
  .get fun b =>
    let dv := 2 ^ b.a (Reg.MPL_HEAD_CFG h) F.MPL_HEAD_CFG_TRACE_DIV
    let r := b.aux.clk.tick / dv % 16
    if b.a (Reg.MPL_HEAD_CFG h) F.MPL_HEAD_CFG_TRACE_EN ≠ 1 ∨ b.laneUp h = false then traceEnd h
    else if b.aux.clk.tick % dv ≠ 0 then .skip
    else
      progAll [
        progIf ((b.pool h).trace.length != r) (traceEnd h),
        progWhen (fun c => (c.pool h).trace.length == r) (modPool h fun q => { q with trace := q.trace ++ [ws] }),
        progIf (r == 15) (traceEnd h)]

/-! ### Burst capture (R278, R279) -/

def Blk.burstState (b : Blk) (h : Nat) : Nat := b.f (Reg.MPL_HEAD_BURST h) F.MPL_HEAD_BURST_STATE

/-- Samples written to the burst buffer from a sample index. -/
def burstPut (h from' : Nat) (l : List (Nat × Nat)) : Prog :=
  .get fun b =>
    dramWrite 4 (b.w64 (Reg.MPL_HEAD_BURST_BASE h) + 4 * from')
      (l.flatMap fun (a, c) => toBytes 4 (a + c * 65536))

/-- The capture of one tick, `n` samples newest in the history: a trigger writes PRE samples ahead of the
block; then samples until LEN. -/
def burstTick (h n : Nat) (bandSet : Bool) : Prog :=
  .get fun b =>
    let p := b.pool h
    let u := p.burst
    let g := fun f => b.a (Reg.MPL_HEAD_BURST_TRIG h) f
    let trig := !p.feat.lost && (u.force ||
      (g F.MPL_HEAD_BURST_TRIG_TRG_PEAK == 1 && decide (g F.MPL_HEAD_BURST_TRIG_PEAK_THR ≤ p.feat.peakA)) ||
      (g F.MPL_HEAD_BURST_TRIG_TRG_SPAT == 1 && decide (g F.MPL_HEAD_BURST_TRIG_SPAT_N ≤ p.feat.spat)) ||
      (g F.MPL_HEAD_BURST_TRIG_TRG_BAND == 1 && bandSet))
    let pre := ((p.samples.drop n).take u.pre).reverse
    let ahead := List.replicate (u.pre - pre.length) (0, 0) ++ pre
    let blk := (p.samples.take n).reverse
    let go := fun (from' : Nat) =>
      let l := blk.take (u.len - from')
      let fin := decide (u.len ≤ from' + l.length)
      progAll [
        burstPut h from' l,
        modPool h fun q => { q with burst := { q.burst with done := from' + l.length } },
        progIf p.feat.lost (modF (Reg.MPL_HEAD_BURST h) F.MPL_HEAD_BURST_BURST_LOST (satInc 16)),
        progIf fin (.seq (setF (Reg.MPL_HEAD_BURST h) F.MPL_HEAD_BURST_STATE 3) (setFlag (flMpl h 5)))]
    if b.burstState h = 1 ∧ trig then
      progAll [
        setF (Reg.MPL_HEAD_BURST h) F.MPL_HEAD_BURST_STATE 2,
        setF (Reg.MPL_HEAD_BURST h) F.MPL_HEAD_BURST_BURST_LOST 0,
        setW (Reg.MPL_HEAD_BURST_TICK h) (BitVec.ofNat 32 b.aux.clk.tick),
        burstPut h 0 ahead,
        go u.pre]
    else progIf (b.burstState h == 2) (go u.done)

/-! ### One tick of a unit for a head -/

/-- The computation of a tick, once Pergola has decided (R261 to R265, R258 to R260, R278): answers through
`k` the power of the frame to be launched. `phase3` says whether features go to the coat's record. -/
def poolCompute (h : Nat) (phase3 : Bool) (ghead : Nat) (k : Nat → Prog) (pick : Nat) : Prog :=
  .get fun b =>
    let p := b.pool h
    let o := b.powerOf h pick
    let pn := (b.trowel h).emit.power
    let band := if o.loop = 2 ∨ o.loop = 3 then p.band + 1 else 0
    let cBand := decide (b.a (Reg.MPL_HEAD_BAND h) F.MPL_HEAD_BAND_BAND_TICKS ≤ band)
    let ws := featureWords p.feat o pn p.outer
    let onset := fun (now before : Bool) (i : Nat) => progIf (now && !before) (setFlag (flMpl h i))
    let n := match (b.lane h).sent with | some f => pdCount f.period | none => 25
    progAll [
      modPool h fun q => { q with
        ff := o.ff, qp := o.qp, miss := false, band := band, outer := false, cSat := p.feat.sat, cOut := o.outside
        cMiss := o.miss, cBand := cBand
        hist := if b.a (Reg.MPL_HEAD_CFG h) F.MPL_HEAD_CFG_OUTER_EN = 1 then
          ((b.aux.clk.tick, o.loop, p.feat.gateAll) :: q.hist).take 131072 else [] },
      onset p.feat.sat p.cSat 0,
      onset o.miss p.cMiss 1,
      onset o.outside p.cOut 2,
      onset cBand p.cBand 4,
      progIf (phase3 && (decide (0 < p.feat.nlit) || p.feat.gateOn))
        (stageSection 0x0006 1 (ghead + b.aux.clk.tick % 2 ^ 48 * 65536) (ws.flatMap wordBytes)),
      traceTick h ws,
      burstTick h n (cBand && !p.cBand),
      k o.power]

/-- A tick of a head's unit. Where the read of the spot's cell may or may not see late deposits, which it does is a free
value (R270). -/
def poolTick (h : Nat) (phase3 : Bool) (ghead : Nat) (k : Nat → Prog) : Prog :=
  .seq (takeSets h)
    (.get fun b =>
      match b.spotCell h with
      | none => poolCompute h phase3 ghead k 0
      | some a =>
        if (b.cellWords a).length ≤ 1 then poolCompute h phase3 ghead k 0
        else withFree fun n => poolCompute h phase3 ghead k (Config.freeWord n).toNat)

/-- Effects of a run boundary on the unit (R264, R273). -/
def poolBoundary (h : Nat) (patch : Bool) : Prog :=
  modPool h fun p => { p with qp := 0, trim := if patch then 0 else p.trim, pend := if patch then none else p.pend }

/-- TRIM of a used frame takes effect at a tick edge (R275). -/
def trimEdge (h : Nat) : Prog :=
  .get fun b =>
    match (b.pool h).pend with
    | some x => modPool h fun p => { p with trim := x, pend := none, outer := true }
    | none => .skip

/-- What a frame offers the outer loop of a head (R274, R275). -/
structure GeoFrame where
  first : Nat
  last : Nat
  stats : Nat
  bad : Bool
  blob : Option (Nat × Nat × Nat)
  feeds : Bool

/-- A frame of head `h`'s context reaches the outer loop. -/
def outerFrame (h : Nat) (g : GeoFrame) : Prog :=
  .get fun b =>
    let p := b.pool h
    let ticks := p.hist.filter fun (t, _, _) => decide (g.first ≤ t ∧ t ≤ g.last)
    let throughout := decide (ticks.length = g.last + 1 - g.first) && ticks.all fun (_, _, on) => on
    let inTime := decide (g.stats ≤ g.last + F.MPL_HEAD_REFSTEP_OUTER_AGE.get p.cur.refstep)
    let others := b.a (Reg.MPL_HEAD_CFG h) F.MPL_HEAD_CFG_OUTER_EN == 1 && g.feeds && !g.bad && throughout
    let miss := modF (Reg.MPL_HEAD_SKIP h) ⟨0, 32⟩ (· + 1)
    match g.blob with
    | none => miss
    | some (area, len, wid) =>
      if !others then miss
      else if !inTime then .seq miss (setFlag (flMpl h 3))
      else
        let gm := Int.ofNat (match b.a (Reg.MPL_HEAD_CFG h) F.MPL_HEAD_CFG_GEOM_SEL with
          | 0 => area | 1 => len | _ => wid)
        let eo := Int.ofNat (F.MPL_HEAD_GTGT_G_TGT.get p.cur.gtgt) - gm
        let st := Int.ofNat (F.MPL_HEAD_REFSTEP_REF_STEP.get p.cur.refstep)
        let lim := Int.ofNat (bits p.cur.gtgt.toNat 16 15)
        let d0 := clampI (-st) st
          (rsh (Int.ofNat (F.MPL_HEAD_OUTER_KO.get p.cur.outer) * eo) (F.MPL_HEAD_OUTER_SH_O.get p.cur.outer))
        let was := fun (c : Nat) => ticks.any fun (_, l, _) => l == c
        let d1 := if was 2 && decide (0 < d0) then 0 else d0
        let d2 := if was 3 && decide (d1 < 0) then 0 else d1
        modPool h fun q => { q with pend := some (clampI (-lim) lim (q.trim + d2)) }

/-! ### Commands -/

/-- MP_BURST_ARM (R279). -/
def burstArmProg (ring : Nat) : Prog :=
  descr ring 0x20 false fun ws =>
    .get fun b =>
      let h := bits (dw ws 1) 0 5
      let len := dw ws 2
      let pre := dw ws 3
      checked ring
        (firstFail [
          fieldFail ws [⟨1, 0x1F, fun _ => true⟩,
            ⟨2, 0xFFFFFFFF, fun w => decide (w = 0xFFFFFFFF ∨ (1 ≤ w ∧ w ≤ 65536))⟩,
            ⟨3, 0xFFFFFFFF, fun w => decide (w = 0xFFFFFFFF ∨ w < len)⟩, ⟨4, 1, fun _ => true⟩],
          lenFail ws 2 0xFFFFFFFF false, lenFail ws 3 0xFFFFFFFF false,
          need (!(b.burstState h == 1 || b.burstState h == 2)) 0x53 0])
        (progAll [
          setF (Reg.MPL_HEAD_BURST h) F.MPL_HEAD_BURST_STATE 1,
          modPool h fun p => { p with burst := ⟨len, pre, bit (dw ws 4) 0, 0⟩ },
          completeOk ring 0])

/-- MP_BURST_READ (R279). FIRST + COUNT is held against LEN where the head has a capture (DEDUCED). -/
def burstReadProg (ring : Nat) : Prog :=
  descr ring 0x21 false fun ws =>
    .get fun b =>
      let h := bits (dw ws 1) 0 5
      let n := dw ws 3
      checked ring
        (firstFail [
          fieldFail ws [⟨1, 0x1F, fun _ => true⟩, anyW 2, ⟨3, 0xFFFFFFFF, fun w => w != 0⟩, anyW 4, anyW 5, anyW 6],
          lenFail ws 3 0xFFFFFFFF
            ((b.burstState h != 0 && decide ((b.pool h).burst.len < dw ws 2 + n)) || decide (dw ws 6 < n * 4)),
          lenFail ws 6 0xFFFFFFFF false,
          alignFail ws 4 4,
          need (b.burstState h != 2) 0x53 0,
          need (b.burstState h == 3) 0x54 0])
        (.seq
          (emit (.hostWrite (addr64 ws 4) (b.dramWords (b.w64 (Reg.MPL_HEAD_BURST_BASE h) + 4 * dw ws 2) n)))
          (completeOk ring 0))

end Sys2Proof.Machine
end

