-- ==== Sys2Proof/Machine/Camera.lean ====
section
/-!
DEFINITION. The camera pipelines (R280 to R303): boundaries and schedules, frames received, statistics and
blobs, dark references, defect maps, layer images.
-/
namespace Sys2Proof.Machine

def Blk.cam (b : Blk) (c : Nat) : Cam := b.aux.cams.getD c Cam.init

def modCam (c : Nat) (f : Cam → Cam) : Prog := modAux fun a => { a with cams := a.cams.modify c f }

def Blk.camBook (b : Blk) (c : Nat) : CamBook := b.camBooks.getD c CamBook.init

def camOp (c : Nat) (op : CamOp) : Prog := .op (.cam c op)

/-- TB3 in 10 ns units. -/
def Blk.now10 (b : Blk) : Nat := tbNs b.aux.clk.tb3 / 10

/-- The tick period in 10 ns units. -/
def Blk.tick10 (b : Blk) : Nat := 250 * 2 ^ b.f Reg.SYS_TICK_ACT F.SYS_TICK_ACT_PERIOD

/-- A field of a captured word. -/
def capF (w : Word) (f : Fld) : Nat := f.get w

/-- The camera is the layer camera. -/
def Blk.layerCam (b : Blk) (c : Nat) : Bool := b.a (Reg.CAM_CFG c) F.CAM_CFG_ROLE == 1

/-- The receiver takes packets in this mode (R296), its pipeline under no test (R490). -/
def Blk.camReceives (b : Blk) (c : Nat) : Bool :=
  match b.mode (dCam c) with
  | .off | .reset | .selftest => false
  | _ => !b.tests (62 + c)

/-- Scheduled boundaries fall in this mode (R284, R296); in CALIBRATE once the D-PHY trims have run (R298). -/
def Blk.camTriggers (b : Blk) (c : Nat) : Bool :=
  match b.mode (dCam c) with
  | .setup | .home => true
  | .service => !b.tests (62 + c)
  | .calibrate => decide ((b.cam c).mapFrames < 16) && (b.aux.cals.getD (42 + c) CalTarget.init).ran.isSome
  | .armed | .expose | .hold | .safe => !b.layerCam c
  | _ => false

/-! ### Tags and windows (R287, R292) -/

/-- The head-with-camera matrix gives *n*, *o* (R43). -/
def matrixN (hm cm : Mode) : Bool :=
  !(hm == .expose || hm == .drain) && (cm == .armed || cm == .expose || cm == .hold || cm == .drain)
def matrixO (hm cm : Mode) : Bool :=
  (hm == .expose || hm == .drain) && (cm == .expose || cm == .drain)

/-- An extent cut to a frame dimension, and an origin moved inside it. -/
def fitRoi (o : Int) (w dim : Nat) : Nat × Nat × Bool :=
  let n := min w dim
  let x := clampI 0 (Int.ofNat (dim - n)) o
  (x.toNat, n, x != o || n != w)

/-- The pixel a bed point maps to. -/
def Blk.camPixel (b : Blk) (c : Nat) (s : Int × Int) : Int × Int :=
  let m := fun i => intW (b.aw (Reg.CAM_MAP c i))
  ((m 0 * s.1 + m 1 * s.2 + m 2 * 65536 + 2147483648) / 4294967296,
    (m 3 * s.1 + m 4 * s.2 + m 5 * 65536 + 2147483648) / 4294967296)

/-- The context of a schedule position. -/
def Blk.camSlot (b : Blk) (c pos : Nat) : Nat := b.a (Reg.CAM_SCHED c (pos / 8)) ⟨4 * (pos % 8), 4⟩

/-- The contexts of the active schedule. -/
def Blk.camContexts (b : Blk) (c : Nat) : List Nat :=
  ((List.range (b.a (Reg.CAM_TIMING c) F.CAM_TIMING_LEN + 1)).map (b.camSlot c)).eraseDups

/-- Heads named by contexts of the active schedule. -/
def Blk.camHeads (b : Blk) (c : Nat) : List Nat :=
  (b.camContexts c).filterMap fun k =>
    let w := b.aw (Reg.CAM_CTX_EXP c k)
    if capF w F.CAM_CTX_EXP_HEAD_EN = 1 then some (capF w F.CAM_CTX_EXP_HEAD) else none

/-- The gate of a frame is on at some moment from `a` to `z`, in 10 ns units from its tick edge. -/
def DownFrame.onIn (f : DownFrame) (a z : Nat) : Bool :=
  let lv := f.levels 0
  lv.foldl (fun g (t, l) => if t ≤ Int.ofNat a then l else g) false ||
    lv.any fun (t, l) => l && decide (Int.ofNat a < t ∧ t < Int.ofNat z)

/-- A head named by the schedule has its gate on at some moment from `a` to `z` of the present tick (R297). -/
def Blk.camLit (b : Blk) (c a z : Nat) : Bool :=
  (b.camHeads c).any fun h => match (b.lane h).sent with | some f => f.onIn a (min z b.tick10) | none => false

/-- Where image buffer 0 of a camera begins (R301). -/
def Blk.imageBase (b : Blk) (c : Nat) : Nat :=
  b.a (Reg.CAM_IMG_BASE c) ⟨26, 6⟩ * 2 ^ 26 + b.a (Reg.CAM_IMG_BASE c + 4) ⟨0, 5⟩ * 2 ^ 32

/-- The frame of a boundary, from the active settings (R285, R287, R292). -/
def Blk.newFrame (b : Blk) (c ctx ofs : Nat) (layer : Option Nat) : CamFrame :=
  let cfg := b.aw (Reg.CAM_CFG c)
  let size := b.aw (Reg.CAM_SIZE c)
  let e := b.aw (Reg.CAM_CTX_EXP c ctx)
  let roi := b.aw (Reg.CAM_CTX_ROI c ctx)
  let rs := b.aw (Reg.CAM_CTX_RSIZE c ctx)
  let hd := capF e F.CAM_CTX_EXP_HEAD
  let en := capF e F.CAM_CTX_EXP_HEAD_EN == 1
  let w := capF rs F.CAM_CTX_RSIZE_W
  let h := capF rs F.CAM_CTX_RSIZE_H
  let fixed : Int × Int :=
    (Int.ofNat (capF roi F.CAM_CTX_ROI_X0), Int.ofNat (capF roi F.CAM_CTX_ROI_Y0))
  let org := if capF e F.CAM_CTX_EXP_TRACK = 1 then
      match (b.pool hd).spot with
      | some s => let p := b.camPixel c s; (p.1 - Int.ofNat (w / 2), p.2 - Int.ofNat (h / 2))
      | none => fixed
    else fixed
  let (x0, rw, cx) := fitRoi org.1 w (capF size F.CAM_SIZE_WIDTH)
  let (y0, rh, cy) := fitRoi org.2 h (capF size F.CAM_SIZE_HEIGHT)
  let m := b.mode (dCam c)
  let per := b.a (Reg.CAM_TIMING c) F.CAM_TIMING_PERIOD
  let ph := b.f Reg.SEQ_COAT F.SEQ_COAT_PHASE
  { num := (b.cam c).next, ctx := ctx, gen := b.f (Reg.SEQ_COMMIT (dCam c)) F.SEQ_COMMIT_GEN, cfg := cfg,
    size := size, defect := b.aw (Reg.CAM_DEFECT c), expw := e, proc := b.aw (Reg.CAM_CTX_PROC c ctx),
    idle := en && matrixN (b.mode hd) m, dark := m == .home, whole := layer.isSome || m == .calibrate,
    layer := layer, raw := m == .service, quiet := m == .setup || m == .calibrate || m == .service,
    recorded := if ph == 2 || ph == 3 then some b.coatNo else none,
    tick := b.aux.clk.tick, last := b.aux.clk.tick, ofs := ofs, bound := b.now10 + ofs, period := per,
    expo := min (capF e F.CAM_CTX_EXP_EXP) (per - 1), x0 := x0, y0 := y0, w := rw, h := rh, clip := cx || cy,
    buf := if layer.isSome then some (b.cam c).buf else if m == .service then some (b.cam c).rawBuf else none,
    base := b.imageBase c, gated := b.camLit c ofs (ofs + min (capF e F.CAM_CTX_EXP_EXP) (per - 1)),
    started := false, lines := 0, short := false, trunc := false,
    lineErr := false, lost := false, hist := List.replicate 64 0, sum := 0, max := 0, above := 0, open' := [],
    closed := [], n12 := [] }

/-- A layer frame that is due falls now (R284, R301): a tick edge has come since phase 2 began, and the layer camera is
in a mode in which it triggers layer frames. -/
def Blk.layerNow (b : Blk) (c : Nat) : Bool :=
  (match (b.cam c).layerDue with | some (_, e) => e | none => false) && b.layerCam c &&
    [Mode.armed, .expose, .hold, .safe].contains (b.mode (dCam c))

/-- The shadows of a camera that commit at its boundary: those of class frame, and all of them at the first boundary of
SETUP (R12, R284). -/
def Blk.camClasses (b : Blk) (c : Nat) : List Cls := if (b.cam c).first then [.frame, .coat] else [.frame]

/-- Where in the present tick a boundary comes, in 10 ns units after its edge: a layer frame's at the edge, the scheduled
one at its time. One whose scheduled time passed while the mode gave no triggers comes at the edge (DESIGN CHOICE: R283
states the grid for a camera that triggers without pause). -/
def Blk.boundaryOfs (b : Blk) (c : Nat) : Option Nat :=
  if b.layerNow c then some 0
  else if b.camTriggers c && decide ((b.cam c).due < b.now10 + b.tick10) then some ((b.cam c).due - b.now10)
  else none

/-- FRAME_BOUNDARY (R283 to R287): the scheduled boundary falls in the present tick, or a layer frame is due. -/
def frameBoundaryProg (c : Nat) : Prog :=
  .get fun b =>
    let layerNow := b.layerNow c
    match b.boundaryOfs c with
    | none => .skip
    | some at' =>
      let per := b.a (Reg.CAM_TIMING c) F.CAM_TIMING_PERIOD
      let len := b.a (Reg.CAM_TIMING c) F.CAM_TIMING_LEN
      if 2 ≤ (b.camBook c).frames.length then
        .seq (setFlag (flCam c 5))
          (progIf (!layerNow) (modCam c fun y => { y with due := b.now10 + at' + per, pos := (y.pos + 1) % (len + 1) }))
      else
        let restart := (b.pendingOf (· == dCam c) .frame).any fun o =>
          o == Reg.CAM_TIMING c || o == Reg.CAM_SCHED c 0 || o == Reg.CAM_SCHED c 1
        progAll [
          commitClasses (· == dCam c) (b.camClasses c),
          modCam c fun y => { y with first := false, pos := if restart then 0 else y.pos },
          .get fun d =>
            let y := d.cam c
            let n := d.a (Reg.CAM_TIMING c) F.CAM_TIMING_LEN + 1
            let ctx := if layerNow then d.a (Reg.CAM_CFG c) F.CAM_CFG_LAYER_CTX
              else if d.mode (dCam c) = .calibrate then d.camSlot c 0 else d.camSlot c (y.pos % n)
            let f := d.newFrame c ctx at' (if layerNow then y.layerDue.map Prod.fst else none)
            progAll [
              setW (Reg.CAM_FRAME c) (BitVec.ofNat 32 f.num),
              camOp c (.trigger f),
              progIf f.clip (setFlag (flCam c 6)),
              emit (.pin "CAM_TRIG" c f.expo),
              modCam c fun z => { z with
                next := (z.next + 1) % 4294967296
                lastBound := f.bound
                lastExp := f.expo
                layerDue := if layerNow then none else z.layerDue
                rawBuf := if f.raw then 1 - z.rawBuf else z.rawBuf
                due := if layerNow then z.due else b.now10 + at' + d.a (Reg.CAM_TIMING c) F.CAM_TIMING_PERIOD
                pos := if layerNow then z.pos else (y.pos + 1) % n }]]

/-! ### Receiving (R282, R288) -/

/-- A frame's flags as it ends. -/
def frameEndFlags (c : Nat) (f : CamFrame) : Prog :=
  progAll [
    progIf f.short (setFlag (flCam c 0)), progIf f.trunc (setFlag (flCam c 1)), progIf f.lost (setFlag (flCam c 3))]

/-- Pixels of an image that were not received read 0: the rest of a line, and lines not received. -/
def padImage (f : CamFrame) : Prog :=
  match f.buf with
  | none => .skip
  | some i =>
    let w := capF f.size F.CAM_SIZE_WIDTH
    let h := capF f.size F.CAM_SIZE_HEIGHT
    progIf (decide (f.lines < h))
      (dramZero 5 (f.base + 33554432 * i + 2 * w * f.lines) (2 * w * (h - f.lines)))

/-- The oldest outstanding frame ends (R288, R289). -/
def endFrame (c : Nat) (mark : CamFrame → CamFrame) : Prog :=
  .get fun b =>
    match (b.camBook c).frames with
    | [] => .skip
    | f0 :: _ =>
      let f := mark f0
      progAll [
        camOp c .finish,
        frameEndFlags c f,
        progIf (!f.lost) (padImage f),
        modCam c fun x => { x with ended := x.ended ++ [f] }]

/-- FRAME_START (R280, R282, R288): a packet of a virtual channel other than 0 leaves no trace. -/
def frameStartProg (c vc : Nat) (hdrBad : Bool) : Prog :=
  .get fun b =>
    if !b.camReceives c then .skip
    else if hdrBad then setFlag (flCam c 8)
    else if vc ≠ 0 then .skip
    else
      .seq
        (match (b.camBook c).frames with
        | f :: _ => progIf f.started (endFrame c fun g => { g with short := true })
        | [] => .skip)
        (.get fun d =>
          match (d.camBook c).frames with
          | [] => .seq (modCam c fun x => { x with discard := true }) (setFlag (flCam c 4))
          | _ => .seq (modCam c fun x => { x with discard := false })
              (camOp c (.touch fun f => { f with started := true })))

/-- The defective columns of a line. -/
def Blk.defectsIn (b : Blk) (c n y : Nat) : List Nat :=
  (List.range n).filterMap fun i =>
    let e := b.winNat (0x600000 + 0x1000 * c + 4 * i) 4
    if bits e 16 12 = y then some (bits e 0 12) else none

/-- The replacement of a defective pixel (R291). -/
def replaceAt (row : List Nat) (bad : List Nat) (x : Nat) : Nat :=
  let ok := fun (i : Nat) => decide (i < row.length) && !bad.contains i
  let left := (([1, 2].filter fun d => decide (d ≤ x) && ok (x - d)).head?).map fun d => row.getD (x - d) 0
  let right := (([1, 2].filter fun d => ok (x + d)).head?).map fun d => row.getD (x + d) 0
  match left, right with
  | some l, some r => (l + r) / 2
  | some l, none => l
  | none, some r => r
  | none, none => 0

def replaceRow (row bad : List Nat) : List Nat :=
  row.zipIdx.map fun (v, x) => if bad.contains x then replaceAt row bad x else v

/-- A pixel normalised to 12 bits: DT 0 RAW8, 1 RAW10, 2 RAW12. -/
def norm12 (dt p : Nat) : Nat :=
  if dt = 0 then p % 256 * 16 else if dt = 1 then p % 1024 * 4 else p % 4096

/-- One bin counted. -/
def binAt : List Nat → Nat → List Nat
  | [], _ => []
  | n :: r, 0 => min 0xFFFF (n + 1) :: r
  | n :: r, i + 1 => n :: binAt r i

/-- Statistics with a value added (R290). -/
def addPixel (thr : Nat) (f : CamFrame) (v : Nat) : CamFrame :=
  { f with
    hist := binAt f.hist (v / 64), sum := min 0xFFFFFFFF (f.sum + v), max := Nat.max f.max v
    above := if thr ≤ v then min 0xFFFFFFFF (f.above + 1) else f.above }

/-! ### Blobs (R293) -/

/-- Runs of above pixels of a line: first and last column, and the peak. -/
def runsOf (thr : Nat) : Nat → List Nat → List (Nat × Nat × Nat)
  | _, [] => []
  | x, v :: r =>
    let rest := runsOf thr (x + 1) r
    if v < thr then rest
    else
      match rest with
      | (a, z, p) :: more => if a = x + 1 then (x, z, max p v) :: more else (x, x, v) :: rest
      | [] => [(x, x, v)]

/-- Sums of x and x² over a run. -/
def sumRun (a z : Nat) : Nat := (List.range (z + 1 - a)).foldl (fun s i => s + (a + i)) 0
def sumRun2 (a z : Nat) : Nat := (List.range (z + 1 - a)).foldl (fun s i => s + (a + i) * (a + i)) 0

/-- Two components joined. -/
def Comp.join (p q : Comp) : Comp :=
  { n := p.n + q.n, sx := p.sx + q.sx, sy := p.sy + q.sy, sxx := p.sxx + q.sxx, syy := p.syy + q.syy,
    sxy := p.sxy + q.sxy, first := min p.first q.first, peak := max p.peak q.peak, edge := p.edge || q.edge,
    prev := p.prev ++ q.prev, cur := p.cur ++ q.cur }

/-- One run met by the open components: it joins all it touches, or begins one (R293). -/
def meetRun (f : CamFrame) (y : Nat) (r : Nat × Nat × Nat) : CamFrame :=
  let (a, z, pk) := r
  let touches := fun (c : Comp) => c.prev.any fun (p, q) => decide (p ≤ z + 1 ∧ a ≤ q + 1)
  let hit := f.open'.filter touches
  let rest := f.open'.filter fun c => !touches c
  let n := z + 1 - a
  let sx := sumRun a z
  let one : Comp :=
    { n := n, sx := sx, sy := n * y, sxx := sumRun2 a z, syy := n * y * y, sxy := sx * y, first := y * 65536 + a,
      peak := pk, edge := a == 0 || z + 1 == f.w || y == 0 || y + 1 == f.h, prev := [], cur := [(a, z)] }
  { f with open' := hit.foldl Comp.join one :: rest }

/-- The components at the end of a line: those it did not touch are closed. -/
def endRow (f : CamFrame) : CamFrame :=
  { f with
    closed := f.closed ++ f.open'.filter fun c => c.cur.isEmpty
    open' := (f.open'.filter fun c => !c.cur.isEmpty).map fun c => { c with prev := c.cur, cur := [] } }

/-- The part of a line inside the ROI. -/
def CamFrame.roiRow (f : CamFrame) (row : List Nat) : List Nat := (row.drop f.x0).take f.w

/-- A line of values into a frame's statistics: the ROI, or the whole frame of a layer image (R290, R301). A whole frame of
the defect map keeps its pixels as received (R298), a dark frame those of the ROI after defect replacement (R297). -/
def processRow (f : CamFrame) (y : Nat) (row n12 dark : List Nat) : CamFrame :=
  let thr := capF f.proc F.CAM_CTX_PROC_THR
  let inRoi := decide (f.y0 ≤ y ∧ y < f.y0 + f.h)
  if f.layer.isSome then row.foldl (addPixel thr) f
  else if f.whole then { f with n12 := f.n12 ++ n12 }
  else if !inRoi then f
  else
    let r := f.roiRow row
    let g := r.foldl (addPixel thr) f
    let k := if f.dark then { g with n12 := g.n12 ++ f.roiRow dark } else g
    endRow ((runsOf thr 0 r).foldl (fun a u => meetRun a (y - f.y0) u) k)

/-- LONG_PACKET (R280, R282, R288, R290): one line of pixels, with its virtual channel, its data type, and the outcomes of
its payload CRC and its header. A packet of another channel or data type leaves no trace. -/
def longPacketProg (c vc ty : Nat) (pixels : List Nat) (crcBad hdrBad : Bool) : Prog :=
  .get fun b =>
    if !b.camReceives c then .skip
    else if hdrBad then setFlag (flCam c 8)
    else if vc ≠ 0 ∨ (b.cam c).discard then .skip
    else
      match (b.camBook c).frames with
      | [] => .skip
      | f :: _ =>
        if !f.started ∨ ty ≠ 0x2A + capF f.cfg F.CAM_CFG_DT then .skip
        else if crcBad then
          .seq (setFlag (flCam c 2)) (camOp c (.touch fun g => { g with lineErr := true }))
        else
          let w := capF f.size F.CAM_SIZE_WIDTH
          let h := capF f.size F.CAM_SIZE_HEIGHT
          if h ≤ f.lines then camOp c (.touch fun g => { g with trunc := true })
          else
            let y := f.lines
            let dt := capF f.cfg F.CAM_CFG_DT
            let n12 := (pixels.take w).map (norm12 dt)
            let bad := b.defectsIn c (capF f.defect F.CAM_DEFECT_DEF_COUNT) y
            let black := capF f.proc F.CAM_CTX_PROC_BLACK
            let gain := capF f.proc F.CAM_CTX_PROC_GAIN
            let v := (replaceRow (n12.map fun n => n - black) bad).map fun x => min 4095 (x * gain / 32)
            let img := if f.raw then n12 else v
            .seq
              (camOp c (.touch fun g =>
                let g1 := { g with
                  lines := g.lines + 1, trunc := g.trunc || decide (w < pixels.length)
                  short := g.short || decide (pixels.length < w) }
                if g.quiet && !g.whole then g1 else processRow g1 y v n12 (replaceRow n12 bad)))
              (match f.buf with
              | some i => dramWrite 5 (f.base + 33554432 * i + 2 * w * y)
                  ((img ++ List.replicate (w - img.length) 0).flatMap fun x => toBytes 2 x)
              | none => .skip)

/-- FRAME_END (R280, R282, R288). -/
def frameEndProg (c vc : Nat) (hdrBad : Bool) : Prog :=
  .get fun b =>
    if !b.camReceives c then .skip
    else if hdrBad then setFlag (flCam c 8)
    else if vc ≠ 0 then .skip
    else if (b.cam c).discard then modCam c fun x => { x with discard := false }
    else
      match (b.camBook c).frames with
      | f :: _ =>
        progIf f.started
          (endFrame c fun g => { g with short := g.short || decide (g.lines < capF g.size F.CAM_SIZE_HEIGHT) })
      | [] => .skip

/-! ### Layer frames that fail (R302) -/

/-- Phase 2 ends without an image. -/
def layerFail (c : Option Nat) : Prog :=
  .seq (modBuild fun x => { x with p2Done := true })
    (match c with
    | some k => setFlag (flCam k 9)
    | none => raiseEvent 0x249 8 noDom (0x1040 + 9 * 2 ^ 24) 0 0)

/-- The layer frame of a camera can no longer be taken: phase 2 ends without an image (DESIGN CHOICE where the camera
leaves ARMED and EXPOSE after step 1 of R301 or its frames are discarded in RESET, of which R302 does not speak). -/
def layerGone (c : Nat) : Prog :=
  .get fun b =>
    progIf ((b.cam c).layerDue.isSome || (b.camBook c).frames.any fun f => f.layer.isSome)
      (.seq (modCam c fun x => { x with layerDue := none }) (layerFail (some c)))

/-- FRAME_LOST (R288, R302): twice PERIOD after the boundary, in the present tick, with no Frame End. -/
def frameLostProg (c : Nat) : Prog :=
  .get fun b =>
    match (b.camBook c).frames with
    | [] => .skip
    | f :: _ =>
      progIf (decide (f.bound + 2 * f.period < b.now10 + b.tick10))
        (.seq (endFrame c fun g => if g.started then { g with short := true } else { g with lost := true })
          (progIf (f.layer.isSome && !f.started) (layerFail (some c))))

/-! ### Statistics (R293 to R296) -/

/-- A fraction to nearest. -/
def roundDiv (x y : Nat) : Nat := if y = 0 then 0 else (2 * x + y) / (2 * y)

/-- The four words of a blob descriptor (R293, R295). -/
def blobWords (k : Comp) : List Word :=
  let n := Int.ofNat k.n
  let a := n * Int.ofNat k.sxx - Int.ofNat k.sx * Int.ofNat k.sx
  let c := n * Int.ofNat k.syy - Int.ofNat k.sy * Int.ofNat k.sy
  let d := n * Int.ofNat k.sxy - Int.ofNat k.sx * Int.ofNat k.sy
  let s := Int.ofNat (isqrt (((a - c) * (a - c) + 4 * d * d) * 1152921504606846976).toNat)
  let t := (a + c) * 1073741824
  let axis := fun (v : Int) => (isqrt ((16384 * v) / (2147483648 * n * n)).toNat + 1) / 2
  let ang := ((angleOf (a - c) (2 * d) + 32768) / 65536) % 65536
  let w := BitVec.ofNat 32
  [w (k.n % 2 ^ 17 + b2n k.edge * 2 ^ 31), w (roundDiv (16 * k.sx) k.n + roundDiv (16 * k.sy) k.n * 65536),
    w (axis (t + s) + axis (t - s) * 65536), w (ang.toNat + k.peak * 65536)]

/-- LENGTH and WIDTH of a blob. -/
def blobAxes (k : Comp) : Nat × Nat :=
  let w := ((blobWords k).getD 2 0).toNat
  (w % 65536, w / 65536)

/-- Blobs in descending area, equal areas by raster position. -/
def insBlob (x : Comp) : List Comp → List Comp
  | [] => [x]
  | y :: ys => if y.n < x.n ∨ (y.n = x.n ∧ x.first < y.first) then x :: y :: ys else y :: insBlob x ys

/-- A component put in its place by raster position of its first pixel. -/
def insFirst (x : Comp) : List Comp → List Comp
  | [] => [x]
  | y :: ys => if x.first < y.first then x :: y :: ys else y :: insFirst x ys

/-- More components than the frame's 1,024 (R293). -/
def CamFrame.overflow (f : CamFrame) : Bool := decide (1024 < f.closed.length + f.open'.length)

/-- Components of a frame that count as blobs, and the number of spatter: of more than 1,024 components the first ones in
raster order (R293). -/
def CamFrame.blobs (f : CamFrame) : List Comp × Nat :=
  let all := ((f.closed ++ f.open').foldl (fun l k => insFirst k l) []).take 1024
  let sp := capF f.expw F.CAM_CTX_EXP_SPAT_AREA
  ((all.filter fun k => decide (sp < k.n)).foldl (fun l k => insBlob k l) [],
    (all.filter fun k => decide (k.n ≤ sp)).length)

/-- The statistics entry of a frame (R295). -/
def statsWords (c : Nat) (f : CamFrame) (fed : Bool) : List Word :=
  let w := BitVec.ofNat 32
  let (bl, sp) := if f.layer.isSome then ([], 0) else f.blobs
  let hd := capF f.expw F.CAM_CTX_EXP_HEAD
  let en := capF f.expw F.CAM_CTX_EXP_HEAD_EN
  let flags := b2n f.short + b2n f.trunc * 2 + b2n f.lineErr * 4 + b2n f.lost * 8 + b2n f.idle * 16 + b2n fed * 32 +
    b2n f.layer.isSome * 64 + b2n f.dark * 128 + b2n f.clip * 256 + b2n (decide (4 < bl.length)) * 512 +
    b2n f.overflow * 1024
  let desc := (List.range 4).flatMap fun i =>
    match bl[i]? with | some k => blobWords k | none => [0, 0, 0, 0]
  [w (0x20 + f.ctx * 65536 + c * 2 ^ 20), w f.num, w (f.gen + hd * 65536 + en * 2 ^ 21), w flags, w f.tick, w f.ofs,
    w f.expo, w f.lines] ++ desc ++
  ((List.range 32).map fun i => w (f.hist.getD (2 * i) 0 + f.hist.getD (2 * i + 1) 0 * 65536)) ++
  [w (f.x0 + f.y0 * 65536), w (min 0xFFFF bl.length + min 0xFFFF sp * 65536), w f.sum, w f.max, w f.above, 0, 0, 0]

/-- A frame's pixels added to its context's dark sum (R297). -/
def addDark (l : List DarkSum) (ctx : Nat) (px : List Nat) : List DarkSum :=
  match l with
  | [] => [⟨ctx, 1, px.sum, px.length, false⟩]
  | d :: r => if d.ctx = ctx then
      (if d.frames < 16 then { d with frames := d.frames + 1, sum := d.sum + px.sum, count := d.count + px.length } else d) :: r
    else d :: addDark r ctx px

/-- Two lists added pixel by pixel; the longer one's tail stays. -/
def addLists : List Nat → List Nat → List Nat
  | [], l => l
  | l, [] => l
  | x :: xs, y :: ys => (x + y) :: addLists xs ys

/-- A layer or service image is complete: CAM_IMG names it (R301, R302). -/
def imageDone (c : Nat) (f : CamFrame) : Prog :=
  match f.buf with
  | none => .skip
  | some i =>
    .seq
      (setW64 (Reg.CAM_IMG c i)
        (f.layer.getD 0 + 2 ^ 24 + capF f.size F.CAM_SIZE_WIDTH * 2 ^ 32 + capF f.size F.CAM_SIZE_HEIGHT * 2 ^ 48))
      (progIf f.layer.isSome (modCam c fun x => { x with buf := 1 - i }))

/-- What a frame gives the outer loop of its head (R274). -/
def CamFrame.geo (f : CamFrame) (b : Blk) (c : Nat) : GeoFrame :=
  let hd := capF f.expw F.CAM_CTX_EXP_HEAD
  { first := f.tick, last := f.last, stats := b.aux.clk.tick,
    bad := f.short || f.trunc || f.lost,
    blob := (f.blobs.1.head?).map fun k => let x := blobAxes k; (k.n, x.1, x.2),
    feeds := matrixO (b.mode hd) (b.mode (dCam c)) }

/-- STATS_COMPLETE (R294 to R296, R301): the statistics of the oldest ended frame. -/
def statsCompleteProg (c : Nat) : Prog :=
  .get fun b =>
    match (b.cam c).ended with
    | [] => .skip
    | f :: _ =>
      let hd := capF f.expw F.CAM_CTX_EXP_HEAD
      let en := capF f.expw F.CAM_CTX_EXP_HEAD_EN == 1
      let fed := en && f.layer.isNone && matrixO (b.mode hd) (b.mode (dCam c)) && !f.quiet && !f.dark
      let ws := statsWords c f fed
      let div := 2 ^ capF f.cfg F.CAM_CFG_STATS_DIV
      progAll [
        modCam c fun x => { x with ended := x.ended.tail },
        progIf f.overflow (setFlag (flCam c 7)),
        progIf (en && f.layer.isNone && !f.quiet && !f.dark) (outerFrame hd (f.geo b c)),
        progIf (f.dark && !f.gated && !f.n12.isEmpty)
          (modCam c fun x => { x with dark := addDark x.dark f.ctx f.n12 }),
        progIf (f.whole && f.layer.isNone && !f.gated && !f.short && !f.lost)
          (modCam c fun x => if x.mapFrames < 16 then
            { x with mapFrames := x.mapFrames + 1, mapSum := addLists x.mapSum f.n12 } else x),
        progIf (!f.lost) (imageDone c f),
        progIf f.layer.isSome (modBuild fun x => { x with p2Done := true }),
        progIf (!f.quiet && capF f.cfg F.CAM_CFG_STATS_EN == 1 && f.num % div == 0) (deliver (80 + c) ws),
        progIf (f.recorded.isSome && f.recorded == b.aux.store.cur) (stageSection 0x0007 1 c (ws.flatMap wordBytes))]

/-! ### Dark reference and defect map (R297, R298) -/

/-- DARK_REFERENCE (R297): each context of which 16 dark frames have been taken in HOME gets its BLACK, and the camera
leaves HOME when every context of the schedule has. A frame without a pixel is no such frame. -/
def darkReferenceProg (c : Nat) : Prog :=
  .get fun b =>
    let x := b.cam c
    let ctxs := b.camContexts c
    let full := fun (d : DarkSum) => decide (16 ≤ d.frames)
    progIf (b.mode (dCam c) == .home)
      (progAll [
        progEach (x.dark.filter fun d => ctxs.contains d.ctx && full d && !d.written) fun d =>
          deviceWrite (Reg.CAM_CTX_PROC c d.ctx) F.CAM_CTX_PROC_BLACK (min 4095 (roundDiv d.sum d.count)),
        modCam c fun y => { y with
          dark := y.dark.map fun d => if ctxs.contains d.ctx && full d then { d with written := true } else d },
        progIf (ctxs.all fun k => x.dark.any fun d => d.ctx == k && full d) (requestMode (dCam c) .setup .done)])

/-- Entries written to a camera's defect list. -/
def writeDefects (c w : Nat) (l : List Nat) : Prog :=
  winWrite (0x600000 + 0x1000 * c) (l.flatMap fun p => toBytes 4 (p % w + p / w * 65536))

/-- DEFECT_MAP (R298): 16 dark whole frames in CALIBRATE give the list of defective pixels. -/
def defectMapProg (c : Nat) : Prog :=
  .get fun b =>
    let x := b.cam c
    let total := x.mapSum.sum
    let n := x.mapSum.length
    let thr := b.a (Reg.CAM_DEFECT c) F.CAM_DEFECT_DEF_THR
    let bad := (x.mapSum.zipIdx.filter fun (s, _) =>
      decide (thr * 16 * n < s * n - total) || decide (thr * 16 * n < total - s * n)).map fun (_, i) => i
    let w := b.a (Reg.CAM_SIZE c) F.CAM_SIZE_WIDTH
    if b.mode (dCam c) ≠ .calibrate ∨ x.mapFrames < 16 ∨ x.mapOk.isSome then .skip
    else if 1024 < bad.length then modCam c fun y => { y with mapOk := some false }
    else
      progAll [
        writeDefects c w bad,
        deviceWrite (Reg.CAM_DEFECT c) F.CAM_DEFECT_DEF_COUNT bad.length,
        modCam c fun y => { y with mapOk := some true }]

/-- CAM_IMAGE_READ (R303). -/
def camImageReadProg (ring : Nat) : Prog :=
  descr ring 0x22 false fun ws =>
    .get fun b =>
      let c := bits (dw ws 1) 0 3
      let i := bits (dw ws 1) 3 1
      let img := Reg.CAM_IMG c i
      let w := bits (b.w (img + 4)).toNat 0 13
      let h := bits (b.w (img + 4)).toNat 16 13
      let busy := (b.camBook c).frames.any (fun f => f.buf == some i) || (b.cam c).ended.any (fun f => f.buf == some i)
      let at' := b.imageBase c + 33554432 * i

      checked ring
        (firstFail [
          fieldFail ws [⟨1, 0xF, fun _ => true⟩, anyW 2, anyW 3, anyW 4],
          lenFail ws 4 0xFFFFFFFF false,
          need (decide (w * h * 2 ≤ dw ws 4)) 0x06 4,
          alignFail ws 2 64,
          need (!busy) 0x55 0,
          need (b.f img F.CAM_IMG_VALID == 1) 0x56 0])
        (match b.badLine at' (2 * w * h) with
        | some l => .seq (badRead 5 l) (complete ring 0x5D 0)
        | none =>
          .seq (emit (.hostWrite (addr64 ws 2) (bytesToWords (b.dramRead at' (2 * w * h)))))
            (completeOk ring (b.f img F.CAM_IMG_COAT % 65536)))

/-- What a tick edge means to a camera: frames in exposure note the tick and the gates of it (R274, R297, R298), and a
layer frame that waits for the next tick edge may fall (R301); where its camera cannot take it, phase 2 ends. -/
def camEdge (c : Nat) : Prog :=
  .get fun b =>
    .seq
      (camOp c (.touchAll fun f =>
        if b.now10 < f.bound + f.expo then
          { f with last := b.aux.clk.tick, gated := f.gated || b.camLit c 0 (f.bound + f.expo - b.now10) }
        else f))
      (match (b.cam c).layerDue with
      | some (n, _) =>
        if [Mode.armed, .expose, .hold, .safe, .drain].contains (b.mode (dCam c)) then
          modCam c fun x => { x with layerDue := some (n, true) }
        else layerGone c
      | none => .skip)

end Sys2Proof.Machine
end

