-- ==== Sys2Proof/Machine/Crypto.lean ====
section
/-!
DEFINITION. The cryptographic functions the spec names by their standards: SHA-256, HMAC-SHA-256 and the
verification of ECDSA P-256 signatures. Their definitions are the standards' own (PRESUMED: the spec only
names them).
-/
namespace Sys2Proof.Machine

def rotr (n x : Nat) : Nat := x / 2 ^ n + x % 2 ^ n * 2 ^ (32 - n)

def xor3 (a b c : Nat) : Nat := Nat.xor (Nat.xor a b) c

def add32 (a b : Nat) : Nat := (a + b) % 4294967296

def shaK : List Nat :=
  [0x428A2F98, 0x71374491, 0xB5C0FBCF, 0xE9B5DBA5, 0x3956C25B, 0x59F111F1, 0x923F82A4, 0xAB1C5ED5] ++
  [0xD807AA98, 0x12835B01, 0x243185BE, 0x550C7DC3, 0x72BE5D74, 0x80DEB1FE, 0x9BDC06A7, 0xC19BF174] ++
  [0xE49B69C1, 0xEFBE4786, 0x0FC19DC6, 0x240CA1CC, 0x2DE92C6F, 0x4A7484AA, 0x5CB0A9DC, 0x76F988DA] ++
  [0x983E5152, 0xA831C66D, 0xB00327C8, 0xBF597FC7, 0xC6E00BF3, 0xD5A79147, 0x06CA6351, 0x14292967] ++
  [0x27B70A85, 0x2E1B2138, 0x4D2C6DFC, 0x53380D13, 0x650A7354, 0x766A0ABB, 0x81C2C92E, 0x92722C85] ++
  [0xA2BFE8A1, 0xA81A664B, 0xC24B8B70, 0xC76C51A3, 0xD192E819, 0xD6990624, 0xF40E3585, 0x106AA070] ++
  [0x19A4C116, 0x1E376C08, 0x2748774C, 0x34B0BCB5, 0x391C0CB3, 0x4ED8AA4A, 0x5B9CCA4F, 0x682E6FF3] ++
  [0x748F82EE, 0x78A5636F, 0x84C87814, 0x8CC70208, 0x90BEFFFA, 0xA4506CEB, 0xBEF9A3F7, 0xC67178F2]

def shaInit : List Nat :=
  [0x6A09E667, 0xBB67AE85, 0x3C6EF372, 0xA54FF53A, 0x510E527F, 0x9B05688C, 0x1F83D9AB, 0x5BE0CD19]

/-- The message schedule, newest word first. -/
def shaExtend : Nat → List Nat → List Nat
  | 0, w => w
  | n + 1, w =>
    let a := w.getD 14 0
    let e := w.getD 1 0
    let s0 := xor3 (rotr 7 a) (rotr 18 a) (a / 8)
    let s1 := xor3 (rotr 17 e) (rotr 19 e) (e / 1024)
    shaExtend n (add32 (w.getD 15 0 + s0) (w.getD 6 0 + s1) :: w)

/-- One round on the working variables a to h. -/
def shaRound (v : List Nat) (kw : Nat) : List Nat :=
  match v with
  | [a, b, c, d, e, f, g, h] =>
    let s1 := xor3 (rotr 6 e) (rotr 11 e) (rotr 25 e)
    let ch := Nat.xor (Nat.land e f) (Nat.land (4294967295 - e) g)
    let t1 := h + s1 + ch + kw
    let s0 := xor3 (rotr 2 a) (rotr 13 a) (rotr 22 a)
    let maj := xor3 (Nat.land a b) (Nat.land a c) (Nat.land b c)
    [add32 t1 (s0 + maj), a, b, c, add32 d t1, e, f, g]
  | _ => v

/-- One 64-byte block, as 16 big-endian words. -/
def shaBlock (h : List Nat) (w : List Nat) : List Nat :=
  let ws := (shaExtend 48 w.reverse).reverse
  List.zipWith add32 h ((List.zipWith (· + ·) shaK ws).foldl shaRound h)

/-- The big-endian value of bytes. -/
def beBytes (bs : List Byte) : Nat := bs.foldl (fun n b => n * 256 + b.toNat) 0

/-- `n` big-endian bytes of a value. -/
def toBytesBE (n x : Nat) : List Byte := (toBytes n x).reverse

/-- Bytes as big-endian words. -/
def beWords : Nat → List Byte → List Nat
  | 0, _ => []
  | n + 1, bs => beBytes (bs.take 4) :: beWords n (bs.drop 4)

def shaBlocks : Nat → List Byte → List Nat → List Nat
  | 0, _, h => h
  | n + 1, bs, h => shaBlocks n (bs.drop 64) (shaBlock h (beWords 16 (bs.take 64)))

/-- SHA-256 as 32 bytes. -/
def sha256 (bs : List Byte) : List Byte :=
  let pad := (119 - bs.length % 64) % 64
  let m := bs ++ [0x80] ++ List.replicate pad 0 ++ toBytesBE 8 (8 * bs.length)
  (shaBlocks (m.length / 64) m shaInit).flatMap (toBytesBE 4)

/-- HMAC-SHA-256. -/
def hmacSha256 (key msg : List Byte) : List Byte :=
  let k0 := if 64 < key.length then sha256 key else key
  let k := k0 ++ List.replicate (64 - k0.length) 0
  sha256 (k.map (· ^^^ 0x5C) ++ sha256 (k.map (· ^^^ 0x36) ++ msg))

/-! ### P-256 -/

def p256P : Nat := 0xFFFFFFFF00000001000000000000000000000000FFFFFFFFFFFFFFFFFFFFFFFF
def p256N : Nat := 0xFFFFFFFF00000000FFFFFFFFFFFFFFFFBCE6FAADA7179E84F3B9CAC2FC632551
def p256B : Nat := 0x5AC635D8AA3A93E7B3EBBD55769886BC651D06B0CC53B0F63BCE3C3E27D2604B
def p256G : Nat × Nat :=
  (0x6B17D1F2E12C4247F8BCE6E563A440F277037D812DEB33A0F4A13945D898C296,
    0x4FE342E2FE1A7F9B8EE7EB4A7C0F9E162BCE33576B315ECECBB6406837BF51F5)

/-- x to the n modulo m. -/
def powMod (m : Nat) : Nat → Nat → Nat → Nat
  | 0, _, _ => 1 % m
  | fuel + 1, x, n =>
    if n = 0 then 1 % m
    else
      let r := powMod m fuel (x * x % m) (n / 2)
      if n % 2 = 1 then x * r % m else r

/-- The inverse modulo a prime. -/
def invMod (m x : Nat) : Nat := powMod m 260 (x % m) (m - 2)

/-- The sum of two points of the curve; none is the point at infinity. -/
def ecAdd (a b : Option (Nat × Nat)) : Option (Nat × Nat) :=
  let p := p256P
  match a, b with
  | none, q => q
  | q, none => q
  | some (x1, y1), some (x2, y2) =>
    if x1 = x2 ∧ (y1 + y2) % p = 0 then none
    else
      let l := if x1 = x2 then (3 * x1 * x1 + (p - 3)) % p * invMod p (2 * y1) % p
        else (y2 + (p - y1)) % p * invMod p (x2 + (p - x1)) % p
      let x3 := (l * l + (2 * p - x1 - x2)) % p
      some (x3, (l * (x1 + (p - x3)) + (p - y1)) % p)

/-- A multiple of a point. -/
def ecMul : Nat → Nat → Option (Nat × Nat) → Option (Nat × Nat)
  | 0, _, _ => none
  | fuel + 1, n, q =>
    if n = 0 then none
    else
      let r := ecMul fuel (n / 2) (ecAdd q q)
      if n % 2 = 1 then ecAdd q r else r

/-- The ECDSA P-256 verification of a signature on a SHA-256 digest. -/
def ecdsaVerify (key : Nat × Nat) (digest : List Byte) (r s : Nat) : Bool :=
  let p := p256P
  let n := p256N
  let (x, y) := key
  decide (x < p ∧ y < p) && (y * y) % p == (x * x * x + (p - 3) * x + p256B) % p &&
    decide (0 < r ∧ r < n ∧ 0 < s ∧ s < n) &&
    ((ecAdd (ecMul 260 (beBytes digest * invMod n s % n) (some p256G))
      (ecMul 260 (r * invMod n s % n) (some key))).map fun v => v.1 % n) == some r

end Sys2Proof.Machine
end

