-- ==== Sys2Proof/Machine/Encoder.lean ====
section
/-!
DEFINITION. Encoders (R344 to R349), position compare (R357, R358), divided outputs and pass-through
(R359, R360).
-/
namespace Sys2Proof.Machine

def Blk.mot (b : Blk) (a : Nat) : Mot := b.aux.mots.getD a Mot.init

def modMot (a : Nat) (f : Mot → Mot) : Prog := modAux fun x => { x with mots := x.mots.modify a f }

def Blk.enc (b : Blk) (e : Nat) : Enc := b.aux.encs.getD e Enc.init

def modEnc (e : Nat) (f : Enc → Enc) : Prog := modAux fun a => { a with encs := a.encs.modify e f }

/-- MOT_AXIS_POS. -/
def Blk.axisPos (b : Blk) (a : Nat) : Int := intW (b.w (Reg.MOT_AXIS_POS a))

/-- ENC_POS and H (R344, R347). -/
def Blk.encPos (b : Blk) (e : Nat) : Int := intW (b.w (Reg.ENC_POS e))
def Blk.encH (b : Blk) (e : Nat) : Int := intW (b.w (Reg.ENC_HPOS e))

/-- D is down. -/
def Blk.encDown (b : Blk) (e : Nat) : Bool := b.f (Reg.ENC_STAT e) F.ENC_STAT_DIR == 1

/-- An encoder is INVALID while ENC_FAULT is set (R345). -/
def Blk.encInvalid (b : Blk) (e : Nat) : Bool := b.flag (flEnc e 1)

/-- An encoder in SSI mode. -/
def Blk.ssiMode (b : Blk) (e : Nat) : Bool := b.a (Reg.ENC_CFG e) F.ENC_CFG_MODE == 1

/-- The feedback encoder of an axis, where one is named. -/
def Blk.fbEnc (b : Blk) (a : Nat) : Option Nat :=
  if b.a (Reg.MOT_AXIS_CFG a) F.MOT_AXIS_CFG_FB_EN = 1 then some (b.a (Reg.MOT_AXIS_CFG a) F.MOT_AXIS_CFG_FB_ENC)
  else none

/-! ### Position compare (R357, R358) -/

/-- A crossing of a position upward or downward. -/
def crossed (down : Bool) (pos old new : Int) : Bool :=
  if down then decide (pos < old ∧ new ≤ pos) else decide (old < pos ∧ pos ≤ new)

/-- The upper word of MOT_AXIS_CMP. -/
def Blk.cmpHi (b : Blk) (a : Nat) : Nat := (b.w (Reg.MOT_AXIS_CMP a + 4)).toNat
def Blk.cmpArmed (b : Blk) (a : Nat) : Bool := bit (b.cmpHi a) 0
def Blk.cmpFb (b : Blk) (a : Nat) : Bool := bit (b.cmpHi a) 1
def Blk.cmpDown (b : Blk) (a : Nat) : Bool := bit (b.cmpHi a) 2
def Blk.cmpPos (b : Blk) (a : Nat) : Int := intW (b.w (Reg.MOT_AXIS_CMP a))

/-- The compare source's value. -/
def Blk.cmpSource (b : Blk) (a : Nat) : Int :=
  if b.cmpFb a then b.encH (b.a (Reg.MOT_AXIS_CFG a) F.MOT_AXIS_CFG_FB_ENC) else b.axisPos a

/-- COMPARE_BEHIND when the source lies at or beyond CMP_POS (R358). -/
def compareBehind (a : Nat) : Prog :=
  progWhen (fun b => b.cmpArmed a &&
      (if b.cmpDown a then decide (b.cmpSource a ≤ b.cmpPos a) else decide (b.cmpPos a ≤ b.cmpSource a)))
    (setFlag (flMot a 6))

/-- Divided output `x` is a compare output of an axis. -/
def Blk.isCompareOut (b : Blk) (x a : Nat) : Bool :=
  b.a (Reg.MOT_DIV_CFG x) F.MOT_DIV_CFG_EN == 1 && b.a (Reg.MOT_DIV_CFG x) F.MOT_DIV_CFG_MODE == 1 &&
    b.a (Reg.MOT_DIV_CFG x) F.MOT_DIV_CFG_CAXIS == a

/-- Compare fires (R357). -/
def compareFire (a : Nat) : Prog :=
  .get fun b =>
    let inc := sgn 16 (bits (b.cmpHi a) 16 16)
    progAll [
      progEach ((List.range 4).filter fun x => b.isCompareOut x a) fun x =>
        emit (.pin "DIVOUT_A" x (bits (b.cmpHi a) 4 12)),
      setFlag (flMot a 7),
      if inc = 0 then setF (Reg.MOT_AXIS_CMP a + 4) ⟨0, 1⟩ 0
      else .seq (setW (Reg.MOT_AXIS_CMP a) (wordI (b.cmpPos a + inc))) (compareBehind a)]

/-- The commanded position of an axis moved from `old` to `new` by a step. -/
def compareStep (a : Nat) (old new : Int) : Prog :=
  progWhen (fun b => b.cmpArmed a && !b.cmpFb a && crossed (b.cmpDown a) (b.cmpPos a) old new) (compareFire a)

/-- H of an encoder moved from `old`. -/
def compareEnc (e : Nat) (old : Int) : Prog :=
  progEach (List.range 12) fun a =>
    progWhen (fun b => b.cmpArmed a && b.cmpFb a && b.a (Reg.MOT_AXIS_CFG a) F.MOT_AXIS_CFG_FB_ENC == e &&
        b.encDown e == b.cmpDown a && crossed (b.cmpDown a) (b.cmpPos a) old (b.encH e)) (compareFire a)

/-! ### Counting -/

/-- H and D follow the position (R347). -/
def filterH (e : Nat) : Prog :=
  .get fun b =>
    let p := b.encPos e
    let h := b.encH e
    let hy := Int.ofNat (b.a (Reg.ENC_CFG e) F.ENC_CFG_HYST)
    let turn := if b.encDown e then decide (h + hy < p) else decide (p < h - hy)
    let move := if b.encDown e then decide (p < h) else decide (h < p)
    if turn then
      progAll [
        setW (Reg.ENC_HPOS e) (wordI p),
        setF (Reg.ENC_STAT e) F.ENC_STAT_DIR (1 - b.f (Reg.ENC_STAT e) F.ENC_STAT_DIR),
        modEnc e fun x => { x with turned := true },
        compareEnc e h]
    else progIf move (.seq (setW (Reg.ENC_HPOS e) (wordI p)) (compareEnc e h))

/-- A QERR or SSI_ERR counts in the window of QERR_WIN ms it falls in, multiples of it of TB2; more than
QERR_MAX set ENC_FAULT (R345). -/
def encError (e i : Nat) : Prog :=
  .get fun b =>
    let win := b.a (Reg.ENC_QCFG e) F.ENC_QCFG_QERR_WIN
    let w := b.ms2 / win
    let x := b.enc e
    let n := if x.errFrom = w then x.errs + 1 else 1
    progAll [
      setFlag (flEnc e i),
      setW (Reg.ENC_QERRS e) (b.w (Reg.ENC_QERRS e) + 1),
      modEnc e fun y => { y with errs := n, errFrom := w },
      progIf (n == b.a (Reg.ENC_QCFG e) F.ENC_QCFG_QERR_MAX + 1) (setFlag (flEnc e 1))]

/-- Quadrature levels as a step of the cycle in which A leads B upward. -/
def quadPhase (a c : Bool) : Nat := if !a && !c then 0 else if a && !c then 1 else if a && c then 2 else 3

/-- The levels of a divided output at a phase. -/
def divPins (x ph : Nat) : Prog :=
  .seq (emit (.pin "DIVOUT_A" x (b2n (ph == 1 || ph == 2)))) (emit (.pin "DIVOUT_B" x (b2n (ph == 2 || ph == 3))))

def Blk.divOut (b : Blk) (x : Nat) : DivOut := b.aux.divs.getD x DivOut.init

def modDiv (x : Nat) (f : DivOut → DivOut) : Prog := modAux fun a => { a with divs := a.divs.modify x f }

/-- One count of a divided output is issued. -/
def divCount (x : Nat) (pos : Bool) : Prog :=
  .get fun b =>
    let ph := ((b.divOut x).phase + if pos then 1 else 3) % 4
    .seq (modDiv x fun d => { d with phase := ph, room := d.room - 1 }) (divPins x ph)

/-- A count reaches a divided output: it is issued, waits, or is lost (R359). -/
def divIssue (x : Nat) (pos : Bool) : Prog :=
  .get fun b =>
    let d := b.divOut x
    if d.waiting.isEmpty && decide (0 < d.room) then divCount x pos
    else if d.waiting.length < 65535 then modDiv x fun y => { y with waiting := y.waiting ++ [pos] }
    else setFlag (flDivOvf x)

/-- Counts that wait are issued at a tick edge as far as 40 ns apart allows. -/
def divTick (x : Nat) : Prog :=
  .get fun b =>
    let n := b.tick10 / 4
    let d := b.divOut x
    .seq (modDiv x fun y => { y with room := n, waiting := y.waiting.drop n })
      (progEach (d.waiting.take n) (divCount x))

/-- A divided output of an encoder takes a count. -/
def Blk.isDivOf (b : Blk) (x e : Nat) : Bool :=
  b.a (Reg.MOT_DIV_CFG x) F.MOT_DIV_CFG_EN == 1 && b.a (Reg.MOT_DIV_CFG x) F.MOT_DIV_CFG_MODE == 0 &&
    b.a (Reg.MOT_DIV_CFG x) F.MOT_DIV_CFG_SRC == e

/-- One count of an encoder feeds a divided output (R359). -/
def divFeed (x : Nat) (pos : Bool) : Prog :=
  .get fun b =>
    let n := Int.ofNat (bits (b.w (actOff (Reg.MOT_DIV_CFG x) + 4)).toNat 0 16)
    let m := Int.ofNat (bits (b.w (actOff (Reg.MOT_DIV_CFG x) + 4)).toNat 16 16)
    let acc := (b.divOut x).acc + if pos then n else -n
    if m ≤ acc then .seq (modDiv x fun d => { d with acc := acc - m }) (divIssue x true)
    else if acc ≤ -m then .seq (modDiv x fun d => { d with acc := acc + m }) (divIssue x false)
    else modDiv x fun d => { d with acc := acc }

/-- One count of the true position (R344). -/
def countEnc (e : Nat) (pos : Bool) : Prog :=
  .get fun b =>
    progAll [
      setW (Reg.ENC_POS e) (b.w (Reg.ENC_POS e) + if pos then 1 else -1),
      filterH e,
      progEach ((List.range 4).filter fun x => b.isDivOf x e) fun x => divFeed x pos]

/-- The latch point of homing with HOME_MODE 2: the first index event of FB_ENC in step 4 after the home
input became active (R354). -/
def homeIndex (e : Nat) : Prog :=
  progEach (List.range 12) fun a =>
    progWhen (fun b => b.fbEnc a == some e && (b.mot a).home == 4 && (b.mot a).homeMark.isSome &&
        (b.mot a).latch.isNone && b.a (Reg.MOT_AXIS_CFG a) F.MOT_AXIS_CFG_HOME_MODE == 2)
      (.get fun b => modMot a fun x => { x with latch := some (b.axisPos a) })

/-- An accepted rising edge of the index line (R348). -/
def indexEdge (e : Nat) : Prog :=
  .get fun b =>
    let x := b.enc e
    let h := b.encH e
    let lines := Int.ofNat (b.a (Reg.ENC_CHK e) F.ENC_CHK_LINES)
    let tol := Int.ofNat (b.a (Reg.ENC_CHK e) F.ENC_CHK_IDX_TOL)
    let dist := match x.idxH with | some h0 => if h0 ≤ h then h - h0 else h0 - h | none => lines
    let far := decide (lines ≤ 2 * dist)
    let checks := x.idxH.isSome && !x.turned
    let bad := checks && decide (tol < (if lines ≤ dist then dist - lines else lines - dist))
    progIf far
      (progAll [
        setW (Reg.ENC_IDXPOS e) (b.w (Reg.ENC_POS e)),
        modEnc e fun y => { y with
          idxH := some h, turned := false, bad := if checks then bad else y.bad,
          up := y.up + b2n (checks && !b.encDown e), down := y.down + b2n (checks && b.encDown e),
          fails := y.fails + b2n bad },
        progIf (bad && !x.bad) (setFlag (flEnc e 3)),
        homeIndex e])

/-- The levels of a group's pass-through outputs A, B and Z: those accepted of its encoder's lines, low with PASS_EN 0 and
with an encoder in SSI mode (R360). -/
def Blk.passLevels (b : Blk) (g : Nat) : Bool × Bool × Bool :=
  let e := b.a (Reg.MOT_GRP_CFG g) F.MOT_GRP_CFG_PASS_ENC
  if b.a (Reg.MOT_GRP_CFG g) F.MOT_GRP_CFG_PASS_EN == 1 && !b.ssiMode e then ((b.enc e).a, (b.enc e).b, (b.enc e).z)
  else (false, false, false)

/-- ENCODER_EDGE (R344, R345, R348, R359): the levels accepted after an edge of the lines. In SSI mode the
lines are data and clock and nothing counts. -/
def encoderEdgeProg (e : Nat) (la lb lz : Bool) : Prog :=
  .get fun b =>
    let x := b.enc e
    let d := (quadPhase la lb + 4 - quadPhase x.a x.b) % 4
    let inv := b.a (Reg.ENC_CFG e) F.ENC_CFG_INV == 1
    .seq (modEnc e fun y => { y with a := la, b := lb, z := lz })
      (progIf (!b.ssiMode e && !b.tests (58 + e / 4))
        (progAll [
          if d = 2 then encError e 0 else progIf (d != 0) (countEnc e ((d == 1) != inv)),
          progIf (lz && !x.z && b.a (Reg.ENC_CFG e) F.ENC_CFG_IDX_EN == 1) (indexEdge e)]))

/-! ### SSI and speed -/

/-- Gray code to binary, most significant bit first. -/
def grayBits : Nat → Nat → Nat
  | 0, g => g
  | n + 1, g => grayBits n (Nat.xor g (g / 2 ^ 2 ^ n))

/-- SSI_READ (R346): a whole read, `data` the word clocked in, none where the data line was 0 before the
first clock or at SSI_PAUSE after the last. The first reading only sets the reference; a reading in error does not
(DEDUCED: the difference is from the last reading that moved the position). -/
def ssiReadProg (e : Nat) (data : Option Nat) : Prog :=
  .get fun b =>
    let f := fun fl => b.a (Reg.ENC_CFG e) fl
    let n := f F.ENC_CFG_SSI_BITS
    let x := b.enc e
    let due := x.ssiAt + f F.ENC_CFG_SSI_PAUSE * 100
    if !b.ssiMode e || decide (b.now10 < due) then .skip
    else
      let mark := modEnc e fun y => { y with ssiAt := b.now10 + n * 1000 / f F.ENC_CFG_SSI_CLK }
      match data with
      | none => .seq mark (encError e 2)
      | some raw =>
        let g := raw % 2 ^ n
        let v := if f F.ENC_CFG_SSI_GRAY = 1 then grayBits 5 g else g
        match x.ssi with
        | none => .seq mark (modEnc e fun y => { y with ssi := some v })
        | some v0 =>
          let d := sgn n (v + 2 ^ n - v0)
          if Int.ofNat (2 ^ (n - 2)) < (if 0 ≤ d then d else -d) then .seq mark (encError e 2)
          else
            progAll [
              mark,
              modEnc e fun y => { y with ssi := some v },
              setW (Reg.ENC_POS e) (wordI (b.encPos e + d)),
              filterH e]

/-- ENC_SPEED_WINDOW (R349): a window of WIN_US has ended. -/
def encSpeedProg (e : Nat) : Prog :=
  .get fun b =>
    let x := b.enc e
    let till := x.spdFrom + 100 * b.a (Reg.ENC_WIN e) F.ENC_WIN_WIN_US
    progIf (decide (till < b.now10 + b.tick10))
      (.seq (setW (Reg.ENC_SPEED e) (wordI (b.encPos e - x.spdPos)))
        (modEnc e fun y => { y with spdPos := b.encPos e, spdFrom := till }))

end Sys2Proof.Machine
end

