-- ==== Sys2Proof/Machine/Motion.lean ====
section
/-!
DEFINITION. Motion axes (R326 to R343, R350 to R356): move profiles, steps fixed ahead, limits, homing,
carriage programs, electronic gearing, stall detection. Travel is held in 2⁻¹⁶ step and time in ps.
-/
namespace Sys2Proof.Machine

/-- STEP/s as 2⁻¹⁶ step/s. -/
def stepsU (v : Nat) : Int := Int.ofNat (v * 65536)

/-- The group's domain of an axis. -/
def axisDom (a : Nat) : Nat := dGroup (a / 3)

/-- The whole active word of a register. -/
def Blk.an (b : Blk) (off : Nat) : Nat := (b.aw off).toNat

/-! ### Profiles (R330) -/

/-- A phase run the other way. -/
def Phase.neg (p : Phase) : Phase := ⟨p.dur, -p.v, -p.a, -p.j⟩

def signed (neg : Bool) (l : List Phase) : List Phase := if neg then l.map Phase.neg else l

/-- POS: from rest to rest over a signed distance. -/
def posProfile (acc dec j vlim dist : Int) : List Phase :=
  let m := absI dist
  let cost := fun v => changeDist acc j 0 v + changeDist dec j v 0
  let vc := bisect (fun v => decide (cost v ≤ m)) 48 0 vlim
  let left := m - cost vc
  signed (decide (dist < 0)) (changePhases acc j 0 vc ++
    (if 0 < left ∧ 0 < vc then [⟨(left * e12 / vc).toNat, vc, 0, 0⟩] else []) ++ changePhases dec j vc 0)

/-- VEL: from one signed speed to another, a reversal through rest. -/
def velProfile (acc dec j v0 v1 : Int) : List Phase :=
  let a0 := absI v0
  let a1 := absI v1
  if (0 ≤ v0 ∧ 0 ≤ v1) ∨ (v0 ≤ 0 ∧ v1 ≤ 0) then
    signed (decide (v0 < 0 ∨ v1 < 0)) (changePhases (if a0 ≤ a1 then acc else dec) j a0 a1)
  else signed (decide (v0 < 0)) (changePhases dec j a0 0) ++ signed (decide (v1 < 0)) (changePhases acc j 0 a1)

/-- The speed a VEL move holds after its change. -/
def holdPhase (v : Int) : List Phase := if v = 0 then [] else [⟨10 ^ 30, v, 0, 0⟩]

/-- The first time of a span of a phase at which its travel has reached a level. -/
def firstAt (p : Phase) (base level : Int) (up : Bool) : Nat → Int → Int → Int
  | 0, lo, _ => lo
  | n + 1, lo, hi =>
    if hi ≤ lo then lo
    else
      let mid := (lo + hi) / 2
      let x := base + p.posAt mid
      if (if up then decide (level ≤ x) else decide (x ≤ level)) then firstAt p base level up n lo mid
      else firstAt p base level up n (mid + 1) hi

/-- The steps of a span of a phase: step k at the travel k − ½ (R327). -/
def phaseSteps (p : Phase) (base lo hi cnt : Int) : List (Int × Bool) × Int :=
  let pe := base + p.posAt hi
  let up := (pe + 32768) / 65536
  let dn := -((-(pe + 32768)) / 65536) - 1
  if cnt < up then
    ((List.range (up - cnt).toNat).map fun i =>
        (firstAt p base ((cnt + Int.ofNat i + 1) * 65536 - 32768) true 48 lo hi, true), up)
  else if dn < cnt then
    ((List.range (cnt - dn).toNat).map fun i =>
        (firstAt p base ((cnt - Int.ofNat i) * 65536 - 32768) false 48 lo hi, false), dn)
  else ([], cnt)

/-- The steps of a profile from time `ta` to `tb`; the phase at hand begins at `t` and at the travel `base`. -/
def walk : List Phase → Int → Int → Int → Int → Int → List (Int × Bool) × Int
  | [], _, _, _, _, cnt => ([], cnt)
  | p :: ps, t, base, ta, tb, cnt =>
    if tb ≤ t then ([], cnt)
    else
      let d := Int.ofNat p.dur
      let lo := if ta ≤ t then 0 else ta - t
      let hi := if tb - t ≤ d then tb - t else d
      let here := if lo < hi then phaseSteps p base lo hi cnt else ([], cnt)
      let rest := walk ps (t + d) (base + p.posAt d) ta tb here.2
      (here.1.map (fun s => (t + s.1, s.2)) ++ rest.1, rest.2)

/-! ### State of an axis -/

/-- The signed speed at the end of what is generated, and the acceleration there. -/
def Going.rate (g : Going) : Int × Int := let r := profAt g.prof g.el; (r.2.1, r.2.2)

/-- The signed speed an axis has at the end of its fixed steps: of its profile, or of the last tick of gear
following. -/
def Blk.axisSpeed (b : Blk) (a : Nat) : Int :=
  let x := b.mot a
  match x.gear, x.go with
  | some _, _ => x.lastN * 6553600000000 / Int.ofNat b.tick10
  | none, some g => g.rate.1
  | none, none => 0

/-- The direction an axis moves in: 1 positive, −1 negative, 0 at rest. A profile about to start moves in the
direction of its first change. -/
def Blk.heading (b : Blk) (a : Nat) : Int :=
  let v := b.axisSpeed a
  let x := b.mot a
  let w := if v ≠ 0 then v
    else match x.planned with
      | (_, pos) :: _ => if pos then 1 else -1
      | [] => match x.go with
        | some g => if g.el = 0 then ((g.prof.map fun p => p.v + p.j).find? (· != 0)).getD 0 else 0
        | none => 0
  if 0 < w then 1 else if w < 0 then -1 else 0

/-- An axis is at rest with no step left to issue. -/
def Blk.axisRest (b : Blk) (a : Nat) : Bool := (b.mot a).go.isNone && (b.mot a).planned.isEmpty

/-- A move is in progress: it has not ended under R331. -/
def Blk.moveOn (b : Blk) (a : Nat) : Bool :=
  match (b.mot a).go with
  | some g => !g.ended
  | none => false

/-- A role of an axis is active (R351): 1 positive limit, 2 negative limit, 3 home. -/
def Blk.roleActive (b : Blk) (a role : Nat) : Bool :=
  (List.range 24).any fun i =>
    b.a (Reg.MOT_LIMMAP i) F.MOT_LIMMAP_ROLE == role && b.a (Reg.MOT_LIMMAP i) F.MOT_LIMMAP_AXIS == a &&
      (b.aux.limits.getD i false != (b.a (Reg.MOT_LIMMAP i) F.MOT_LIMMAP_ACT_LOW == 1))

/-- Moves toward a side are inhibited by chatter (R353). -/
def Blk.inhibited (b : Blk) (a : Nat) (pos : Bool) : Bool :=
  let c := if pos then (b.mot a).chatPos else (b.mot a).chatNeg
  c.inh && (b.flag (flMot a (if pos then 1 else 2)) ||
    decide (b.ms2 < c.lastRaw + b.a Reg.MOT_CHAT F.MOT_CHAT_CHAT_WIN))

/-- The drive enable of an axis (R334, R335). -/
def Blk.driveOn (b : Blk) (a : Nat) : Bool :=
  match b.mode (axisDom a) with
  | .off | .reset | .selftest => false
  | .safe =>
    b.a (Reg.MOT_GRP_CFG (a / 3)) F.MOT_GRP_CFG_SAFE_EN == 1 ||
      !((List.range 3).all fun i => b.axisRest (a / 3 * 3 + i))
  | _ => true

/-- The level of MEN[a]. -/
def Blk.menLevel (b : Blk) (a : Nat) : Bool :=
  (b.driveOn a && !b.tests (58 + a / 3)) != (b.a (Reg.MOT_AXIS_CFG a) F.MOT_AXIS_CFG_EN_LOW == 1)

/-! ### Steps fixed ahead (R327, R328) -/

/-- A step is fixed; after a change of direction it falls no earlier than DIR_SETUP after the end of the
previous pulse. -/
def planStep (w setup : Nat) (x : Mot) (s : Nat × Bool) : Mot :=
  let t := if s.2 != x.lastPos then max s.1 (x.lastAt + w + setup) else s.1
  { x with planned := x.planned ++ [(t, s.2)], lastAt := t, lastPos := s.2 }

def Blk.planSteps (b : Blk) (a : Nat) (l : List (Nat × Bool)) (x : Mot) : Mot :=
  l.foldl (planStep (b.a (Reg.MOT_AXIS_CFG a) F.MOT_AXIS_CFG_STEP_W)
    (b.a (Reg.MOT_AXIS_CFG a) F.MOT_AXIS_CFG_DIR_SETUP)) x

/-- The steps of the window that ends four ticks after the present edge are fixed. -/
def genWindow (a : Nat) : Prog :=
  .get fun b =>
    match (b.mot a).go with
    | none => .skip
    | some g =>
      let tb := (b.now10 + 4 * b.tick10 - g.t0) * 10000
      if tb ≤ g.el then .skip
      else
        let r := walk g.prof 0 g.base (Int.ofNat g.el) (Int.ofNat tb) g.cnt
        let l := r.1.map fun s => (((Int.ofNat (g.t0 * 10000) + s.1 + 5000) / 10000).toNat, s.2)
        modMot a fun x => b.planSteps a l { x with go := some { g with el := tb, cnt := r.2 } }

/-! ### Stops -/

/-- An axis leaves its profile at the end of its fixed steps and comes to rest: linearly at EM_DEC (R335), or
under the captured DEC and JERK. `quiet` when that rest is not the end of its move. -/
def haltAxis (a state : Nat) (linear quiet : Bool) : Prog :=
  .get fun b =>
    match (b.mot a).go with
    | none => .skip
    | some g =>
      let v := b.axisSpeed a
      let acc := if (b.mot a).gear.isSome then 0 else g.rate.2
      let em := Int.ofNat (b.an (Reg.MOT_AXIS_EMDEC a) * 65536)
      let up : List Phase :=
        if linear then (if v = 0 then [] else [⟨(absI v * e12 / em).toNat, absI v, -em, 0⟩])
        else stopProfile g.dec g.jerk (absI v) (if v < 0 then -acc else acc)
      let prof := signed (decide (v < 0)) up
      let s := g.base + (profAt g.prof g.el).1
      let from' := g.t0 + g.el / 10000
      modMot a fun x => { x with
        gear := none
        lastN := 0
        go := some { g with
          state := state, t0 := from', el := 0, prof := prof, base := s - g.cnt * 65536, cnt := 0, ended := false,
          endAt := from' + profDur prof / 10000, halting := true, quiet := quiet || (g.move.kind == 2 || g.move.kind == 3) } }

/-- The limits of R352 and R353 on an axis that moves, outside HOME; `rise` when a limit has just become active. -/
def limitAt (a : Nat) (rise : Bool) : Prog :=
  .get fun b =>
    let hd := b.heading a
    let state := ((b.mot a).go.map Going.state).getD 0
    let cut := ((b.mot a).go.map Going.halting).getD false
    if hd = 0 ∨ b.mode (axisDom a) = .home ∨ (b.mot a).go.isNone then .skip
    else if b.roleActive a (if 0 < hd then 1 else 2) then
      progIf (state != 4 || rise)
        (progAll [
          modMot a fun x => { x with queue := [], resume := none, jog := [] },
          haltAxis a 4 true false,
          setFlag (flMot a 0),
          progIf (b.a (Reg.MOT_AXIS_CFG a) F.MOT_AXIS_CFG_LIMIT_SAFE == 1)
            (requestSafe (axisDom a) .domainFault (flMot a 0).key)])
    else progIf (b.inhibited a (decide (0 < hd)) && !cut) (haltAxis a 1 false false)

/-- The limits as they stand. -/
def limitCheck (a : Nat) : Prog := limitAt a false

/-! ### Moves -/

/-- The speed limit of a move (R330, R334). -/
def Blk.moveLimit (b : Blk) (a scale : Nat) : Int :=
  let v := Int.ofNat (b.a (Reg.MOT_AXIS_VMAX a) F.MOT_AXIS_VMAX_V_MAX * scale *
    (b.f (Reg.MOT_AXIS_MSTAT a) F.MOT_AXIS_MSTAT_THR_SCALE + 1))
  let svc := stepsU (100 * b.a (Reg.MOT_AXIS_SVC a) F.MOT_AXIS_SVC_SVC_V)
  match b.mode (axisDom a) with
  | .service => if svc < v then svc else v
  | .calibrate => svc
  | _ => v

/-- Net steps of a list. -/
def netSteps (l : List (Nat × Bool)) : Int := l.foldl (fun n s => if s.2 then n + 1 else n - 1) 0

/-- The profile of a move from position `p0` and speed `v0`, with the distance it covers. A POS move that
begins at a speed first comes to rest. -/
def moveProfile (m : Move) (acc dec j vlim p0 v0 : Int) : List Phase × Int :=
  match m.kind with
  | 2 =>
    let v1 := clampI (-vlim) vlim (m.target * 65536)
    (velProfile acc dec j v0 v1, v1)
  | 3 => ([], 0)
  | 4 => (velProfile acc dec j v0 0, 0)
  | k =>
    let stop := velProfile acc dec j v0 0
    let dist := (if k = 0 then m.target - p0 else m.target) * 65536
    (stop ++ posProfile acc dec j vlim (dist - profLen stop), 0)

/-- A move boundary of an axis: its move-class shadows commit (R12), the limits are captured (R329), and the
move's profile begins three ticks later (R331). -/
def startMove (a state : Nat) (quiet : Bool) (m : Move) : Prog :=
  .seq (commitRange (0xB1000 + 0x100 * a) 0x100 .mov)
    (.get fun b =>
      let x := b.mot a
      let cut := b.now10 + 3 * b.tick10
      let kept := x.planned.filter fun s => decide (s.1 < cut)
      let p0 := b.axisPos a + netSteps kept
      let v0 := b.axisSpeed a
      let acc := stepsU (b.an (Reg.MOT_AXIS_ACC a))
      let dec := stepsU (b.an (Reg.MOT_AXIS_DEC a))
      let j := stepsU (1000 * b.an (Reg.MOT_AXIS_JERK a))
      let vlim := b.moveLimit a m.scale
      let (change, v1) := moveProfile m acc dec j vlim p0 v0
      let dur := profDur change
      let goal := if m.kind = 0 then m.target else if m.kind = 1 then p0 + m.target else p0
      let go : Going := {
        state := if m.kind = 3 then 5 else state, move := m, vlim := vlim, acc := acc, dec := dec, jerk := j,
        t0 := cut, el := 0, prof := change ++ holdPhase v1, base := 0, cnt := 0, goal := goal, ended := false,
        endAt := if dur = 0 then b.now10 else cut + dur / 10000, halting := false, quiet := quiet }
      let gear : Option Gear :=
        if m.kind = 3 then
          let e := (m.target % 16).toNat
          some ⟨e, b.encPos e, p0, m.num, m.den, m.changes, p0, b.encH e, 0⟩
        else none
      progAll [
        modMot a fun y => { y with
          go := some go, gear := gear, planned := kept, lastN := 0,
          lastAt := (kept.getLast?.map Prod.fst).getD (min y.lastAt cut),
          lastPos := (kept.getLast?.map Prod.snd).getD y.lastPos },
        limitCheck a,
        genWindow a])

/-- An entry of the carriage program with WAIT waits for the moves of every earlier one (R338). -/
def Blk.waits (b : Blk) (m : Move) : Bool :=
  match m.prog with
  | some i => m.wait && b.aux.carriage.left.any (· < i)
  | none => false

/-- The last move of an axis has ended by a moment. -/
def Mot.over (x : Mot) (now : Nat) : Bool :=
  match x.go with
  | none => decide (x.restAt ≤ now)
  | some g => g.ended && decide (g.endAt ≤ now)

/-- The next move of an axis may start: its group's mode allows it and the previous move has ended. -/
def Blk.nextMove (b : Blk) (a : Nat) : Option Move :=
  let x := b.mot a
  if !x.over b.now10 then none
  else
    match b.mode (axisDom a) with
    | .expose | .service =>
      match x.resume with
      | some m => some m
      | none => x.queue.head?.bind fun m => if b.waits m then none else some m
    | .calibrate => x.jog.head?
    | _ => none

/-- MOVE_BOUNDARY (R331, R332). -/
def moveBoundaryProg (a : Nat) : Prog :=
  .get fun b =>
    match b.nextMove a with
    | none => .skip
    | some m =>
      .seq (modMot a fun x =>
          if b.mode (axisDom a) = .calibrate then { x with jog := x.jog.tail }
          else if x.resume.isSome then { x with resume := none }
          else { x with queue := x.queue.tail })
        (startMove a 1 (b.mode (axisDom a) == .calibrate) m)

/-- MOVE_END (R331): the moment of the move's end falls in the present tick; for GEAR, a later move is queued.
Once at rest the axis has no move in progress. -/
def moveEndProg (a : Nat) (after : Prog) : Prog :=
  .get fun b =>
    let x := b.mot a
    match x.go with
    | none => .skip
    | some g =>
      let now := if g.state = 5 then !x.queue.isEmpty else decide (g.endAt < b.now10 + b.tick10)
      if g.ended || !now then .skip
      else
        progAll [
          modMot a fun y => { y with
            restAt := g.endAt
            go := if g.state ≠ 5 ∧ (profAt g.prof (profDur g.prof)).2.1 = 0 then none
              else some { g with ended := true, endAt := if g.state = 5 then b.now10 else g.endAt } },
          progIf (!g.quiet)
            (progAll [
              setF (Reg.MOT_AXIS_MSTAT a) F.MOT_AXIS_MSTAT_DONE_SEQ g.move.seq,
              progIf g.move.notify (raiseEvent 0x2F0 a (axisDom a) g.move.seq 0 0),
              match g.move.prog with
              | some i => modAux fun y => { y with
                  carriage := { y.carriage with left := y.carriage.left.filter (· != i) } }
              | none => .skip]),
          after]

/-! ### MOT_MOVE (R333) -/

/-- The layout of a MOT_MOVE descriptor, by its KIND and NCHG. -/
def moveRules (ws : List Word) : List WordRule :=
  let kind := bits (dw ws 1) 4 3
  let gear := kind == 3
  let n := if gear then bits (dw ws 5) 0 3 else 0
  [⟨1, 0xFF, fun w => decide (bits w 0 4 ≤ 11 ∧ bits w 4 3 ≤ 4)⟩] ++
  [if gear then ⟨2, 0xF, fun _ => true⟩ else if kind = 4 then ⟨2, 0, fun _ => true⟩ else anyW 2] ++
  (if gear || kind == 4 then [] else [⟨3, 0x1FF, fun w => decide (1 ≤ w ∧ w ≤ 256)⟩]) ++
  (if gear then [⟨4, 0x7FFFFFFF, fun w => decide (1 ≤ bits w 16 15)⟩, ⟨5, 7, fun w => decide (w ≤ 5)⟩] else []) ++
  ((List.range n).flatMap fun i => [anyW (6 + 2 * i), ⟨7 + 2 * i, 0xFFFFFFFF, fun w => decide (1 ≤ bits w 16 15)⟩])

/-- The position an axis will have after its queued moves, as far as POS moves say. -/
def Blk.projected (b : Blk) (a : Nat) : Int :=
  let x := b.mot a
  let p0 := match x.go with
    | some g => if g.move.kind ≤ 1 then g.goal else b.axisPos a
    | none => b.axisPos a
  x.queue.foldl (fun p m => if m.kind = 0 then m.target else if m.kind = 1 then p + m.target else p) p0

/-- The directions of a move: toward positive, toward negative. -/
def Blk.moveDirs (b : Blk) (a : Nat) (m : Move) : Bool × Bool :=
  match m.kind with
  | 3 => (true, true)
  | 4 => (false, false)
  | 0 => let d := m.target - b.projected a; (decide (0 < d), decide (d < 0))
  | _ => (decide (0 < m.target), decide (m.target < 0))

/-- The move a MOT_MOVE descriptor names. -/
def moveOf (ws : List Word) (seq : Nat) : Move where
  kind := bits (dw ws 1) 4 3
  target := sgn 32 (dw ws 2)
  scale := if bits (dw ws 1) 4 3 ≤ 2 then dw ws 3 else 256
  num := sgn 16 (dw ws 4)
  den := bits (dw ws 4) 16 15
  changes := (List.range (bits (dw ws 5) 0 3)).map fun i =>
    ⟨sgn 32 (dw ws (6 + 2 * i)), sgn 16 (dw ws (7 + 2 * i)), bits (dw ws (7 + 2 * i)) 16 15,
      bit (dw ws (7 + 2 * i)) 31⟩
  notify := bit (dw ws 1) 7
  seq := seq
  prog := none
  wait := false

/-- The checks of MOT_MOVE (R80, R333). -/
def motMoveFail (b : Blk) (ws : List Word) : Option Fail :=
  let a := bits (dw ws 1) 0 4
  let m := moveOf ws 0
  let dirs := b.moveDirs a m
  firstFail [
    fieldFail ws (moveRules ws),
    need (decide ((b.mot a).queue.length < 16)) 0x59 a,
    need (!((dirs.1 && (b.roleActive a 1 || b.inhibited a true)) ||
      (dirs.2 && (b.roleActive a 2 || b.inhibited a false)))) 0x5A a,
    need (match b.mode (axisDom a) with
      | .armed | .expose | .hold | .drain | .service => true
      | _ => false) 0x5B (modeCode (b.mode (axisDom a))),
    need (!(m.kind == 3 && b.encInvalid (dw ws 2 % 16))) 0x5C (dw ws 2 % 16)]

/-- MOT_MOVE: the move is queued and takes the axis's next sequence number (R333). -/
def motMoveProg (ring : Nat) : Prog :=
  descr ring 0x25 false fun ws =>
    .get fun b =>
      let a := bits (dw ws 1) 0 4
      let seq := ((b.mot a).seq + 1) % 256
      checked ring (motMoveFail b ws)
        (.seq (modMot a fun x => { x with seq := seq, queue := x.queue ++ [moveOf ws seq] })
          (completeOk ring seq))

/-! ### Modes of a group (R334 to R336) -/

/-- The axes of a group. -/
def axesOf (g : Nat) : List Nat := [3 * g, 3 * g + 1, 3 * g + 2]

/-- Effects of a group's entry to OFF and RESET: nothing moves and the queue is emptied. -/
def groupOff (g : Nat) : Prog :=
  progEach (axesOf g) fun a => modMot a fun x => { x with
    queue := [], go := none, gear := none, planned := [], resume := none, jog := [], lastN := 0, home := 0 }

/-- HOLD (R334, R336). An axis that already stops goes on with that stop. -/
def groupHold (g : Nat) : Prog :=
  progEach (axesOf g) fun a =>
    .get fun b =>
      match (b.mot a).go with
      | none => .skip
      | some x =>
        progIf (!x.halting)
          (.seq (modMot a fun y => { y with
              resume := if x.move.kind ≤ 1 ∧ !x.ended then some { x.move with kind := 0, target := x.goal } else none })
            (haltAxis a 2 false true))

/-- SAFE (R335). -/
def groupSafe (g : Nat) : Prog :=
  progEach (axesOf g) fun a =>
    .seq (modMot a fun x => { x with queue := [], resume := none, jog := [], home := 0 }) (haltAxis a 4 true true)

/-- The references of R350 are recorded. -/
def stallRef (a : Nat) : Prog :=
  .get fun b =>
    modMot a fun x => { x with
      hR := b.encH (b.a (Reg.MOT_AXIS_CFG a) F.MOT_AXIS_CFG_FB_ENC), cR := b.axisPos a, stall := 0 }

/-- The entry into SETUP, where no move is made (R334): what still moves stops under its captured DEC and JERK, as under
HOLD (DESIGN CHOICE: the spec does not say how a move ends that SERVICE or CALIBRATE began), and the references of R350
are recorded. -/
def groupSetup (g : Nat) : Prog :=
  progEach (axesOf g) fun a =>
    progAll [
      progWhen (fun b => match (b.mot a).go with | some x => !x.halting | none => false) (haltAxis a 1 false true),
      modMot a fun x => { x with jog := [], resume := none },
      stallRef a]

/-- The entry into HOME: every axis is still to be homed. -/
def groupHome (g : Nat) : Prog :=
  progEach (axesOf g) fun a => modMot a fun x => { x with
    home := 0, latch := none, homeMark := none, homeOk := false }

/-- An axis whose line count CALIBRATE checks (R356). -/
def Blk.lineChecked (b : Blk) (a : Nat) : Bool :=
  match b.fbEnc a with
  | some e => b.a (Reg.ENC_CFG e) F.ENC_CFG_IDX_EN == 1
  | none => false

/-- The jogs of R356. -/
def groupCalibrate (g : Nat) : Prog :=
  progEach (axesOf g) fun a =>
    progWhen (fun b => b.lineChecked a) (.get fun b =>
      let d := Int.ofNat (64 * b.a (Reg.MOT_AXIS_SVC a) F.MOT_AXIS_SVC_CAL_JOG)
      let mk := fun (t : Int) => (⟨1, t, 256, 0, 1, [], false, 0, none, false⟩ : Move)
      .seq (modMot a fun x => { x with jog := [mk d, mk (-d)] })
        (match b.fbEnc a with
        | some e => modEnc e fun x => { x with up := 0, down := 0, fails := 0 }
        | none => .skip))

/-- Every line-count check of a group has ended. -/
def Blk.jogsDone (b : Blk) (g : Nat) : Bool :=
  (axesOf g).all fun a => !b.lineChecked a || ((b.mot a).jog.isEmpty && b.axisRest a)

/-- Every line-count check of a group has passed (R356). -/
def Blk.jogsPass (b : Blk) (g : Nat) : Bool :=
  (axesOf g).all fun a =>
    match b.fbEnc a with
    | some e => !b.lineChecked a ||
        decide (2 ≤ (b.enc e).up ∧ 2 ≤ (b.enc e).down ∧ (b.enc e).fails = 0)
    | none => true

/-! ### Homing (R354, R355) -/

/-- A homing step's move: VEL at a signed speed in steps/s, or STOP. -/
def homeMove (a : Nat) (v : Option Int) : Prog :=
  startMove a 3 true (match v with
    | some s => ⟨2, s, 256, 0, 1, [], false, 0, none, false⟩
    | none => ⟨4, 0, 256, 0, 1, [], false, 0, none, false⟩)

/-- The axis of a group that homes now. -/
def Blk.homingAxis (b : Blk) (g : Nat) : Option Nat :=
  (axesOf g).find? fun a => b.a (Reg.MOT_AXIS_CFG a) F.MOT_AXIS_CFG_HOME_MODE != 0 && !(b.mot a).homeOk

/-- Step 6: the latch point reads HOME_POS. -/
def homeSet (a : Nat) : Prog :=
  .get fun b =>
    let latch := (b.mot a).latch.getD (b.axisPos a)
    progAll [
      setW (Reg.MOT_AXIS_POS a) (wordI (b.axisPos a - latch + intW (b.aw (Reg.MOT_AXIS_HOMEPOS a)))),
      stallRef a,
      setF (Reg.MOT_AXIS_MSTAT a) F.MOT_AXIS_MSTAT_HOMED 1,
      modMot a fun x => { x with home := 0, homeOk := true, latch := none, homeMark := none }]

/-- HOMING (R354): the next step of the axis that homes, once its event has come; `done` when the group's
axes are all done. -/
def homingProg (a : Nat) (done : Prog) : Prog :=
  .get fun b =>
    if b.mode (axisDom a) ≠ .home then .skip
    else
      match b.homingAxis (a / 3) with
      | none => done
      | some c =>
        if c ≠ a then .skip
        else
          let x := b.mot a
          let fwd := b.a (Reg.MOT_AXIS_CFG a) F.MOT_AXIS_CFG_HOME_DIR == 1
          let sp := fun (f : Fld) (dir : Bool) =>
            let v := Int.ofNat (100 * b.a (Reg.MOT_AXIS_HOMEV a) f)
            some (if dir then v else -v)
          let to' := fun (n : Nat) => modMot a fun y => { y with home := n }
          let last := .seq (homeSet a) (.get fun c => if (c.homingAxis (a / 3)).isNone then done else .skip)
          let rest := x.over b.now10
          match x.home with
          | 0 =>
            if b.a (Reg.MOT_AXIS_CFG a) F.MOT_AXIS_CFG_HOME_MODE = 3 then last
            else .seq (to' 1) (homeMove a (sp F.MOT_AXIS_HOMEV_HOME_V1 fwd))
          | 1 => progIf (b.roleActive a 3) (.seq (to' 2) (homeMove a none))
          | 2 => progIf rest (.seq (to' 3) (homeMove a (sp F.MOT_AXIS_HOMEV_HOME_V2 (!fwd))))
          | 3 =>
            match x.homeMark with
            | none =>
              progIf (!b.roleActive a 3) (modMot a fun y => { y with homeMark := some (b.axisPos a) })
            | some p =>
              progIf (decide (Int.ofNat (b.a (Reg.MOT_AXIS_HOMEBACK a) F.MOT_AXIS_HOMEBACK_BACK) ≤
                  absI (b.axisPos a - p)))
                (.seq (modMot a fun y => { y with home := 4, homeMark := none, latch := none })
                  (homeMove a (sp F.MOT_AXIS_HOMEV_HOME_V2 fwd)))
          | 4 => progIf x.latch.isSome (.seq (to' 5) (homeMove a none))
          | _ => progIf rest last

/-- HOME_LIMIT (R355). -/
def homeLimit (g : Nat) : Prog :=
  .get fun b =>
    progAll [
      match b.homingAxis g with | some a => setFlag (flMot a 3) | none => .skip,
      progEach (axesOf g) fun a => progAll [
        haltAxis a 3 false true,
        progIf (!(b.mot a).homeOk) (setF (Reg.MOT_AXIS_MSTAT a) F.MOT_AXIS_MSTAT_HOMED 0),
        modMot a fun x => { x with home := 0 }],
      requestMode (dGroup g) .setup .homeLimit]

/-! ### Limit and home inputs (R351 to R353) -/

/-- Raw changes of a limit input, `raw` of them now; the flag is set when the number within CHAT_WIN ms passes CHAT_N. -/
def chatCount (a : Nat) (pos : Bool) (raw : Nat) : Prog :=
  .get fun b =>
    let c := if pos then (b.mot a).chatPos else (b.mot a).chatNeg
    let old := c.raws.filter fun x => decide (b.ms2 < x.1 + b.a Reg.MOT_CHAT F.MOT_CHAT_CHAT_WIN)
    let n := (old.map Prod.snd).sum
    let lim := b.a Reg.MOT_CHAT F.MOT_CHAT_CHAT_N
    let hit := decide (lim < n + raw ∧ n ≤ lim)
    let c' : Chat := ⟨old ++ [(b.ms2, raw)], b.ms2, b.inhibited a pos || hit⟩
    .seq (modMot a fun x => if pos then { x with chatPos := c' } else { x with chatNeg := c' })
      (progIf hit (setFlag (flMot a (if pos then 1 else 2))))

/-- LIMIT_INPUT (R351): the debounced level of LIMIN[i] becomes `level`, with the raw changes seen on it since
its last report. -/
def limitInputProg (i : Nat) (level : Bool) (raw : Nat) : Prog :=
  .get fun b =>
    let a := b.a (Reg.MOT_LIMMAP i) F.MOT_LIMMAP_AXIS
    let role := b.a (Reg.MOT_LIMMAP i) F.MOT_LIMMAP_ROLE
    let was := b.roleActive a role
    .seq (modAux fun x => { x with limits := x.limits.set i level })
      (progIf (decide (role ≠ 0 ∧ a < 12))
        (.seq (progIf (role != 3 && raw != 0) (chatCount a (role == 1) raw))
          (.get fun c =>
            let rise := c.roleActive a role && !was
            if role = 3 then
              progIf (rise && (c.mot a).home == 4)
                (modMot a fun x =>
                  if c.a (Reg.MOT_AXIS_CFG a) F.MOT_AXIS_CFG_HOME_MODE = 2 then
                    { x with homeMark := some (c.axisPos a) }
                  else { x with latch := if x.latch.isNone then some (c.axisPos a) else x.latch })
            else if c.mode (axisDom a) = .home then progIf rise (homeLimit (a / 3))
            else limitAt a rise)))

/-! ### Carriage programs (R337 to R339) -/

/-- An entry of a program slot. -/
def Blk.slotEntry (b : Blk) (p i : Nat) : List Nat :=
  (List.range 8).map fun k => b.winNat (0xA00000 + 0x100 * p + 32 * i + 4 * k) 4

/-- An entry holds to the ranges of its table. -/
def entryOk (e : List Nat) : Bool :=
  let w := fun i => e.getD i 0
  decide (bits (w 0) 0 2 ≤ 2) && bits (w 0) 2 2 == 0 && bits (w 0) 5 3 == 0 && bits (w 0) 10 22 == 0 &&
    decide (1 ≤ w 2 ∧ w 2 ≤ 256) && w 4 == 0 && w 5 == 0 && w 6 == 0 && w 7 == 0

/-- The entries of a slot up to the first LAST one. -/
def Blk.slotEntries (b : Blk) (p : Nat) : Option (List (List Nat)) :=
  let l := (List.range 8).map (b.slotEntry p)
  match l.findIdx? fun e => bit (e.getD 0 0) 9 with
  | some n => some (l.take (n + 1))
  | none => none

/-- The move of an entry. -/
def entryMove (layer i : Nat) (e : List Nat) : Move :=
  let w := fun k => e.getD k 0
  let rel := bit (w 0) 4
  { kind := b2n rel
    target := sgn 32 (w 1) + if rel then rsh (Int.ofNat layer * sgn 32 (w 3)) 16 else 0
    scale := w 2, num := 0, den := 1, changes := [], notify := false, seq := 0, prog := some i, wait := bit (w 0) 8 }

/-- The carriage group (R337). -/
def Blk.carriageGroup (b : Blk) : Nat := b.a Reg.MOT_COAT_CFG F.MOT_COAT_CFG_GROUP

def modCarriage (f : Carriage → Carriage) : Prog := modAux fun a => { a with carriage := f a.carriage }

/-- The axis of an entry of the carriage program. -/
def Blk.entryAxis (b : Blk) (e : List Nat) : Nat := 3 * b.carriageGroup + bits (e.getD 0 0) 0 2

/-- The program is refused (R339): an entry up to the first LAST one is wrong, none is LAST, or the queue of an axis cannot
take its entries. -/
def Blk.carriageBad (b : Blk) : Bool :=
  match b.slotEntries b.aux.carriage.slot with
  | none => true
  | some l => !l.all entryOk || (axesOf b.carriageGroup).any fun a =>
      decide (16 < (b.mot a).queue.length + (l.filter fun e => b.entryAxis e == a).length)

/-- The program is refused: RECOAT_BAD. -/
def carriageRefuse : Prog :=
  .get fun b => .seq (modCarriage fun x => { x with bad := true, held := false }) (setFlag (flMot (3 * b.carriageGroup) 8))

/-- The program's entries are queued (R338), or the program is refused where a queue has filled since. -/
def carriageQueue : Prog :=
  .get fun b =>
    let c := b.aux.carriage
    let l := (b.slotEntries c.slot).getD []
    if b.carriageBad then carriageRefuse
    else
      .seq (modCarriage fun x => { x with running := true, held := false, left := List.range l.length })
        (progEach l.zipIdx fun (e, i) => modMot (b.entryAxis e) fun x => { x with
          seq := (x.seq + 1) % 256
          queue := x.queue ++ [{ entryMove c.layer i e with seq := (x.seq + 1) % 256 }] })

/-- Phase 1 of a coat starts: its carriage program is refused (R339), or queued when the carriage group is in ARMED, else
held, and the group enters EXPOSE from ARMED (R337). -/
def carriageStart (slot layer : Nat) : Prog :=
  .seq (modCarriage fun _ => ⟨[], false, false, false, slot, layer⟩)
    (.get fun b =>
      let d := dGroup b.carriageGroup
      let armed := decide (b.mode d = .armed)
      .seq
        (if slot = 15 then progIf armed (modCarriage fun x => { x with running := true })
        else if b.carriageBad then carriageRefuse
        else if armed then carriageQueue
        else modCarriage fun x => { x with held := true })
        (progIf armed (requestMode d .expose .done)))

/-- The carriage at a tick edge: a held program is queued once the group is in ARMED; a program whose moves
have ended takes the group to DRAIN (R337, R339). -/
def carriageTick : Prog :=
  .get fun b =>
    let c := b.aux.carriage
    let m := b.mode (dGroup b.carriageGroup)
    if c.held && m == .armed then .seq carriageQueue (requestMode (dGroup b.carriageGroup) .expose .done)
    else progIf (c.running && c.left.isEmpty && m == .expose)
      (.seq (modCarriage fun x => { x with running := false })
        (requestMode (dGroup b.carriageGroup) .drain .done))

/-- The carriage has nothing left to do in the coat. -/
def Carriage.excess (c : Carriage) : Bool := !c.running && !c.held && !c.bad

/-! ### Each tick -/

/-- Steps spread evenly over a tick, none earlier than 1 / V_MAX after the one before: those that fit. -/
def evenSteps (t0 span gap n : Nat) : Nat → Nat → List Nat
  | 0, _ => []
  | fuel + 1, last =>
    let i := n - (fuel + 1)
    let t := max (t0 + (2 * i + 1) * span / (2 * n)) (last + gap)
    if t0 + span ≤ t then [] else t :: evenSteps t0 span gap n fuel t

/-- The target of gear following at a master position. -/
def Gear.target (g : Gear) (m : Int) : Int := g.t0 + (m - g.m0) * g.num / Int.ofNat g.den

/-- A ratio change takes effect when the master's filtered position has crossed its position (R342). -/
def Gear.change (g : Gear) (h : Int) : Gear :=
  match g.changes with
  | [] => g
  | c :: cs =>
    if crossed c.down c.pos g.seenH h then
      { g with t0 := g.target c.pos, m0 := c.pos, num := c.num, den := c.den, changes := cs }
    else g

/-- Gear following at a tick edge (R341 to R343). -/
def gearTick (a : Nat) : Prog :=
  .get fun b =>
    match (b.mot a).gear with
    | none => .skip
    | some g0 =>
      let h := b.encH g0.enc
      let g := g0.change h
      let t := g.target (b.encPos g.enc)
      let want := t - g.last + g.lag
      let n := (absI want).toNat
      let vmax := b.a (Reg.MOT_AXIS_VMAX a) F.MOT_AXIS_VMAX_V_MAX
      let gap := (100000000 + vmax - 1) / vmax
      let times := if n = 0 then [] else evenSteps (b.now10 + 3 * b.tick10) b.tick10 gap n n (b.mot a).lastAt
      let done := if want < 0 then -Int.ofNat times.length else Int.ofNat times.length
      let lag := want - done
      let scale := absI (intW (b.aw (Reg.MOT_AXIS_SCALE a)))
      let win := Int.ofNat (b.a (Reg.MOT_AXIS_STALL a) F.MOT_AXIS_STALL_STALL_WIN * 65536)
      let excess := fun (x : Int) => decide (win < absI x * scale)
      progAll [
        modMot a fun x => b.planSteps a (times.map fun s => (s, decide (0 < want)))
          { x with gear := some { g with last := t, seenH := h, lag := lag }, lastN := done },
        progIf (excess lag && !excess g0.lag)
          (.seq (setFlag (flMot a 5)) (requestSafe (axisDom a) .domainFault (flMot a 5).key)),
        progIf (b.encInvalid g.enc) (requestSafe (axisDom a) .domainFault (flEnc g.enc 1).key)]

/-- Stall detection at a tick edge (R350). -/
def stallTick (a : Nat) : Prog :=
  .get fun b =>
    let act := b.a (Reg.MOT_AXIS_CFG a) F.MOT_AXIS_CFG_STALL_ACT
    match b.fbEnc a with
    | none => .skip
    | some e =>
      if act = 0 then .skip
      else
        let x := b.mot a
        let dev := (b.encH e - x.hR) - rsh ((b.axisPos a - x.cR) * intW (b.aw (Reg.MOT_AXIS_SCALE a))) 16
        let far := decide (Int.ofNat (b.a (Reg.MOT_AXIS_STALL a) F.MOT_AXIS_STALL_STALL_WIN) < absI dev)
        let n := if far then x.stall + 1 else 0
        progAll [
          setW (Reg.MOT_AXIS_DEV a) (wordI dev),
          modMot a fun y => { y with stall := n },
          progIf (far && n == b.a (Reg.MOT_AXIS_STALL a) F.MOT_AXIS_STALL_STALL_TICKS)
            (.seq (setFlag (flMot a 4))
              (progIf (act == 2) (requestSafe (axisDom a) .domainFault (flMot a 4).key))),
          progIf (act == 2 && b.encInvalid e) (requestSafe (axisDom a) .domainFault (flEnc e 1).key)]

/-- Chatter inhibition ends once the flag is cleared and CHAT_WIN has passed without a raw change. -/
def chatTick (a : Nat) : Prog :=
  .get fun b =>
    progIf ((b.mot a).chatPos.inh || (b.mot a).chatNeg.inh)
      (modMot a fun x => { x with
        chatPos := { x.chatPos with inh := b.inhibited a true }
        chatNeg := { x.chatNeg with inh := b.inhibited a false } })

/-- An axis at a tick edge. -/
def axisMotionTick (a : Nat) : Prog := progAll [gearTick a, genWindow a, limitCheck a, stallTick a, chatTick a]

end Sys2Proof.Machine
end

