-- ==== Sys2Proof/Machine/Float.lean ====
section
/-!
DEFINITION. Float bars (R304 to R325): lines, duty tokens, frames, measurement, usage authentication.
-/
namespace Sys2Proof.Machine

def Blk.bar (b : Blk) (f : Nat) : Bar := b.aux.bars.getD f Bar.init

def modBar (f : Nat) (g : Bar → Bar) : Prog := modAux fun a => { a with bars := a.bars.modify f g }

def Bar.half (x : Bar) (l : Nat) : Half := x.halves.getD l Half.init

def modHalf (f l : Nat) (g : Half → Half) : Prog := modBar f fun x => { x with halves := x.halves.modify l g }

def Blk.toks' (b : Blk) (f : Nat) : TokBar := b.toks.getD f TokBar.init

/-- The lane of a half (R304). -/
def halfLane (f l : Nat) : Nat := 32 + 2 * f + l

/-- A field of a bar's active configuration. -/
def Blk.barCfg (b : Blk) (f : Nat) (fl : Fld) : Nat := b.a (Reg.FLT_BAR_CFG f) fl

def Blk.emitters (b : Blk) (f : Nat) : Nat := b.barCfg f F.FLT_BAR_CFG_EMITTERS

/-- The carriage axis and group of a bar (R305). -/
def Blk.barAxis (b : Blk) (f : Nat) : Nat := 3 * b.barCfg f F.FLT_BAR_CFG_GROUP + b.barCfg f F.FLT_BAR_CFG_AXIS
def Blk.barGroup (b : Blk) (f : Nat) : Nat := b.barCfg f F.FLT_BAR_CFG_GROUP

/-- The line counter. -/
def Blk.lineCount (b : Blk) (f : Nat) : Int := intW (b.w (Reg.FLT_BAR_POS f))

/-- The base of a bar's tables in the BAR2 window. -/
def barTab (f : Nat) : Nat := 0x800000 + 0x100000 * f

/-- LEVEL of a bank (on-time in tokens). -/
def Blk.level (b : Blk) (f bank c : Nat) : Nat := b.winNat (barTab f + 64 * bank + 2 * c) 2

/-- COMP of the active bank. -/
def Blk.comp (b : Blk) (f h c : Nat) : Nat :=
  let i := 16 * h + c
  bits (b.winByte (barTab f + 0x100 + 0x80 * b.barCfg f F.FLT_BAR_CFG_COMP_BANK + i / 2)).toNat (4 * (i % 2)) 4

/-- An emitter is hidden by the active bank. -/
def Blk.hidden (b : Blk) (f i : Nat) : Bool :=
  bit (b.winByte (barTab f + 0x200 + 0x100 * b.barCfg f F.FLT_BAR_CFG_HIDE_BANK + i / 8)).toNat (i % 8)

/-! ### Program geometry (R306) -/

def Blk.progShape (b : Blk) (f p : Nat) : Nat := b.an (Reg.FLT_PROG_SHAPE f p)
def Blk.progLines (b : Blk) (f : Nat) : Nat :=
  if (b.bar f).slot = 15 then 0 else bits (b.progShape f (b.bar f).slot) 16 15
def Blk.progDown (b : Blk) (f : Nat) : Bool := bit (b.progShape f (b.bar f).slot) 31

/-- The count at which line `n` begins. -/
def Blk.lineAt (b : Blk) (f n : Nat) : Int :=
  let p := (b.bar f).slot
  let d := Int.ofNat (n * bits (b.progShape f p) 0 16)
  intW (b.aw (Reg.FLT_PROG_START f p)) + if b.progDown f then -d else d

/-- The Float-with-motion matrix: the line counter follows the steps. -/
def Blk.counterFollows (b : Blk) (f : Nat) : Bool :=
  let g := b.mode (dGroup (b.barGroup f))
  let run := g == .expose || g == .hold || g == .drain || g == .safe
  match b.mode (dFloat f) with
  | .armed | .hold | .expose | .drain => run
  | _ => false

/-- Lines are exposed: cell p of the matrix, the core's effects n and L, and no blank. -/
def Blk.exposes (b : Blk) (f : Nat) : Bool :=
  let g := b.mode (dGroup (b.barGroup f))
  b.mode (dFloat f) == .expose && (g == .expose || g == .hold || g == .drain) &&
    b.mode dCore != .armed && b.mode dCore != .selftest && !(b.bar f).hard && !b.abortActive

/-! ### Preparing a line (R312) -/

/-- The nearest of two positions that is within the bar and not hidden. -/
def nearFree (e : Nat) (hid : Nat → Bool) (i j : Int) : Option Nat :=
  let ok := fun (x : Int) => decide (0 ≤ x ∧ x < Int.ofNat e) && !hid x.toNat
  if ok i then some i.toNat else if ok j then some j.toNat else none

/-- Compensation for hidden emitters in ascending order; the flag says whether one had no neighbour. -/
def compensate (e : Nat) (hid : Nat → Bool) (comp : Nat → Nat → Nat) (c0 : List Nat) : List Nat × Bool :=
  ((List.range e).filter hid).foldl (fun (c, gap) i =>
    let h := c0.getD i 0
    let c := c.set i 0
    let x := Int.ofNat i
    match nearFree e hid (x - 1) (x - 2), nearFree e hid (x + 1) (x + 2) with
    | some l, some r =>
      let c := c.set l (comp h (c.getD l 0))
      (c.set r (comp h (c.getD r 0)), gap)
    | some n, none => (c.set n (comp h (comp h (c.getD n 0))), gap)
    | none, some n => (c.set n (comp h (comp h (c.getD n 0))), gap)
    | none, none => (c, true)) (c0, false)

/-- A code lowered until its level fits a bucket. -/
def clipCode (level : Nat → Nat) (avail : Nat) : Nat → Nat
  | 0 => 0
  | c + 1 => if avail < 1024 * level (c + 1) then clipCode level avail c else c + 1

/-- Every code lowered by one while the line exceeds the bar's bucket. -/
def clipBar (level : Nat → Nat) (avail : Nat) : Nat → List Nat → List Nat × Bool
  | 0, c => (c, false)
  | n + 1, c =>
    if avail < 1024 * (c.map level).sum ∧ c.any (0 < ·) then ((clipBar level avail n (c.map (· - 1))).1, true)
    else (c, false)

/-- The final codes of a line with its DUTY_CLIP and BAR_CLIP. -/
def clipLine (level : Nat → Nat) (t : TokBar) (c : List Nat) : List Nat × Bool × Bool :=
  let c1 := c.zipIdx.map fun (x, i) => clipCode level (t.emit.getD i Tok.init).level x
  let r := clipBar level t.bar.level 16 c1
  (r.1, decide (c1 ≠ c), r.2)

/-- Bits of the FLAGS of a line record (R320). -/
def lineFlag (complete incomplete blanked missed late overrun duty bar gap soft : Bool) : Nat :=
  b2n complete + 2 * b2n incomplete + 4 * b2n blanked + 8 * b2n missed + 16 * b2n late + 32 * b2n overrun +
    64 * b2n duty + 128 * b2n bar + 256 * b2n gap + 512 * b2n soft

/-- The codes of a line as they lie in DRAM. -/
def Blk.lineCodes (b : Blk) (addr e : Nat) : List Nat :=
  (List.range e).map fun i => bits (b.dramByte (addr + i / 2)).toNat (4 * (i % 2)) 4

/-- Line `n` is prepared (R312): its final codes commit their tokens. Codes that cannot be read are all 0, and the line is
MISSED (R376, R391). -/
def prepareLine (f n : Nat) : Prog :=
  .get fun b =>
    let x := b.bar f
    let e := b.emitters f
    let base := b.w64 (actOff (Reg.FLT_PROG_ADDR f x.slot)) / 4096 % 2 ^ 25 * 4096 + 768 * n
    let bad := b.badLine base 768
    let bank := b.a (Reg.FLT_BAR_LEVSEL f) F.FLT_BAR_LEVSEL_LEVEL_BANK
    let level := fun c => b.level f bank c
    let c0 := if bad.isSome then List.replicate e 0 else b.lineCodes base e
    let (c1, gap) := compensate e (b.hidden f) (b.comp f) c0
    let (c2, duty, bar) := clipLine level (b.toks' f) c1
    let amts := c2.map fun c => 1024 * level c
    let line : Line := {
      n := n, codes := c2, bank := bank, amts := c2.map level,
      flags := lineFlag false false false bad.isSome false false duty bar gap false,
      tick := 0, ofs := 0, start := 0, blank := [none, none], exposed := false, seen := [false, false],
      nodata := [false, false], tmax := -32768 }
    progAll [
      match bad with
      | some i => badRead 8 i
      | none => .skip,
      .op (.tok f (.commit amts)),
      modBar f fun y => { y with
        prep := some line
        halves := y.halves.map fun h => { h with dataSent := false } },
      progIf duty (setFlag (flFlt f 4)),
      progIf bar (setFlag (flFlt f 5)),
      progIf gap (setFlag (flFlt f 6))]

/-! ### The end of a line (R313, R320) -/

/-- The half of an emitter. -/
def halfOf (i : Nat) : Nat := if i < 768 then 0 else 1

/-- A line that a half never started, or for which it held no data, is MISSED (R318). -/
def Line.missed (x : Line) : Bool := !x.exposed || !x.seen.all id || x.nodata.any id

/-- What of a line's tokens returns, by emitter (R313): all of a line that is MISSED or reported NODATA, else the on-time
after the blank instant. -/
def Line.returns (x : Line) : List Nat :=
  x.amts.zipIdx.map fun (l, i) =>
    if x.missed then l
    else
      match x.blank.getD (halfOf i) none with
      | some t => l - (t - x.start)
      | none => 0

/-- A line's committed tokens are settled; `cut` spends all of them. -/
def settleLine (f : Nat) (x : Line) (cut : Bool) : Prog :=
  .op (.tok f (.settle (x.amts.map (1024 * ·)) (if cut then [] else x.returns.map (1024 * ·))))

/-- The 16-byte record of a line. -/
def Line.record (x : Line) (f : Nat) : List Word :=
  [BitVec.ofNat 32 (x.n % 32768 + f * 32768 + x.flags * 65536), BitVec.ofNat 32 x.tick,
    BitVec.ofNat 32 (min 65535 x.ofs + unsgn 16 x.tmax * 65536), BitVec.ofNat 32 x.amts.sum]

def stageLine (f : Nat) (x : Line) : Prog := stageSection 0x0009 1 f ((x.record f).flatMap wordBytes)

/-- A line that ended waits four ticks for the halves' last reports, then its record is staged. -/
def pastLine (f : Nat) (x : Line) : Prog :=
  .get fun b => modBar f fun y => { y with past := y.past ++ [(x, b.aux.clk.tick)], lastLine := x.n }

/-- Flags a line ends with: COMPLETE or INCOMPLETE when it was exposed and both halves started it, else
MISSED, unless it was BLANKED. -/
def Line.finish (x : Line) (cut : Bool) : Line :=
  let broken := cut || x.blank.any Option.isSome
  let fl := x.flags
  let miss := x.exposed && x.missed && !cut
  { x with flags := fl + (if bit fl 2 || bit fl 3 then 0
      else if miss then 8 else if broken then 2 else 1) }

/-- The line in progress ends (R306, R313). -/
def endLine (f : Nat) (cut : Bool) : Prog :=
  .get fun b =>
    match (b.bar f).cur with
    | none => .skip
    | some x =>
      let y := x.finish cut
      progAll [
        settleLine f x cut,
        progIf (bit y.flags 3 && !bit x.flags 3) (setFlag (flFlt f 0)),
        progIf (bit y.flags 1) (setFlag (flFlt f 3)),
        modBar f fun z => { z with cur := none },
        pastLine f y]

/-- A line that is not reached is recorded MISSED; the tokens of one prepared return (R307). -/
def missRest (f : Nat) : Nat → Prog
  | 0 => .skip
  | k + 1 =>
    .get fun b =>
      let x := b.bar f
      if b.progLines f ≤ x.next then .skip
      else
        let line := match x.prep with
          | some l => { l with flags := Nat.lor l.flags 8 }
          | none => ⟨x.next, [], 0, [], 8, 0, 0, 0, [none, none], false, [false, false], [false, false], -32768⟩
        progAll [
          match x.prep with | some l => settleLine f l false | none => .skip,
          setFlag (flFlt f 0),
          modBar f fun y => { y with prep := none, next := y.next + 1 },
          pastLine f line,
          missRest f k]

/-- A bar's work in the coat ends; it enters DRAIN (R307). -/
def endWork (f : Nat) : Prog :=
  .get fun b =>
    progIf ((b.bar f).work)
      (progAll [
        missRest f (b.progLines f),
        modBar f fun x => { x with work := false, prep := none, blankReq := false },
        progIf (b.mode (dFloat f) == .expose) (requestMode (dFloat f) .drain .done)])

/-- The last move of the coat's carriage program of a group has ended (R307). The line in progress completes (R319); no
boundary ends it. -/
def floatCarriageEnd (g : Nat) : Prog :=
  progEach [0, 1] fun f => progWhen (fun b => b.barGroup f == g && (b.bar f).work) (endWork f)

/-- The line in progress once the bar's work is over ends with its last on-time (DEDUCED: R307 ends the work and R306
gives the line no further boundary). -/
def lastLineEnd (f : Nat) : Prog :=
  .get fun b =>
    match (b.bar f).cur with
    | none => .skip
    | some x =>
      progIf (!(b.bar f).work && (!x.exposed || decide (x.start + x.amts.foldl max 0 ≤ b.now10))) (endLine f false)

/-! ### Line boundaries (R306, R308, R319) -/

/-- The data of a prepared line is held by both halves (R315). -/
def Bar.dataHeld (x : Bar) (n : Nat) : Bool := x.halves.all fun h => h.dataSent && h.dataLine == n

/-- Line `n` begins at `t` (10 ns of TB3), unless it is too fast, blanked or without data, and line `n` + 1 is prepared. A
line that the core's mode keeps dark is BLANKED (DESIGN CHOICE: R43 gives the record of such a line no name). -/
def startLine (f n t : Nat) : Prog :=
  .get fun b =>
    let x := b.bar f
    let fast := match x.lastBound with | some s => decide (t < s + 4 * b.tick10) | none => false
    let blanked := !b.exposes f
    let held := x.prep.isSome && x.dataHeld n
    let ok := !fast && !blanked && held
    let edge := b.now10
    let base : Line := x.prep.getD
      ⟨n, [], 0, [], 0, 0, 0, 0, [none, none], false, [false, false], [false, false], -32768⟩
    let miss := fast || (!blanked && !held) || bit base.flags 3
    let line : Line := { base with
      tick := b.aux.clk.tick + (t - edge) / b.tick10, ofs := (t - edge) % b.tick10,
      start := t + b.barCfg f F.FLT_BAR_CFG_FIRE_DELAY, exposed := ok && !bit base.flags 3,
      flags := Nat.lor base.flags (lineFlag false false (blanked && !fast) miss false false false false false x.soft) }
    progAll [
      progIf fast (setFlag (flFlt f 1)),
      progIf miss (setFlag (flFlt f 0)),
      modBar f fun y => { y with
        cur := some line, prep := none, next := n + 1, lastBound := some t, blankReq := false, lastLine := n },
      progIf (decide (n + 1 < b.progLines f)) (prepareLine f (n + 1))]

/-- The boundary of line `n` at `t` for the bar's work: the line in progress ends; lines the counter has passed over
without a boundary are MISSED (DEDUCED: R306 bounds each line by its own count), and line `n` begins, except in DRAIN. -/
def lineBoundary (f n t : Nat) : Prog :=
  .seq (endLine f false)
    (.get fun b => progIf (b.mode (dFloat f) != .drain) (.seq (missRest f (n - (b.bar f).next)) (startLine f n t)))

/-- The line whose count the counter shows, in the slot's lines or one past the last. -/
def Blk.lineHere (b : Blk) (f : Nat) : Option Nat :=
  let d := b.lineCount f - b.lineAt f 0
  let up := if b.progDown f then -d else d
  let steps := Int.ofNat (bits (b.progShape f (b.bar f).slot) 0 16)
  if b.progLines f ≠ 0 ∧ 0 < steps ∧ 0 ≤ up ∧ up % steps = 0 ∧ up / steps ≤ Int.ofNat (b.progLines f) then
    some (up / steps).toNat
  else none

/-- A step of a bar's carriage axis at time `t` (R305, R306). The line-class shadows commit at a line's count in every mode
in which the counter follows the steps (R47). -/
def floatStep (f : Nat) (pos : Bool) (t : Nat) : Prog :=
  .get fun b =>
    progIf (b.counterFollows f)
      (.seq (setW (Reg.FLT_BAR_POS f) (wordI (b.lineCount f + if pos then 1 else -1)))
        (.get fun c =>
          match c.lineHere f with
          | none => .skip
          | some n =>
            let x := c.bar f
            let works := x.work && c.mode (dFloat f) != .armed && decide (x.next ≤ n)
            if pos = c.progDown f then .skip
            else if n < c.progLines f then
              .seq (commitClass (· == dFloat f) .line) (progIf works (lineBoundary f n t))
            else progIf works (.seq (endLine f false) (endWork f))))

/-! ### Work of a coat -/

/-- Phase 1 of a coat starts: each bar whose slot has lines enters EXPOSE (R306). -/
def floatStart (slot : Nat) : Prog :=
  progEach [0, 1] fun f =>
    .seq (modBar f fun x => { x with
        slot := slot, next := 0, prep := none, cur := none, lastBound := none, blankReq := false, work := false
        halves := x.halves.map fun h => { h with fired := none } })
      (progWhen (fun b => decide (0 < b.progLines f) && b.mode (dFloat f) == .armed)
        (.seq (modBar f fun x => { x with work := true, fresh := true }) (requestMode (dFloat f) .expose .done)))

/-- Every bar's work in the coat is over. -/
def Blk.floatOver (b : Blk) : Bool := [0, 1].all fun f => !(b.bar f).work && (b.bar f).cur.isNone

/-! ### Modes of a bar (R319) -/

/-- The bar tick edge of the next frame of a half, 10 ns of TB3. -/
def Blk.barEdge (b : Blk) (f l : Nat) : Nat := b.now10 + b.tick10 + b.dnLat (halfLane f l) / 100

/-- Measurements are abandoned (R322). -/
def abandonMeas (f : Nat) : Prog :=
  .get fun b =>
    progAll [
      progEach (b.bar f).meas fun m =>
        match m.kind with
        | .command ring => complete ring 0x57 (modeCode (b.mode (dFloat f)))
        | _ => .skip,
      modBar f fun x => { x with
        meas := []
        halves := x.halves.map fun h => { h with reading := none } }]

/-- HOLD: the line in progress is blanked at the bar tick edge of the next frame. -/
def barHold (f : Nat) : Prog :=
  .get fun b =>
    modBar f fun x => { x with
      cur := x.cur.map fun l => { l with
        blank := l.blank.zipIdx.map fun (o, h) => if o.isSome then o else some (b.barEdge f h) } }

/-- A single firing ends with the bar's mode (R324): one begun completes with the code used, one to come is turned away. -/
def abandonFire (f : Nat) : Prog :=
  .get fun b =>
    match (b.bar f).fire with
    | none => .skip
    | some x =>
      .seq (modBar f fun y => { y with fire := none })
        (match x.used with
        | none => complete x.ring 0x57 (modeCode (b.mode (dFloat f)))
        | some (c, _) =>
          let bank := b.a (Reg.FLT_BAR_LEVSEL f) F.FLT_BAR_LEVSEL_LEVEL_BANK
          .seq (.op (.tok f (.settle (List.replicate x.emitter 0 ++ [1024 * b.level f bank c]) [])))
            (complete x.ring 0 c))

/-- SAFE: CUT on both lanes; the line in progress is incomplete and its tokens are spent. -/
def barSafe (f : Nat) : Prog :=
  progAll [
    emit (.lane (halfLane f 0) 2 []),
    emit (.lane (halfLane f 1) 2 []),
    endLine f true,
    abandonMeas f,
    abandonFire f,
    modBar f fun x => { x with calOk := none, auth := none }]

/-- The buckets start full at the entry to SETUP from RESET (R313). -/
def barFill (f : Nat) : Prog :=
  .get fun b =>
    .op (.tok f (.start 1536 (1024 * b.a (Reg.FLT_BAR_ECAP f) F.FLT_BAR_ECAP_E_CAP)
      (1024 * b.an (Reg.FLT_BAR_BCAP f))))

/-- CALIBRATE measures every emitter, both halves in parallel (R322). -/
def barCalibrate (f : Nat) : Prog :=
  .get fun b =>
    let e := b.emitters f
    modBar f fun x => { x with
      calOk := none
      meas := [⟨.calibrate, 0, min 768 e, [], false, false⟩] ++
        (if 768 < e then [⟨.calibrate, 768, e, [], false, false⟩] else []) }

/-- A usage challenge with a fresh nonce (R325). -/
def challenge (f : Nat) : Prog :=
  .get fun b =>
    let n := b.aux.free
    modAux fun a => { a with
      free := a.free + 8
      bars := a.bars.modify f fun x => { x with
        auth := some ⟨(List.range 8).map fun i => Config.freeWord (n + i), b.ns2 + 20000000, true⟩ } }

/-! ### Frames (R309, R314, R315) -/

/-- The planned step that bounds the next line, as the carriage's fixed steps show it. -/
def findBound (target : Int) (down : Bool) : Int → List (Nat × Bool) → Option Nat
  | _, [] => none
  | c, (t, pos) :: r =>
    let c1 := c + if pos then 1 else -1
    if c1 = target ∧ pos ≠ down then some t else findBound target down c1 r

/-- FIRE_OFS of a line start at `t` (10 ns of TB3) in the frame launched at the present edge on a half, none where another
frame carries it (R309). A start within 5 ns of the next frame's bar tick edge is that frame's, at 0. -/
def Blk.fireAt (b : Blk) (f l t : Nat) : Option Nat :=
  let rel := Int.ofNat (t * 100) - Int.ofNat (b.now10 * 100) - Int.ofNat (b.dnLat (halfLane f l))
  if -50 ≤ rel ∧ rel < Int.ofNat (b.tick10 * 100) - 50 then some ((rel + 50) / 100).toNat else none

/-- The start of the line in progress, when its boundary came before the frame that carries its FIRE. -/
def Blk.fireCur (b : Blk) (f l : Nat) : Option (Nat × Nat) :=
  (b.bar f).cur.bind fun c =>
    if c.exposed && (c.blank.getD l none).isNone then (b.fireAt f l c.start).map fun o => (c.n, o) else none

/-- The start of the next line, as the planned steps show its boundary. -/
def Blk.fireNext (b : Blk) (f l : Nat) : Option (Nat × Nat) :=
  let x := b.bar f
  if !x.work || !b.exposes f || !x.dataHeld x.next || b.progLines f ≤ x.next || x.prep.any fun p => bit p.flags 3 then
    none
  else
    (findBound (b.lineAt f x.next) (b.progDown f) (b.lineCount f) (b.mot (b.barAxis f)).planned).bind fun t =>
      let fast := match x.lastBound with | some s => decide (t < s + 4 * b.tick10) | none => false
      if fast then none
      else (b.fireAt f l (t + b.barCfg f F.FLT_BAR_CFG_FIRE_DELAY)).map fun o => (x.next, o)

/-- FIRE of the frame launched at the present edge on a half: the line and its FIRE_OFS (R309). -/
def Blk.fireOf (b : Blk) (f l : Nat) : Option (Nat × Nat) := (b.fireCur f l).or (b.fireNext f l)

/-- ARM of a bar's frames. -/
def Blk.barArm (b : Blk) (f : Nat) : Bool :=
  (b.mode (dFloat f) == .expose || b.mode (dFloat f) == .drain || b.mode (dFloat f) == .service) &&
    b.mode dCore != .selftest && !b.abortActive

/-- SUPPLY: on in every mode but OFF, RESET, SELFTEST and SAFE. -/
def Blk.barSupply (b : Blk) (f : Nat) : Bool :=
  match b.mode (dFloat f) with
  | .off | .reset | .selftest | .safe => false
  | _ => !b.abortActive

/-- A frame with its CRC. -/
def withCrc (ws : List Word) : List Word := ws ++ [BitVec.ofNat 32 (crcWords ws)]

/-- The CODE words of a half: eight emitters a word. -/
def codeWords (codes : List Nat) (l : Nat) : List Word :=
  let h := (codes.drop (768 * l)).take 768
  (List.range 96).map fun w =>
    BitVec.ofNat 32 (((List.range 8).map fun j => h.getD (8 * w + j) 0 * 16 ^ j).sum)

/-- What a frame carries beside its common words. -/
inductive Load
  | plain
  | data (x : Line)
  | bank (k : Nat)
  | challenge (n : List Word)
  | measure (e : Nat)
  deriving DecidableEq, Repr

/-- The measurement job of a half that asks for a reading. -/
def Bar.asks (x : Bar) (l : Nat) : Option Nat :=
  (x.meas.find? fun m => halfOf m.next == l && !m.asked).map MeasJob.next

/-- The sixteen levels of a bank. -/
def Blk.levels (b : Blk) (f k : Nat) : List Nat := (List.range 16).map (b.level f k)

/-- The line that a single firing begun at the present edge makes on a half (R324). -/
def Blk.fireLine (b : Blk) (f l : Nat) : Option Line :=
  match (b.bar f).fire with
  | some x =>
    match x.used with
    | some (c, t) =>
      let bank := b.a (Reg.FLT_BAR_LEVSEL f) F.FLT_BAR_LEVSEL_LEVEL_BANK
      if halfOf x.emitter = l ∧ t = b.now10 + b.level f bank c then
        some ⟨0, List.replicate x.emitter 0 ++ [c], bank, [], 0, 0, 0, 0, [], true, [], [], 0⟩
      else none
    | none => none
  | none => none

/-- What a half's frame of the present edge carries (R315): the data of the prepared line until both halves hold it, its
level bank before where the half was not sent it with its present content. -/
def Blk.loadOf (b : Blk) (f l : Nat) : Load :=
  let x := b.bar f
  let h := x.half l
  let measure := match x.asks l with | some e => .measure e | none => .plain
  let other := match x.auth with
    | some a => if l = 0 ∧ a.tosend then .challenge a.nonce else measure
    | none => measure
  match x.prep with
  | some p =>
    if x.dataHeld p.n then other
    else
      match h.bankAt.getD p.bank none with
      | none => .bank p.bank
      | some (t, lv) =>
        if lv ≠ b.levels f p.bank then .bank p.bank
        else if bit h.bankOk p.bank ∧ t < b.aux.clk.tick then .data p else other
  | none => other

/-- LINE of a bar frame (R314): the line that starts with FIRE, the line a BLANK concerns, else the line whose FIRE the
half was last sent, which is in progress from its bar tick edge (R317); before the work's first, the half's LAST_LINE, so
that no frame starts a line late that has none to start (DEDUCED: R314 names no LINE where none is in progress). -/
def Bar.lineField (x : Bar) (l : Nat) (fire : Option (Nat × Nat)) (blank : Option Nat) : Nat :=
  match fire, blank, x.cur with
  | some p, _, _ => p.1
  | none, some _, some c => c.n
  | _, _, _ => (x.half l).fired.getD (x.half l).lastLine

/-- The words of a bar frame (R314). -/
def Blk.barFrame (b : Blk) (f l : Nat) (fire : Option (Nat × Nat)) (blank : Option Nat) (load : Load) : List Word :=
  let x := b.bar f
  let type := match load with | .plain => 0 | .data _ => 2 | _ => 3
  let line := x.lineField l fire blank
  let p := b.f Reg.SYS_TICK_ACT F.SYS_TICK_ACT_PERIOD
  let w := BitVec.ofNat 32
  let head := [
    w (b.aux.clk.tick % 65536 + type * 2 ^ 16 + b.tph * 2 ^ 18 + b2n (b.barArm f) * 2 ^ 20 +
      b2n (b.barSupply f) * 2 ^ 21 + b2n fire.isSome * 2 ^ 22 + b2n blank.isSome * 2 ^ 23),
    w (line % 32768 + (fire.map Prod.snd).getD 0 * 65536),
    w (min 65535 (blank.getD 0) + p * 65536)]
  withCrc (head ++ match load with
    | .plain => []
    | .data d => w (d.n % 32768 + d.bank * 32768) :: codeWords d.codes l
    | .bank k => w (16 * k) :: (List.range 8).map fun i => w (b.level f k (2 * i) + b.level f k (2 * i + 1) * 65536)
    | .challenge n => w 1 :: n
    | .measure e => w 2 :: w (e % 768 + b.a (Reg.FLT_BAR_MEAS f) F.FLT_BAR_MEAS_I_LO * 2 ^ 16 +
        b.a (Reg.FLT_BAR_MEAS f) F.FLT_BAR_MEAS_I_HI * 2 ^ 24) :: List.replicate 7 0)

/-- The blank instant of the line in progress is fixed: the first carriage step planned at or after the bar
tick edge of the present frame (R319). -/
def fixBlank (f l : Nat) : Prog :=
  .get fun b =>
    let x := b.bar f
    match x.cur with
    | none => .skip
    | some c =>
      if !x.blankReq || (c.blank.getD l none).isSome then .skip
      else
        let edge := b.now10 * 100 + b.dnLat (halfLane f l)
        match (b.mot (b.barAxis f)).planned.find? fun s => decide (edge ≤ s.1 * 100) with
        | none => .skip
        | some s => modBar f fun y => { y with cur := y.cur.map fun c => { c with blank := c.blank.set l (some s.1) } }

/-- A half's frame is launched at the present edge. A line in progress that is not exposed is blanked throughout (DEDUCED:
R317 would start it late otherwise). -/
def launchHalf (f l : Nat) : Prog :=
  .seq (fixBlank f l)
    (.get fun b =>
      let lane := halfLane f l
      if b.laneState lane ≠ 5 then
        .seq (modHalf f l fun h => { h with sentSeq := none, bankAt := [none, none] }) (gapFill lane 0)
      else
        let x := b.bar f
        let fire := match b.fireLine f l with | some x => some (x.n, 0) | none => b.fireOf f l
        let edge := b.now10 * 100 + b.dnLat lane
        let blank := match x.cur with
          | some c => if c.exposed then (c.blank.getD l none).map fun t => (t * 100 + 50 - edge) / 100 else some 0
          | none => none
        let load := match b.fireLine f l with | some x => .data x | none => b.loadOf f l
        let ws := b.barFrame f l fire (if fire.isSome then none else blank) load
        progAll [
          emit (.lane lane 6 ws),
          gapFill lane (frameGroups ws.length),
          modHalf f l fun h => { h with
            sentSeq := some (b.aux.clk.tick % 65536)
            fired := (fire.map Prod.fst).or h.fired
            dataSent := match load with | .data _ => true | _ => h.dataSent
            bankAt := match load with
              | .bank k => h.bankAt.set k (some (b.aux.clk.tick, b.levels f k))
              | _ => h.bankAt },
          match load with
          | .challenge _ => modBar f fun y => { y with auth := y.auth.map fun a => { a with tosend := false } }
          | .measure e => modBar f fun y => { y with
              meas := y.meas.map fun m => if m.next == e then { m with asked := true } else m }
          | _ => .skip])

/-! ### Uplink (R316, R318) -/

/-- A flag a half reports is set at its onset. -/
def onsetFlt (f : Nat) (now before : Bool) (i : Nat) : Prog := progIf (now && !before) (setFlag (flFlt f i))

/-- An accepted frame of a half. -/
def acceptHalf (f l : Nat) (w : Nat → Nat) : Prog :=
  .get fun b =>
    let h := (b.bar f).half l
    let last := bits (w 1) 0 15
    let late := bit (w 1) 15
    let fl := bits (w 2) 0 5
    let temps := [bits (w 3) 0 16, bits (w 3) 16 16, bits (w 4) 0 16, bits (w 4) 16 16]
    let hot := (temps.map (sgn 16)).foldl (fun m t => if m < t then t else m) (-32768)
    let fresh := h.lastLine != last
    let note := fun (c : Line) =>
      let c := { c with tmax := if c.tmax < hot then hot else c.tmax }
      if c.n = last then
        { c with
          seen := c.seen.set l true
          nodata := if bit fl 3 then c.nodata.set l true else c.nodata
          flags := Nat.lor c.flags (if late then 16 else 0) }
      else c
    progAll [
      modHalf f l fun y => { y with
        rx := true, lastLine := last, late := late, dataLine := bits (w 1) 16 15, flags := fl,
        bankOk := bits (w 2) 5 2, temps := temps, tempsAt := some b.ns2,
        reading := if bits (w 0) 16 2 = 2 then
            some (bits (w 5) 0 10, ⟨bits (w 6) 0 16, bits (w 6) 16 16, bit (w 5) 10, bit (w 5) 11, bit (w 5) 12⟩)
          else y.reading },
      modBar f fun y => { y with
        cur := y.cur.map note
        past := if bit fl 2 && !bit h.flags 2 then y.past.modify (y.past.length - 1) fun (c, t) =>
            ({ c with flags := Nat.lor c.flags 32 }, t)
          else y.past },
      onsetFlt f (bit fl 3) (bit h.flags 3 && !fresh) 12,
      onsetFlt f late (h.late && !fresh) 13,
      onsetFlt f (bit fl 2) (bit h.flags 2) 2]

/-- FLOAT_UPLINK_FRAME (R316, R318): a frame of lane 32 + i with `cv` code violations, `fill` in the elastic buffer at the
SKP before it. -/
def floatUplinkProg (i : Nat) (ws : List Word) (cv fill : Nat) : Prog :=
  .get fun b =>
    let f := i / 2
    let l := i % 2
    let lane := 32 + i
    let h := (b.bar f).half l
    let w := fun k => (ws.getD k 0).toNat
    let type := bits (w 0) 16 2
    let len := if type = 0 then 6 else if type = 2 then 8 else 25
    let why := fun (r : Nat) => modHalf f l fun y => { y with why := Nat.lor y.why r }
    .seq (.seq (countViolations lane cv) (laneSkp lane fill))
      (if !b.laneUp lane then .skip
       else if (b.lane lane).broken then modLane lane fun y => { y with broken := false }
       else if 0 < cv ∨ type = 1 ∨ ws.length ≠ len then .skip
       else if !crcOk ws then why 8
       else if h.rx then .skip
       else if h.sentSeq = some (w 0 % 65536) then acceptHalf f l w
       else why 16)

/-- Frames are expected of a half at a bead: those answered on a lane that is UP, and in every mode but OFF, RESET and
SELFTEST those a lane that is not UP does not bring (R231, R249). -/
def Blk.halfExpects (b : Blk) (f l : Nat) : Bool :=
  if b.laneUp (halfLane f l) then ((b.bar f).half l).sentSeq.isSome
  else
    let m := b.mode (dFloat f)
    !(m == .off || m == .reset || m == .selftest)

/-- The sample bead of a half: frames lost at two consecutive beads put the bar into SAFE (R318). A level bank not
confirmed is sent again after a loss (DESIGN CHOICE: R315 does not say). -/
def halfBead (f l : Nat) : Prog :=
  .get fun b =>
    let lane := halfLane f l
    let h := (b.bar f).half l
    let clear := modLane lane fun y => { y with broken := false }
    if !b.halfExpects f l then .seq clear (modHalf f l fun y => { y with rx := false, why := 0 })
    else if h.rx then .seq clear (modHalf f l fun y => { y with rx := false, why := 0, lost := 0 })
    else
      progAll [
        clear,
        setFlag (flHlk lane 2),
        progIf (bit h.why 3) (setFlag (flHlk lane 3)),
        progIf (bit h.why 4) (setFlag (flHlk lane 4)),
        modF (Reg.HLK_LANE_LOSS lane) F.HLK_LANE_LOSS_LOST_COUNT (· + 1),
        progIf (h.lost == 1) (requestSafe (dFloat f) .linkLoss (flHlk lane 2).key),
        modHalf f l fun y => { y with
          why := 0, lost := y.lost + 1
          bankAt := y.bankAt.zipIdx.map fun (t, k) => if bit y.bankOk k then t else none }]

/-! ### Temperature (R319) -/

/-- A bar's readings are at or above SOFT, or all below SOFT − HYST. -/
def barSoft (f : Nat) (vals : List Int) : Prog :=
  .get fun b =>
    let soft := sgn 16 (b.a (Reg.FLT_BAR_TLIM f) F.FLT_BAR_TLIM_SOFT)
    let hyst := sgn 16 (b.a (Reg.FLT_BAR_THYST f) F.FLT_BAR_THYST_HYST)
    let x := b.bar f
    if vals.any fun v => decide (soft ≤ v) then
      .seq (progIf (!x.soft) (setFlag (flFlt f 7)))
        (modBar f fun y => { y with soft := true, cur := y.cur.map fun c => { c with flags := Nat.lor c.flags 512 } })
    else progIf (vals.all fun v => decide (v < soft - hyst)) (modBar f fun y => { y with soft := false })

/-- A bar reading has reached HARD: the line in progress is blanked at the next carriage step, later lines
until the coat ends. -/
def barHard (f : Nat) : Prog :=
  .seq (setFlag (flFlt f 8)) (modBar f fun x => { x with hard := true, blankReq := x.cur.isSome })

/-- The group of a bar enters SAFE (matrix b). -/
def barGroupSafe (f : Nat) : Prog :=
  progWhen (fun b => b.mode (dFloat f) == .expose || b.mode (dFloat f) == .drain)
    (modBar f fun x => { x with blankReq := x.cur.isSome })

/-- At a coat boundary: the hard blank lifts when every reading is below HARD − HYST, defects found are
hidden (R323), and the bar is challenged (R325). -/
def floatCoat (f : Nat) (vals : List Int) : Prog :=
  .get fun b =>
    let hard := sgn 16 (b.a (Reg.FLT_BAR_TLIM f) F.FLT_BAR_TLIM_HARD)
    let hyst := sgn 16 (b.a (Reg.FLT_BAR_THYST f) F.FLT_BAR_THYST_HYST)
    let base := barTab f + 0x200 + 0x100 * b.barCfg f F.FLT_BAR_CFG_HIDE_BANK
    progAll [
      progIf (vals.all fun v => decide (v < hard - hyst)) (modBar f fun x => { x with hard := false }),
      progEach (b.bar f).hide fun i =>
        .get fun c => .op (.win (base + i / 8) (c.winByte (base + i / 8) ||| BitVec.ofNat 8 (2 ^ (i % 8)))),
      modBar f fun x => { x with hide := [] },
      progIf (b.mode (dFloat f) == .armed || b.mode (dFloat f) == .expose) (challenge f)]

/-! ### Each tick -/

/-- The refill of a tick edge, `el` 10 ns units after the one before (R313). -/
def barRefill (el f : Nat) : Prog :=
  .get fun b =>
    .op (.tok f (.refill (el * b.a (Reg.FLT_BAR_EDUTY f) F.FLT_BAR_EDUTY_E_DUTY)
      (1024 * b.a (Reg.FLT_BAR_ECAP f) F.FLT_BAR_ECAP_E_CAP)
      (el * b.a (Reg.FLT_BAR_BDUTY f) F.FLT_BAR_BDUTY_B_DUTY) (1024 * b.an (Reg.FLT_BAR_BCAP f))))

/-- A single firing at a tick edge (R324): its code is clipped as a line's and goes out with the half's frame of the edge
as a line of its own, and it completes at the end of its on-time. -/
def fireTick (f : Nat) : Prog :=
  .get fun b =>
    match (b.bar f).fire with
    | none => .skip
    | some x =>
      let bank := b.a (Reg.FLT_BAR_LEVSEL f) F.FLT_BAR_LEVSEL_LEVEL_BANK
      let level := fun c => b.level f bank c
      let pad := List.replicate x.emitter 0
      match x.used with
      | none =>
        let t := b.toks' f
        let c := clipCode level (min (t.emit.getD x.emitter Tok.init).level t.bar.level) x.code
        .seq (.op (.tok f (.commit (pad ++ [1024 * level c]))))
          (modBar f fun y => { y with fire := some { x with used := some (c, b.now10 + level c) } })
      | some (c, t) =>
        progIf (decide (t ≤ b.now10))
          (progAll [
            .op (.tok f (.settle (pad ++ [1024 * level c]) [])),
            modBar f fun y => { y with fire := none },
            complete x.ring 0 c])

/-- A bar at a tick edge after its frames' beads: the first preparation of its work, measurement in rotation, records that
have waited long enough. -/
def barTick (f : Nat) : Prog :=
  .get fun b =>
    let x := b.bar f
    let due := x.past.filter fun p => decide (p.2 + 4 ≤ b.aux.clk.tick)
    progAll [
      progEach due fun p => stageLine f p.1,
      modBar f fun y => { y with past := y.past.filter fun p => !decide (p.2 + 4 ≤ b.aux.clk.tick) },
      progIf (x.work && x.fresh && b.mode (dFloat f) == .expose)
        (.seq (modBar f fun y => { y with fresh := false }) (prepareLine f 0)),
      progIf (b.barCfg f F.FLT_BAR_CFG_AUTO_MEAS == 1 && b.mode (dFloat f) == .armed &&
          b.f Reg.SEQ_COAT F.SEQ_COAT_PHASE != 1 && x.meas.isEmpty)
        (modBar f fun y => { y with meas := [⟨.rotate, y.rot % b.emitters f, y.rot % b.emitters f + 1, [], false, false⟩] }),
      lastLineEnd f,
      progIf (b.f Reg.SEQ_COAT F.SEQ_COAT_PHASE == 1 && x.meas.any fun m => m.kind == .rotate) (abandonMeas f)]

/-! ### Measurement (R321 to R324) -/

def near (tol x y : Nat) : Bool := decide (x ≤ y + tol ∧ y ≤ x + tol)

/-- Two valid readings agree: both voltages are within MEAS_TOL. -/
def Reading.agrees (tol : Nat) (p q : Reading) : Bool :=
  p.valid && q.valid && near tol p.lo q.lo && near tol p.hi q.hi

/-- The outcome of the readings so far: more are wanted, no result, or the mean. -/
inductive MeasEnd
  | more | fail | mean (r : Reading)
  deriving DecidableEq, Repr

/-- Readings compared (R321). The mean is truncated, and OPEN or SHORT of either reading stands (DESIGN CHOICE). -/
def measEnd (tol : Nat) (l : List Reading) : MeasEnd :=
  let mean := fun (p q : Reading) =>
    (⟨(p.lo + q.lo) / 2, (p.hi + q.hi) / 2, p.isOpen || q.isOpen, p.short || q.short, true⟩ : Reading)
  match l with
  | [p, q] => if p.agrees tol q then .mean (mean p q) else .more
  | [_, q, r] => if q.agrees tol r then .mean (mean q r) else .fail
  | _ => .more

/-- The result entry of an emitter. -/
def Blk.measEntry (b : Blk) (f : Nat) (r : Reading) : Nat :=
  let m := fun fl => b.a (Reg.FLT_BAR_MEAS f) fl
  let lim := b.an (Reg.FLT_BAR_VLIM f)
  let rs := (r.hi - r.lo) * 100 / (m F.FLT_BAR_MEAS_I_HI - m F.FLT_BAR_MEAS_I_LO)
  let bad := r.isOpen || r.short || decide (r.hi < bits lim 0 16) || decide (bits lim 16 16 < r.hi) ||
    decide (bits (b.an (Reg.FLT_BAR_RLIM f)) 0 14 < rs)
  min 0x3FFF r.hi + min 0x3FFF rs * 2 ^ 14 + b2n bad * 2 ^ 28 + b2n r.isOpen * 2 ^ 29 + b2n r.short * 2 ^ 30 + 2 ^ 31

/-- An emitter's result is written; a new defect is reported and may be hidden (R323). -/
def writeResult (f e entry : Nat) : Prog :=
  .get fun b =>
    let at' := barTab f + 0x1000 + 4 * e
    let fresh := bit entry 28 && !bit (b.winNat at' 4) 28
    progAll [
      winWrite at' (toBytes 4 entry),
      progIf fresh (.seq (setFlagBit (flFlt f 9)) (raiseEvent 0x289 f (dFloat f) e 0 0)),
      progIf (fresh && b.barCfg f F.FLT_BAR_CFG_AUTO_HIDE == 1) (modBar f fun x => { x with hide := x.hide ++ [e] })]

/-- The result of a job's emitter is in: the next emitter, or the end of the job. -/
def jobNext (f : Nat) (m : MeasJob) (failed : Bool) : Prog :=
  .get fun b =>
    let m' := { m with next := m.next + 1, got := [], asked := false, failed := m.failed || failed }
    let others := fun (l : List MeasJob) => l.filter fun x => x.next != m.next
    if m'.next < m.stop then
      modBar f fun x => { x with meas := x.meas.map fun y => if y.next == m.next then m' else y }
    else
      let last := (others (b.bar f).meas).isEmpty
      .seq (modBar f fun x => { x with
          meas := others x.meas
          rot := match m.kind with | .rotate => m.next + 1 | _ => x.rot
          calOk := match m.kind with
            | .calibrate => if x.calOk = some false ∨ m'.failed then some false else if last then some true else x.calOk
            | _ => x.calOk })
        (match m.kind with
        | .command ring => completeOk ring 0
        | _ => .skip)

/-- One job meets the reading its half has reported. -/
def jobReading (f : Nat) (m : MeasJob) : Prog :=
  .get fun b =>
    let l := halfOf m.next
    match ((b.bar f).half l).reading with
    | none => .skip
    | some (e, r) =>
      if !m.asked || e != m.next % 768 then .skip
      else
        let got := m.got ++ [r]
        let tol := b.a (Reg.FLT_BAR_MEAS f) F.FLT_BAR_MEAS_MEAS_TOL
        .seq (modHalf f l fun h => { h with reading := none })
          (match measEnd tol got with
          | .more => modBar f fun x => { x with
              meas := x.meas.map fun y => if y.next == m.next then { y with got := got, asked := false } else y }
          | .fail => progAll [setFlag (flFlt f 11), writeResult f m.next 0, jobNext f m true]
          | .mean r => .seq (writeResult f m.next (b.measEntry f r)) (jobNext f m false))

/-- MEASUREMENT_RESULT (R321). -/
def measurementProg (f : Nat) : Prog := .get fun b => progEach (b.bar f).meas (jobReading f)

/-- The checks of FLT_MEASURE and FLT_FIRE (R324). -/
def fltFail (b : Blk) (ws : List Word) (fire : Bool) : Option Fail :=
  let f := bits (dw ws 1) 0 1
  let m := b.mode (dFloat f)
  let e := b.emitters f
  firstFail [
    fieldFail ws [⟨1, 1, fun _ => true⟩, ⟨2, 0x7FF, fun w => !fire || decide (w < e)⟩,
      if fire then ⟨3, 0xF, fun _ => true⟩ else ⟨3, 0xFFFFFFFF, fun w => w != 0⟩],
    if fire then none else lenFail ws 3 0xFFFFFFFF (decide (e < dw ws 2 + dw ws 3)),
    need (m == .service || (!fire && m == .setup)) 0x57 (modeCode m),
    need ((b.bar f).meas.isEmpty && (b.bar f).fire.isNone) 0x58 f]

/-- FLT_MEASURE: it completes when its last result is written. -/
def fltMeasureProg (ring : Fin 40) : Prog :=
  descr ring 0x23 false fun ws =>
    .get fun b =>
      checked ring (fltFail b ws false)
        (.seq (.op (.ring ring .start))
          (modBar (bits (dw ws 1) 0 1) fun x => { x with
            meas := [⟨.command ring, dw ws 2, dw ws 2 + dw ws 3, [], false, false⟩] }))

/-- FLT_FIRE: it fires at the next tick edge and completes at the end of the on-time. -/
def fltFireProg (ring : Fin 40) : Prog :=
  descr ring 0x24 false fun ws =>
    .get fun b =>
      checked ring (fltFail b ws true)
        (.seq (.op (.ring ring .start))
          (modBar (bits (dw ws 1) 0 1) fun x => { x with fire := some ⟨ring, dw ws 2, dw ws 3 % 16, none⟩ }))

/-! ### Usage counters (R325) -/

/-- AUTH_FAIL. -/
def authFail (f : Nat) : Prog :=
  .get fun b =>
    progAll [
      modBar f fun x => { x with auth := none },
      setFlag (flFlt f 10),
      progIf (b.barCfg f F.FLT_BAR_CFG_AUTH_REQ == 1) (requestSafe (dFloat f) .domainFault (flFlt f 10).key)]

/-- The bytes of the BAR2 window. -/
def Blk.winBytes (b : Blk) (a n : Nat) : List Byte := (List.range n).map fun i => b.winByte (a + i)

/-- AUTH_RESPONSE (R325): energy (two words), powered time and signature of a response. -/
def authResponseProg (f : Nat) (msg : List Word) : Prog :=
  .get fun b =>
    match (b.bar f).auth with
    | none => .skip
    | some a =>
      if a.tosend then .skip
      else
        let key := (beBytes (b.winBytes (barTab f + 0x400) 32), beBytes (b.winBytes (barTab f + 0x420) 32))
        let num := msg.take 3
        let sig := ((msg.drop 3).take 16).flatMap wordBytes
        let text := (a.nonce ++ toWords 2 (b.w64 (Reg.HLK_LANE_ID (halfLane f 0))) ++ num).flatMap wordBytes
        let energy := leWords (num.take 2)
        let powered := leWords (num.drop 2)
        if ecdsaVerify key (sha256 text) (beBytes (sig.take 32)) (beBytes (sig.drop 32)) ∧
            b.w64 (Reg.FLT_BAR_ENERGY f) ≤ energy ∧ (b.w (Reg.FLT_BAR_HOURS f)).toNat ≤ powered then
          progAll [
            modBar f fun x => { x with auth := none },
            setW64 (Reg.FLT_BAR_ENERGY f) energy,
            setW (Reg.FLT_BAR_HOURS f) (BitVec.ofNat 32 powered),
            stageSection 0x000A 1 f (num.flatMap wordBytes)]
        else authFail f

/-- AUTH_TIMEOUT (R325): 20 ms have passed without a response. -/
def authTimeoutProg (f : Nat) : Prog :=
  .get fun b =>
    match (b.bar f).auth with
    | none => .skip
    | some a => progIf (decide (a.deadline ≤ b.ns2)) (authFail f)

/-! ### A bar's registers computed on reading -/

/-- FLT_BAR_STATE. -/
def Blk.barState (b : Blk) (f : Nat) : Nat :=
  let x := b.bar f
  let s :=
    if !x.meas.isEmpty then 4
    else if x.auth.isSome then 5
    else match x.cur with
      | some c => if c.exposed && c.blank.all Option.isNone then 2 else 3
      | none => if x.hard && x.work then 3 else if x.work then 1 else 0
  s + ((x.cur.map Line.n).getD x.lastLine) % 32768 * 65536

/-- FLT_BAR_TOK. -/
def Blk.barTok (b : Blk) (f : Nat) : Nat :=
  (b.toks' f).bar.level / 1024 % 2 ^ 32 + (b.toks' f).bar.committed / 1024 % 2 ^ 32 * 2 ^ 32

end Sys2Proof.Machine
end

