-- ==== Sys2Proof/Machine/Record.lean ====
section
/-!
DEFINITION. The record store: Skim jobs of the record, segments with header, payload, pages and seal, bad
blocks, recovery after a power loss, reading and releasing (R400 to R424).
-/
namespace Sys2Proof.Machine

/-- `n` words of free values from the number of the first. -/
def freeWords (k n : Nat) : List Word := (List.range n).map fun i => Config.freeWord (k + i)

/-! ### Pages and bytes of a segment (R411) -/

/-- The bytes of a segment: header, payload and, once composed, seal. -/
def RecSeg.bytes (s : RecSeg) : List Byte := s.head ++ s.data ++ s.sealB

def RecSeg.isSealed (s : RecSeg) : Bool := !s.sealB.isEmpty

/-- Header and payload bytes. -/
def RecSeg.len (s : RecSeg) : Nat := s.head.length + s.data.length

/-- SEG_BYTES: bytes so far for an open segment. -/
def RecSeg.size (s : RecSeg) : Nat := s.len + s.sealB.length

/-- Data pages that hold header and payload. -/
def RecSeg.dataPages (s : RecSeg) : Nat := (s.len + 16383) / 16384

/-- Pages of a sealed segment: data pages, one parity page for each 15 of them or part of 15, and the seal. -/
def RecSeg.total (s : RecSeg) : Nat := s.dataPages + (s.dataPages + 14) / 15 + 1

/-- Pages that can be programmed: a data page only once it is full, before the seal is composed (R411). -/
def RecSeg.ready (s : RecSeg) : Nat := if s.isSealed then s.total else s.len / 16384 + s.len / 16384 / 15

/-- Header and payload bytes in durable data pages: every sixteenth page is parity. -/
def RecSeg.durableLen (s : RecSeg) : Nat := min s.len ((s.durable - s.durable / 16) * 16384)

/-- Every page, parity pages and the seal included, has reported program pass (R415). -/
def RecSeg.isDurable (s : RecSeg) : Bool := s.isSealed && decide (s.total ≤ s.durable)

/-! ### Blocks (R417) -/

/-- Blocks the pages of a segment lie in: target and block (the log goes round the targets). -/
def RecSeg.blocks (g : Geom) (s : RecSeg) : List (Nat × Nat) :=
  ((List.range s.durable).map fun i =>
    ((s.first + i) % g.targets, (s.first + i) / g.targets / g.pages)).eraseDups

/-- Blocks that hold pages of segments that are not released. -/
def Store.inUse (s : Store) : Nat :=
  (((s.segs ++ s.seg.toList).filter fun x => !x.released).flatMap fun x => x.blocks s.geom).eraseDups.length

/-- Blocks of the system area: the journals and the event recorder's regions of both channels. -/
def systemBlocks : Nat := 2 * (64 + 256)

/-- Free blocks of all planes. -/
def Store.freeBlocks (s : Store) : Nat :=
  (s.planes.map Plane.good).sum - systemBlocks - s.inUse - s.erasable

/-- NVS_PLANE index of the plane numbered `i` in order of target, LUN and plane. -/
def Geom.planeIndex (g : Geom) (i : Nat) : Nat :=
  16 * (i / (g.luns * g.planes)) + 4 * (i / g.planes % g.luns) + i % g.planes

/-- The registers that show the store. -/
def storeRegs : Prog :=
  .get fun b =>
    let s := b.aux.store
    progAll [
      setF Reg.NVS_FILL F.NVS_FILL_FREE (min 0xFFFFFF s.freeBlocks),
      setW Reg.NVS_SEQ (BitVec.ofNat 32 (match s.segs.find? fun x => !x.released with | some x => x.seq | none => s.next)),
      setW (Reg.NVS_SEQ + 4) (BitVec.ofNat 32 (match s.segs.getLast? with | some x => x.seq | none => 0)),
      setF Reg.SKM_SLOTS F.SKM_SLOTS_BUSY (b2n s.started),
      progEach s.planes.zipIdx fun (p, i) =>
        .seq (setW (Reg.NVS_PLANE (s.geom.planeIndex i)) (BitVec.ofNat 32 (p.good % 65536 + 65536 * p.spare)))
          (setW (Reg.NVS_PLANE (s.geom.planeIndex i) + 4) (BitVec.ofNat 32 (p.retired % 65536 + 65536 * p.retiring)))]

/-- A block of a plane fails: it is retiring (R417). -/
def Plane.fail (p : Plane) : Plane :=
  if p.good = 0 then p else { p with good := p.good - 1, retiring := p.retiring + 1 }

/-- A table commit: retiring blocks are retired, spares move to good while there are any (R417). -/
def Plane.commit (p : Plane) : Plane :=
  let n := min p.spare p.retiring
  ⟨p.good + n, p.spare - n, p.retired + p.retiring, 0⟩

def planeFail (i : Nat) : Prog := modStore fun s => { s with planes := s.planes.modify i Plane.fail }

/-- The block table is committed. -/
def tableCommit : Prog :=
  .get fun b =>
    let ps := b.aux.store.planes
    let n := (ps.map Plane.retiring).sum
    progAll [
      modStore fun s => { s with planes := s.planes.map Plane.commit },
      progEach (List.replicate n ()) fun _ => setFlag (flNvs 0),
      progIf ((ps.map Plane.commit).any fun p => decide (p.spare < 16)) (setFlag (flNvs 1)),
      storeRegs]

/-! ### Appending -/

/-- The storage domain appends coat segments (R33): Ready, appending, or completing pending appends. -/
def appendMode : Mode → Bool
  | .armed | .expose | .drain => true
  | _ => false

/-- Nothing is appended after a configuration error or without the block table (R409, R418). -/
def Blk.storeUsable (b : Blk) : Bool :=
  let s := b.aux.store
  s.enumerated && !s.configBad && s.scanned && !s.tableLost

/-- Segments of a kind may be appended in a mode: release segments in SETUP too (R423). -/
def Blk.mayAppendIn (b : Blk) (m : Mode) (kind : Nat) : Bool :=
  b.storeUsable && (appendMode m || (kind == 1 && m == .setup))

/-- Segments of a kind may be appended now. -/
def Blk.mayAppend (b : Blk) (kind : Nat) : Bool := b.mayAppendIn (b.mode dStore) kind

/-- The header of a segment. -/
def headerBytes (kind seq coat tag build time : Nat) (prev : List Byte) : List Byte :=
  toBytes 4 0x47534B53 ++ toBytes 4 (1 + kind * 256) ++ toBytes 4 seq ++ toBytes 4 coat ++ toBytes 8 build ++
    toBytes 4 tag ++ toBytes 4 0 ++ toBytes 16 (stampOf time) ++ prev ++ toBytes 48 0

/-- A segment opens with the hash of the whole previous segment; of the first segment's PREV_HASH the spec
says nothing. -/
def openSegment (kind coat tag build : Nat) (data : List Byte) : Prog :=
  withFrees 8 fun k =>
    modAux fun a =>
      let s := a.store
      let prev := match s.segs.getLast? with
        | some x => sha256 x.bytes
        | none => (freeWords k 8).flatMap wordBytes
      { a with store := { s with
          seg := some {
            seq := s.next, kind := kind, coat := coat, buildId := build,
            head := headerBytes kind s.next coat tag build a.clk.tb0 prev, data := data, sealB := [],
            durable := 0, first := s.log, closing := false, trunc := false, damaged := false, released := false,
            lastTick := 0, lostCw := 0 }
          next := s.next + 1
          history := [], prev := none, started := false } }

def modSeg (f : RecSeg → RecSeg) : Prog := modStore fun s => { s with seg := s.seg.map f }

/-- The seal, with its signature by the identity key, which is free (R415). -/
def sealBytes (s : RecSeg) (time tick : Nat) (sig : List Word) : List Byte :=
  toBytes 4 0x4E454B53 ++ toBytes 4 (b2n s.trunc + 2 * b2n s.damaged) ++ toBytes 8 (s.len + 128) ++
    toBytes 16 (stampOf time) ++ toBytes 8 tick ++ toBytes 24 0 ++ sig.flatMap wordBytes

/-- The seal is composed. -/
def sealNow (trunc : Bool) : Prog :=
  withFrees 16 fun k =>
    modAux fun a =>
      { a with store := { a.store with
          seg := a.store.seg.map fun x =>
            let y := { x with trunc := trunc, damaged := x.damaged || a.store.damaged }
            { y with sealB := sealBytes y a.clk.tb0 (if trunc then y.lastTick else a.store.newest) (freeWords k 16) }
          damaged := if trunc then a.store.damaged else false
          started := false } }

/-- A closing segment whose staged bytes Skim has taken is sealed. -/
def trySeal : Prog :=
  .get fun b =>
    let s := b.aux.store
    match s.seg with
    | some x => progIf (x.closing && !x.isSealed && s.rest.isEmpty) (sealNow false)
    | none => .skip

/-- SEQs of a build's segments that a release names. -/
def Store.ofBuild (s : Store) (id : Nat) : List Nat :=
  (s.segs.filter fun x => x.kind == 0 && x.buildId == id && !x.released).map RecSeg.seq

/-- The next waiting release opens its segment, where none is open: its payload lists the SEQ values (R423). -/
def startRelease : Prog :=
  .get fun b =>
    let s := b.aux.store
    match s.seg, s.releases with
    | none, (_, id) :: _ =>
      progIf (b.mayAppend 1)
        (let qs := (s.ofBuild id).flatMap (toBytes 4)
        progAll [
          openSegment 1 0 0 id (if qs.isEmpty then [] else skimStored qs),
          modSeg fun x => { x with closing := true, lastTick := b.aux.clk.tick },
          sealNow false])
    | _, _ => .skip

/-- A durable segment joins the store. -/
def keepSegment : Prog :=
  .seq (modStore fun s => { s with segs := s.segs ++ s.seg.toList, seg := none, jobs := [] }) storeRegs

/-- The segments of a build are released: blocks that hold released segments alone are to be erased. -/
def Store.release (s : Store) (id : Nat) (waiting : List (Nat × Nat)) : Store :=
  let segs := s.segs.map fun x =>
    if x.kind == 0 && x.buildId == id then { x with released := true } else x
  let t : Store := { s with segs := segs, releases := waiting }
  { t with erasable := t.erasable + (s.inUse - t.inUse) }

/-- A durable release: the segments named are released, blocks that hold released segments alone are freed for
erasure, and the descriptor completes (R423). -/
def releaseDone : Prog :=
  .get fun b =>
    match b.aux.store.releases with
    | [] => keepSegment
    | (ring, id) :: rest =>
      progAll [
        keepSegment,
        modStore fun s => s.release id rest,
        storeRegs,
        completeOk ring 0,
        startRelease]

/-! ### Skim jobs of the record (R403 to R407, R412) -/

/-- The state of a stream between blocks: the output newest first and the counts of the last block. -/
structure Stream where
  hist : List Byte
  prev : Option (List Nat × List Nat)

/-- Counts of a stored block (R401). -/
def storedCounts (bs : List Byte) : List Nat × List Nat :=
  (bs.foldl (fun l v => bump l v.toNat) (bump (List.replicate 277 0) 256), List.replicate 32 0)

/-- The expansion of one block's payload, with the block's counts; none where it is malformed. -/
def expandBlock (st : Stream) (raw ty : Nat) (pay : List Byte) : Option (List Byte × List Nat × List Nat) :=
  if ty = 0 then if pay.length = raw then some (pay, storedCounts pay) else none
  else
    let lens : Option (List Nat × List Nat) :=
      if ty = 1 then some (staticLit, staticDist)
      else if ty = 2 then st.prev.map fun (a, b) => (adaptive a, adaptive b)
      else none
    match lens with
    | none => none
    | some (ll, dl) =>
      match readSyms (canonical ll) (canonical dl) (leBytes pay) (8 * pay.length) (st.hist.length + raw)
          (8 * pay.length + 1) ⟨st.hist, 0, List.replicate 277 0, List.replicate 32 0⟩ with
      | .error _ => none
      | .ok d =>
        if (d.pos + 7) / 8 ≠ pay.length ∨ leBytes pay / 2 ^ d.pos ≠ 0 ∨ d.out.length ≠ st.hist.length + raw then none
        else some ((d.out.take raw).reverse, d.lits, d.dists)

/-- A block as it is written. -/
def blockBytes (raw : List Byte) (ty : Nat) (last : Bool) (pay : List Byte) : List Byte :=
  toBytes 4 (raw.length - 1 + ty * 65536 + (if last then 262144 else 0)) ++ toBytes 4 pay.length ++
    toBytes 4 (crc32 raw) ++ pay

/-- What a job makes: output, the stream's state, blocks that failed verification, blocks emitted. -/
structure JobOut where
  out : List Byte
  st : Stream
  bad : Nat
  count : Nat

/-- The blocks of a job over its input, each compared with the input after expansion and stored where it
differs (R407); input that the compressor's blocks do not reach is stored. -/
def jobBlocks (close : Bool) : Nat → List SkimBlock → List Byte → JobOut → JobOut
  | 0, _, _, o => o
  | k + 1, l, inp, o =>
    if inp.isEmpty then o
    else
      let n := match l with
        | c :: _ => if 1 ≤ c.raw ∧ c.raw ≤ 65536 then min c.raw inp.length else min 65536 inp.length
        | [] => min 65536 inp.length
      let raw := inp.take n
      let rest := inp.drop n
      let last := close && rest.isEmpty
      let good := match l with
        | c :: _ =>
          if c.raw = n then
            match expandBlock o.st n c.ty c.pay with
            | some (x, cs) => if x = raw then some (c.ty, c.pay, cs) else none
            | none => none
          else none
        | [] => none
      let (ty, pay, cs) := good.getD (0, raw, storedCounts raw)
      jobBlocks close k l.tail rest {
        out := o.out ++ blockBytes raw ty last pay
        st := ⟨(raw.reverse ++ o.st.hist).take 65536, some cs⟩
        bad := o.bad + (if good.isNone && !l.isEmpty then 1 else 0)
        count := o.count + 1 }

/-- The stream header (R400). -/
def streamHeader : List Byte := toBytes 4 0x4D494B53 ++ toBytes 4 1

/-- The segment of the staged coat opens with its first job. -/
def openCoat : Prog :=
  .get fun b =>
    let s := b.aux.store
    match s.seg, s.cur with
    | none, some n =>
      progIf (!s.stage.isEmpty)
        (openSegment 0 n (match b.coat n with | some c => c.tag | none => 0) b.build.id [])
    | _, _ => .skip

/-- Output that is not durable is given up: its raw bytes count as staged again, for a new stream. What the durable pages
hold of it stays in the segment (DESIGN CHOICE: R412 ends a stream at a block boundary and R411 keeps pages that are
programmed). -/
def Store.restage (s : Store) : Store :=
  match s.seg with
  | none => s
  | some x =>
    if x.kind != 0 then s
    else
      let raw := s.jobs.flatMap SkimJob.raw
      { s with
        rest := if x.closing then raw ++ s.rest else s.rest
        stage := if x.closing then s.stage else raw ++ s.stage
        jobs := []
        history := [], prev := none, started := false
        seg := some { x with data := x.data.take (x.durableLen - x.head.length), sealB := [] } }

/-- Compressed output that is not durable is lost (R412): its raw bytes are staged again, and a new stream
begins at the first of them. -/
def outputLost : Prog := progAll [modStore Store.restage, trySeal, storeRegs]

/-- One job over the oldest staged bytes, at most 1 MiB, of the open segment: it succeeds or fails whole
(R403, R405). -/
def recordJob (blocks : List SkimBlock) : Prog :=
  .get fun b =>
    let s := b.aux.store
    match s.seg with
    | none => .skip
    | some x =>
      let own := x.closing || s.cur == some x.coat
      let src := if x.closing then s.rest else s.stage
      let inp := src.take 1048576
      let more := src.drop 1048576
      let o := jobBlocks (x.closing && more.isEmpty) (inp.length + 1) blocks inp
        ⟨if s.started then [] else streamHeader, ⟨s.history, s.prev⟩, 0, 0⟩
      let room := inp.length + 12 * o.count + (if s.started then 0 else 8)
      if !own || x.kind != 0 || inp.isEmpty || x.isSealed || !b.mayAppend 0 then .skip
      else if room < o.out.length then
        -- a job whose output does not fit gives none, and the stream restarts (R405 to R407)
        .seq (setFlag (flSkm 1)) outputLost
      else
        progAll [
          progEach (List.replicate o.bad ()) fun _ => setFlag (flSkm 0),
          modStore fun y => { y with
            rest := if x.closing then more else y.rest
            stage := if x.closing then y.stage else more
            history := o.st.hist, prev := o.st.prev, started := true
            seg := y.seg.map fun z => { z with data := z.data ++ o.out }
            jobs := y.jobs ++ [⟨inp, x.data.length + o.out.length, y.newest⟩] },
          trySeal,
          storeRegs,
          stageLevels]

/-- SKIM_JOB (R403): Skim takes the next record job. `blocks` is what the compressor makes of it, which the
spec leaves to Skim; every block of it is checked. -/
def skimJobProg (blocks : List SkimBlock) : Prog :=
  .seq (progWhen (fun b => b.mayAppend 0) openCoat) (recordJob blocks)

/-- Staged input is lost (R413): `n` bytes are omitted, a MARK section with the cause and the count follows, and
the segment's seal will say DAMAGED. -/
def inputLost (cause n : Nat) : Prog :=
  .get fun b =>
    let s := b.aux.store
    let m := min n (if s.rest.isEmpty then s.stage.length else s.rest.length)
    progIf (m != 0)
      (.seq (modStore fun y =>
        if s.rest.isEmpty then
          { y with stage := y.stage.drop m ++ markSection cause m, damaged := true }
        else { y with rest := y.rest.drop m ++ markSection cause m, damaged := true }) stageLevels)

/-! ### The record of a coat (R414) -/

/-- A COAT_INFO section: words 1 to 5 of COAT_DEFINE and the starts of the phases so far. -/
def coatInfo : Prog :=
  .get fun b =>
    match b.aux.store.cur.bind b.coat with
    | none => .skip
    | some c =>
      let ps := b.aux.store.starts.flatMap fun (t, x) => toBytes 8 t ++ toBytes 16 (stampOf x)
      stageSection 1 1 0 (toBytes 4 c.num ++ toBytes 4 c.parts ++ toBytes 4 (c.layer + 65536 * c.flow) ++
        toBytes 4 (c.recoat + 16 * c.float + 256 * b2n c.image + 512 * b2n c.auto) ++ toBytes 4 c.tag ++ ps)

/-- A phase of the staged coat starts. -/
def phaseMark : Prog :=
  .seq (modAux fun a => { a with store := { a.store with starts := a.store.starts ++ [(a.clk.tick, a.clk.tb0)] } })
    coatInfo

/-- The record of a coat begins at its boundary. -/
def beginRecord (n : Nat) : Prog :=
  .seq (modStore fun s => { s with cur := some n, starts := [] }) phaseMark

/-- Staging of the coat ends with phase 3: its bytes are those of the segment to be closed (phase 4). -/
def closeRecord : Prog :=
  progAll [
    openCoat,
    modStore fun s => { s with
      cur := none
      rest := s.rest ++ s.stage
      stage := []
      seg := s.seg.map fun x => { x with closing := true } },
    trySeal]

/-! ### NAND commands -/

/-- A page of the open segment is due. -/
def Store.pageDue (s : Store) : Bool := match s.seg with | some x => decide (x.durable < x.ready) | none => false

/-- A page of the open segment can be programmed in a mode. -/
def Blk.pageReadyIn (b : Blk) (m : Mode) : Bool :=
  (match b.aux.store.seg with | some x => b.mayAppendIn m x.kind | none => false) && b.aux.store.pageDue

/-- A page of the open segment can be programmed. -/
def Blk.pageReady (b : Blk) : Bool := b.pageReadyIn (b.mode dStore)

/-- NAND operations other than appends start in a mode (R33, R57). -/
def nandMode : Mode → Bool
  | .off | .reset | .selftest | .safe => false
  | _ => true

/-- The next page needs a new block and no block is free (R423). -/
def Blk.blockedFull (b : Blk) : Bool :=
  let s := b.aux.store
  s.geom.targets != 0 && s.geom.pages != 0 && s.log / s.geom.targets % s.geom.pages == 0 && s.freeBlocks == 0

/-- An operation of a kind may start in a mode: 0 the next page of the open segment, 1 the erase of a freed block, 2 a page
of the block table. -/
def Blk.nandStarts (b : Blk) (m : Mode) : Nat → Bool
  | 0 => b.pageReadyIn m
  | 1 => nandMode m && b.aux.store.erasable != 0
  | _ => nandMode m && b.storeUsable

/-- The storage domain leaves mode `m`: an operation under way there may still complete (R57). OFF and RESET end it. -/
def noteFlight (m : Mode) : Prog :=
  .get fun b =>
    let l := [0, 1, 2].filter fun k => b.nandStarts m k && !(k == 0 && b.blockedFull)
    modStore fun s => { s with
      flight := if b.mode dStore = .off ∨ b.mode dStore = .reset then [] else (l ++ s.flight).eraseDups }

/-- The next page of the open segment reports pass: staged bytes whose output is durable are released (R413). -/
def pagePass : Prog :=
  .seq (modStore fun s =>
    match s.seg with
    | none => s
    | some x =>
      let y := { x with durable := x.durable + 1 }
      let done := fun (j : SkimJob) => decide (y.head.length + j.out ≤ y.durableLen)
      { s with
        log := s.log + 1
        wait := false
        jobs := s.jobs.filter fun j => !done j
        seg := some { y with lastTick := (s.jobs.filter done).foldl (fun t j => max t j.tick) y.lastTick } })
    (.seq stageLevels storeRegs)

/-- A program or erase of a kind completes with pass or fail. -/
def nandDone (kind plane : Nat) (pass : Bool) : Prog :=
  .get fun b =>
    let s := b.aux.store
    match kind with
    | 0 =>
      if !s.pageDue then .skip
      else if b.blockedFull then
        progIf (!s.wait) (.seq (modStore fun y => { y with wait := true }) (setFlag (flNvs 2)))
      else if pass then
        .seq pagePass
          (.get fun c =>
            match c.aux.store.seg with
            | some x => progIf (x.kind == 1 && x.isDurable) releaseDone
            | none => .skip)
      else .seq (planeFail plane) storeRegs
    | 1 =>
      progIf (s.erasable != 0)
        (progAll [
          modStore fun y => { y with erasable := y.erasable - 1 },
          progIf (!pass) (planeFail plane),
          storeRegs])
    | _ => if pass then tableCommit else .seq (planeFail plane) storeRegs

/-- NAND_PROGRAM_DONE (R57, R411): a program or erase completes. `kind` 0 is the next page of the open segment, 1 the erase
of a freed block, 2 a page of the block table. In a mode in which none of its kind starts, one that was under way
completes. -/
def nandProgramProg (kind plane : Nat) (pass : Bool) : Prog :=
  .get fun b =>
    if b.nandStarts (b.mode dStore) kind then nandDone kind plane pass
    else progIf (b.aux.store.flight.contains kind)
      (.seq (modStore fun s => { s with flight := [] }) (nandDone kind plane pass))

/-- NAND_SCRUB (R419): the planes of blocks with an uncorrectable codeword, and the codewords of segments that
were not rebuilt. Weak blocks move, which changes no count. -/
def nandScrubProg (planes : List Nat) (lost : List (Nat × Nat)) : Prog :=
  .get fun b =>
    progIf (b.storeUsable && nandMode (b.mode dStore))
      (progAll [
        progEach planes fun p => .seq (planeFail p) (setFlag (flNvs 5)),
        modStore fun s => { s with
          segs := s.segs.map fun x =>
            { x with lostCw := x.lostCw + ((lost.filter fun l => l.1 == x.seq).map Prod.snd).sum } },
        storeRegs])

/-- WEAR_LEVELLING_MOVE (R419): while no page of a segment is due, a block's content moves to the most-worn free
block, the table is committed, and the old block is erased. -/
def wearMoveProg : Prog :=
  .get fun b => progIf (b.storeUsable && !b.pageReady && nandMode (b.mode dStore)) tableCommit

/-- A target meets R408. -/
def Target.meets (t : Target) : Bool :=
  t.ok && t.page == 16384 && decide (1920 ≤ t.spare) && decide (1 ≤ t.luns ∧ t.luns ≤ 4) &&
    [1, 2, 4].contains t.planes && decide (0 < t.pages ∧ t.pages ≤ 256)

/-- Targets agree in page size, spare size, blocks per plane, planes and LUNs. -/
def Target.same (t u : Target) : Bool :=
  t.page == u.page && t.spare == u.spare && t.blocks == u.blocks && t.planes == u.planes && t.luns == u.luns

/-- NAND_ENUMERATION (R409): every target is read at entry to SETUP. -/
def nandEnumerationProg (ts : List Target) : Prog :=
  .get fun b =>
    progIf (b.mode dStore == .setup && b.aux.store.enumDue)
      (match ts with
      | [] => .seq (modStore fun s => { s with enumerated := true, enumDue := false, configBad := true }) (setFlag (flNvs 8))
      | t :: _ =>
        let cap := ts.length * t.luns * t.planes * t.blocks * t.pages * t.page
        if !(ts.all fun u => u.meets && t.same u) || decide (16 < ts.length) || decide (2 ^ 43 < cap) then
          .seq (modStore fun s => { s with enumerated := true, enumDue := false, configBad := true }) (setFlag (flNvs 8))
        else
          progAll [
            modStore fun s => { s with
              enumerated := true, enumDue := false, configBad := false
              geom := ⟨ts.length, t.luns, t.planes, t.blocks, t.pages⟩ },
            setF Reg.NVS_GEOM F.NVS_GEOM_TARGETS ts.length,
            setF Reg.NVS_GEOM F.NVS_GEOM_LUNS (t.luns - 1),
            setF Reg.NVS_GEOM F.NVS_GEOM_PLANES (t.planes / 2),
            setF Reg.NVS_GEOM F.NVS_GEOM_BLOCKS t.blocks])

/-- Formatting (R417, R418): factory bad blocks of each plane are retired; how many good blocks are withheld as
spares the spec leaves open. -/
def formatStore (bad : List Nat) : Prog :=
  .get fun b =>
    let g := b.aux.store.geom
    let n := g.targets * g.luns * g.planes
    withFrees n fun k =>
      modStore fun s => { s with
        segs := [], seg := none, next := 0, log := 0, erasable := 0
        planes := (List.range n).map fun i =>
          let r := min (bad.getD i 0) g.blocks
          let sp := (Config.freeWord (k + i)).toNat % (g.blocks - r + 1)
          ⟨g.blocks - r - sp, sp, r, 0⟩ }

/-- Step 3 of R420: an open segment without a durable seal gets its parity and a seal with TRUNCATED. Staged bytes whose
output is not durable, which no loss of power has taken, go on in a further segment of the coat (DESIGN CHOICE: R420 states
the steps after a loss). -/
def recoverOpen : Prog :=
  .get fun b =>
    match b.aux.store.seg with
    | none => .skip
    | some x =>
      let tag := leBytes ((x.head.drop 24).take 4)
      if x.isDurable then progIf (b.build.coats.all fun c => c.num != x.coat || c.stage != 4) keepSegment
      else
        progAll [
          modStore Store.restage,
          if x.durable = 0 then modStore fun s => { s with seg := none, next := x.seq }
          else
            progAll [
              modSeg fun y => { y with data := y.data.take (x.durableLen - x.head.length), sealB := [], closing := true },
              sealNow true,
              .get fun c => modStore fun s => { s with
                seg := s.seg.map fun z => { z with durable := z.total }
                log := s.log + ((c.aux.store.seg.map RecSeg.total).getD 0 - x.durable) },
              keepSegment,
              setFlag (flNvs 6),
              raiseEvent 0x3F0 0 dStore 0 0 0],
          progWhen (fun c => x.closing && !c.aux.store.rest.isEmpty)
            (.seq (openSegment 0 x.coat tag x.buildId []) (modSeg fun y => { y with closing := true }))]

/-- STORAGE_RECOVERY (R420): in HOME, with the table as found: 0 a valid commit, 1 none and the system area
erased, 2 none and not erased. SERIAL is loaded from NAND (EVR_SERIAL). -/
def storageRecoveryProg (table : Nat) (bad : List Nat) : Prog :=
  .get fun b =>
    let s := b.aux.store
    if b.mode dStore != .home || !s.enumerated || s.configBad || s.tableLost ||
        b.aux.trans.any (fun t => t.dom == dStore) then .skip
    else if table = 2 then .seq (modStore fun x => { x with tableLost := true }) (setFlag (flNvs 7))
    else
      progAll [
        progIf (table == 1) (formatStore bad),
        recoverOpen,
        modStore fun x => { x with scanned := true, erasable := 0 },
        tableCommit,
        .op (.evr (.loadNext ((b.evr.pinned ++ b.evr.circular).foldl (fun n r => max n (r.serial + 1)) 0))),
        requestMode dStore .setup .done]

/-- What NAND keeps of the record store at a loss of power (R421): durable pages; everything staged is lost. -/
def Store.afterPowerLoss (s : Store) : Store :=
  { Store.init with
    seg := s.seg.map fun x => { x with
      data := x.data.take (x.durableLen - x.head.length), sealB := if x.isDurable then x.sealB else [] }
    segs := s.segs, next := s.next, log := s.log, geom := s.geom, planes := s.planes, erasable := s.erasable }

/-- The end of a coat's segment (R415): it joins the store, and what waits for the place may open. -/
def segmentKept : Prog := .seq keepSegment startRelease

/-- The segment of a coat is durable: the one being written, or the last one kept where recovery sealed it (R420). -/
def Blk.coatDurable (b : Blk) (n : Nat) : Bool :=
  let s := b.aux.store
  match s.seg with
  | some x => x.kind == 0 && x.isDurable
  | none => s.rest.isEmpty && (match (s.segs.filter fun x => x.kind == 0).getLast? with
    | some x => x.coat == n && x.buildId == b.build.id
    | none => false)

/-- Every append accepted before is durable (R548). -/
def Blk.appendsDone (b : Blk) : Bool :=
  let s := b.aux.store
  s.rest.isEmpty && s.releases.isEmpty && (match s.seg with | some x => !x.closing | none => true)

/-! ### Reading and releasing -/

/-- A segment that can be read: open or durable, not released. -/
def Store.readable (s : Store) (seq : Nat) : Option RecSeg :=
  (s.segs ++ s.seg.toList).find? fun x => x.seq == seq && !x.released

/-- A directory entry. -/
def RecSeg.entry (s : RecSeg) : List Byte :=
  let state := if s.released then 3 else if !s.isSealed then 2 else if s.trunc then 1 else 0
  toBytes 4 s.seq ++ toBytes 4 (s.coat % 2 ^ 24 + state * 2 ^ 24 + s.kind * 2 ^ 26) ++ toBytes 8 s.buildId ++
    toBytes 8 s.size ++ toBytes 4 s.lostCw ++ toBytes 4 0

def Store.entryOf (s : Store) (seq : Nat) : List Byte :=
  match (s.segs ++ s.seg.toList).find? fun x => x.seq == seq with
  | some x => x.entry
  | none => toBytes 32 0

/-- Bytes written to host memory. -/
def toHost (addr : Nat) (bs : List Byte) : Prog := emit (.hostWrite addr (bytesToWords bs))

/-- The storage modes in which the store is not read (R422). -/
def Blk.storeAsleep (b : Blk) : Bool := [Mode.off, .reset, .selftest].contains (b.mode dStore)

/-- The checks of NVS_READ (R80, R422). -/
def nvsReadFail (b : Blk) (ws : List Word) : Option Fail :=
  let s := b.aux.store
  let mode := dw ws 1
  let seq := dw ws 2
  let n := dw ws 5
  let ofs := addr64 ws 3
  let size := match s.readable seq with | some x => x.size | none => ofs + n
  let first := (b.w Reg.NVS_SEQ).toNat
  let last := (b.w (Reg.NVS_SEQ + 4)).toNat
  firstFail [
    fieldFail ws [
      ⟨1, 3, fun w => w != 3⟩, anyW 2, ⟨3, 0xFFFFFFFF, fun w => mode == 0 || w == 0⟩,
      ⟨4, 0xFFFFFFFF, fun w => mode == 0 || w == 0⟩,
      ⟨5, 0xFFFFFFFF, fun w => w == 0xFFFFFFFF || (w != 0 && (mode != 1 || w % 32 == 0))⟩, anyW 6, anyW 7, anyW 8],
    lenFail ws 5 0xFFFFFFFF (decide (dw ws 8 < n) || (mode == 0 && decide (size < ofs + n)) ||
      (mode == 2 && decide (18304 < n))),
    lenFail ws 8 0xFFFFFFFF false,
    alignFail ws 6 64,
    need (!b.storeAsleep && (mode != 2 || seq == 0xFFFFFF00 || b.mode dStore == .service)) 0x60 0,
    need (mode != 0 || (s.readable seq).isSome) 0x5E 0,
    need (mode != 1 || (!s.segs.isEmpty && decide (first ≤ seq ∧ seq + n / 32 ≤ last + 1))) 0x5E 0]

/-- Bytes `ofs` up to `ofs + n` with those of the codewords named read as 0. -/
def maskBytes (bs : List Byte) (ofs n : Nat) (bad : List Nat) : List Byte :=
  (((bs.drop ofs).take n).zipIdx).map fun (x, i) => if bad.contains ((ofs + i) / 4096) then 0 else x

/-- Uncorrectable codewords met by a copy: each with its plane (R410, R417). -/
def codewordsLost (seq : Nat) (cw : List (Nat × Nat)) : Prog :=
  progAll [
    progEach cw fun (_, p) => .seq (planeFail p) (setFlag (flNvs 5)),
    modStore fun s => { s with
      segs := s.segs.map fun x => if x.seq == seq then { x with lostCw := x.lostCw + cw.length } else x },
    storeRegs]

/-- Codewords of an operand that a copy of a range meets, each once. -/
def metBy (cw : List (Nat × Nat)) (ofs n : Nat) : List (Nat × Nat) :=
  cw.filter fun (i, _) => decide (ofs / 4096 ≤ i ∧ i * 4096 < ofs + n)

/-- NVS_READ (R422). The uncorrectable codewords of the segment, with their planes, are an operand. A raw page is
read undecoded, and the spec gives neither the place of a page nor the codec, so its words are free; so are the
words of the identity key's public key and certificate, the same at each read. -/
def nvsReadProg (ring : Nat) (cw : List (Nat × Nat)) : Prog :=
  descr ring 0x26 false fun ws =>
    .get fun b =>
      let s := b.aux.store
      let n := dw ws 5
      let ofs := addr64 ws 3
      let dest := addr64 ws 6
      checked ring (nvsReadFail b ws)
        (match dw ws 1 with
        | 0 =>
          let met := metBy cw ofs n
          let bytes := match s.readable (dw ws 2) with | some x => x.bytes | none => []
          .seq (toHost dest (maskBytes bytes ofs n (met.map Prod.fst)))
            (if met.isEmpty then completeOk ring 0
            else .seq (codewordsLost (dw ws 2) met) (complete ring 0x5F (min 0xFFFF met.length)))
        | 1 =>
          .seq (toHost dest ((List.range (n / 32)).flatMap fun i => s.entryOf (dw ws 2 + i))) (completeOk ring 0)
        | _ =>
          if dw ws 2 = 0xFFFFFF00 then
            .seq (toHost dest (((List.range ((n + 3) / 4)).flatMap fun i => wordBytes (Config.identityWord (1024 * b.aux.otp.identity + i))).take n))
              (completeOk ring 0)
          else
            withFrees ((n + 3) / 4) fun k =>
              .seq (toHost dest (((freeWords k ((n + 3) / 4)).flatMap wordBytes).take n)) (completeOk ring 0))

/-- NVS_RELEASE (R423): it completes when its segment is durable. -/
def nvsReleaseProg (ring : Nat) : Prog :=
  descr ring 0x27 false fun ws =>
    .get fun b =>
      let id := addr64 ws 1
      checked ring (firstFail [
        fieldFail ws [anyW 1, anyW 2],
        need (!(b.build.isOpen && b.build.id == id)) 0x61 0,
        need ([Mode.armed, .setup, .expose].contains (b.mode dStore)) 0x60 0])
        (progAll [
          .op (.ring ring .start),
          modStore fun s => { s with releases := s.releases ++ [(ring, id)] },
          startRelease])

end Sys2Proof.Machine
end

