-- ==== Sys2Proof/Machine/Led.lean ====
section
/-!
DEFINITION. Illumination drive (R361 to R372). Energies are held in 10⁻⁸ µJ, so that 1 mV × 1 mA × 10 ns is one.
-/
namespace Sys2Proof.Machine

def Blk.led (b : Blk) (g : Nat) : LedGrp := b.aux.leds.getD g LedGrp.init

def modLed (g : Nat) (f : LedGrp → LedGrp) : Prog := modAux fun a => { a with leds := a.leds.modify g f }

def Blk.ledCh (b : Blk) (n : Nat) : LedCh := b.aux.ledChs.getD n LedCh.init

def modCh (n : Nat) (f : LedCh → LedCh) : Prog := modAux fun a => { a with ledChs := a.ledChs.modify n f }

/-- MODE of a group (LED_CFG). -/
def Blk.ledMode (b : Blk) (g : Nat) : Nat := b.a Reg.LED_CFG ⟨8 * g + 3, 2⟩

/-- 64 × 1,023 × 65,536. -/
def ledDen : Nat := 4290772992

/-- The active settings of a group. -/
def Blk.ledSet (b : Blk) (g : Nat) : LedSet :=
  ⟨b.aw (Reg.LED_GRP_DRIVE g), b.aw (Reg.LED_GRP_TC g), b.aw (Reg.LED_GRP_DISS g),
    (List.range 6).map fun i => b.a (Reg.LED_CH_VAL (6 * g + i)) F.LED_CH_VAL_VALUE⟩

/-- The current of a channel in mA × ledDen under the settings its group is driven with (R361). -/
def Blk.ledCurrent (b : Blk) (n : Nat) : Nat :=
  let x := b.led (n / 6)
  min (150 * (F.LED_GRP_DRIVE_RANGE.get x.cur.drive + 1) * x.cur.vals.getD (n % 6) 0 * x.corr.toNat) (150 * ledDen)

/-- corr from the newest reading of TSRC, or kept with TC_SENSOR set (R361, R362). -/
def ledCorr (g : Nat) : Prog :=
  .get fun b =>
    let s := (b.led g).cur
    let t := b.reading (F.LED_GRP_DRIVE_TSRC.get s.drive)
    let tc := sgn 16 (F.LED_GRP_TC_TC.get s.tc)
    let dT := sgn 16 t - sgn 16 (F.LED_GRP_TC_T_REF.get s.tc)
    if t = 0x7FFF then setFlag (flLedGrp g 1 (b.ledDom g))
    else modLed g fun x => { x with corr := clampI 32768 131072 (65536 + shr 6 (tc * dT)) }

/-- The bucket of a group is brought up to a time (R367); RATE mW is RATE × 1,000 units each 10 ns. -/
def ledRefill (g t : Nat) : Prog :=
  .get fun b =>
    let x := b.led g
    let rate := b.a (Reg.LED_GRP_DISS g) F.LED_GRP_DISS_RATE
    let cap := b.a (Reg.LED_GRP_DCAP g) F.LED_GRP_DCAP_DCAP * 100000000
    let v := min cap (x.level + 1000 * rate * (t - x.upTo))
    progAll [
      modLed g fun y => { y with level := v, upTo := max t y.upTo },
      setF (Reg.LED_GRP_LEVEL g) F.LED_GRP_LEVEL_LEVEL (v / 100000000)]

/-- The channels of a group that may be on (R365, R372). -/
def Blk.ledReady (b : Blk) (g : Nat) : List Nat :=
  (List.range 6).filterMap fun i =>
    let n := 6 * g + i
    if bit (F.LED_GRP_DRIVE_CH_EN.get (b.led g).cur.drive) i && !(b.ledCh n).barred &&
        b.f (Reg.LED_CH_STAT n) ⟨0, 2⟩ == 0 then some n else none

/-- The energy predicted for channels over an on-time (R367). -/
def Blk.ledEnergy (b : Blk) (g : Nat) (chs : List Nat) (t : Nat) : Nat :=
  (chs.map fun n =>
    let v := if (b.ledCh n).measured then b.f (Reg.LED_CH_MEAS n) F.LED_CH_MEAS_V_ON
      else F.LED_GRP_DISS_V_EST.get (b.led g).cur.diss
    v * t * b.ledCurrent n).sum / ledDen

/-- A channel goes on or off. -/
def ledDrive (n : Nat) (on : Bool) : Prog :=
  progWhen (fun b => (b.ledCh n).on != on)
    (.seq (modCh n fun x => { x with on := on, sampled := false, good := 0, opens := 0, shorts := 0 })
      (emit (.pin "LED_K" n (b2n on))))

def ledOff (g : Nat) : Prog := progEach (List.range 6) fun i => ledDrive (6 * g + i) false

/-- The dissipation test over an on-time under given settings: the energy is debited and the channels go on, or the flash
is withheld (R367). -/
def ledTest (g : Nat) (s : LedSet) (t : Nat) (k : Bool → Prog) : Prog :=
  progAll [
    modLed g fun x => { x with cur := s },
    ledCorr g,
    .get fun b =>
      let chs := b.ledReady g
      let e := b.ledEnergy g chs t
      if e ≤ (b.led g).level then
        progAll [
          modLed g fun x => { x with level := x.level - e },
          setF (Reg.LED_GRP_LEVEL g) F.LED_GRP_LEVEL_LEVEL (((b.led g).level - e) / 100000000),
          progEach (List.range 6) fun i => ledDrive (6 * g + i) (chs.contains (6 * g + i)),
          k true]
      else .seq (setFlag (flLedGrp g 0 (b.ledDom g))) (k false)]

/-- A frame of a camera makes the flashes of its groups due (R364, R365); they keep the settings of the frame's boundary
(R363). -/
def ledArm (c ctx expo bound : Nat) : Prog :=
  progEach (List.range 4) fun g =>
    progWhen (fun b => b.ledMode g == 1 && b.ledCam g == c &&
        bit (b.a (Reg.LED_GRP_CTX g) F.LED_GRP_CTX_CTX_MASK) ctx &&
        (match b.mode (dCam c) with | .armed | .expose | .drain | .service => true | _ => false))
      (.get fun b =>
        let w := b.a (Reg.LED_GRP_FLASH g) F.LED_GRP_FLASH_WIDTH
        modLed g fun x => { x with
          due := x.due ++ [⟨bound + b.a (Reg.LED_GRP_FLASH g) F.LED_GRP_FLASH_DELAY, if w = 0 then expo else w,
            b.ledSet g⟩] })

/-- FRAME_BOUNDARY with the illumination: the buckets of the camera's groups are brought up to the boundary before its
commit changes their RATE, and a triggered frame makes flashes due. -/
def frameBoundaryLed (c : Nat) : Prog :=
  .get fun b =>
    progAll [
      match b.boundaryOfs c with
      | some o => progEach (List.range 4) fun g => progIf (b.ledCam g == c) (ledRefill g (b.now10 + o))
      | none => .skip,
      frameBoundaryProg c,
      .get fun d =>
        progIf (decide ((b.camBook c).triggered < (d.camBook c).triggered))
          (match (d.camBook c).frames.getLast? with
          | some f => ledArm c f.ctx f.expo f.bound
          | none => .skip)]

/-- FLASH_START (R364 to R367): the oldest due flash whose start falls in the present tick. One that starts while another
of its group is on goes on to the later end of the two (DESIGN CHOICE: the spec does not speak of flashes that
overlap). -/
def flashStartProg (g : Nat) : Prog :=
  .get fun b =>
    match (b.led g).due with
    | [] => .skip
    | x :: rest =>
      if b.now10 + b.tick10 ≤ x.at' then .skip
      else
        let until' := match (b.led g).flash with | some (_, t) => max t (x.at' + x.width) | none => x.at' + x.width
        progAll [
          ledRefill g x.at',
          modLed g fun y => { y with due := rest },
          ledTest g x.set x.width fun ok => progIf ok (modLed g fun y => { y with flash := some (x.at', until') })]

/-- FLASH_END (R365): the flash's end falls in the present tick. -/
def flashEndProg (g : Nat) : Prog :=
  .get fun b =>
    match (b.led g).flash with
    | none => .skip
    | some (_, t) =>
      progIf (decide (t < b.now10 + b.tick10)) (.seq (ledOff g) (modLed g fun x => { x with flash := none }))

/-- A hardware set of OPEN (0), SHORT (1) or REG_LOW (2) of a channel; OPEN and SHORT bar it (R372). -/
def ledFault (n i : Nat) : Prog :=
  .get fun b =>
    .seq (setFlag (flLedCh n i (b.ledDom (n / 6))))
      (progIf (decide (i < 2)) (modCh n fun x => { x with barred := true, good := 0 }))

/-- FLASH_SAMPLE (R371): pin voltage in mV and sink current in 10 µA of a channel in a flash of 2 µs or more. -/
def flashSampleProg (n v i : Nat) : Prog :=
  .get fun b =>
    let g := n / 6
    let long := match (b.led g).flash with | some (s, t) => decide (s + 200 ≤ t) | none => false
    let x := b.ledCh n
    if !x.on || x.sampled || !long then .skip
    else
      progAll [
        setF (Reg.LED_CH_MEAS n) F.LED_CH_MEAS_V_ON (min 0xFFFF v),
        setF (Reg.LED_CH_MEAS n) F.LED_CH_MEAS_ICUR (min 0xFFFF i),
        modCh n fun y => { y with measured := true, sampled := true },
        if b.a Reg.LED_THR F.LED_THR_SHORT_VON < v then .seq (ledFault n 1) (ledDrive n false)
        else progIf (decide (i * 10 * ledDen < 900 * b.ledCurrent n))
          (ledFault n (if v < 10 * b.a Reg.LED_THR F.LED_THR_OPEN_V then 0 else 2))]

/-- LED_PROBE_SAMPLE (R370, R372): the pin voltage of an enabled channel that is off, and that of VLED_SNS, mV. Three
samples of one kind in a row set its flag, and three more set it again (DESIGN CHOICE: R370 does not say when a kind that
stays is set anew); a channel kept out of flashes rejoins after its flags are cleared and three samples in a row show
neither. -/
def ledProbeProg (n v vled : Nat) : Prog :=
  .get fun b =>
    let g := n / 6
    let x := b.ledCh n
    if !bit (b.a (Reg.LED_GRP_DRIVE g) F.LED_GRP_DRIVE_CH_EN) (n % 6) || x.on then .skip
    else
      let op := decide (v < 10 * b.a Reg.LED_THR F.LED_THR_OPEN_V)
      let sh := decide (vled ≤ v + 10 * b.a Reg.LED_THR F.LED_THR_SHORT_DV)
      let o := if op then x.opens + 1 else 0
      let s := if sh then x.shorts + 1 else 0
      let clear := b.f (Reg.LED_CH_STAT n) ⟨0, 2⟩ == 0
      let gd := if op || sh || !clear then 0 else x.good + 1
      progAll [
        modCh n fun y => { y with
          opens := if o = 3 then 0 else o, shorts := if s = 3 then 0 else s, good := min 3 gd,
          barred := y.barred && decide (gd < 3) },
        progIf (o == 3) (ledFault n 0),
        progIf (s == 3) (ledFault n 1)]

/-- Camera SAFE: its groups' channels go off and no flash is due (R57, R369). -/
def ledCamSafe (c : Nat) : Prog :=
  progEach (List.range 4) fun g =>
    progWhen (fun b => b.ledCam g == c)
      (.seq (ledOff g) (modLed g fun x => { x with due := [], flash := none }))

/-- A group returns to its reset state with its camera. -/
def ledReset (g : Nat) : Prog :=
  progAll [
    ledOff g,
    modLed g fun x => { LedGrp.init with upTo := x.upTo },
    progEach (List.range 6) fun i => modCh (6 * g + i) fun _ => LedCh.init]

/-- A group at a tick edge: its bucket gains, and in MODE 2 the test covers the tick that elapsed, of `el` 10 ns units
(R366). A flash whose frame's boundary has passed runs on whatever its MODE is by now (R363). -/
def ledTick (el g : Nat) : Prog :=
  .get fun b =>
    .seq (ledRefill g b.now10)
      (if b.ledMode g = 2 ∧ b.mode (b.ledDom g) = .service then
        ledTest g (b.ledSet g) el fun ok => progIf (!ok) (ledOff g)
      else progIf (b.led g).flash.isNone (ledOff g))

end Sys2Proof.Machine
end

