-- ==== Sys2Proof/Machine/Thermal.lean ====
section
/-!
DEFINITION. Temperature readings and limits, throttling, the core supply (R461 to R477).
-/
namespace Sys2Proof.Machine

def Blk.therm (b : Blk) (n : Nat) : Temp := b.aux.temps.getD n Temp.init

def modTherm (n : Nat) (f : Temp → Temp) : Prog := modAux fun a => { a with temps := a.temps.modify n f }

/-- The uplink temperatures of a head or bar reading, with the TB2 nanosecond its age counts from (R462). -/
def Blk.farTemp (b : Blk) (n : Nat) : Nat × Option Nat :=
  if n < 160 then
    let x := b.lane ((n - 32) / 4)
    (x.tempsAt.getD x.start, if x.tempsAt.isSome then x.temps[(n - 32) % 4]? else none)
  else
    let l := (n - 160) / 4
    let x := (b.bar (l / 2)).half (l % 2)
    (x.tempsAt.getD (b.lane (32 + l)).start, if x.tempsAt.isSome then x.temps[n % 4]? else none)

/-- What a sample finds, before R463's range and stuck tests: nothing yet, a broken far end or sensor, or a
value. Die and board values come with the command. -/
def Blk.thermInput (b : Blk) (n : Nat) (v : Option Int) : Option (Option Int) :=
  if (readingDom n).isSome then
    match b.farTemp n with
    | (t, x) =>
      if t + 4000000 ≤ b.ns2 then some none
      else
        match x with
        | some u => some (if u = 0x7FFF then none else some (sgn 16 u))
        | none => none
  else some v

/-- STUCK_S of a reading. -/
def Blk.stuckS (b : Blk) (n : Nat) : Nat :=
  b.a Reg.THM_CLASS (if n < 32 then F.THM_CLASS_STUCK_DIE else if n < 160 then F.THM_CLASS_STUCK_HEAD
    else if n < 176 then F.THM_CLASS_STUCK_BAR else F.THM_CLASS_STUCK_BRD)

/-- The lowest reading at which R470 trips: 15 °C above the junction maximum of the grade. -/
def Blk.tripAt (b : Blk) : Int := if b.aux.otp.gradeX then 8320 else 7680

/-- A die reading stands at or above R470's bound. -/
def Blk.tripped (b : Blk) : Bool :=
  (List.range 24).any fun n => decide (0 < (b.therm n).since ∧ b.tripAt ≤ sgn 16 (b.reading n))

/-- The domain named by a reading's events. -/
def readingEvDom (n : Nat) : Nat := (readingDom n).getD noDom

/-- A limit is reached (R465). -/
def limitReached (n value level : Nat) : Prog :=
  progAll [
    setFlag (flThm level n (readingEvDom n)),
    setF Reg.THM_LAST (if level = 0 then F.THM_LAST_SOFT_IDX else F.THM_LAST_HARD_IDX) n,
    raiseEvent 0x530 n (readingEvDom n) n value level]

/-- What reaching HARD does (R468, R319). -/
def hardOutcome (n : Nat) : Prog :=
  .get fun b =>
    let key := (flThm 1 n (readingEvDom n)).key
    if n < 24 || b.thmAction n then requestSafe dCore .thermal key
    else
      match readingDom n with
      | some d => if d < 32 then requestSafe d .thermal key else barHard (d - 32)
      | none => .skip

/-- THR_SCALE of the groups and the F bits of THM_STATE (R467). -/
def throttleScale : Prog :=
  .get fun b =>
    let held := fun f => (b.bar f).soft && !b.thmIdle (160 + 8 * f)
    let sc := b.a Reg.THM_CFG F.THM_CFG_FLT_SCALE
    progAll [
      setF Reg.THM_STATE F.THM_STATE_F0_THR (b2n (held 0)),
      setF Reg.THM_STATE F.THM_STATE_F1_THR (b2n (held 1)),
      progEach (List.range 12) fun a =>
        setF (Reg.MOT_AXIS_MSTAT a) F.MOT_AXIS_MSTAT_THR_SCALE
          (if (held 0 && b.barGroup 0 == a / 3) || (held 1 && b.barGroup 1 == a / 3) then sc else 255)]

/-- THM_READ takes a sample: its word, and the onsets of R463 and R465. -/
def takeSample (n : Nat) (inp : Option Int) : Prog :=
  .get fun b =>
    let x := b.therm n
    let now := b.ns2
    let since := if x.raw == inp && 0 < x.since then x.since else now + 1
    let s := b.stuckS n
    let stuck := decide (s ≠ 0 ∧ since + s * 1000000000 ≤ now + 1)
    let good := inp.filter fun v => decide (-4096 ≤ v ∧ v ≤ 12800) && !stuck
    let value := match good with | some v => unsgn 16 v | none => 0x7FFF
    let t := sgn 16 value
    let (soft, hard) := b.thmLim n
    let atSoft := decide (soft ≤ t ∨ value = 0x7FFF)
    let atHard := decide (hard ≤ t ∨ value = 0x7FFF)
    let fast := decide (n < 176 ∧ (soft - 320 ≤ t ∨ value = 0x7FFF))
    let old := (b.w (Reg.THM_READ n)).toNat
    let run := if atHard then min 2 (x.hardRun + 1) else 0
    let wasTrip := b.tripped
    progAll [
      setW (Reg.THM_READ n) (BitVec.ofNat 32 (value + b2n good.isNone * 2 ^ 16 + b2n fast * 2 ^ 17 +
        b2n atSoft * 2 ^ 18 + b2n atHard * 2 ^ 19)),
      modTherm n fun _ => ⟨inp, since, run⟩,
      progIf (good.isNone && !bit old 16)
        (.seq (setFlag (flThm 2 n (readingEvDom n))) (setF Reg.THM_LAST F.THM_LAST_BROKEN_IDX n)),
      progIf (atSoft && !bit old 18) (limitReached n value 0),
      progIf (run == 2 && x.hardRun != 2) (.seq (limitReached n value 1) (hardOutcome n)),
      progIf (decide (n < 24 ∧ b.tripAt ≤ t))
        (.seq (progIf (!wasTrip) (setFlag (flThm 3 n noDom)))
          (requestSafe dCore .thermal (flThm 3 n noDom).key)),
      progIf (decide (160 ≤ n ∧ n < 176)) (.get fun c =>
        let f := (n - 160) / 8
        barSoft f ((List.range 8).filterMap fun i =>
          if (c.therm (160 + 8 * f + i)).since = 0 then none else some (sgn 16 (c.reading (160 + 8 * f + i)))))]

/-- A reading is sampled (R462 to R465, R468, R470); `v` is what a die or board sensor answers, none for a
failed self-check, a NACK or a bad PEC. -/
def sampleReading (n : Nat) (v : Option Int) : Prog :=
  .get fun b =>
    if b.thmIdle n then
      .seq (setW (Reg.THM_READ n) 0x7FFF) (modTherm n fun _ => Temp.init)
    else
      match b.thermInput n v with
      | none => .skip
      | some inp => .seq (takeSample n inp) throttleScale

/-! ### Throttle levels (R466) -/

/-- A level moves by the readings that govern it. -/
def Blk.nextLevel (b : Blk) (ns : List Nat) (lev : Nat) : Nat :=
  let ns := ns.filter fun n => decide (0 < (b.therm n).since)
  let hyst := Int.ofNat (b.a Reg.THM_CFG F.THM_CFG_HYST)
  let t := fun n => sgn 16 (b.reading n)
  if ns.any fun n => decide ((b.thmLim n).1 ≤ t n) then min 7 (lev + 1)
  else if ns.all fun n => decide (t n < (b.thmLim n).1 - hyst) then lev - 1
  else lev

/-- LEVEL of a head in THM_HLEVEL. -/
def headLevel (h : Nat) : Fld := ⟨4 * (h % 8), 3⟩

/-- THROTTLE_STEP (R466). -/
def throttleStepProg : Prog :=
  .get fun b =>
    progAll [
      modF Reg.THM_STATE F.THM_STATE_DIE_LEVEL fun l => b.nextLevel (b.governs dCore) l,
      progEach (List.range 32) fun h =>
        modF (Reg.THM_HLEVEL (h / 8)) (headLevel h) fun l => b.nextLevel (b.governs h) l]

/-! ### Core voltage (R471 to R475) -/

def modPmu (f : Pmu → Pmu) : Prog := modAux fun a => { a with pmu := f a.pmu }

def Blk.vid (b : Blk) : Nat := b.f Reg.PMU_VID F.PMU_VID_CODE

/-- The PMU may move the code: enabled, and the core has been in SETUP. -/
def Blk.pmuOn (b : Blk) : Bool := b.aux.pmu.started && b.a Reg.PMU_CFG F.PMU_CFG_EN == 1

/-- The code within VMIN and VMAX. -/
def Blk.clampVid (b : Blk) (c : Nat) : Nat :=
  max (b.a Reg.PMU_CFG F.PMU_CFG_VMIN) (min (b.a Reg.PMU_CFG F.PMU_CFG_VMAX) c)

/-- The code changes; the VID pins follow it. -/
def setVid (c : Nat) : Prog :=
  .get fun b => progIf (b.vid != c) (.seq (setF Reg.PMU_VID F.PMU_VID_CODE c) (emit (.pin "VID" 0 c)))

/-- PMU_WINDOW (R473): the end of a window of WIN × 1,000 ticks; VCORE measures `vmeas` mV. -/
def pmuWindowProg (vmeas : Nat) : Prog :=
  .get fun b =>
    let p := b.aux.pmu
    let win := 1000 * b.a Reg.PMU_CFG2 F.PMU_CFG2_WIN
    let target := b.a Reg.PMU_CFG F.PMU_CFG_TARGET_PCT
    let band := b.a Reg.PMU_CFG F.PMU_CFG_BAND_PCT
    let free := p.hold == 0 && !p.loadPend &&
      (match p.loadAt with | some t => decide (t + win ≤ b.aux.clk.tick) | none => true)
    .seq (setF Reg.PMU_VID F.PMU_VID_VMEAS vmeas)
      (progIf (b.pmuOn && decide (win ≤ p.ticks))
        (progAll [
          progIf (decide (p.least < target ∧ b.vid = b.a Reg.PMU_CFG F.PMU_CFG_VMAX)) (setFlag (flPmu 0)),
          setVid (b.clampVid (if p.least < target then b.vid + 1
            else if decide (target + band ≤ p.least) && free then b.vid - 1 else b.vid)),
          modPmu fun q => { q with least := 100, ticks := 0, hold := q.hold - 1 }]))

/-- The PMU at a tick edge (R473, R474): the least slack of the tick that ends, in per cent; SLACK_LOW and
TICK_LATE set in it. `load` says that no load written is above its active load any more. -/
def pmuTick (pct : Nat) (low late load : Bool) : Prog :=
  .get fun b =>
    .seq (modPmu fun p => { p with
        least := if b.pmuOn then min p.least pct else 100
        ticks := if b.pmuOn then p.ticks + 1 else 0
        loadPend := p.loadPend && !load
        loadAt := if p.loadPend && load then some b.aux.clk.tick else p.loadAt })
      (progIf b.pmuOn
        (if late then
          .seq (setVid (b.a Reg.PMU_CFG F.PMU_CFG_VMAX))
            (modPmu fun p => { p with hold := b.a Reg.PMU_CFG2 F.PMU_CFG2_HOLD_WIN + 1 })
        else if low then
          .seq (setVid (b.clampVid (b.vid + 4)))
            (modPmu fun p => { p with
              least := 100, ticks := 0, hold := min p.hold (b.a Reg.PMU_CFG2 F.PMU_CFG2_HOLD_WIN) })
        else setVid (b.clampVid b.vid)))

/-- A write has raised a load above its active load (R475). -/
def pmuLoadRaised : Prog :=
  progWhen (fun b => b.pmuOn && decide (b.a Reg.PMU_CFG F.PMU_CFG_VMIN < 48))
    (.get fun b => .seq (setVid (max 48 b.vid)) (modPmu fun p => { p with loadPend := true }))

/-! ### Supplies (R477) -/

/-- SUPPLY_LOW: a supply is low, or with `pg` VCORE_PG. -/
def supplyLowProg (rail : Nat) (pg : Bool) : Prog :=
  let fl := flPmu (if pg then 2 else 1)
  progAll [
    setF Reg.PMU_STAT F.PMU_STAT_RAIL (if pg then 0 else rail),
    setFlag fl,
    requestSafe dCore .domainFault fl.key]

end Sys2Proof.Machine
end

