-- ==== Sys2Proof/Machine/Recorder.lean ====
section
/-!
DEFINITION. The event recorder's commands: composition, flushing, reading, nonces and clearing (R425 to R437).
-/
namespace Sys2Proof.Machine

/-- The moment of a composition as an event. -/
def Blk.composeMark (b : Blk) : Event := b.event 0x470 0 noDom 0 0 0

/-- The records composed since a SERIAL go to the EVENT ring while RING_EN is 1, and to the EVENT section of the
coat they were raised in (R434). -/
def publishFrom (serial : Nat) : Prog :=
  .get fun b =>
    progEach (b.evr.staged.filter fun r => decide (serial ≤ r.serial)) fun r =>
      .seq (progIf (b.f Reg.EVR_CFG F.EVR_CFG_RING_EN == 1) (deliver 88 r.ws))
        (progIf (b.aux.store.cur == some (bits (dw r.ws 10) 0 24))
          (stageSection 0x000B 1 0 (r.ws.flatMap wordBytes)))

/-- EVENT_COMPOSE (R429): the next record, while staging has a free slot. -/
def eventComposeProg : Prog :=
  .get fun b => .seq (.op (.evr (.compose b.composeMark b.ms2))) (publishFrom b.evr.next)

/-- Event pages are programmed in the present storage mode (R432). -/
def Blk.evrProgrammable (b : Blk) : Bool :=
  match b.mode dStore with
  | .setup => b.aux.store.enumerated && !b.aux.store.enumDue
  | .calibrate | .home | .armed | .expose | .hold | .drain => true
  | _ => false

/-- A page is due (R431). -/
def Blk.flushDue (b : Blk) : Bool :=
  decide (256 ≤ b.evr.staged.length) ||
    (!b.evr.staged.isEmpty &&
      (decide (b.evr.oldestMs + b.f Reg.EVR_CFG F.EVR_CFG_FLUSH_MS ≤ b.ms2) || b.aux.evrFlush))

/-- Circular records of a block that has to be erased for new pages, as many as may be (R433). -/
def eraseBlock (n : Nat) : Prog :=
  .get fun b => progIf (decide (n + 262144 ≤ b.evr.circular.length)) (.op (.evr (.eraseOldest n)))

/-- EVENT_FLUSH (R431 to R433): a page of staged records reports program pass, after the block of the oldest
`erase` circular records was erased where one had to be. -/
def eventFlushProg (erase : Nat) : Prog :=
  .get fun b =>
    progIf (b.flushDue && b.evrProgrammable)
      (progAll [
        progIf (erase != 0) (eraseBlock erase),
        .op (.evr (.program 256 b.ms2)),
        modAux fun a => { a with evrFlush := false }])

/-- Records of an area that are present, staged ones included, in ascending SERIAL. -/
def Evr.present (v : Evr) (circular : Bool) : List EvRecord :=
  if circular then v.circular ++ v.staged.filter fun r => !decide (r.serial < 4096)
  else v.pinned ++ v.staged.filter fun r => decide (r.serial < 4096)

/-- The checks of EVR_READ (R435). -/
def evrReadFail (ws : List Word) : Option Fail :=
  firstFail [
    fieldFail ws [
      ⟨1, 1, fun _ => true⟩, anyW 2, anyW 3, ⟨4, 0xFFFFFFFF, fun w => w != 0⟩, anyW 5, anyW 6, anyW 7],
    lenFail ws 4 0xFFFFFFFF (decide (16384 < dw ws 4) || decide (dw ws 7 < dw ws 4 * 64)),
    lenFail ws 7 0xFFFFFFFF false,
    alignFail ws 5 64]

/-- EVR_READ (R435). Records that an uncorrectable codeword holds are an operand. -/
def evrReadProg (ring : Nat) (bad : List Nat) : Prog :=
  descr ring 0x28 false fun ws =>
    .get fun b =>
      let rs := (((b.evr.present (bit (dw ws 1) 0)).filter fun r => decide (addr64 ws 2 ≤ r.serial)).take (dw ws 4))
      let hurt := rs.any fun r => bad.contains r.serial
      checked ring (evrReadFail ws)
        (.seq
          (emit (.hostWrite (addr64 ws 5)
            (rs.flatMap fun r => if bad.contains r.serial then List.replicate 16 0 else r.ws)))
          (if hurt then .seq (setFlagBit (flEvr 3)) (complete ring 0x62 rs.length) else completeOk ring rs.length))

/-- The checks of a command with a host buffer in words 5 to 7 of at least `n` bytes. -/
def bufferFail (ws : List Word) (n : Nat) : Option Fail :=
  firstFail [
    fieldFail ws [anyW 5, anyW 6, anyW 7],
    lenFail ws 7 0xFFFFFFFF (decide (dw ws 7 < n)),
    alignFail ws 5 64]

/-- A fresh nonce written to the host: its words are free, and it lasts 600 s of TB2 (R436). -/
def makeNonce (ring : Nat) (ws : List Word) (keep : Nonce → Aux → Aux) : Prog :=
  withFrees 8 fun k =>
    .get fun b =>
      progAll [
        modAux (keep ⟨freeWords k 8, b.ns2 + 600000000000⟩),
        emit (.hostWrite (addr64 ws 5) (freeWords k 8)),
        completeOk ring 0]

/-- EVR_NONCE (R436). -/
def evrNonceProg (ring : Nat) : Prog :=
  descr ring 0x29 false fun ws =>
    checked ring (bufferFail ws 32) (makeNonce ring ws fun n a => { a with evrNonce := some n })

/-- A nonce that has not ended. -/
def Blk.liveNonce (b : Blk) (n : Option Nonce) : Option Nonce := n.filter fun x => decide (b.ns2 < x.until_)

/-- A signature of 64 bytes, r then s, verifies over a text. -/
def sigOk (key : Nat × Nat) (text sig : List Byte) : Bool :=
  ecdsaVerify key (sha256 text) (beBytes (sig.take 32)) (beBytes ((sig.drop 32).take 32))

/-- A token's device ID, nonce and signature match (R437): device ID, nonce, signature. -/
def Blk.clearTokenOk (b : Blk) (n : Nonce) (t : List Byte) : Bool :=
  match b.aux.otp.clear with
  | none => false
  | some key =>
    leBytes (t.take 8) == Config.deviceId.toNat && (t.drop 8).take 32 == n.ws.flatMap wordBytes &&
      sigOk key (t.take 40) (t.drop 40)

/-- Staged records are programmed, a page at a time, until `n` pages are written. -/
def programPages : Nat → Prog
  | 0 => .skip
  | n + 1 => .get fun b => .seq (.op (.evr (.program 256 b.ms2))) (programPages n)

/-- A circular record below a SERIAL (R437). -/
def EvRecord.clears (s : Nat) (r : EvRecord) : Bool := decide (4096 ≤ r.serial ∧ r.serial < s)

/-- The EVENT_CLEAR record is composed, after an EVENTS_LOST record where losses are pending (R429), and programmed
(R437). Cleared are the circular records below its SERIAL. -/
def recordClear (ok : Bool) : Prog :=
  .get fun b =>
    progAll [
      progIf (decide (255 ≤ b.evr.staged.length)) (programPages 1),
      progWhen (fun c => c.evr.pend != 0) (.get fun c => .op (.evr (.compose c.composeMark c.ms2))),
      .get fun c =>
        let s := c.evr.next
        let n := if ok then (c.evr.circular ++ c.evr.staged).countP (EvRecord.clears s) else 0
        progAll [
          .op (.evr (.composeClear c.composeMark (if ok then 0 else 1) n c.ms2)),
          publishFrom b.evr.next,
          programPages 2,
          progIf ok (.op (.evr (.clearBelow s)))]]

/-- EVR_CLEAR (R437): while event pages cannot be programmed the command waits. -/
def evrClearProg (ring : Nat) (data : Option (List Word)) : Prog :=
  descr ring 0x2A false fun ws =>
    .get fun b =>
      checked ring (bufferFail ws 104)
        (match b.liveNonce b.aux.evrNonce with
        | none => complete ring 0x63 0
        | some n =>
          if !b.evrProgrammable then .skip
          else
            .seq (modAux fun a => { a with evrNonce := none })
              (match data with
              | none => complete ring 0x08 0
              | some d =>
                if b.clearTokenOk n (d.flatMap wordBytes) then
                  progAll [recordClear true, setFlagBit (flEvr 1), completeOk ring 0]
                else
                  progAll [recordClear false, setFlagBit (flEvr 2), complete ring 0x64 0]))

/-- NONCE_EXPIRY (R436): 600 s have passed since a nonce was made. -/
def nonceExpiryProg (which : Nat) : Prog :=
  .get fun b =>
    modAux fun a =>
      if which = 0 then { a with evrNonce := b.liveNonce a.evrNonce }
      else { a with lcsNonce := b.liveNonce a.lcsNonce }

/-- EVR_SNAP (R430): the latch of the books at a tick edge. -/
def evrLatch : Prog :=
  .get fun b =>
    let v := b.evr
    progEach ([v.raised, v.recorded, v.limited, v.lost, v.intake.length, b.aux.clk.tick].zipIdx)
      fun (x, i) => setW (Reg.EVR_CNT i) (BitVec.ofNat 32 x)

/-- EVR_OLDEST. -/
def Evr.oldest (v : Evr) : Nat :=
  match v.present true with
  | r :: _ => r.serial
  | [] => 0

end Sys2Proof.Machine
end

