-- ==== Sys2Proof/Machine/Time.lean ====
section
/-!
DEFINITION. Time bases and network time: latches, setting, Ethernet ports, time stamps, the clock servos, the
phase loop of a cascade follower, the core's HOME (R438 to R460).
-/
namespace Sys2Proof.Machine

/-! ### Time bases -/

/-- One part in 10⁹ in units of 2⁻²⁴ ppb. -/
def ppbOne : Int := 1000000000 * 16777216

/-- An interval of the reference as a base with an adjustment measures it. -/
def scaleBy (dt : Nat) (adj : Int) : Nat := (Int.ofNat dt * (ppbOne + adj) / ppbOne).toNat

/-- The reference interval in which TB3 advances by `dt` (R439). -/
def refOf (dt : Nat) (adj3 : Int) : Nat := (Int.ofNat dt * ppbOne / (ppbOne + adj3)).toNat

def Blk.inst (b : Blk) (i : Nat) : PtpInst := b.aux.insts.getD i PtpInst.init

def modInst (i : Nat) (f : PtpInst → PtpInst) : Prog := modAux fun a => { a with insts := a.insts.modify i f }

def modAlign (f : Align → Align) : Prog := modAux fun a => { a with align := f a.align }

/-- This part is a cascade follower. -/
def Blk.follower (b : Blk) : Bool := b.f Reg.TIM_TB3 F.TIM_TB3_ROLE == 1

/-- The limit of adj₃. -/
def Blk.slew (b : Blk) : Int := Int.ofNat (b.f Reg.TIM_TB3 F.TIM_TB3_SLEW) * 1000 * 16777216

/-- adj₃ (R455). -/
def Blk.adj3 (b : Blk) : Int :=
  let x := if b.follower then b.aux.align.adj3
    else if b.f Reg.TIM_TB3 F.TIM_TB3_SRC == 1 then (b.inst 0).adj else 0
  clampI (-b.slew) b.slew x

/-- The four bases advance by one tick period of TB3 and the tick count increments, or takes the reference's
count (R439, R441, R457). -/
def advanceTime (period : Nat) : Prog :=
  .get fun b =>
    let dt := period * 281474976710656
    let ref := refOf dt b.adj3
    modAux fun a => { a with
      clk := {
        tb0 := a.clk.tb0 + scaleBy ref (b.inst 0).adj
        tb1 := a.clk.tb1 + scaleBy ref (b.inst 1).adj
        tb2 := a.clk.tb2 + ref
        tb3 := a.clk.tb3 + dt
        tick := match a.align.newTick with | some t => t | none => a.clk.tick + 1 }
      align := { a.align with newTick := none } }

/-- TIM_LATCH (R442). -/
def timLatchProg : Prog :=
  .get fun b =>
    let c := b.aux.clk
    .seq
      (progEach ([c.tb0, c.tb1, c.tb2, c.tb3].zipIdx) fun (x, i) =>
        progEach ((toWords 4 (stampOf x)).zipIdx) fun (w, j) => setW (Reg.TIM_VAL i j) w)
      (setW64 Reg.TIM_TICK c.tick)

/-- The stamp in TIM_SETVAL. -/
def Blk.setVal (b : Blk) : Nat := leWords ((List.range 4).map fun i => b.w (Reg.TIM_SETVAL i))

/-- The base a GO write names. -/
def Blk.goRejected (b : Blk) (tb : Nat) : Bool :=
  b.f (Reg.PTP_INST_CFG tb) F.PTP_INST_CFG_EN == 1 || !stampValid b.setVal

/-- A base takes the value of TIM_SETVAL (R440). -/
def setBase (tb : Nat) : Prog :=
  .get fun b =>
    modAux fun a => { a with
      clk := if tb = 0 then { a.clk with tb0 := ofStamp b.setVal } else { a.clk with tb1 := ofStamp b.setVal } }

/-! ### Instances (R451 to R453) -/

def Blk.instState (b : Blk) (i : Nat) : Nat := b.f (Reg.PTP_INST_STAT i) F.PTP_INST_STAT_STATE

/-- I, adj and their registers in ppb, saturating. -/
def showServo (i : Nat) : Prog :=
  .get fun b =>
    .seq (setW (Reg.PTP_INST_ADJ i) (wordI (sat32 ((b.inst i).adj / 16777216))))
      (setW (Reg.PTP_INST_RATE i) (wordI (sat32 ((b.inst i).i / 16777216))))

/-- A change of state (R452, R453): its event; entry to HOLDOVER or MASTER keeps the last rate. -/
def instTo (i new : Nat) : Prog :=
  .get fun b =>
    let old := b.instState i
    progIf (old != new)
      (progAll [
        setF (Reg.PTP_INST_STAT i) F.PTP_INST_STAT_STATE new,
        modInst i fun x => { x with
          adj := if new = 4 ∨ new = 5 then x.i else x.adj
          run := 0, held := []
          wasLocked := x.wasLocked || new == 3 },
        showServo i,
        progIf (new == 4) (setFlag (flPtpInst i 1)),
        raiseEvent 0x4F0 i noDom (i + old * 256 + new * 4096)
          (b.f (Reg.PTP_INST_CFG i) F.PTP_INST_CFG_DOMAIN) 0])

/-- EN of an instance is written. -/
def instEnable (i : Nat) (en : Bool) : Prog :=
  if en then .seq (modInst i fun _ => PtpInst.init) (.seq (instTo i 1) (showServo i)) else instTo i 0

/-- The state an instance falls to without its parent's time. -/
def Blk.fallback (b : Blk) (i : Nat) : Nat := if (b.inst i).wasLocked then 4 else 1

/-- The best master clock algorithm's outcome reaches an instance. -/
def setParent (i : Nat) (parent : Option (Nat × Nat)) : Prog :=
  .get fun b =>
    let st := b.instState i
    let x := b.inst i
    if st = 0 then .skip
    else
      match parent with
      | none =>
        .seq (modInst i fun y => { y with parent := none })
          (if b.f (Reg.PTP_INST_CFG i) F.PTP_INST_CFG_SLAVE_ONLY = 1 then .skip else instTo i 5)
      | some p =>
        let changed := x.parent != some p
        progAll [
          modInst i fun y => { y with parent := some p, held := if changed then [] else y.held },
          progIf (changed && x.parent.isSome) (setFlag (flPtpInst i 2)),
          if st = 5 then instTo i (b.fallback i)
          else progIf (changed && (st == 2 || st == 3)) (instTo i (b.fallback i))]

/-- Modes in which R451 may step. -/
def stepMode : Mode → Bool
  | .reset | .selftest | .setup | .calibrate | .home | .service => true
  | _ => false

/-- An offset is fed to a servo (R451, R452), in 2⁻¹⁶ ns. -/
def feedOffset (i : Nat) (off : Int) : Prog :=
  .get fun b =>
    let lim := fun f => b.f (Reg.PTP_INST_LIM i) f
    let lock := Int.ofNat (lim F.PTP_INST_LIM_LOCK_NS) * 65536
    let qual := lim F.PTP_INST_LIM_QUAL
    let x := b.inst i
    let held := (x.held ++ [off]).drop (x.held.length + 1 - min qual (x.held.length + 1))
    let spread := held.foldl max off - held.foldl min off
    let st := b.instState i
    let enters := st == 1 || (st == 4 && decide (qual ≤ held.length ∧ spread ≤ 2 * lock))
    let acq := st == 2 || st == 3 || enters
    let run := if absI off ≤ lock then (if st == 2 then x.run + 1 else 1) else 0
    let stepped := (st == 2 || enters) && lim F.PTP_INST_LIM_STEP_EN == 1 && !x.wasLocked &&
      stepMode (b.mode dCore) && decide (10 * lock < absI off)
    let mx := Int.ofNat (lim F.PTP_INST_LIM_ADJ_MAX) * 16777216
    let kp := Int.ofNat (b.f (Reg.PTP_INST_SERVO i) F.PTP_INST_SERVO_KP)
    let ki := Int.ofNat (b.f (Reg.PTP_INST_SERVO i) F.PTP_INST_SERVO_KI)
    let i' := clampI (-mx) mx (x.i - off * ki)
    let sub := fun (tb : Nat) => (Int.ofNat tb - off * 4294967296).toNat
    progAll [
      setW (Reg.PTP_INST_OFS i) (wordI (sat32 (off / 65536))),
      progIf (st == 4) (modInst i fun y => { y with held := held }),
      progIf enters (instTo i 2),
      if stepped then
        .seq
          (modAux fun a => { a with
            clk := if i = 0 then { a.clk with tb0 := sub a.clk.tb0 } else { a.clk with tb1 := sub a.clk.tb1 } })
          (setFlag (flPtpInst i 0))
      else
        progIf acq
          (.seq (modInst i fun y => { y with i := i', adj := clampI (-mx) mx (i' - off * kp) }) (showServo i)),
      progIf acq (modInst i fun y => { y with run := run }),
      progIf ((st == 2 || enters) && decide (qual ≤ run)) (instTo i 3)]

/-- The instance of a domain number that serves a port. -/
def Blk.instOf (b : Blk) (port domain : Nat) : List Nat :=
  [0, 1].filter fun i =>
    b.f (Reg.PTP_INST_CFG i) F.PTP_INST_CFG_EN == 1 && bit (b.f (Reg.PTP_INST_CFG i) F.PTP_INST_CFG_PORTS) port &&
      b.f (Reg.PTP_INST_CFG i) F.PTP_INST_CFG_DOMAIN == domain

/-- PTP_RX (R443, R446, R451): frames reach a port whose link is up. -/
def ptpRxProg (port : Nat) (m : PtpMsg) : Prog :=
  .get fun b =>
    progIf (b.f (Reg.PTP_PORT_STAT port) F.PTP_PORT_STAT_LINK == 1)
      (match m with
      | .other => setW (Reg.PTP_PORT_RX port) (b.w (Reg.PTP_PORT_RX port) + 1)
      | .sync domain sender off complete =>
        progEach (b.instOf port domain) fun i =>
          progIf (complete && (b.inst i).parent == some (port, sender)) (feedOffset i off)
      | .announce domain parent => progEach (b.instOf port domain) fun i => setParent i parent
      | .event => .skip)

/-- ANNOUNCE_TIMEOUT (R452): the announce receipt timeout of an instance's parent, after which the best master
clock algorithm names another or none; or, with `offsets`, no offset fed for 4 Sync intervals. -/
def announceTimeoutProg (i : Nat) (offsets : Bool) (parent : Option (Nat × Nat)) : Prog :=
  .get fun b =>
    let st := b.instState i
    .seq (progIf (st == 2 || st == 3) (instTo i (b.fallback i)))
      (progIf (!offsets && decide (1 ≤ st ∧ st ≤ 4)) (setParent i parent))

/-! ### Transmission (R447 to R450) -/

def Blk.tsq (b : Blk) (p : Nat) : Tsq := b.tsqs.getD p Tsq.init

/-- The ID a transmit request of a port is given: the next that no frame or entry holds, counting on from the last one
(DESIGN CHOICE: R448 names no order); none where all 256 are held. -/
def Blk.freeId (b : Blk) (p : Nat) : Option Nat :=
  let held := (b.tsq p).flight.map TsqFrame.id ++ (b.tsq p).queue.map fun e => e.1.id
  ((List.range 256).map fun k => (b.aux.nextId + k) % 256).find? fun k => !held.contains k

/-- A Sync (0) or Pdelay_Resp (3) is sent one-step in every core mode but these. -/
def twoStepMode : Mode → Bool
  | .armed | .expose | .hold | .drain => true
  | _ => false

/-- PTP_TX (R447, R448): the transmit of an event message is requested: messageType 0 Sync, 1 Delay_Req,
2 Pdelay_Req, 3 Pdelay_Resp. With the link down its ID is lost, with TSQ_OVF (R449). With every ID held no frame is sent:
no ID is issued again while it is held (R448). -/
def ptpTxProg (port i mt seq : Nat) : Prog :=
  .get fun b =>
    let on := b.f (Reg.PTP_INST_CFG i) F.PTP_INST_CFG_EN == 1 &&
      bit (b.f (Reg.PTP_INST_CFG i) F.PTP_INST_CFG_PORTS) port
    let oneStep := (mt == 0 || mt == 3) && !twoStepMode (b.mode dCore)
    let up := b.f (Reg.PTP_PORT_STAT port) F.PTP_PORT_STAT_LINK == 1
    if !on then .skip
    else if oneStep then progIf up (emit (.ptp port mt true))
    else
      match b.freeId port with
      | none => .skip
      | some id =>
        progAll [
          modAux fun a => { a with nextId := (id + 1) % 256 },
          .op (.tsq port (.issue ⟨id, i, mt, seq⟩)),
          if up then emit (.ptp port mt false)
          else .seq (.op (.tsq port (.drop id))) (setFlag (flPtpPort port 2))]

/-- TX_TIMESTAMP (R448, R449): a frame departs and its egress stamp is captured; or, with `read`, the firmware
reads the entry of an ID. -/
def txTimestampProg (port id stamp : Nat) (read : Bool) : Prog :=
  .get fun b =>
    if read then .op (.tsq port (.read id))
    else
      .seq (progIf (decide (16 ≤ (b.tsq port).queue.length) && (b.tsq port).flight.any fun f => f.id == id)
          (setFlag (flPtpPort port 2)))
        (.op (.tsq port (.depart id stamp)))

/-- A time stamp lost to an SRAM error (R449). -/
def stampLost : Prog :=
  .get fun b =>
    let p := if (b.tsq 0).queue.isEmpty then 1 else 0
    progIf (!(b.tsq p).queue.isEmpty) (.seq (.op (.tsq p .spoil)) (setFlag (flPtpPort p 2)))

/-- LINK_DOWN (R443, R449). -/
def linkDownProg (port : Nat) : Prog :=
  .get fun b =>
    progIf (b.f (Reg.PTP_PORT_STAT port) F.PTP_PORT_STAT_LINK == 1)
      (progAll [
        setF (Reg.PTP_PORT_STAT port) F.PTP_PORT_STAT_LINK 0,
        setFlag (flPtpPort port 1),
        progIf (!(b.tsq port).flight.isEmpty) (setFlag (flPtpPort port 2)),
        .op (.tsq port .dropAll)])

/-- ETH_LINK_UP (R443). -/
def ethLinkUpProg (port : Nat) : Prog := setF (Reg.PTP_PORT_STAT port) F.PTP_PORT_STAT_LINK 1

/-- The latch of PTP_TSQ_SNAP for one port (R450). -/
def tsqLatch (p : Nat) : Prog :=
  .get fun b =>
    let q := b.tsq p
    progEach ([q.issued, q.read, q.queue.length, q.flight.length, q.lost, b.aux.clk.tick].zipIdx)
      fun (x, i) => setW (Reg.PTP_TSQ_CNT p i) (BitVec.ofNat 32 x)

/-! ### Alignment of a follower (R456 to R459) -/

/-- The mean of the phases held. -/
def Align.mean (x : Align) : Int := if x.phis.isEmpty then 0 else x.phis.sum / Int.ofNat x.phis.length

def Blk.aligned (b : Blk) : Bool := !b.follower || b.f Reg.TIM_STAT F.TIM_STAT_ALIGNED == 1

/-- ALIGNED clears, with ALIGN_LOST, where it was set. -/
def alignLost : Prog :=
  .get fun b =>
    progIf (b.f Reg.TIM_STAT F.TIM_STAT_ALIGNED == 1)
      (.seq (setF Reg.TIM_STAT F.TIM_STAT_ALIGNED 0) (setFlag (flTim 4)))

/-- The loop holds at its integral term (R459). -/
def holdLoop : Prog :=
  .get fun b =>
    .seq (progIf (!b.aux.align.holding) (setFlag (flTim 1)))
      (modAlign fun x => { x with holding := true, adj3 := x.integ, good := 0 })

/-- A valid frame of the reference (R456 to R459): its TICK, and when its SOF arrived at the pins in 100 ps after
the own edge of that count. The loop's gains are not given, so what it makes of a phase is free within SLEW. -/
def referenceFrame (j tick : Nat) (sof : Int) (rtt : Nat) : Prog :=
  withFrees 2 fun k =>
    .get fun b =>
      let c := b.aux.clk
      let mine := c.tick % 4294967296
      let agree := decide (tick = mine)
      let period := 2 ^ b.f Reg.SYS_TICK_ACT F.SYS_TICK_ACT_PERIOD
      let phi := sof - Int.ofNat (rtt * 16 / 10) - Int.ofNat (7500 * period + 192)
      let draw := fun n => clampI (-b.slew) b.slew (sgn 32 (Config.freeWord n).toNat * 16777216)
      if !b.follower then .skip
      else if !agree then
        progAll [
          modAlign fun x => { x with
            good := 0, ref := some j
            newTick := if b.mode dCore == .home then some (c.tick - mine + (tick + 1) % 4294967296) else x.newTick
            mismatch := b.mode dCore != .home, holding := true, adj3 := x.integ },
          progIf (b.mode dCore != .home && !b.aux.align.mismatch) (setFlag (flTim 3)),
          progIf (!b.aux.align.holding) (setFlag (flTim 1)),
          alignLost]
      else
        progAll [
          modAlign fun x =>
            { x with
              phis := (phi :: x.phis).take 16, ref := some j, lastRef := b.ns2, holding := false, mismatch := false
              adj3 := draw k, integ := draw (k + 1)
              good := if absI phi ≤ 50 then x.good + 1 else 0 },
          .get fun d =>
            let m := d.aux.align.mean
            progAll [
              setF Reg.TIM_PHASE F.TIM_PHASE_PHASE (unsgn 16 (clampI (-32768) 32767 m)),
              if 80 < absI m then alignLost
              else progIf (decide (64 ≤ d.aux.align.good)) (setF Reg.TIM_STAT F.TIM_STAT_ALIGNED 1)]]

/-- The reference's frame did not arrive (R459). -/
def referenceMissing (j : Nat) : Prog :=
  .get fun b => progIf (b.follower && b.aux.align.ref == some j) holdLoop

/-- ALIGN_LOST (R458): HOLD_MS without a valid frame of the reference. -/
def alignLostProg : Prog :=
  .get fun b =>
    progIf (b.follower &&
        decide (b.aux.align.lastRef + b.f Reg.TIM_TB3 F.TIM_TB3_HOLD_MS * 1000000 ≤ b.ns2)) alignLost

/-! ### The core's HOME (R460) -/

/-- Every enabled instance is LOCKED or MASTER, and a follower is aligned. -/
def Blk.timeReady (b : Blk) : Bool :=
  ([0, 1].all fun i => b.f (Reg.PTP_INST_CFG i) F.PTP_INST_CFG_EN == 0 || b.instState i == 3 || b.instState i == 5) &&
    b.aligned

/-- The core waits for no transition yet. -/
def Blk.coreHoming (b : Blk) : Bool := b.mode dCore == .home && !(b.aux.trans.any fun t => t.dom == dCore)

/-- CORE_HOME_END. -/
def coreHomeEndProg : Prog :=
  .get fun b => progIf (b.coreHoming && b.timeReady) (requestMode dCore .setup .done)

/-- ACQ_TIMEOUT: ACQ_S seconds of TB2 have passed in HOME. -/
def acqTimeoutProg : Prog :=
  .get fun b =>
    progIf (b.coreHoming && !b.timeReady &&
        decide (b.aux.homeFrom + b.f Reg.TIM_TB3 F.TIM_TB3_ACQ_S * 1000000000 ≤ b.ns2))
      (.seq (setFlag (flTim 2)) (requestMode dCore .setup .done))

end Sys2Proof.Machine
end

