-- ==== Sys2Proof/Machine/Calib.lean ====
section
/-!
DEFINITION. Calibration: targets, runs, restores, temperature-triggered reruns, the end of CALIBRATE (R478 to R487).
-/
namespace Sys2Proof.Machine

def Blk.calTarget (b : Blk) (t : Nat) : CalTarget := b.aux.cals.getD t CalTarget.init

def modCal (t : Nat) (f : CalTarget → CalTarget) : Prog := modAux fun a => { a with cals := a.cals.modify t f }

/-- The index of a target's governing reading (R478). -/
def Blk.calReading (b : Blk) (t : Nat) : Nat :=
  if t < 32 then 8 + t / 4
  else if t < 42 then 15
  else if t < 50 then 21
  else if t < 54 then b.a (Reg.LED_GRP_DRIVE (t - 50)) F.LED_GRP_DRIVE_TSRC
  else if t < 78 then t - 54
  else 16 + 2 * (t - 78)

/-- The domain a target belongs to. -/
def Blk.calDom (b : Blk) (t : Nat) : Nat :=
  if t < 40 then laneDom t
  else if 42 ≤ t ∧ t < 50 then dCam (t - 42)
  else if 50 ≤ t ∧ t < 54 then b.ledDom (t - 50)
  else dCore

/-- The bit of a target in CAL_DUE. -/
def Blk.calDue (b : Blk) (t : Nat) : Bool := b.f (Reg.CAL_DUE (t / 32)) ⟨t % 32, 1⟩ == 1

/-- Targets become due at a sample of reading `n` (R482). -/
def calDueCheck (n : Nat) : Prog :=
  .get fun b =>
    let v := b.reading n
    if v = 0x7FFF then .skip
    else
      progEach ((List.range 80).filter fun t => b.calReading t == n && !b.calDue t &&
          decide (Int.ofNat (b.a Reg.CAL_CFG F.CAL_CFG_CAL_DT) <
            absI (sgn 16 v - sgn 16 (b.f (Reg.CAL_TEMP t) F.CAL_TEMP_TEMP)))) fun t =>
        progAll [
          setF (Reg.CAL_DUE (t / 32)) ⟨t % 32, 1⟩ 1,
          setF Reg.CAL_LAST F.CAL_LAST_DUE_T t,
          setFlag (flCal 2)]

/-- THERMAL_SAMPLE (R462, R482): a sample of reading `n`. -/
def thermalSampleProg (n : Nat) (v : Option Int) : Prog :=
  .seq (sampleReading n v) (calDueCheck n)

/-! ### Runs (R484 to R487) -/

/-- The trim fields of a target's TRIM: low bit, width, signed. -/
def trimFields (t : Nat) : List (Nat × Nat × Bool) :=
  if t < 42 then [(0, 8, true), (8, 4, false)]
  else if t < 50 then [(0, 5, false), (5, 5, false), (10, 5, false), (15, 5, false), (20, 5, false)]
  else if t < 54 then [(0, 8, true), (8, 8, true)]
  else if t < 78 then [(0, 16, true), (16, 16, true)]
  else [(0, 7, false)]

/-- The value of a trim field. -/
def trimOf (w : Word) : Nat × Nat × Bool → Int
  | (lo, n, s) => if s then sgn n (w.toNat / 2 ^ lo) else Int.ofNat (bits w.toNat lo n)

/-- Two measurements agree in the fields given (R484). -/
def trimsAgree (fs : List (Nat × Nat × Bool)) (tol : Nat) (x y : Word) : Bool :=
  fs.all fun f => decide (absI (trimOf x f - trimOf y f) ≤ Int.ofNat tol)

/-- The mean of two measurements field by field, to nearest, ties toward zero. -/
def trimsMean (fs : List (Nat × Nat × Bool)) (x y : Word) : Word :=
  BitVec.ofNat 32 ((fs.map fun f =>
    unsgn f.2.1 ((trimOf x f + trimOf y f).tdiv 2) * 2 ^ f.1).sum)

/-- A measurement: TRIM, QUALITY and QUALITY2. -/
abbrev CalMeas := Word × Nat × Nat

/-- The outcome of R484 on the measurements of a run, with a restored value or without: none where the list
is too short, else the two that agree. -/
def calPick (agree : Word → Word → Bool) (restored : Option Word) (ms : List CalMeas) :
    Option (Option (CalMeas × CalMeas)) :=
  let third := fun (b : CalMeas) (l : List CalMeas) =>
    match l with
    | c :: _ => some (if agree b.1 c.1 then some (b, c) else none)
    | [] => none
  match restored, ms with
  | some r, b :: l => if agree r b.1 then some (some ((r, b.2), b)) else third b l
  | none, a :: b :: l => if agree a.1 b.1 then some (some (a, b)) else third b l
  | _, _ => none

/-- The target's trims whose quality is an eye width; the other figure is a residual. -/
def eyeTarget (t : Nat) : Bool := t < 50 || 78 ≤ t

/-- A camera in RESET runs the termination only (R479). -/
def Blk.termOnly (b : Blk) (t : Nat) : Bool := decide (42 ≤ t ∧ t < 50) && b.mode (b.calDom t) == .reset

/-- QUALITY and QUALITY2 of two agreeing measurements: the lesser eye width, the greater residual. -/
def calQuality (t : Nat) (x y : CalMeas) : Nat × Nat :=
  (if eyeTarget t then min x.2.1 y.2.1 else max x.2.1 y.2.1,
    if 42 ≤ t ∧ t < 50 then max x.2.2 y.2.2 else 0)

/-- The quality is good enough (R484). -/
def Blk.calGood (b : Blk) (t : Nat) (q : Nat × Nat) : Bool :=
  let eye := b.a Reg.CAL_CFG F.CAL_CFG_EYE_MIN
  let res := b.a Reg.CAL_CFG F.CAL_CFG_RES_MAX
  (if eyeTarget t then b.termOnly t || decide (eye ≤ q.1) else decide (q.1 ≤ res)) && decide (q.2 ≤ res)

/-- A target's class lets it run now (R479, R480, R483). -/
def Blk.calMayRun (b : Blk) (t : Nat) : Bool :=
  let d := b.calDom t
  if t < 40 then (b.laneState t == 2 && !(b.lane t).dfe) || (b.mode d == .calibrate && b.laneUp t)
  else if t < 42 then b.f (Reg.PTP_PORT_STAT (t - 40)) F.PTP_PORT_STAT_LINK == 0 || b.mode d == .calibrate
  else if t < 50 then b.mode d == .reset || b.mode d == .calibrate
  else if t < 54 then
    (b.mode dCore == .reset || b.calDue t) && (b.led (t - 50)).flash.isNone &&
      ((b.led (t - 50)).due.all fun x => decide (b.now10 + 10000 < x.at'))
  else if t < 78 then (b.mode dCore == .reset || b.calDue t) && b.f (Reg.THM_READ (t - 54)) F.THM_READ_FAST == 0
  else b.f Reg.DMC_STATE F.DMC_STATE_STATE == 1 || b.mode d == .calibrate

/-- Capacity of the installed memory in GiB (R377): two channels of 64 data bits. -/
def Blk.dramGiB (b : Blk) : Nat :=
  let dens := [2, 3, 4].getD (b.f Reg.DMC_CFG F.DMC_CFG_DENSITY) 0
  let wide := 4 * 2 ^ b.f Reg.DMC_CFG F.DMC_CFG_WIDTH
  2 * dens * (64 / wide) * (b.f Reg.DMC_CFG F.DMC_CFG_RANKS + 1)

/-- What a run's end starts: the capability exchange may follow on a lane at bring-up, a head's latency measurement in its
CALIBRATE whatever the run's outcome (R241, R479); the end of the memory's training. -/
def calAfter (t : Nat) (ok : Bool) : Prog :=
  .get fun b =>
    if t < 40 then
      .seq (progIf (b.laneState t == 2) (modLane t fun x => { x with cal := ok }))
        (progIf (decide (t < 32) && b.mode t == .calibrate) (calibrateLatency t))
    else if 78 ≤ t ∧ b.f Reg.DMC_STATE F.DMC_STATE_STATE = 1 then
      if !ok then setF Reg.DMC_STATE F.DMC_STATE_STATE 5
      else progIf ((b.calTarget 78).ran == some true && (b.calTarget 79).ran == some true)
        (.seq (setF Reg.DMC_STATE F.DMC_STATE_STATE 2) (setF Reg.DMC_STATE F.DMC_STATE_SIZE b.dramGiB))
    else .skip

/-- CAL_RUN (R484 to R487): a run of target `t` with its fresh measurements in order. -/
def calRunProg (t : Nat) (ms : List CalMeas) : Prog :=
  .get fun b =>
    let x := b.calTarget t
    let now := b.reading (b.calReading t)
    let off := absI (sgn 16 now - sgn 16 (b.f (Reg.CAL_TEMP t) F.CAL_TEMP_TEMP))
    let fits := decide (off ≤ Int.ofNat (b.a Reg.CAL_CFG F.CAL_CFG_CAL_DT))
    let old := b.w (Reg.CAL_RES t)
    let fs := if b.termOnly t then (trimFields t).take 1 else trimFields t
    let keep := if b.termOnly t then old.toNat - old.toNat % 32 else 0
    match calPick (trimsAgree fs (b.a Reg.CAL_CFG F.CAL_CFG_CODE_TOL)) (if x.restored && fits then some old else none) ms with
    | none => .skip
    | some r =>
      if !b.calMayRun t then .skip
      else
        let res := (r.map fun (u, v) => (trimsMean fs u.1 v.1, calQuality t u v)).filter fun y => b.calGood t y.2
        progAll [
          modF (Reg.CAL_TSTAT t) F.CAL_TSTAT_RUNS (satInc 16),
          progIf (x.restored && !fits) (.seq (setF Reg.CAL_LAST F.CAL_LAST_STALE_T t) (setFlag (flCal 1))),
          modCal t fun _ => ⟨false, some res.isSome⟩,
          match res with
          | some (w, q) =>
            progAll [
              setW (Reg.CAL_RES t) (BitVec.ofNat 32 (w.toNat + keep)),
              setW (Reg.CAL_QUAL t) (BitVec.ofNat 32 (q.1 % 65536 + q.2 % 65536 * 65536)),
              setF (Reg.CAL_TEMP t) F.CAL_TEMP_TEMP now,
              setF (Reg.CAL_TSTAT t) F.CAL_TSTAT_STATE 1,
              setF (Reg.CAL_DUE (t / 32)) ⟨t % 32, 1⟩ 0]
          | none =>
            progAll [
              setF (Reg.CAL_TSTAT t) F.CAL_TSTAT_STATE 4,
              setF Reg.CAL_LAST F.CAL_LAST_FAIL_T t,
              setFlag (flCal 0)],
          calAfter t res.isSome]

/-- A write of CAL_RES or CAL_TEMP of a target is rejected (R487). -/
def Blk.calRejected (b : Blk) (t : Nat) : Bool :=
  let m := b.mode (b.calDom t)
  78 ≤ t || !(m == .off || m == .reset)

/-- The write of CAL_RES is a restore (R487). -/
def calRestoreAct (t : Nat) (v : Word) : Prog :=
  progAll [
    setW (Reg.CAL_RES t) v,
    modCal t fun x => { x with restored := true },
    setF (Reg.CAL_TSTAT t) F.CAL_TSTAT_STATE 2]

/-! ### The end of CALIBRATE (R481) -/

/-- The targets that run at a domain's CALIBRATE (R479). -/
def Blk.calTargets (b : Blk) (d : Nat) : List Nat :=
  match kindOf d with
  | .head => [d]
  | .float => [32 + 2 * (d - 32), 33 + 2 * (d - 32)]
  | .camera => [42 + (d - 38)]
  | .core =>
    ([36, 37, 38, 39].filter fun l => b.laneUp l) ++
      ([40, 41].filter fun t => b.f (Reg.PTP_PORT_STAT (t - 40)) F.PTP_PORT_STAT_LINK == 1) ++
      (if b.f Reg.DMC_CFG F.DMC_CFG_EN = 1 then [78, 79] else [])
  | .motion | .storage => []

/-- The outcome of a domain's CALIBRATE (R481): none while its runs or its own work go on. `ok` says whether a head's
servo lag is accepted by repeat agreement, for which R149 gives no tolerance. -/
def Blk.calOutcome (b : Blk) (d : Nat) (ok : Bool) : Option Bool :=
  let ran := (b.calTargets d).map fun t => (b.calTarget t).ran
  if ran.any (· == some false) then some false
  else if ran.any (· == none) then none
  else
    match kindOf d with
    | .head => if (b.lane d).meas = .none then some ((b.lane d).calOk && ok) else none
    | .float => (b.bar (d - 32)).calOk
    | .camera => (b.cam (d - 38)).mapOk
    | .motion => if b.jogsDone (d - 34) then some (b.jogsPass (d - 34)) else none
    | .storage | .core => some true

/-- The servo lag of a head, the larger of its X and Y following distances over the velocity, less its downlink latency,
goes to LAG_ON and LAG_OFF (R149). DESIGN CHOICE: R149 drives each axis in both directions and does not say of which
direction the following distance counts; bit 0 of `ramps` names it for X, bit 1 for Y. -/
def servoLag (h ramps : Nat) : Prog :=
  .get fun b =>
    let l := (b.trowel h).calLag
    let lag := max (l.getD (ramps % 2) 0) (l.getD (2 + ramps / 2) 0) / 100
    let x := min 200000 ((lag - b.dnLat h + 50) / 100)
    .seq (deviceWrite (Reg.TRW_HEAD_LAG_ON h) F.TRW_HEAD_LAG_ON_LAG x)
      (deviceWrite (Reg.TRW_HEAD_LAG_OFF h) F.TRW_HEAD_LAG_OFF_LAG x)

/-- CALIBRATE_END (R481): the domain's calibration is complete. `ok` is the outcome of the work no other command
reports: the PLLs of the core, NV-DDR3 training of the storage domain, the repeat agreement of a head's servo lag. -/
def calibrateEndProg (d : Nat) (ok : Bool) (ramps : Nat) : Prog :=
  .get fun b =>
    if b.mode d ≠ .calibrate then .skip
    else
      match b.calOutcome d ok with
      | none => .skip
      | some true =>
        .seq (progIf (decide (kindOf d = .head)) (servoLag d ramps)) (requestMode d (b.prevMode d) .done)
      | some false => requestMode d .setup .calFail

end Sys2Proof.Machine
end

