-- ==== Sys2Proof/Machine/Life.lean ====
section
/-!
DEFINITION. Self-test results, life cycle, tokens, firmware images, exports (R488 to R505, R510 to R513).
-/
namespace Sys2Proof.Machine

def modBoot (f : Boot → Boot) : Prog := modAux fun a => { a with boot := f a.boot }

/-! ### Units (R488 to R492) -/

/-- The units a domain's SELFTEST tests (R33, R492); a servo engine is tested once for its four heads. -/
def Blk.unitsTested (b : Blk) (d : Nat) : List Nat :=
  match kindOf d with
  | .head => (if b.f (Reg.BST_UNIT (d / 4)) F.BST_UNIT_RESULT = 0 then [d / 4] else []) ++ [18 + d]
  | .float => [50 + 2 * (d - 32), 51 + 2 * (d - 32)]
  | .motion => [58 + (d - 34)]
  | .camera => [62 + (d - 38)]
  | .storage => (List.range 106).map (62 + ·)
  | .core => (List.range 10).map (8 + ·) ++ (List.range 4).map (54 + ·)

/-- The result that counts: a logic unit passes by its signature (R489); an array as its march test says, REPAIRED only
with LEGACY_REPAIR and spares for its failing rows (R497). -/
def Blk.judged (b : Blk) (r : BistRes) : Nat :=
  if r.unit < 72 then if r.sig % 2 ^ 64 = (Config.golden r.unit).toNat then 1 else 2
  else if r.result = 3 then
    if b.f Reg.BST_RPR_CFG F.BST_RPR_CFG_LEGACY = 1 ∧
        r.rows + b.f (Reg.BST_RPR_ARR (r.unit - 72)) F.BST_RPR_ARR_FUSED ≤ 8 then 3 else 2
  else if r.result = 1 then 1 else 2

/-- A unit's result is kept (R489). -/
def keepResult (r : BistRes) : Prog :=
  .get fun b =>
    let x := b.judged r
    if 168 ≤ r.unit then .skip
    else
      progAll [
        setW (Reg.BST_UNIT r.unit) (BitVec.ofNat 32 x),
        setW64 (Reg.BST_UNIT r.unit + 4) r.sig,
        progIf (decide (72 ≤ r.unit)) (setF (Reg.BST_RPR_ARR (r.unit - 72)) F.BST_RPR_ARR_SOFT (if x = 3 then r.rows else 0)),
        progIf (x == 2)
          (.seq (modF Reg.BST_SUMMARY F.BST_SUMMARY_FAILED (satInc 8)) (setFlag (flBst 0)))]


/-! ### Release (R512, R513) -/

/-- The lanes of a head or bar are UP. -/
def Blk.lanesUp (b : Blk) (d : Nat) : Bool :=
  match kindOf d with
  | .head => b.laneUp d
  | .float => b.laneUp (32 + 2 * (d - 32)) && b.laneUp (33 + 2 * (d - 32))
  | _ => true

/-- The absent mark of a head or bar. -/
def Blk.absent (b : Blk) (d : Nat) : Bool :=
  if d < 32 then b.f Reg.SYS_BOOT_ABSENT ⟨d, 1⟩ == 1
  else if d < 34 then b.f Reg.SYS_BOOT_STAT ⟨10 + (d - 32), 1⟩ == 1 else false

def setAbsent (d : Nat) (v : Nat) : Prog :=
  if d < 32 then setF Reg.SYS_BOOT_ABSENT ⟨d, 1⟩ v
  else progIf (decide (d < 34)) (setF Reg.SYS_BOOT_STAT ⟨10 + (d - 32), 1⟩ v)

/-- A release is rejected (R512). -/
def Blk.releaseRejected (b : Blk) : Bool :=
  !(b.f Reg.SYS_BOOT_STAT F.SYS_BOOT_STAT_FW_STATE == 2 && b.f Reg.SYS_BOOT_STAT F.SYS_BOOT_STAT_RELEASED == 0 &&
    !b.aux.boot.released && b.f Reg.DMC_STATE F.DMC_STATE_STATE == 2 && b.mode dCore == .off)

/-- An accepted release: every domain in OFF and usable is to enter RESET (R512 step 1, R514). -/
def releaseAct : Prog :=
  .get fun b =>
    .seq (modBoot fun x => { x with released := true })
      (progEach ((List.range 48).filter fun d => b.mode d == .off && !b.unusable d) fun d =>
        requestMode d .reset .powerUp)

/-- The record-class result of NAND is taken (R494). -/
def takeStored (rs : List BistRes) : Prog :=
  progAll [
    progEach rs keepResult,
    setF Reg.BST_SUMMARY F.BST_SUMMARY_REC_DONE 1,
    setF Reg.BST_SUMMARY F.BST_SUMMARY_REC_SRC 2,
    modBoot fun x => { x with tested := x.tested ++ [dStore] }]

/-- The result that NAND holds names every record-class unit as passed (R494). -/
def recordPassed (rs : List BistRes) : Bool :=
  (List.range 106).all fun i => rs.any fun r => r.unit == 62 + i && (r.result == 1 || r.result == 3)

/-- Step 2 of R512 is complete: the background targets have run. -/
def Blk.backgroundDone (b : Blk) : Bool :=
  (List.range 28).all fun i => (b.calTarget (50 + i)).ran.isSome

/-- A record-class test runs at power-up, or the storage domain has not decided on one (R492). -/
def Blk.recordTesting (b : Blk) : Bool :=
  b.aux.boot.bist && !b.unusable dStore && !b.aux.boot.tested.contains dStore &&
    (b.mode dStore == .off || b.mode dStore == .reset || b.mode dStore == .selftest)

/-- BIST of a domain is scheduled. -/
def Blk.bistDue (b : Blk) (d : Nat) : Bool := b.aux.boot.bist && !b.aux.boot.tested.contains d

/-- A domain's automatic step out of RESET or SELFTEST at a tick edge (R36, R230, R492, R512). -/
def bootDomain (d : Nat) : Prog :=
  .get fun b =>
    let boot := b.aux.boot
    let go := fun (ok : Bool) => progIf ok (requestMode d (if b.bistDue d then .selftest else .setup) .done)
    match b.mode d with
    | .reset =>
      match kindOf d with
      | .storage =>
        match boot.stored with
        | some rs =>
          if b.bistDue d && recordPassed rs then
            progIf b.backgroundDone (.seq (takeStored rs) (requestMode d .setup .done))
          else go b.backgroundDone
        | none => go b.backgroundDone
      | .core => go (b.backgroundDone && !b.recordTesting)
      | .motion | .camera => go (boot.upFrom.isSome)
      | .head | .float =>
        progIf (boot.upFrom.isSome && b.lanesUp d) (.seq (setAbsent d 0) (go true))
    | .selftest =>
      progIf (boot.second.contains d && b.lanesUp d)
        (progAll [
          modBoot fun x => { x with second := x.second.filter (· != d) }, setAbsent d 0, requestMode d .setup .done])
    | _ => .skip

/-- The release at a tick edge: RELEASED after step 1, the moment of the core's SETUP, and every domain's
automatic step. -/
def bootTick : Prog :=
  .get fun b =>
    if !b.aux.boot.released then .skip
    else
      progAll [
        progIf (b.f Reg.SYS_BOOT_STAT F.SYS_BOOT_STAT_RELEASED == 0) (setF Reg.SYS_BOOT_STAT F.SYS_BOOT_STAT_RELEASED 1),
        progIf (b.aux.boot.upFrom.isNone &&
            !(b.mode dCore == .off || b.mode dCore == .reset || b.mode dCore == .selftest))
          (modBoot fun x => { x with upFrom := some b.ns2 }),
        progIf (b.mode dCore == .setup) (modPmu fun p => { p with started := true }),
        progEach ((List.range 48).filter fun d => !(b.aux.trans.any fun t => t.dom == d)) bootDomain]

/-- BOOT_DONE (R512 step 7). -/
def bootDoneProg : Prog :=
  .get fun b =>
    let waits := (List.range 48).any fun d =>
      ((b.mode d == .selftest || b.mode d == .reset) && !b.absent d) ||
        b.aux.trans.any fun t => t.dom == d && t.mode == .reset
    progIf (b.f Reg.SYS_BOOT_STAT F.SYS_BOOT_STAT_RELEASED == 1 && b.f Reg.SYS_BOOT_STAT F.SYS_BOOT_STAT_DONE == 0 &&
        b.aux.boot.upFrom.isSome && !waits)
      (progAll [
        setF Reg.SYS_BOOT_STAT F.SYS_BOOT_STAT_DONE 1,
        progIf b.aux.boot.bist (setF Reg.BST_SUMMARY F.BST_SUMMARY_EXP_DONE 1),
        raiseEvent 0x030 0 dCore 0 0 0])

/-- LANE_ABSENT (R513): LINK_MS after the core's SETUP a lane is not UP, in its first bring-up or in its second. -/
def laneAbsentProg (d : Nat) : Prog :=
  .get fun b =>
    match b.aux.boot.upFrom with
    | some t =>
      progIf ((b.mode d == .reset || b.mode d == .selftest) && !b.lanesUp d &&
          decide (t + 1000000 * b.f Reg.SYS_BOOT_CTRL F.SYS_BOOT_CTRL_LINK_MS ≤ b.ns2)) (setAbsent d 1)
    | none => .skip

/-! ### Firmware (R503, R510) -/

/-- A firmware image meets R503: its FW_VERSION and ROLLBACK. -/
def Blk.imageOk (b : Blk) (ws : List Word) : Option (Nat × Nat) :=
  let w := fun i => (ws.getD i 0).toNat
  let body := ws.drop 32
  let text := (ws.take 16 ++ body).flatMap wordBytes
  let sig := ((ws.drop 16).take 16).flatMap wordBytes
  if ws.length = 32 + w 4 / 4 ∧ w 0 = 0x57464B53 ∧ w 4 % 64 = 0 ∧ w 4 ≤ 3670016 ∧ w 2 / 64 = 0 ∧ w 3 / 256 = 0 ∧
      (List.range 11).all (fun i => w (5 + i) == 0) ∧ w 3 % 256 = 0x42 ∧
      b.f Reg.LCS_STATE F.LCS_STATE_RB ≤ w 2 % 64 ∧ sigOk Config.firmwareKey text sig then
    some (w 1, w 2 % 64)
  else none

/-- The write of LOAD begins a load (R510). -/
def loadAct : Prog :=
  .get fun b =>
    .seq (setF Reg.SYS_BOOT_STAT F.SYS_BOOT_STAT_FW_STATE 1) (emit (.hostRead (b.w64 Reg.SYS_BOOT_ADDR) 128))

/-- FW_LOAD_DONE (R503, R510): the image read from the host, or a read error. -/
def fwLoadDoneProg (image : Option (List Word)) : Prog :=
  .get fun b =>
    let st := fun n => setF Reg.SYS_BOOT_STAT F.SYS_BOOT_STAT_FW_STATE n
    if b.f Reg.SYS_BOOT_STAT F.SYS_BOOT_STAT_FW_STATE ≠ 1 then .skip
    else
      match image with
      | none => st 3
      | some ws =>
        match b.imageOk ws with
        | some fw => .seq (st 2) (modBoot fun x => { x with fw := some fw })
        | none => .seq (setFlag (flLcs 1)) (st 3)

/-! ### Test on demand (R496, R497) -/

/-- A write of BST_RUN is rejected (R496). -/
def Blk.bstRejected (b : Blk) (u : Nat) : Bool :=
  !(b.lifeCycle == 1 || b.lifeCycle == 4) || b.aux.boot.testing.isSome || decide (168 ≤ u) ||
    (List.range 48).any fun d =>
      (b.mode d == .selftest) || ((unitsOf d).contains u && !(b.mode d == .off || b.mode d == .service))

/-- The window bytes of a range read 0. -/
def winZero (lo n : Nat) : Prog :=
  .get fun b => progEach (b.win.filter fun (o, _) => decide (lo ≤ o ∧ o < lo + n)) fun (o, _) => .op (.win o 0)

/-- Registers of a range return to reset, shadow and active copies. -/
def unitRegs (lo n act : Nat) : Prog := .seq (regsToReset lo (lo + n)) (regsToReset (lo + act) (lo + act + n))

/-- What an array held is erased (R490); the part of a region that an array holds is the model's choice. -/
def arrayReset (a : Nat) : Prog :=
  if a = 7 then winZero 0xA00000 0x1000
  else if 8 ≤ a ∧ a < 12 then winZero (0x200000 + 0x80000 * (a - 8)) 0x80000
  else if 28 ≤ a ∧ a < 32 then winZero (0x80000 * (a - 28)) 0x80000
  else if 32 ≤ a ∧ a < 36 then winZero (0x400000 + 0x4000 * (a - 32)) 0x4000
  else if 48 ≤ a ∧ a < 64 then progIf (a % 2 == 0) (winZero (0x600000 + 0x1000 * ((a - 48) / 2)) 0x1000)
  else if 64 ≤ a ∧ a < 68 then winZero (0x800000 + 0x80000 * (a - 64)) 0x80000
  else if 84 ≤ a ∧ a < 96 then winZero (0x1000000 + 0x80000 * (a - 84)) 0x80000
  else .skip

/-- A unit's state after its test (R490). -/
def unitReset (u : Nat) : Prog :=
  .get fun b =>
    if u < 8 then
      .seq (unitRegs (Reg.SRV_AXIS_STAT (12 * u) / 0x100 * 0x100) 0xC00 0x8000)
        (modAux fun a => { a with
          axes := a.axes.zipIdx.map fun (x, i) => if 12 * u ≤ i ∧ i < 12 * u + 12 then Axis.init else x })
    else if u < 16 then
      let t := u - 8
      .seq (unitRegs (0x41000 + 0x200 * t) 0x200 0x1000)
        (modAux fun a => { a with
          trowels := a.trowels.zipIdx.map fun (x, i) => if 4 * t ≤ i ∧ i < 4 * t + 4 then Trowel.init else x })
    else if u = 16 then
      .seq (regsToReset 0x50000 0x60000) (modAux fun a => { a with plume := [] })
    else if u = 17 then .skip
    else if u < 58 then
      let l := u - 18
      .seq (unitRegs (0x71000 + 0x100 * l) 0x100 0x8000)
        (if b.mode (laneDom l) == .off then laneIdle l else laneStart l)
    else if u < 62 then
      let g := u - 58
      progAll [
        unitRegs (0xB1000 + 0x300 * g) 0x300 0x8000,
        unitRegs (0xB0010 + 4 * g) 4 0x8000,
        unitRegs (0xC1000 + 0x100 * g) 0x100 0x8000,
        modAux fun a => { a with
          mots := a.mots.zipIdx.map fun (x, i) => if i / 3 = g then Mot.init else x
          encs := a.encs.zipIdx.map fun (x, i) => if i / 4 = g then Enc.init else x }]
    else if u < 70 then
      let c := u - 62
      progAll [
        unitRegs (0x91000 + 0x400 * c) 0x400 0x4000,
        .op (.cam c .clear),
        modAux fun a => { a with cams := a.cams.set c Cam.init }]
    else if u = 70 then regsToReset 0x100000 0x110000
    else if u = 71 then .skip
    else arrayReset (u - 72)

/-- A failed cascade framer leaves its lane idle, and the member it joins departs (R192, R491). -/
def framerFailed (j : Nat) : Prog :=
  progWhen (fun b => b.unitResult (54 + j) == 2)
    (progAll [
      laneIdle (36 + j),
      setFlag (flHlk (36 + j) 14),
      modAux fun a => { a with
        peers := a.peers.modify j fun p => { p with departed := true, leaving := true, misses := 0 } }])

/-- SELFTEST_END (R491): a domain's SELFTEST ends with the results of the units tested in it, and their states at reset
values (R490). A head or bar first brings its lanes up again (R230). -/
def selftestEndProg (d : Nat) (rs : List BistRes) : Prog :=
  .get fun b =>
    let us := b.unitsTested d
    let mine := us.filterMap fun u => rs.find? fun r => r.unit == u
    if b.mode d ≠ .selftest ∨ b.aux.boot.tested.contains d ∨ mine.length ≠ us.length then .skip
    else
      progAll [
        progEach mine fun r => unitReset r.unit,
        progEach mine keepResult,
        modBoot fun x => { x with tested := x.tested ++ [d] },
        progIf (decide (d = dStore))
          (.seq (setF Reg.BST_SUMMARY F.BST_SUMMARY_REC_DONE 1) (setF Reg.BST_SUMMARY F.BST_SUMMARY_REC_SRC 1)),
        progIf (decide (d = dCore)) (progEach (List.range 4) framerFailed),
        .get fun c =>
          if c.rowFailed d then requestMode d .off .bistFail
          else
            match kindOf d with
            | .head => .seq (modBoot fun x => { x with second := x.second ++ [d] }) (laneStart d)
            | .float =>
              progAll [
                modBoot fun x => { x with second := x.second ++ [d] },
                laneStart (32 + 2 * (d - 32)), laneStart (33 + 2 * (d - 32))]
            | _ => requestMode d .setup .done]

/-- RUN_DONE (R496): the test on demand ends. -/
def bstRunDoneProg (result sig rows : Nat) : Prog :=
  .get fun b =>
    match b.aux.boot.testing with
    | none => .skip
    | some u =>
      progAll [
        modBoot fun x => { x with testing := none },
        unitReset u,
        keepResult ⟨u, result, sig, rows⟩,
        setFlag (flBst 1)]

/-- The soft repairs of every array become fuses (R497). -/
def fuseAct : Prog :=
  .seq
    (progEach (List.range 96) fun a =>
      .get fun b =>
        let n := min 8 (b.f (Reg.BST_RPR_ARR a) F.BST_RPR_ARR_FUSED + b.f (Reg.BST_RPR_ARR a) F.BST_RPR_ARR_SOFT)
        .seq (setF (Reg.BST_RPR_ARR a) F.BST_RPR_ARR_FUSED n) (setF (Reg.BST_RPR_ARR a) F.BST_RPR_ARR_SOFT 0))
    (.get fun b => modAux fun x => { x with otp := { x.otp with
      fused := (List.range 96).filterMap fun a =>
        let n := b.f (Reg.BST_RPR_ARR a) F.BST_RPR_ARR_FUSED
        if n = 0 then none else some (a, n) } })

/-! ### Life cycle (R498 to R501, R504) -/

/-- The TAP is held in Test-Logic-Reset, with TDO undriven and TMS and TDI ignored (R501, R506). No row of the table
carries TMS or TDI, so an open TAP is not driven either. -/
def Blk.tapHeld (b : Blk) : Bool := b.aux.inReset || !(b.lifeCycle == 1 || b.lifeCycle == 4)

/-- The life-cycle state changes (R499). -/
def lifeTo (new : Nat) : Prog :=
  .get fun b =>
    let old := b.lifeCycle
    progAll [
      setF Reg.LCS_STATE F.LCS_STATE_STATE new,
      setF Reg.LCS_STATE F.LCS_STATE_TAP_OPEN (b2n (new == 1 || new == 4)),
      setFlagBit (flLcs 2),
      raiseEvent 0x602 0 noDom (old + 256 * new) 0 0,
      progIf (old == 0 && new == 1) (modAux fun a => { a with otp := { a.otp with identity := a.otp.identity + 1 } }),
      progIf (new == 5) (modAux fun a => { a with otp := { a.otp with identity := 0 } }),
      progIf (old == 1 || (old == 4 && new != 4))
        (progEach ((List.range 48).filter fun d => b.mode d == .service) fun d => requestMode d .setup .lifecycle)]

/-- A token waits for no test (R499). -/
def Blk.lifeBusy (b : Blk) : Bool :=
  b.aux.boot.testing.isSome || (List.range 48).any fun d => b.mode d == .selftest

/-- The key that authorises an action in a state, where R499 lists it. -/
def Blk.lifeKey (b : Blk) (st action : Nat) : Option (Nat × Nat) :=
  match st, action with
  | 0, 1 | 1, 2 | 1, 5 => some Config.manufacturingKey
  | 2, 3 | 3, 4 | 2, 5 | 3, 5 | 4, 5 => b.aux.otp.owner
  | 2, 6 => if b.aux.otp.clear.isSome then none else b.aux.otp.owner
  | _, _ => none

/-- The effect of an authorised token. -/
def lifeAct (action : Nat) (payload : List Byte) : Prog :=
  let key := (beBytes (payload.take 32), beBytes (payload.drop 32))
  match action with
  | 6 =>
    progAll [
      modAux fun a => { a with otp := { a.otp with clear := some key } },
      setF Reg.LCS_STATE F.LCS_STATE_CLEAR_KEY 1,
      lifeTo 2]
  | 2 =>
    progAll [
      modAux fun a => { a with otp := { a.otp with owner := some key } },
      setF Reg.LCS_STATE F.LCS_STATE_OWNER_KEY 1,
      lifeTo 2]
  | n => lifeTo n

/-- LCS_NONCE (R500). -/
def lcsNonceProg (ring : Nat) : Prog :=
  descr ring 0x2C false fun ws =>
    checked ring (bufferFail ws 32) (makeNonce ring ws fun n a => { a with lcsNonce := some n })

/-- LCS_TOKEN (R500), with the 172 bytes read from the host or a read error. -/
def lcsTokenProg (ring : Nat) (data : Option (List Word)) : Prog :=
  descr ring 0x2D false fun ws =>
    .get fun b =>
      checked ring (bufferFail ws 0)
        (match b.liveNonce b.aux.lcsNonce with
        | none => complete ring 0x63 0
        | some n =>
          .seq (modAux fun a => { a with lcsNonce := none })
            (if dw ws 7 < 172 then complete ring 0x06 7
            else
              match data with
              | none => complete ring 0x08 0
              | some d =>
                let t := d.flatMap wordBytes
                let action := leBytes ((t.drop 40).take 4)
                match b.lifeKey b.lifeCycle action with
                | none => complete ring 0x67 0
                | some key =>
                  if b.lifeBusy then complete ring 0x67 0
                  else if leBytes (t.take 8) = Config.deviceId.toNat ∧ (t.drop 8).take 32 = n.ws.flatMap wordBytes ∧
                      sigOk key (t.take 108) (t.drop 108) then
                    .seq (lifeAct action ((t.drop 44).take 64)) (completeOk ring 0)
                  else .seq (setFlag (flLcs 0)) (complete ring 0x66 0)))

/-- A write of LCS_CTRL is rejected: RB_COMMIT outside its states, or with nothing to raise (R504). -/
def Blk.lcsCtrlRejected (b : Blk) (v : Word) : Bool :=
  F.LCS_CTRL_RB_COMMIT.get v == 1 &&
    !((b.lifeCycle == 2 || b.lifeCycle == 3 || b.lifeCycle == 4) &&
      match b.aux.boot.fw with
      | some (_, rb) => decide (b.f Reg.LCS_STATE F.LCS_STATE_RB < rb)
      | none => false)

/-- An accepted write of LCS_CTRL (R499, R504). -/
def lcsCtrlAct (v : Word) : Prog :=
  .get fun b =>
    .seq
      (progIf (F.LCS_CTRL_RB_COMMIT.get v == 1)
        (match b.aux.boot.fw with
        | some (_, rb) => setF Reg.LCS_STATE F.LCS_STATE_RB rb
        | none => .skip))
      (progIf (F.LCS_CTRL_EXIT_SVC.get v == 1 && b.lifeCycle == 4) (lifeTo 3))

/-! ### Exports (R505) -/

/-- The authorisation of an export is signed by the owner. -/
def Blk.exportOk (b : Blk) (auth : List Byte) : Bool :=
  match b.aux.otp.owner with
  | none => false
  | some key => sigOk key (toBytes 8 (Config.deviceId.toNat) ++ auth.take 64) (auth.drop 64)

/-- NVS_EXPORT (R505), with the 128 bytes of authorisation read from the host or a read error, and the
uncorrectable codewords met. The ephemeral key, the salt, the encrypted bytes and the tags are free. -/
def nvsExportProg (ring : Nat) (data : Option (List Word)) (cw : List (Nat × Nat)) : Prog :=
  descr ring 0x2E false fun ws =>
    .get fun b =>
      let s := b.aux.store
      let seq := dw ws 1
      let size := match s.readable seq with | some x => x.size | none => 0
      let total := 128 + size + 16 * ((size + 65535) / 65536)
      let auth := (data.getD []).flatMap wordBytes
      let met := metBy cw 0 size
      checked ring (firstFail [
          fieldFail ws [anyW 1, anyW 2, anyW 3, anyW 4, anyW 5, anyW 6],
          lenFail ws 6 0xFFFFFFFF (decide (dw ws 6 < total)),
          alignFail ws 2 64, alignFail ws 4 64,
          need data.isSome 0x08 0,
          need (b.exportOk auth) 0x68 0,
          need (!b.storeAsleep) 0x60 0,
          need (s.readable seq).isSome 0x5E 0])
        (withFrees ((total + 3) / 4) fun k =>
          .seq
            (emit (.hostWrite (addr64 ws 4)
              ([0x58454B53, BitVec.ofNat 32 seq] ++ toWords 2 size ++ freeWords k ((total + 3) / 4 - 4))))
            (if met.isEmpty then completeOk ring 0
            else .seq (codewordsLost seq met) (complete ring 0x5F (min 0xFFFF met.length))))

end Sys2Proof.Machine
end

