-- ==== Sys2Proof/Machine/Pergola.lean ====
section
/-!
DEFINITION. Pergola (R165 to R197): clusters and zones, candidates, steals, releases, withdrawals and
suspended runs, plume exclusion, yields, segments of a run's record.
-/
namespace Sys2Proof.Machine

/-- The cluster of a head in the active configuration, none when it is no member. -/
def Blk.cluster (b : Blk) (h : Nat) : Option Nat :=
  if b.a (Reg.OVL_HEAD h) F.OVL_HEAD_MEMBER = 1 then some (b.a (Reg.OVL_HEAD h) F.OVL_HEAD_CLUSTER) else none

def Blk.sameCluster (b : Blk) (g h : Nat) : Bool := (b.cluster g).isSome && b.cluster g == b.cluster h

/-! ### Zones (R166, R167) -/

/-- A zone entry of a bank of the BAR2 window. -/
structure Zone where
  verts : Nat
  cluster : Nat
  heads : Nat
  resv : Bool
  pts : List (Int × Int)

def Blk.zone (b : Blk) (bank i : Nat) : Zone :=
  let at' := 0x400000 + 0x8000 * bank + 128 * i
  let w := fun k => b.winNat (at' + 4 * k) 4
  let n := bits (w 0) 0 4
  { verts := n, cluster := bits (w 0) 8 3, heads := w 1,
    resv := bits (w 0) 4 4 != 0 || bits (w 0) 11 21 != 0 ||
      ((List.range (30 - 2 * n)).any fun j => w (2 + 2 * n + j) != 0),
    pts := (List.range n).map fun j => (sgn 32 (w (2 + 2 * j)), sgn 32 (w (3 + 2 * j))) }

def crossP (a b c : Int × Int) : Int := (b.1 - a.1) * (c.2 - a.2) - (b.2 - a.2) * (c.1 - a.1)

/-- Edges of a polygon, the last one back to its first vertex. -/
def edgesOf (l : List (Int × Int)) : List ((Int × Int) × (Int × Int)) :=
  l.zip (l.drop 1 ++ l.take 1)

/-- The exact tests of R167 on one entry. -/
def Zone.valid (z : Zone) : Bool :=
  decide (3 ≤ z.verts ∧ z.verts ≤ 8) && !z.resv &&
    ((edgesOf z.pts).all fun (a, c) => a != c && z.pts.all fun v => decide (0 ≤ crossP a c v)) &&
    decide (0 < ((edgesOf z.pts).map fun (a, c) => a.1 * c.2 - c.1 * a.2).sum)

/-- A bounding box lies wholly inside a zone; edges belong to it. -/
def Zone.holds (z : Zone) (r : Run) : Bool :=
  [(r.xmin, r.ymin), (r.xmax, r.ymin), (r.xmax, r.ymax), (r.xmin, r.ymax)].all fun p =>
    (edgesOf z.pts).all fun (a, c) => decide (0 ≤ crossP a c p)

/-- The first COUNT entries of a bank are valid (R167). -/
def Blk.bankValid (b : Blk) (bank count : Nat) : Bool := (List.range count).all fun i => (b.zone bank i).valid

/-! ### Candidates and backlog -/

/-- The active field window of a head holds a run's bounding box (R137). -/
def Blk.windowHolds (b : Blk) (h : Nat) (r : Run) : Bool :=
  let w := fun i => intW (b.aw (Reg.TRW_HEAD_WIN h i))
  decide (w 0 < w 2 ∧ w 1 < w 3 ∧ w 0 ≤ r.xmin ∧ w 1 ≤ r.ymin ∧ r.xmax ≤ w 2 ∧ r.ymax ≤ w 3)

/-- A head is a candidate for a run (R169). -/
def Blk.candidate (b : Blk) (h : Nat) (r : Run) : Bool :=
  bit r.elig h && !b.unusable h && b.windowHolds h r &&
    (h == r.home ||
      (b.inCluster h r.cluster && b.inCluster r.home r.cluster &&
        ((List.range (b.a Reg.OVL_ZONE_CFG F.OVL_ZONE_CFG_COUNT)).any fun i =>
          let z := b.zone (b.a Reg.OVL_ZONE_CFG F.OVL_ZONE_CFG_BANK) i
          z.cluster == r.cluster && bit z.heads h && z.holds r)))

/-- Queued runs of a head in key order is not needed; the list as kept. -/
def Blk.queuedOf (b : Blk) (h : Nat) : List Run :=
  b.runs.runs.filter fun r => r.owner == h && r.place.isQueued

/-- Backlog (R170). -/
def Blk.backlog (b : Blk) (h : Nat) : Nat :=
  ((b.queuedOf h).filter fun r => !r.suspended).foldl (fun s r => s + r.strokes) 0

/-- The run of least key. -/
def leastKey : List Run → Option Run
  | [] => none
  | r :: rs => match leastKey rs with
    | none => some r
    | some x => if x.key.lt r.key then some x else some r

/-- The run of greatest key. -/
def greatestKey : List Run → Option Run
  | [] => none
  | r :: rs => match greatestKey rs with
    | none => some r
    | some x => if r.key.lt x.key then some x else some r

/-- The run before a run in its patch's sequence (R130). -/
def prevInPatch (p : Patch) (i : Nat) : Option Nat :=
  if !p.skip then (if i = 0 then none else some (i - 1))
  else if i % 2 = 0 then (if i = 0 then none else some (i - 2))
  else if i = 1 then some (2 * ((p.runs - 1) / 2))
  else some (i - 2)

/-- The order condition of a run's patch holds (R130). -/
def Blk.orderOk (b : Blk) (r : Run) : Bool :=
  match b.patchOf r.key with
  | none => false
  | some p =>
    if p.order = 0 then true
    else
      match prevInPatch p r.key.run with
      | none => true
      | some j =>
        match b.runs.find { r.key with run := j } with
        | none => false
        | some x => x.place.isDone || (p.order == 1 && (x.startedOnce || x.place.isExec))

/-- The queued run a head takes next (R130). -/
def Blk.nextRun (b : Blk) (h : Nat) : Option Run := leastKey (b.queuedOf h)

/-- The head executes a run. -/
def Blk.busyHead (b : Blk) (h : Nat) : Bool :=
  b.runs.runs.any fun r => r.owner == h && r.place.isExec

/-- The last segment of a run changed. -/
def onLast (f : Seg → Seg) : List Seg → List Seg
  | [] => []
  | [s] => [f s]
  | s :: r => s :: onLast f r

/-! ### Starting runs -/

/-- A patch's set has a generation to bind, active or waiting (R120). -/
def Blk.bindable (b : Blk) (p : Patch) : Bool :=
  p.bound.isSome || (b.pset p.pset).active.isSome || (b.pset p.pset).waiting.isSome

/-- The coat of a run is current and in phase 3 (R130). -/
def Blk.inPhase3 (b : Blk) (r : Run) : Bool :=
  b.coatNo == r.key.coat && b.phaseNo == 3 && (match b.coat r.key.coat with | some c => !c.cut | none => false)

/-- A head waits to start a run: on its order condition (R130), or for a generation of its patch's set (R120). -/
def Blk.waitsOrder (b : Blk) (r : Run) : Bool :=
  b.inPhase3 r && !(b.orderOk r && (match b.patchOf r.key with | some p => b.bindable p | none => false))

/-- The core's mode lets a head start runs (core matrix effects n and H). -/
def Blk.coreStarts (b : Blk) : Bool := b.mode dCore == .expose || b.mode dCore == .drain

/-- Every condition of R130, R120, R137, R158 and R416 for a head to start its next run. -/
def Blk.canStart (b : Blk) (h : Nat) (r : Run) : Bool :=
  b.mode h == .expose && b.coreStarts && !b.busyHead h && (b.trowel h).run.isNone && (b.trowel h).atRest &&
    (b.trowel h).dwellLeft == 0 && b.inPhase3 r && b.orderOk r && b.windowHolds h r &&
    !b.aux.store.hold &&
    (match b.patchOf r.key with | some p => b.bindable p | none => false)

/-! ### Passing runs (R171 to R180) -/

def touchRun (k : Key) (f : Run → Run) : Prog := .op (.run (.touch k f))

/-- Pergola selects a run for a new owner during the present tick (R174 step 1). -/
def passRun (k : Key) (dest : Nat) : Prog := touchRun k fun r => { r with chosen := some dest, stranded := false }

/-- The runs selected in the tick that ends leave their owners and are in transit (R174 step 2), each where it is still
queued. -/
def leavePasses : Prog :=
  .get fun b =>
    progEach (b.runs.runs.filter fun r => r.chosen.isSome) fun r =>
      .seq (touchRun r.key fun x => { x with chosen := none })
        (match r.chosen with
        | some h => progIf r.place.isQueued (.op (.run (.place r.key (.transit h b.aux.clk.tick))))
        | none => .skip)

/-- A run has been selected for a head in the present tick (R171, R176: at most one). -/
def Blk.given (b : Blk) (h : Nat) : Bool := b.runs.runs.any fun r => r.chosen == some h

/-- A head has lost a run in the present tick (R172: at most one by a steal). -/
def Blk.robbed (b : Blk) (v : Nat) : Bool := b.runs.runs.any fun r => r.owner == v && r.chosen.isSome

/-- No run is in transit to a head, or selected for it. -/
def Blk.noTransitTo (b : Blk) (h : Nat) : Bool :=
  !b.given h && b.runs.runs.all fun r => match r.place with | .transit t _ => t != h | _ => true

/-- A head may lose a run to a thief: STEAL_OUT in ARMED, EXPOSE or HOLD (R172). -/
def Blk.victimOk (b : Blk) (v : Nat) : Bool :=
  b.a (Reg.OVL_HEAD v) F.OVL_HEAD_STEAL_OUT == 1 &&
    (b.mode v == .armed || b.mode v == .expose || b.mode v == .hold)

/-- A run may be stolen for thief `t` from a victim of backlog `bl` (R172 step 4), unless the victim's own run boundary
for it falls at the next edge (R173). -/
def Blk.stealable (b : Blk) (t v bl : Nat) (r : Run) : Bool :=
  let margin := b.a Reg.OVL_CFG F.OVL_CFG_STEAL_MARGIN
  let own := b.canStart v r && (b.nextRun v).map Run.key == some r.key
  b.candidate t r && decide (r.strokes + margin ≤ bl) && b.orderOk r && !r.suspended && b.headPresent r && !own

/-- Victims in order of greatest backlog, ties to the lower head. -/
def insVictim (x : Nat × Nat) : List (Nat × Nat) → List (Nat × Nat)
  | [] => [x]
  | y :: ys => if y.2 < x.2 then x :: y :: ys else y :: insVictim x ys

/-- The run a thief takes in a tick (R172). -/
def Blk.stealFor (b : Blk) (t : Nat) : Option Run :=
  let margin := b.a Reg.OVL_CFG F.OVL_CFG_STEAL_MARGIN
  let vs := (List.range 32).filter fun v =>
    v != t && b.sameCluster t v && b.victimOk v && !b.robbed v &&
      decide (b.backlog t + margin ≤ b.backlog v)
  let ordered := (vs.map fun v => (v, b.backlog v)).foldl (fun l x => insVictim x l) []
  ordered.findSome? fun (v, bl) => greatestKey ((b.queuedOf v).filter (b.stealable t v bl))

/-- A head is a thief (R171). -/
def Blk.thief (b : Blk) (h : Nat) : Bool :=
  b.mode h == .expose && b.a (Reg.OVL_HEAD h) F.OVL_HEAD_STEAL_IN == 1 && (b.queuedOf h).isEmpty &&
    !b.busyHead h && b.noTransitTo h

/-- The steal of one thief. -/
def stealTick (t : Nat) : Prog :=
  .get fun b =>
    match if b.thief t then b.stealFor t else none with
    | some r => .seq (passRun r.key t) (modF (Reg.OVL_HCNT t) F.OVL_HCNT_STEALS_IN (· + 1))
    | none => .skip

/-- The steals of a tick, thieves in ascending head index. -/
def steals : Prog :=
  progWhen (fun b => b.a Reg.OVL_CFG F.OVL_CFG_STEAL_EN == 1) (progEach (List.range 32) stealTick)

/-- Modes of a head that give effect w to its neighbours (R43, R176). -/
def withdrawMode : Mode → Bool
  | .off | .reset | .selftest | .setup | .calibrate | .home | .safe | .service => true
  | _ => false

/-- The modes a leaving run may go to, best first, by its owner's mode (R176). -/
def takerModes (b : Blk) (h : Nat) : List Mode :=
  match b.mode h with
  | .drain => [.expose, .armed]
  | .armed | .hold => [.expose]
  | .expose => []
  | _ => [.expose, .armed, .hold]

/-- The head a run may go to, of the first mode that has any, least backlog first. -/
def Blk.takers (b : Blk) (r : Run) (ms : List Mode) (free : Nat → Bool) : Option Nat :=
  ms.findSome? fun m =>
    let cs := (List.range 32).filter fun h =>
      h != r.owner && b.mode h == m && b.sameCluster h r.owner && b.candidate h r && free h
    (cs.map fun h => (h, b.backlog h)).foldl
      (fun o x => match o with | none => some x | some y => if x.2 < y.2 then some x else some y) none
      |>.map Prod.fst

/-- An owner's runs must leave it (R176). -/
def Blk.mustLeave (b : Blk) (h : Nat) : Bool :=
  match b.mode h with
  | .drain => true
  | .armed | .hold => (List.range 32).any fun g => g != h && b.sameCluster g h && b.mode g == .expose
  | .expose => false
  | _ => (List.range 32).any fun g => g != h && b.sameCluster g h &&
      (b.mode g == .armed || b.mode g == .expose || b.mode g == .hold || b.mode g == .drain)

/-- RUN_STRANDED (R177). -/
def strand (r : Run) : Prog :=
  progIf (!r.stranded)
    (progAll [
      touchRun r.key fun x => { x with stranded := true },
      setFlag (flOvl 1),
      raiseEvent 0x170 r.owner dCore r.key.coat (r.key.run + r.key.part * 65536)
        (r.key.patch + r.home * 65536)])

/-- A run that must leave its owner is no longer stranded: a head can take it, or its owner keeps it. -/
def unstrand (r : Run) : Prog := progIf r.stranded (touchRun r.key fun x => { x with stranded := false })

/-- The release or withdrawal of one run (R176, R177), to a head that is given no other in the tick. A run whose only
candidate is its owner is stranded; one not yet in the prefetch waits. -/
def leaveTick (r : Run) : Prog :=
  .get fun b =>
    let ms := if b.mustLeave r.owner then takerModes b r.owner else []
    if !b.mustLeave r.owner then unstrand r
    else
      match b.takers r ms fun h => !b.given h with
      | some h => if b.headPresent r then passRun r.key h else unstrand r
      | none => if (b.takers r ms fun _ => true).isNone then strand r else unstrand r

/-- The releases and withdrawals of a tick. -/
def releases : Prog :=
  .get fun b => progEach (b.runs.runs.filter fun r => r.place.isQueued && !r.suspended) leaveTick

/-- The pass of a suspended run (R178, R179). One with sixteen segments stays: PASS_LIMIT is set once in a suspension, and
its ticks count in the sixteenth segment. -/
def suspTick (r : Run) : Prog :=
  .get fun b =>
    if 16 ≤ r.segs.length then
      .seq (progIf (!r.limited) (setFlag (flOvl 2)))
        (touchRun r.key fun x => { x with
          limited := true, segs := onLast (fun s => { s with yieldTicks := s.yieldTicks + 1 }) x.segs })
    else
      match b.takers r [.expose] fun h => !b.given h with
      | some h => progIf (b.headPresent r) (passRun r.key h)
      | none => .skip

/-- The passes of suspended runs in a tick. A run whose owner is in EXPOSE is resumed by it. -/
def suspendedPasses : Prog :=
  .get fun b =>
    progEach (b.runs.runs.filter fun r => r.place.isQueued && r.suspended && b.mode r.owner != .expose) suspTick

/-- TRANSIT_END (R174): at the edge two tick periods after it left, the run is queued on its new owner; in a coat that
was cut it is done instead (R114). -/
def transitEndProg (h : Nat) : Prog :=
  .get fun b =>
    progEach (b.runs.runs.filter fun r => match r.place with
        | .transit t s => t == h && decide (s + 1 ≤ b.aux.clk.tick)
        | _ => false) fun r =>
      .seq (touchRun r.key fun x => { x with owner := h })
        (if (match b.coat r.key.coat with | some c => c.cut | none => false) then
          .seq (endRun r.key .cut) releaseRecords
        else .op (.run (.place r.key .queued)))

/-! ### Segments (R194, R195) -/

/-- The global index of a head. -/
def Blk.ghead (b : Blk) (h : Nat) : Nat := 32 * b.a Reg.OVL_CASC_ID F.OVL_CASC_ID_MEMBER_ID + h

/-- A segment opens; the sixteenth stays the last (R179). -/
def openSeg (b : Blk) (h : Nat) (r : Run) : Run :=
  if 16 ≤ r.segs.length then r
  else
    let p := r.point.getD (.start 0)
    { r with segs := r.segs ++ [⟨b.ghead h, 0, p.stroke, p.stroke, (p.ofs / 65536).toNat, (p.ofs / 65536).toNat,
        b.aux.clk.tick, 0, false⟩] }


/-- The open segment closes at a point. -/
def closeSeg (tick stroke : Nat) (ofs : Nat) (r : Run) : Run :=
  { r with segs := onLast (fun s => { s with lastStroke := stroke, lastOfs := ofs, endTick := tick, closed := true })
                       r.segs }

/-- A segment's layout words (R194). -/
def segWords (i n : Nat) (s : Seg) : List Word :=
  let w := BitVec.ofNat 32
  [w (s.ghead + (if i + 1 = n then 128 else 0) + i * 256 + min 0xFFFF s.yieldTicks * 65536),
    w (s.firstStroke + s.lastStroke * 65536), w s.firstOfs, w s.lastOfs, w s.startTick,
    w (s.startTick / 4294967296), w s.endTick, w (s.endTick / 4294967296)]

/-! ### Runs on a head -/

/-- The strokes and configuration of a run on a head. -/
def Blk.runCtx (b : Blk) (h : Nat) (r : Run) : RunCtx :=
  { key := r.key, c := b.hcfg h (b.boundSet r.key), strokes := b.strokesOf r, total := r.strokes, start := r.start,
    depth := 4 * 2 ^ b.a (Reg.TRW_HEAD_CFG h) F.TRW_HEAD_CFG_DEPTH }

/-- The run a head's engine has. -/
def Blk.engineRun (b : Blk) (h : Nat) : Option Run := (b.trowel h).run.bind b.runs.find

/-- The patch of a key as the head remembers it (R17). -/
def patchKey (k : Key) : Key := { k with run := 0 }

/-- Flags of TRW_HEAD_STAT a stroke of a run sets as it begins or is taken up again; one that R159 applied to is marked. -/
def strokeFlags (h : Nat) (k : Key) (stroke : Nat) (l : List Nat) : Prog :=
  .seq (progEach l fun i => setFlag (flTrw h i))
    (progIf (l.contains 4) (touchRun k fun r => { r with marks := stroke :: r.marks }))

/-- A head takes up a run at its boundary: at its beginning, or at the point where it was interrupted (R139, R178). -/
def Trowel.start (t : Trowel) (rc : RunCtx) (x : Run) : Trowel :=
  match x.point with
  | some p => { t with run := some rc.key }.resumeFrom rc p
  | none => t.begin' rc

/-- RUN_START (R130, R139, R17, R120): a run boundary, with a patch boundary when the run belongs to a
patch other than the head's previous one. A suspended run resumes at its interrupted point (R178). -/
def runStartProg (h : Nat) : Prog :=
  .get fun b =>
    match b.nextRun h with
    | none => .skip
    | some r =>
      if !b.canStart h r then .skip
      else
        let newPatch := (b.trowel h).lastPatch != some (patchKey r.key)
        progAll [
          commitClasses (· == h) (if newPatch then [.stroke, .run, .patch] else [.stroke, .run]),
          poolBoundary h newPatch,
          progIf newPatch commitPsets,
          .get fun b1 =>
            match b1.patchOf r.key with
            | none => .skip
            | some p => progIf p.bound.isNone
                (modPatch r.key fun q => { q with bound := (b1.pset p.pset).active.map Gen.num }),
          touchRun r.key (fun x => { openSeg b h x with startedOnce := true, suspended := false, stranded := false }),
          .op (.run (.place r.key .executing)),
          .get fun b2 =>
            match b2.runs.find r.key with
            | none => .skip
            | some x =>
              let rc := b2.runCtx h x
              let i := (x.point.map Point.stroke).getD 0
              progAll [
                captureSets h r.key (b2.boundSet r.key),
                modTrowel h fun t =>
                  { b2.located h t with
                    lastPatch := some (patchKey r.key), bset := b2.boundSet r.key, missed := false }.start rc x,
                .get fun b3 =>
                  match rc.window i with
                  | a :: _ => strokeFlags h r.key i (rc.strokeFlags a (b3.trowel h).pieces)
                  | [] => .skip]]

/-- The path length of a run's last stroke in bed LSB (R194). -/
def Blk.lastLen (b : Blk) (h : Nat) (r : Run) : Nat :=
  let rc := b.runCtx h r
  match rc.strokes[r.strokes - 1]? with
  | some x => ((resolve rc.c (rc.from' (r.strokes - 1)) true x.ws).len / 65536).toNat
  | none => 0

/-- The head's run is done (R132, R139, R158, R467): its segment closes and its records may be released. -/
def runDone (h : Nat) : Prog :=
  .get fun b =>
    match b.engineRun h with
    | none => .skip
    | some r =>
      let throttle := max (b.f Reg.THM_STATE F.THM_STATE_DIE_LEVEL)
        (b.f (Reg.THM_HLEVEL (h / 8)) ⟨4 * (h % 8), 3⟩) * b.a Reg.THM_THR F.THM_THR_DWELL_STEP
      let gap := max (b.a (Reg.TRW_HEAD_GAP h) F.TRW_HEAD_GAP_MIN_RUN_GAP) throttle
      progAll [
        setF (Reg.TRW_HEAD_GAP h) F.TRW_HEAD_GAP_THROTTLE_DWELL throttle,
        touchRun r.key (closeSeg b.aux.clk.tick (r.strokes - 1) (b.lastLen h r)),
        endRun r.key .complete,
        releaseRecords,
        modTrowel h fun t => { t with run := none, st := .dwellBetween, dwellLeft := gap, resume := none,
                                      pieces := [], el := 0 }]

/-- RUN_SUSPEND (R178, R179): the owner is in SAFE, or has been in HOLD for HOLD_PASS ticks. -/
def runSuspendProg (h : Nat) : Prog :=
  .get fun b =>
    let hp := b.a Reg.OVL_PASS F.OVL_PASS_HOLD_PASS
    let due := b.mode h == .safe || (b.mode h == .hold && hp != 0 && decide (hp ≤ (b.trowel h).holdTicks))
    match b.engineRun h with
    | none => .skip
    | some r =>
      if !due || !r.place.isExec then .skip
      else
        let p := ((b.trowel h).resume).getD (.start (b.trowel h).stroke)
        progAll [
          touchRun r.key fun x =>
            let y := { x with suspended := true, limited := false, point := some p }
            if 16 ≤ x.segs.length then y else closeSeg b.aux.clk.tick p.stroke (p.ofs / 65536).toNat y,
          .op (.run (.place r.key .queued)),
          modTrowel h fun t => { t with run := none, resume := none }]

/-- RUN_RESUME (R155): the spot is at rest and the cause has cleared, by accepted probes, by the head's
return to EXPOSE, or in DRAIN by clean ticks (R27). -/
def runResumeProg (h : Nat) : Prog :=
  .get fun b =>
    let t := b.trowel h
    match b.engineRun h, t.resume with
    | some r, some p =>
      let ok := t.atRest && (b.mode h == .expose || b.mode h == .drain) && !(b.lane h).hold &&
        (t.cleared || t.st == .hold) &&
        (b.mode h == .expose || !t.missed ||
          decide (b.a (Reg.SEQ_DOM_CFG h) F.SEQ_DOM_CFG_RESUME_TICKS ≤ t.cleanTicks))
      progIf ok (modTrowel h fun x =>
        { x.resumeFrom (b.runCtx h r) p with cleared := false, probes := 0, missed := false })
    | _, _ => .skip

/-- YIELD_CLEAR (R187): probes accepted in CLEAR_TICKS consecutive ticks. -/
def yieldClearProg (h : Nat) : Prog :=
  .get fun b =>
    let t := b.trowel h
    progIf (t.st == .yield && decide (b.a Reg.OVL_EXCL F.OVL_EXCL_CLEAR_TICKS ≤ t.probes))
      (modTrowel h fun x => { x with cleared := true })

/-! ### Plume exclusion (R183 to R188) -/

/-- The exclusion settings in force. -/
structure Excl where
  dmin : Int
  cone : Int
  tan : Int
  fx : Int
  fy : Int
  persist : Nat
  promote : Nat

def Blk.excl (b : Blk) : Excl :=
  let flow := match b.coat b.coatNo with | some c => c.flow | none => 0
  let (fx, fy) := cosSin (Int.ofNat (flow * 65536))
  { dmin := Int.ofNat (b.a Reg.OVL_EXCL F.OVL_EXCL_DMIN), cone := Int.ofNat (b.a Reg.OVL_CONE F.OVL_CONE_CONE_LEN),
    tan := Int.ofNat (b.a Reg.OVL_CONE_TAN F.OVL_CONE_TAN_TAN), fx := fx, fy := fy,
    persist := b.a Reg.OVL_EXCL F.OVL_EXCL_PERSIST, promote := b.a Reg.OVL_CFG F.OVL_CFG_AGE_PROMOTE }

/-- The spacing test (R183). -/
def Excl.spacing (x : Excl) (px py qx qy : Int) : Bool :=
  decide ((px - qx) * (px - qx) + (py - qy) * (py - qy) < x.dmin * x.dmin)

/-- The shadow test: u lies in the plume cone of v (R183). -/
def Excl.shadow (x : Excl) (ux uy vx vy : Int) : Bool :=
  let ex := ux - vx
  let ey := uy - vy
  let along := shr 30 (ex * x.fx + ey * x.fy)
  let across := absI (shr 30 (ex * x.fy - ey * x.fx))
  decide (0 < along ∧ along ≤ x.cone ∧ across * 65536 ≤ along * x.tan)

/-- Conflict with a spot of the same emission tick. -/
def Excl.conflictNow (x : Excl) (p q : Item) : Bool :=
  p.cluster == q.cluster && p.ghead != q.ghead &&
    (x.spacing p.x p.y q.x q.y || x.shadow p.x p.y q.x q.y || x.shadow q.x q.y p.x p.y)

/-- Conflict with a past spot. -/
def Excl.conflictPast (x : Excl) (p : Item) (q : Spot) : Bool :=
  p.cluster == q.cluster && p.ghead != q.ghead && x.shadow p.x p.y q.x q.y

/-- The order of R185; probes of class 2 come after everything (R187). -/
def Item.before (a c : Item) : Bool :=
  let g := fun (i : Item) => if i.probe && i.cls == 2 then 3 else i.cls
  decide (g a < g c) || (g a == g c && (decide (c.age < a.age) ||
    (a.age == c.age && decide (a.ghead < c.ghead))))

def insItem (i : Item) : List Item → List Item
  | [] => [i]
  | x :: xs => if i.before x then i :: x :: xs else x :: insItem i xs

/-- Items taken in order: each is accepted when it conflicts with no reference spot (R184, R185). `barred`
says which are refused whatever stands (R188, R191). Accepted items are answered. -/
def decideItems (x : Excl) (past : List Spot) (barred : Item → Bool) : List Item → List Item → List Item
  | [], acc => acc
  | i :: is, acc =>
    let refs := acc.filter fun q => !q.probe || q.cls == 0
    if barred i || (past.any (x.conflictPast i)) || (refs.any (x.conflictNow i)) then
      decideItems x past barred is acc
    else decideItems x past barred is (acc ++ [i])

/-- A path position in bed LSB, to nearest. -/
def bedOf (u : Int) : Int := (u + 32768) / 65536

/-- The proposal or probe of a head for the next emission tick, none when it offers neither. -/
def Blk.itemOf (b : Blk) (h : Nat) : Option Item :=
  let t := b.trowel h
  if !(b.mode h == .expose || b.mode h == .drain) then none
  else
    let prom := decide (b.a Reg.OVL_CFG F.OVL_CFG_AGE_PROMOTE ≤ t.yieldAge)
    let cl := (b.cluster h).getD (8 + h)
    match t.emit.spot with
    | some p =>
      some ⟨if prom then 0 else if t.accepted then 1 else 2, t.yieldAge, b.ghead h, bedOf p.x, bedOf p.y, false, cl⟩
    | none =>
      if t.st = .yield ∧ t.atRest ∧ t.resume.isSome then
        match (b.engineRun h), t.resume with
        | some r, some pt =>
          let rc := b.runCtx h r
          let win := rc.window pt.stroke
          let (q, _) := spotAt rc.c pt win
          if win.isEmpty then none
          else some ⟨if prom then 0 else 2, t.yieldAge, b.ghead h, bedOf q.x, bedOf q.y, true, cl⟩
        | _, _ => none
      else none

/-- The head-with-Float matrix gives y to emitting heads (R188). -/
def Blk.floatY (b : Blk) : Bool :=
  [0, 1].any fun i => b.mode (dFloat i) == .expose || b.mode (dFloat i) == .hold || b.mode (dFloat i) == .drain

/-- A global head index names a head of this part. -/
def Blk.isMine (b : Blk) (ghead : Nat) : Bool := ghead / 32 == b.a Reg.OVL_CASC_ID F.OVL_CASC_ID_MEMBER_ID

/-- A local item is refused whatever its ground: effect y, or a member of its cluster whose frame was
missed (R188, R191). -/
def Blk.barred (b : Blk) (emitTick : Nat) (i : Item) : Bool :=
  b.isMine i.ghead && (b.floatY ||
    b.aux.peers.any fun p => decide (emitTick ≤ p.until_) && bit p.clusters i.cluster)

/-- A past spot still bears on the proposals: the matrix gives effect e with its head, in EXPOSE or DRAIN where it is one
of this part (R43, R184). -/
def Blk.pastBears (b : Blk) (s : Spot) : Bool :=
  !b.isMine s.ghead || b.mode (s.ghead % 32) == .expose || b.mode (s.ghead % 32) == .drain

/-- A head yields (R186): the hold trajectory begins and its age counts. One whose run is already done is at rest, and its
light ends. -/
def yieldHead (h : Nat) : Prog :=
  .get fun b =>
    match b.engineRun h with
    | none => modTrowel h fun t =>
        { t.putOut with accepted := false, yieldAge := if t.yieldAge = 0 then 1 else t.yieldAge }
    | some r =>
      modTrowel h fun t =>
        let t' := if t.st = .yield then { t with emit := Emit.dark } else t.holdFrom (b.runCtx h r).c .yield
        { t' with accepted := false, probes := 0, cleared := false, yieldAge := if t.yieldAge = 0 then 1 else t.yieldAge }

/-- The count the next tick edge takes (R441, R457). -/
def Blk.nextTick (b : Blk) : Nat := match b.aux.align.newTick with | some t => t | none => b.aux.clk.tick + 1

/-- Pergola's decision for the emission tick about to be launched, as the present tick ends (R185 to R188). `late` is
a miss of Pergola's own deadline (R28). A result that missed the launch bead of the cascade takes no part (R190). -/
def exclusion (late : Bool) : Prog :=
  .get fun b =>
    let k := b.nextTick
    let x := b.excl
    let mine := fun (h : Nat) => if b.aux.lateLaunch.contains h then none else b.itemOf h
    let local' := (List.range 32).filterMap mine
    let remote := b.aux.peers.flatMap fun p => if p.present && p.tick == b.aux.clk.tick then p.items else []
    let ordered := (local' ++ remote).foldl (fun l i => insItem i l) []
    let past := b.aux.plume.filter fun s => decide (k ≤ s.tick + x.persist ∧ s.tick < k) && b.pastBears s
    let acc := decideItems x past (fun i => (late && b.isMine i.ghead) || b.barred k i) ordered []
    let spots := (acc.filter fun i => !i.probe).map fun i => (⟨k, i.ghead, i.x, i.y, i.cluster⟩ : Spot)
    .seq (modAux fun a => { a with plume := (a.plume.filter fun s => decide (k ≤ s.tick + 16)) ++ spots })
      (progEach (List.range 32) fun h =>
        match mine h with
        | none => modTrowel h fun t => { t with accepted := false }
        | some i =>
          let ok := acc.any fun j => j.ghead == i.ghead
          if i.probe then modTrowel h fun t => { t with probes := if ok then t.probes + 1 else 0, accepted := false }
          else if ok then modTrowel h fun t => { t with accepted := true, yieldAge := 0 }
          else yieldHead h)

/-- A tick of yielding is counted (R186, R194). -/
def countYield (h : Nat) : Prog :=
  .get fun b =>
    let t := b.trowel h
    progIf (t.yieldAge != 0)
      (progAll [
        modTrowel h fun x => { x with yieldAge := min 0xFFFF (x.yieldAge + 1) },
        modF (Reg.OVL_HYIELD h) ⟨0, 32⟩ (· + 1),
        match t.run with
        | some k => touchRun k fun r => { r with segs := onLast (fun s => { s with yieldTicks := s.yieldTicks + 1 }) r.segs }
        | none => .skip])

/-- What this part holds of member `j` of its cascade. -/
def Blk.peer (b : Blk) (j : Nat) : Peer := b.aux.peers.getD j Peer.init

def modPeer (j : Nat) (f : Peer → Peer) : Prog := modAux fun a => { a with peers := a.peers.modify j f }

/-- PRESENT of a member. -/
def setPresent (j v : Nat) : Prog :=
  .seq (setF Reg.OVL_CASC_MEMBERS ⟨4 + j, 1⟩ v) (setF (actOff Reg.OVL_CASC_MEMBERS) ⟨4 + j, 1⟩ v)

/-- The members reported departed leave the exchange at the tick edge (R192). -/
def leaveExchange : Prog :=
  .get fun b => progEach ((List.range 4).filter fun j => (b.peer j).leaving) fun j =>
    .seq (modPeer j fun p => { p with present := false, leaving := false, items := [], ready := 0 }) (setPresent j 0)

/-- The latch of OVL_RUNCNT (R182). -/
def ovlLatch : Prog :=
  .get fun b =>
    progAll [
      setW (Reg.OVL_RUNCNT 0) (BitVec.ofNat 32 b.runs.submitted), setW (Reg.OVL_RUNCNT 1) (BitVec.ofNat 32 b.runs.queued),
      setW (Reg.OVL_RUNCNT 2) (BitVec.ofNat 32 b.runs.transit), setW (Reg.OVL_RUNCNT 3) (BitVec.ofNat 32 b.runs.executing),
      setW (Reg.OVL_RUNCNT 4) (BitVec.ofNat 32 b.runs.done), setW (Reg.OVL_RUNCNT 5) (BitVec.ofNat 32 b.aux.clk.tick)]

/-- LINK_HOLD_CLEAR (R245): frames were accepted at LINK_CLEAR consecutive beads. -/
def linkHoldClearProg (h : Nat) : Prog :=
  .get fun b =>
    let x := b.lane h
    progIf (x.hold && decide (b.a (Reg.HLK_LANE_CFG h) F.HLK_LANE_CFG_LINK_CLEAR ≤ x.okRun))
      (.seq (modLane h fun y => { y with hold := false }) (modTrowel h fun t => { t with cleared := t.cleared || t.st == .hold }))

end Sys2Proof.Machine
end

