-- ==== Sys2Proof/Machine/Transitions.lean ====
section
/-!
DEFINITION. What a domain does when a transition takes effect: the entry into each mode by kind (R33, R48, R514),
SAFE entry (R54, R57), and the effects of the core's mode on the other domains (R43).
-/
namespace Sys2Proof.Machine

/-! ### RESET: the domain's state and registers return to their reset values (R33, R514) -/

/-- The register ranges of a domain: first offset, length, distance of the active copies. -/
def Blk.domRanges (b : Blk) (d : Nat) : List (Nat × Nat × Nat) :=
  (Reg.SEQ_DOM_CFG d, 4, 0x8000) ::
  match kindOf d with
  | .head =>
    [(0x41000 + 0x80 * d, 0x80, 0x1000), (0x61000 + 0x300 * d, 0x300, 0x8000), (0x71000 + 0x100 * d, 0x100, 0x8000),
      (0x81000 + 0x80 * d, 0x80, 0x1000)]
  | .float =>
    let f := d - 32
    [(0xA1000 + 0x400 * f, 0x200, 0x200), (0x73000 + 0x200 * f, 0x200, 0x8000)]
  | .motion =>
    let g := d - 34
    [(0xB0010 + 4 * g, 4, 0x8000), (0xB1000 + 0x300 * g, 0x300, 0x8000)]
  | .camera =>
    let c := d - 38
    (0x91000 + 0x400 * c, 0x400, 0x4000) ::
      (((List.range 4).filter fun g => b.ledCam g == c).flatMap fun g =>
        [(0xD0100 + 0x40 * g, 0x40, 0x2000), (0xD0400 + 0x60 * g, 0x60, 0x2000)])
  | .storage => [(0xF0000, 0x4000, 0x8000), (0x100000, 0x4000, 0x8000)]
  | .core => [(Reg.SEQ_COAT, 4, 0)]

/-- The registers of a domain return to their reset values; what was written and not committed is gone. -/
def resetDomRegs (d : Nat) : Prog :=
  .get fun b =>
    let rs := b.domRanges d
    .seq (progEach rs fun (lo, n, act) => unitRegs lo n act)
      (modAux fun a => { a with
        dirty := a.dirty.filter fun o => !(rs.any fun (lo, n, _) => decide (lo ≤ o ∧ o < lo + n)) })

/-- The engines of a domain at their reset state. -/
def resetDomState (d : Nat) : Prog :=
  match kindOf d with
  | .head =>
    progAll [
      flushDeposits d,
      traceEnd d,
      modTrowel d fun _ => Trowel.init,
      modPool d fun _ => Pool.init,
      modAux fun a => { a with axes := a.axes.zipIdx.map fun (x, i) => if i / 3 = d then Axis.init else x }]
  | .float => modBar (d - 32) fun _ => Bar.init
  | .motion =>
    modAux fun a => { a with mots := a.mots.zipIdx.map fun (x, i) => if i / 3 = d - 34 then Mot.init else x }
  | .camera =>
    progAll [
      layerGone (d - 38),
      camOp (d - 38) .clear,
      modCam (d - 38) fun _ => Cam.init,
      progEach (List.range 4) fun g => progWhen (fun b => b.ledCam g == d - 38) (ledReset g)]
  | .storage => .seq (modStore fun s => { s with enumerated := false, scanned := false }) storeRegs
  | .core => modAux fun a => { a with build := Build.init, carriage := Carriage.init }

/-- The lanes of a domain (R541). -/
def lanesOf (d : Nat) : List Nat :=
  if d < 32 then [d] else if d < 34 then [32 + 2 * (d - 32), 33 + 2 * (d - 32)]
  else if d = dCore then [36, 37, 38, 39] else []

/-! ### Entries -/

/-- The spot of a head stands: no run, no planned motion, and the setpoint path of R200 begins. -/
def headPark (h : Nat) : Prog :=
  modTrowel h fun t => { t.putOut with
    st := .parked, run := none, pieces := [], el := 0, trimIn := 0, resume := none, cleared := false, yieldAge := 0
    dwellLeft := 0, spFrom := t.sp, spTicks := 0, unbegun := false }

/-- The ramps of CALIBRATE begin where the spot rests (R149). -/
def rampStart (h : Nat) : Prog :=
  .get fun b => modTrowel h fun t => { b.located h t with dirs := [true, true], calLag := [0, 0, 0, 0] }

/-- The axes of a head with active PM_TRIP 0, as a mask (R214). -/
def Blk.unarmed (b : Blk) (h : Nat) : Nat :=
  ((List.range 3).map fun i => if (b.axCfg (3 * h + i)).trip then 0 else 2 ^ i).sum

/-- A head enters a mode other than SAFE from `old`. -/
def headEnter (h : Nat) (old m : Mode) : Prog :=
  match m with
  | .off => .seq (headPark h) (modTrowel h fun _ => Trowel.init)
  | .setup | .home => headPark h
  | .calibrate => progAll [headPark h, rampStart h, modCal h fun x => { x with ran := none }]
  | .armed =>
    if old = .setup then
      .get fun b =>
        progAll [
          commitClasses (· == h) [.stroke, .run, .patch],
          commitPsets,
          poolBoundary h true,
          progIf (b.unarmed h != 0) (raiseEvent 0x1B0 h h (b.unarmed h) 0 0)]
    else .skip
  | .hold =>
    .get fun b =>
      .seq
        (match b.engineRun h with
        | none => modTrowel h Trowel.putOut
        | some r => modTrowel h fun t =>
            if t.st = .hold then t else { t.holdFrom (b.runCtx h r).c .hold with cleared := false, probes := 0 })
        (modTrowel h fun t => { t with holdTicks := 0, accepted := false })
  | _ => .skip

/-- A bar enters a mode other than SAFE. -/
def barEnter (f : Nat) (old m : Mode) : Prog :=
  progAll [
    abandonMeas f,
    abandonFire f,
    match m with
    | .setup => progIf (old == .reset || old == .selftest) (barFill f)
    | .calibrate =>
      .seq (barCalibrate f)
        (progEach [32 + 2 * f, 33 + 2 * f] fun t => modCal t fun x => { x with ran := none })
    | .armed => progIf (old == .setup) (challenge f)
    | .hold => barHold f
    | _ => .skip]

/-- A motion group enters a mode other than SAFE. -/
def groupEnter (g : Nat) (m : Mode) : Prog :=
  match m with
  | .off | .reset => groupOff g
  | .setup => groupSetup g
  | .calibrate => groupCalibrate g
  | .home => groupHome g
  | .hold => groupHold g
  | _ => .skip

/-- A camera enters a mode other than SAFE (R284, R297, R298). -/
def camEnter (c : Nat) (old m : Mode) : Prog :=
  .get fun b =>
    match m with
    | .setup =>
      progIf (old == .reset || old == .selftest)
        (modCam c fun x => { x with due := b.now10, first := true, pos := 0 })
    | .calibrate =>
      .seq (modCam c fun x => { x with mapFrames := 0, mapSum := [], mapOk := none })
        (modCal (42 + c) fun x => { x with ran := none })
    | .home => modCam c fun x => { x with dark := [] }
    | _ => .skip

/-- The core enters a mode other than SAFE from `old`. DEP follows its entry into OFF or RESET (R252); the host watchdog
counts from its entry into EXPOSE or HOLD from a mode other than those (R100). -/
def coreEnter (old m : Mode) : Prog :=
  match m with
  | .expose | .hold =>
    progIf (!(old == .expose || old == .hold)) (modAux fun a => { a with wdFrom := tbNs a.clk.tb2 })
  | .off | .reset =>
    .get fun b => progEach (List.range 4) fun j =>
      progIf (b.cascLane j && b.mode dCore == m) (modLane (36 + j) fun x => { x with depLeft := 64 })
  | .calibrate => progEach [36, 37, 38, 39, 40, 41, 78, 79] fun t => modCal t fun x => { x with ran := none }
  | .home => modAux fun a => { a with homeFrom := tbNs a.clk.tb2 }
  | _ => .skip

/-- The storage domain enters a mode other than SAFE: an operation under way completes, entry to SETUP calls for the
targets to be enumerated (R409), and a release that waits may open its segment (R423). -/
def storeEnter (old m : Mode) : Prog :=
  progAll [
    noteFlight old,
    progIf (m == .setup) (modStore fun s => { s with
      enumDue := true, enumerated := s.enumerated && !(old == .reset || old == .selftest || old == .safe) }),
    startRelease]

/-- A domain leaves SAFE: the clamp of R215 ends. -/
def leaveSafe (d : Nat) : Prog :=
  .seq
    (progIf (decide (d < 32))
      (.seq (runSuspendProg d)
        (modAux fun a => { a with
          axes := a.axes.zipIdx.map fun (x, i) => if i / 3 = d then { x with tripped := false } else x })))
    (modAux fun a => { a with safeFlag := a.safeFlag.filter fun (e, _) => e != d })

/-- The effects s and S of the core matrix on a column domain. -/
def coreStops (core : Mode) (d : Nat) (col : Mode) : Bool :=
  let kind := kindOf d
  match core with
  | .safe =>
    (kind == .head || kind == .float || kind == .motion || kind == .camera) &&
      !(col == .off || col == .reset || col == .selftest || col == .setup || col == .safe)
  | .off | .reset | .selftest | .setup | .calibrate | .home | .service =>
    (kind == .head || kind == .float) && (col == .expose || col == .hold || col == .drain)
  | _ => false

/-- The core matrix acts on one domain. -/
def coreEffect (d : Nat) : Prog :=
  .get fun b => progIf (coreStops (b.mode dCore) d (b.mode d)) (requestSafe d .core none)

/-- A transition other than SAFE entry takes effect (R39). -/
def enterMode (d : Nat) (m : Mode) (c : Cause) : Prog :=
  .get fun b =>
    let old := b.mode d
    progAll [
      progIf (old == .safe) (leaveSafe d),
      setMode d m c,
      progIf (c == .bistFail) (setF (Reg.SEQ_DOM_STAT d) F.SEQ_DOM_STAT_UNUSABLE 1),
      progIf (m == .reset) (.seq (resetDomRegs d) (resetDomState d)),
      progIf (m == .off) (progEach (lanesOf d) laneIdle),
      progIf (old == .off && d != dCore) (progEach (lanesOf d) laneStart),
      progIf ((old == .expose || old == .drain) && !(m == .expose || m == .drain))
        (progIf (decide (d < 32)) (modTrowel d fun t => { t with yieldAge := 0, probes := 0 })),
      match kindOf d with
      | .head => headEnter d old m
      | .float => barEnter (d - 32) old m
      | .motion => groupEnter (d - 34) m
      | .camera => camEnter (d - 38) old m
      | .storage => storeEnter old m
      | .core => coreEnter old m,
      if d = dCore then progEach (List.range 46) coreEffect else coreEffect d]

/-- The spot of a head stops under the emergency limits (R156) and its emission ends (R57, R246). -/
def headSafe (h : Nat) : Prog :=
  .get fun b =>
    let acc := accU (b.aw (Reg.TRW_HEAD_EMACC h)).toNat
    let jerk := jerkU (b.aw (Reg.TRW_HEAD_EMJERK h)).toNat
    progAll [
      emit (.lane h 2 []),
      modLane h fun x => { x with
        sent := x.sent.map fun f => { f with arm := false, gate0 := false, edges := [], power := 0 } },
      (match b.engineRun h with
      | some r => modTrowel h fun t =>
          { (t.holdFrom (b.runCtx h r).c .emergency) with
            pieces := (t.stopUnder acc jerk .emergency).pieces, spFrom := [0, 0, 0] }
      | none => modTrowel h fun t =>
          if t.st = .parked then b.stopParked h acc jerk t
          else { t.stopUnder acc jerk .emergency with spFrom := [0, 0, 0] }),
      modTrowel h fun t => { t with yieldAge := 0, probes := 0 },
      flushDeposits h]

/-- The sticky flag of the fault that put a domain into SAFE is kept for R58, and the transitions accepted before the
trigger are given up: from SAFE only R36's rows lead on. -/
def keepFlag (d : Nat) (fl : Option (Nat × Nat)) (a : Aux) : Aux :=
  { a with
    trans := a.trans.filter fun t => !(t.dom == d && t.stale)
    safeFlag := (a.safeFlag.filter fun (e, _) => e != d) ++ (match fl with | some (o, i) => [(d, o, i)] | none => []) }

/-- What a SAFE entry does beyond the mode (R57): the head, bar, group or camera stops, and the core takes along the
domains of the core matrix. -/
def safeEffects (r : SafeReq) : Prog :=
  let d := r.dom
  .seq (modAux (keepFlag d r.flag))
    (match kindOf d with
    | .head => headSafe d
    | .float => barSafe (d - 32)
    | .motion =>
      .seq (groupSafe (d - 34)) (progEach [0, 1] fun f => progWhen (fun c => c.barGroup f == d - 34) (barGroupSafe f))
    | .camera => ledCamSafe (d - 38)
    | .storage => .get fun b => noteFlight (b.prevMode dStore)
    | .core => .seq (modAux fun a => { a with evrFlush := true }) (progEach (List.range 46) coreEffect))

/-- SAFE entry (R54): a domain in OFF or SAFE is unaffected. -/
def enterSafe (r : SafeReq) : Prog :=
  .get fun b =>
    if b.mode r.dom = .off ∨ b.mode r.dom = .safe then .skip
    else .seq (setMode r.dom .safe r.cause) (safeEffects r)

/-- No trigger waits. -/
def noSafe (a : Aux) : Aux := { a with safeReq := [] }

/-- The triggers taken in a command act, with those they bring about; the core's entry is followed by the
domains it takes along. -/
def drainSafe : Nat → Prog
  | 0 => .skip
  | n + 1 =>
    .get fun b =>
      match b.aux.safeReq with
      | [] => .skip
      | l => progAll [modAux noSafe, progEach l enterSafe, drainSafe n]

end Sys2Proof.Machine
end

