-- ==== Sys2Proof/Machine/Coat.lean ====
section
/-!
DEFINITION. The sequencer's coat: its boundary, its four phases, the fold that follows it, its record, and the end of
drains and of holds (R18 to R22, R41, R46, R111 to R115, R271, R272, R301, R302, R415, R548, R551).
-/
namespace Sys2Proof.Machine

/-! ### The boundary (R111) -/

/-- The coat whose boundary falls next: the first defined coat not yet begun. -/
def Blk.nextCoat (b : Blk) : Option Coat := b.build.coats.find? fun c => c.stage == 0

/-- The number of the next coat while the conditions of R111 that this part alone decides hold, else 0
(READY_COAT of R251). -/
def Blk.readyCoat (b : Blk) : Nat :=
  match b.nextCoat with
  | none => 0
  | some c =>
    if (b.build.coats.all fun x => x.stage == 0 || x.stage == 4) && (c.auto || c.released) &&
        (b.mode dCore == .armed || b.mode dCore == .expose) then c.num
    else 0

/-- The frames of tick `k` of every member in PRESENT carry a coat as READY_COAT (R251). -/
def Blk.peersReady (b : Blk) (k n : Nat) : Bool :=
  b.aux.peers.all fun p => !p.present || (p.tick == k && p.ready == n)

/-- The part is in exchange with another member. -/
def Blk.inCascade (b : Blk) : Bool := b.aux.peers.any fun p => p.present

/-- The coat that the frames of the tick that ended agree on: the own frame and that of every member in PRESENT carry its
number as READY_COAT (R251). Its boundary falls at the next edge. `k` is the count of that tick. -/
def Blk.agreedCoat (b : Blk) (k : Nat) : Option Nat :=
  match b.build.mine with
  | some (t, n) => if t = k ∧ n ≠ 0 ∧ b.inCascade = true ∧ b.peersReady k n = true then some n else none
  | none => none

/-- The coat whose boundary falls at the present edge: alone, once R111 holds; in a cascade, when the frames of the last
tick but one agreed on it, which still stands (R251). -/
def Blk.boundaryDue (b : Blk) : Option Coat :=
  match b.nextCoat with
  | none => none
  | some c =>
    if b.readyCoat == c.num && (!b.inCascade || b.build.agreed == some c.num) then some c else none

/-- The trim of R131 at the boundary, for the runs submitted before it. -/
def boundaryTrim (n : Nat) : Prog :=
  .get fun b =>
    progEach (b.runs.runs.filter fun r => r.key.coat == n && !r.place.isDone) fun r =>
      let e := b.trimElig r.home r.cluster r.elig
      progIf (e != r.elig)
        (.seq (.op (.run (.touch r.key fun x => { x with elig := e }))) (eligTrim r.home r.key (r.elig - e)))

/-- The readings of a bar in 1/64 °C, those sampled. -/
def Blk.barReadings (b : Blk) (f : Nat) : List Int :=
  ((List.range 8).map fun i => 160 + 8 * f + i).filterMap fun n =>
    if b.thmIdle n then none else some (sgn 16 (b.reading n % 65536))

/-- The fold of the coat that ended is complete: with every deposit written the map folds, the coat's staging ends
(R271). -/
def finishFold : Prog :=
  progAll [
    progEach (List.range 32) flushDeposits,
    foldMap,
    setF Reg.MPL_HM_STAT F.MPL_HM_STAT_FOLD_BUSY 0,
    modBuild fun x => { x with foldFor := none },
    closeRecord]

/-- A frame whose entry belongs to the record of a coat is outstanding or has its statistics still to come (R296). -/
def Blk.entriesDue (b : Blk) (n : Nat) : Bool :=
  (List.range 8).any fun c => ((b.camBook c).frames ++ (b.cam c).ended).any fun f => f.recorded == some n

/-- HM_FOLD (R271): the fold of a coat whose phase 3 has ended. It ends the staging of the coat, so it comes after the
statistics of the coat's frames. -/
def hmFoldProg : Prog :=
  progWhen (fun b => match b.build.foldFor with | some n => !b.entriesDue n | none => false) finishFold

/-- A request of MPL_HM_FOLD.CLEAR acts at this boundary: it was not written in its bead interval (R50, R543). -/
def Blk.clearsMap (b : Blk) : Bool := b.build.clearReq && !b.aux.bead.late.contains Reg.MPL_HM_FOLD

/-- What the boundary of a coat brings, once R111 holds: every shadow of class tick and coat commits (R18, R46), the map
is zeroed where R272 asks, and phase 1 begins with its carriage program and its preheat. -/
def coatBegin (c : Coat) : Prog :=
  progAll [
    progWhen (fun b => b.build.foldFor.isSome) finishFold,
    commitClasses (fun _ => true) [.tick, .coat],
    .get fun b =>
      .seq (progIf (b.clearsMap || !b.build.zeroed) zeroMap)
        (modBuild fun x => { x with
          zeroed := true, clearReq := x.clearReq && !b.clearsMap, p2Done := false, agreed := none }),
    setF Reg.SEQ_COAT F.SEQ_COAT_COAT c.num,
    setF Reg.SEQ_COAT F.SEQ_COAT_PHASE 1,
    boundaryTrim c.num,
    progEach (List.range 32) fun h => modPool h fun p => { p with spot := none },
    progEach [0, 1] fun f => .seq (.get fun b => floatCoat f (b.barReadings f)) (abandonMeas f),
    modCoat c.num fun x => { x with stage := 1 },
    progWhen (fun b => b.mode dCore == .armed) (requestMode dCore .expose .done),
    beginRecord c.num,
    carriageStart c.recoat c.layer,
    floatStart c.float]

/-- The commits of a tick edge: a coat boundary that falls there commits its class with the tick class (R18, R22). -/
def edgeCommit : Prog :=
  .get fun b =>
    match b.boundaryDue with
    | some c => coatBegin c
    | none => commitClass (fun _ => true) .tick

/-- The members' agreement on a coat, as the frames of tick `k` show it (R251). -/
def agreeCoat (k : Nat) : Prog :=
  .get fun b => modBuild fun x => { x with agreed := b.agreedCoat k, mine := none }

/-! ### Phases 2 and 3 -/

/-- The coat in a phase before phase 4. -/
def Blk.openCoatOf (b : Blk) : Option Coat := b.build.coats.find? fun c => decide (1 ≤ c.stage ∧ c.stage ≤ 3)

/-- Phase 1 is over: the carriage program and every bar's work have ended. -/
def Blk.phase1Over (b : Blk) : Bool := b.aux.carriage.excess && b.floatOver

/-- The layer camera (R301). -/
def Blk.theLayerCam (b : Blk) : Option Nat := (List.range 8).find? fun c => b.layerCam c

/-- Step 1 of R301, or the end of phase 2 without an image (R302). -/
def phase2Image (n : Nat) : Prog :=
  .get fun b =>
    match b.theLayerCam with
    | none => layerFail none
    | some k =>
      if b.mode (dCam k) = .armed ∨ b.mode (dCam k) = .expose then
        .seq (progIf (b.mode (dCam k) == .armed) (requestMode (dCam k) .expose .done))
          (modCam k fun x => { x with layerDue := some (n, false) })
      else layerFail (some k)

/-- PHASE2_START (R301, R302): phase 1 has ended in a coat with IMAGE 1. -/
def phase2StartProg : Prog :=
  .get fun b =>
    match b.openCoatOf with
    | none => .skip
    | some c =>
      progIf (c.stage == 1 && c.image && b.phase1Over && [Mode.expose, .hold, .drain].contains (b.mode dCore))
        (progAll [
          modCoat c.num fun x => { x with stage := 2 },
          setF Reg.SEQ_COAT F.SEQ_COAT_PHASE 2,
          phaseMark,
          modBuild fun x => { x with p2Done := false },
          phase2Image c.num])

/-- The declared runs of a coat are all loaded and done (R113). -/
def Blk.coatWorkDone (b : Blk) (c : Coat) : Bool :=
  c.part.length == c.parts && c.part.all fun p =>
    p.patch.length == p.patches && p.patch.all fun q =>
      (b.runs.runs.countP fun r =>
        r.key.coat == c.num && r.key.part == p.idx && r.key.patch == q.idx && r.place.isDone) == q.runs

/-- A cut has run its course (R114). -/
def Blk.cutOver (b : Blk) (c : Coat) : Bool :=
  c.cut && b.runs.runs.all fun r => r.key.coat != c.num || r.place.isDone

/-- A PART or PATCH entry of the coat's record (R414). An unbound patch has no generation, and the word is free. -/
def stagePatches (c : Coat) : Prog :=
  progEach c.part fun p =>
    .seq
      (stageSection 0x0002 1 p.idx
        (toBytes 4 p.patches ++ toBytes 4 0 ++ toBytes 4 (p.key % 4294967296) ++ toBytes 4 (p.key / 4294967296)))
      (withFree fun k =>
        let gen := fun (q : Patch) => match q.bound with | some g => g | none => (Config.freeWord k).toNat
        progIf (!p.patch.isEmpty)
          (stageSection 0x0003 p.patch.length p.idx (p.patch.flatMap fun q =>
            toBytes 4 q.runs ++ toBytes 4 (q.pset + 256 * q.order + 1024 * b2n q.skip) ++ toBytes 4 q.tag ++ toBytes 4 0 ++
              toBytes 4 q.pset ++ toBytes 4 (gen q))))

/-- The bound set generations of a coat (R414). -/
def stageSets (c : Coat) : Prog :=
  let bound := (c.part.flatMap fun p => p.patch.filterMap fun q => q.bound.map fun g => (q.pset, g)).eraseDups
  progEach bound fun (s, g) =>
    .get fun b => stageSection 0x0004 1 s ((b.setWords s g).flatMap wordBytes ++ toBytes 4 g)

/-- The code of an outcome in a run's record; the spec gives the names alone. -/
def outcomeCode : RunEnd → Nat
  | .complete => 0
  | .cut => 1
  | .discarded => 2

/-- The record of a done run (R194, R414). -/
def stageRun (r : Run) : Prog :=
  .get fun b =>
    withFree fun k =>
      let p := b.patchOf r.key
      let gen := match p.bind fun q => q.bound with | some g => g | none => (Config.freeWord k).toNat
      let out := match r.place with | .done o => outcomeCode o | _ => 0
      let n := r.segs.length
      stageSection 0x0005 1 0
        ([r.key.coat, r.key.part, r.key.patch, r.key.run, r.tag, 32 * b.memberId + r.home,
            (match p with | some q => q.pset | none => 0), gen, out, n].flatMap (toBytes 4) ++
          (r.segs.zipIdx.flatMap fun (s, i) => (segWords i n s).flatMap wordBytes))

/-- Phase 3 of a coat ends (R113): deposits are flushed for the fold, its runs and tables go to the record, what the
coat held is freed, COAT_CUT descriptors complete, and heads and cameras drain. -/
def phase3End (c : Coat) : Prog :=
  .get fun b =>
    progAll [
      progEach (List.range 32) flushDeposits,
      stagePatches c,
      stageSets c,
      progEach (b.runs.runs.filter fun r => r.key.coat == c.num && r.place.isDone) stageRun,
      modCoat c.num fun x => { x with stage := 4, ended3 := true },
      setF Reg.SEQ_COAT F.SEQ_COAT_PHASE 4,
      phaseMark,
      releaseRecords,
      .op (.run (.purge c.num)),
      progEach b.build.cutRings completeOk0,
      modBuild fun x => { x with cutRings := [], foldFor := some c.num },
      setF Reg.MPL_HM_STAT F.MPL_HM_STAT_FOLD_BUSY 1,
      refreshDefined,
      progWhen (fun x => x.mode dStore == .armed) (requestMode dStore .expose .done),
      progEach (List.range 32) fun h => progWhen (fun x => x.mode h == .expose) (requestMode h .drain .done),
      progEach (List.range 8) fun k => progWhen (fun x => x.mode (dCam k) == .expose) (requestMode (dCam k) .drain .done)]
where
  /-- A COAT_CUT descriptor completes. -/
  completeOk0 (ring : Nat) : Prog := completeOk ring 0

/-- PHASE3_END (R113, R114). -/
def phase3EndProg : Prog :=
  .get fun b =>
    match b.openCoatOf with
    | none => .skip
    | some c =>
      progIf (c.stage == 3)
        (.seq (progIf c.cut (cutQueued c.num))
          (progWhen (fun x => x.coatWorkDone c || x.cutOver c) (phase3End c)))

/-- Phase 3 may begin (R20, R43 effect g, R115): what goes before it in the coat is over, the previous coat's segment
is durable, and the storage domain may append. -/
def Blk.phase3Ready (b : Blk) (c : Coat) : Bool :=
  ((c.stage == 2 && b.build.p2Done) || (c.stage == 1 && !c.image && b.phase1Over)) &&
    (b.build.coats.all fun x => x.stage != 4) &&
    (b.mode dStore == .armed || b.mode dStore == .expose || b.mode dStore == .drain) &&
    (b.mode dCore == .expose || b.mode dCore == .drain)

/-- PHASE3_START (R20): heads and feedback cameras in ARMED enter EXPOSE, the layer camera's work is over. A coat
that was cut ends its phase 3 at once (R115). -/
def phase3StartProg : Prog :=
  .get fun b =>
    match b.openCoatOf with
    | none => .skip
    | some c =>
      progIf (b.phase3Ready c)
        (progAll [
          modCoat c.num fun x => { x with stage := 3 },
          setF Reg.SEQ_COAT F.SEQ_COAT_PHASE 3,
          phaseMark,
          progEach (List.range 8) fun k => progWhen (fun x => x.layerCam k && x.mode (dCam k) == .expose)
            (requestMode (dCam k) .drain .done),
          if c.cut then .seq (cutQueued c.num) (progWhen (fun x => x.cutOver c) (phase3End c))
          else
            .seq
              (progEach (List.range 32) fun h => progWhen (fun x => x.mode h == .armed) (requestMode h .expose .done))
              (progEach (List.range 8) fun k => progWhen (fun x => !x.layerCam k && x.mode (dCam k) == .armed)
                (requestMode (dCam k) .expose .done))])

/-! ### Phase 4 and drains -/

/-- SEGMENT_DURABLE (R415, R551): the coat's segment is durable, which ends phase 4. A core in HOLD then stays there, and
its return to EXPOSE does not lead it to DRAIN: DESIGN CHOICE, R551 speaks of a core in EXPOSE as phase 4 ends. -/
def segmentDurableProg : Prog :=
  .get fun b =>
    match b.build.coats.find? fun c => c.stage == 4 with
    | none => .skip
    | some c =>
      progIf (b.coatDurable c.num && b.build.foldFor.isNone)
        (progAll [
          segmentKept,
          modBuild fun x => { x with coats := x.coats.filter fun y => y.num != c.num, past := x.past ++ [c.num] },
          progIf (b.coatNo == c.num) (setF Reg.SEQ_COAT F.SEQ_COAT_PHASE 0),
          progWhen (fun x => x.openCoatOf.isNone && x.mode dCore == .expose) (requestMode dCore .drain .done),
          progWhen (fun x => x.mode dStore == .expose) (requestMode dStore .drain .done)])

/-- A domain in DRAIN has no work in progress (R548). -/
def Blk.drained (b : Blk) (d : Nat) : Bool :=
  match kindOf d with
  | .head => (b.engineRun d).isNone && (b.trowel d).atRest && (b.trowel d).isOut
  | .float => (b.bar (d - 32)).cur.isNone
  | .motion => (axesOf (d - 34)).all fun a => !b.moveOn a
  | .camera => (b.camBook (d - 38)).frames.isEmpty
  | .storage => b.appendsDone
  | .core => b.build.coats.all fun c => c.stage == 0

/-- DRAIN_COMPLETE (R548): a domain in DRAIN whose work has ended enters ARMED at the next tick edge. -/
def drainCompleteProg (d : Nat) : Prog :=
  progWhen (fun b => b.mode d == .drain && b.drained d) (requestMode d .armed .done)

/-- AUTO_RESUME (R41). -/
def autoResumeProg (h : Nat) : Prog :=
  progWhen (fun b => b.mode h == .hold && b.cause h == causeCode .tickLate &&
      b.a (Reg.SEQ_DOM_CFG h) F.SEQ_DOM_CFG_AUTO_RESUME == 1 && b.mode dCore == .expose &&
      decide (b.a (Reg.SEQ_DOM_CFG h) F.SEQ_DOM_CFG_RESUME_TICKS ≤ (b.trowel h).cleanTicks))
    (requestMode h .expose .done)

end Sys2Proof.Machine
end

