-- ==== Sys2Proof/Machine/Cascade.lean ====
section
/-!
DEFINITION. The exchange between the members of a cascade (R19, R189 to R193, R250 to R252, R456).
-/
namespace Sys2Proof.Machine


/-- The check value of R189: the active exclusion settings and FLOW_DIR of the current coat. -/
def Blk.cascCheck (b : Blk) : Nat :=
  let flow := match b.coat b.coatNo with | some c => c.flow | none => 0
  crcWords [b.aw Reg.OVL_EXCL, b.aw Reg.OVL_CONE, b.aw Reg.OVL_CONE_TAN, BitVec.ofNat 32 flow]

/-- The record of a head that belongs to a cluster (R250); one whose proposal or probe missed the launch bead has none to
show (R190). -/
def Blk.cascRecord (b : Blk) (h : Nat) : List Word :=
  let cl := (b.cluster h).getD 0
  match if b.aux.lateLaunch.contains h then none else b.itemOf h with
  | none => [0, 0, BitVec.ofNat 32 (b.ghead h + cl * 256)]
  | some i =>
    [unsgnW i.x, unsgnW i.y,
      BitVec.ofNat 32 (i.ghead + cl * 256 + (if i.probe then 2 else 1) * 2048 + i.cls * 8192 + min 0xFFFF i.age * 65536)]
where
  /-- A bed coordinate as a word. -/
  unsgnW (x : Int) : Word := BitVec.ofInt 32 x

/-- The READY_COAT this part sends: 0 while it is a follower that is not ALIGNED (R458). -/
def Blk.readySent (b : Blk) : Nat := if b.aligned then b.readyCoat else 0

/-- The cascade frame of the present tick (R250). -/
def Blk.cascFrame (b : Blk) : List Word :=
  let hs := (List.range 32).filter fun h => (b.cluster h).isSome
  let ws := [BitVec.ofNat 32 (b.memberId + hs.length * 256), BitVec.ofNat 32 b.aux.clk.tick,
    BitVec.ofNat 32 b.readySent, BitVec.ofNat 32 b.cascCheck] ++ hs.flatMap b.cascRecord
  ws ++ [BitVec.ofNat 32 (crcWords ws)]

/-- Heads whose proposal or probe has not reached the launch bead while OVL_CASC_MEMBERS names another member: their
results are late (R190), the Trowel engine's. -/
def missLaunch (missed : List Nat) : Prog :=
  .get fun b =>
    let hs := missed.filter fun h => (b.itemOf h).isSome && (List.range 4).any b.cascLane
    modAux fun a => { a with lateLaunch := hs }

/-- CASCADE_LAUNCH (R189, R190, R250, R252): at 30 % of the tick the frame goes out on every active cascade lane; for 64
periods after the core's entry into OFF or RESET DEP goes out instead. `missed` names the heads whose proposal comes too
late. -/
def cascadeLaunchProg (missed : List Nat) : Prog :=
  .seq (missLaunch missed)
    (.get fun b =>
      .seq (modBuild fun x => { x with mine := some (b.aux.clk.tick, b.readySent) })
       (progEach (List.range 4) fun j =>
        let l := 36 + j
        if 0 < (b.lane l).depLeft then emit (.lane l 4 [])
        else if b.cascLane j && b.laneUp l then .seq (emit (.lane l 5 b.cascFrame)) (gapFill l (frameGroups b.cascFrame.length))
        else gapFill l 0))

/-- The item of a record, none of KIND 0. -/
def itemOfRecord (ws : List Word) : Option Item :=
  let w := dw ws 2
  if bits w 11 2 = 0 then none
  else
    some { cls := bits w 13 2, age := bits w 16 16, ghead := bits w 0 7, x := intW (ws.getD 0 0), y := intW (ws.getD 1 0),
           probe := bits w 11 2 == 2, cluster := bits w 8 3 }

/-- The records of a frame. -/
def cascRecords (ws : List Word) : List (List Word) :=
  (List.range (bits (dw ws 0) 8 8)).map fun i => (ws.drop (4 + 3 * i)).take 3

/-- A cascade frame of member `j` holds to its layout, its CRC apart. -/
def cascValid (j : Nat) (ws : List Word) : Bool :=
  let n := bits (dw ws 0) 8 8
  bits (dw ws 0) 0 2 == j && bits (dw ws 0) 2 6 == 0 && decide (n ≤ 32) && bits (dw ws 0) 16 16 == 0 &&
    ws.length == 5 + 3 * n && bits (dw ws 2) 24 8 == 0 &&
    (cascRecords ws).all fun r => bits (dw r 2) 11 2 != 3 && bits (dw r 2) 13 2 != 3 && !bit (dw r 2) 7 && !bit (dw r 2) 15


/-- A frame with the tick count and check value of this part gives the member's items and its ready coat. -/
def acceptCascade (j : Nat) (ws : List Word) : Prog :=
  .get fun b =>
    .seq
      (modPeer j fun p => { p with
        present := true, departed := false, leaving := false, seen := true, tick := b.aux.clk.tick, check := dw ws 3
        misses := 0
        ready := bits (dw ws 2) 0 24, items := (cascRecords ws).filterMap itemOfRecord
        clusters := (cascRecords ws).foldl (fun m r => Nat.lor m (2 ^ bits (dw r 2) 8 3)) 0 })
      (setPresent j 1)

/-- CASCADE_FRAME (R250, R251, R456): a frame of member `j`, its SOF `sof` × 100 ps after the own edge of its tick
count; `reference` says that the member is the reference of TB3. It comes with `cv` code violations, `fill` in the elastic
buffer at the SKP before it, and with `prb` a PRB after its EOF, which is echoed at once (R240, R250). -/
def cascadeFrameProg (j : Nat) (ws : List Word) (sof : Int) (reference : Bool) (cv fill : Nat) (prb : Bool) : Prog :=
  .get fun b =>
    let l := 36 + j
    progAll [
      countViolations l cv,
      laneSkp l fill,
      progIf (prb && b.laneSynced l) (emit (.lane l 8 [])),
      if !(b.cascLane j && b.laneUp l) then .skip
      else if (b.lane l).broken then modLane l fun x => { x with broken := false }
      else if 0 < cv then .skip
      else if !crcOk ws then setFlag (flHlk l 3)
      else if !cascValid j ws then .skip
      else
        .seq
          (progIf (dw ws 1 == b.aux.clk.tick % 4294967296 && dw ws 3 == b.cascCheck) (acceptCascade j ws))
          (progIf reference (referenceFrame j (dw ws 1) sof (b.rtt l)))]

/-- A member is reported departed (R252); it leaves the exchange at the next tick edge (R192). -/
def departMember (j : Nat) : Prog :=
  progAll [
    setFlag (flHlk (36 + j) 14),
    setLaneState (36 + j) 6,
    modPeer j fun p => { p with departed := true, leaving := true, misses := 0 }]

/-- CASC_MISS (R191, R252, R459): the frame of member `j` has not reached the receive bead, or did not agree. At
DEPART_MISSES consecutive misses the member departs instead. -/
def cascMissProg (j : Nat) : Prog :=
  .get fun b =>
    let p := b.peer j
    let k := b.aux.clk.tick
    progIf (b.cascLane j && !p.departed && !(p.seen && p.tick == k))
      (.seq (referenceMissing j)
        (if b.a Reg.HLK_CASC_CFG F.HLK_CASC_CFG_DEPART_MISSES ≤ p.misses + 1 then departMember j
         else
          .seq
            (modPeer j fun x => { x with
              misses := x.misses + 1
              until_ := k + 1 + b.a Reg.OVL_EXCL F.OVL_EXCL_PERSIST
              clusters := if x.seen then x.clusters else 255 })
            (setFlag { flOvl 0 with inst := j })))

/-- DEPART (R192, R252): DEP on the lane of member `j`. -/
def departProg (j : Nat) : Prog :=
  progWhen (fun b => b.cascLane j && !(b.peer j).departed) (departMember j)

/-- LOS of a lane (R227); on a cascade lane it reports the member departed (R252). -/
def losCmd (l : Nat) : Prog :=
  .get fun b =>
    .seq (losProg l) (progIf (decide (36 ≤ l) && (b.lane l).signal && b.laneState l != 0) (departProg (l - 36)))

end Sys2Proof.Machine
end

