-- ==== Sys2Proof/Machine/Dram.lean ====
section
/-!
DEFINITION. What happens in the DRAM controller and the SRAM: reads and their outcomes, latency, refresh,
self-refresh, scrub, SRAM errors, diagnostic capture (R373 to R399).
-/
namespace Sys2Proof.Machine

/-! ### Reads (R376, R383, R390, R391) -/

/-- MAX_NS of a port follows a latency. -/
def noteLatency (q ns : Nat) : Prog := modF (Reg.DMC_PORT_MAX q) F.DMC_PORT_MAX_MAX_NS fun m => max m (min 0xFFFF ns)

/-- A read meets the line's queued entries (R383): one that holds all 64 bytes serves it, others are issued
first. -/
def readQueue (line : Nat) : Prog :=
  .get fun b =>
    let c := channelOf (64 * line)
    match (b.wqs.getD c Wq.init).queue.find? fun e => e.1 == line with
    | none => .skip
    | some (_, m) => if m = 2 ^ 64 - 1 then .op (.wq c .forward) else .op (.wq c (.issueLine line))

/-- The line is served from the write queue. -/
def Blk.forwarded (b : Blk) (line : Nat) : Bool :=
  (b.wqs.getD (channelOf (64 * line)) Wq.init).queue.any fun e => e.1 == line && e.2 == 2 ^ 64 - 1

/-- A camera's staged frame is marked LINE_ERR. -/
def frameLineErr (c : Nat) : Prog :=
  .seq (camOp c (.touch fun f => { f with lineErr := true }))
    (modCam c fun x => { x with ended := x.ended.map fun f => { f with lineErr := true } })

/-- A line whose codes could not be read: every code 0, not exposed, MISSED. -/
def Line.unread (x : Line) : Line :=
  { x with
    codes := x.codes.map fun _ => 0, exposed := false, flags := if bit x.flags 3 then x.flags else x.flags + 8 }

/-- A bar's prepared line becomes one with every code 0 that is recorded MISSED; the tokens of its codes go back
with the line's end (R391). -/
def lineUnread (f : Nat) : Prog :=
  modBar f fun x => { x with prep := x.prep.map Line.unread }

/-- The heat-map tile of a line is rewritten with every cell 0 (R391); deposits pending for it follow at their
flush. -/
def tileLost (line : Nat) : Prog :=
  .get fun b =>
    .seq (dramWrite 3 (64 * line) (List.replicate 64 0))
      (raiseEvent 0x230 0 noDom ((64 * line - b.heatMap.base) / 64) 0 0)

/-- Staged event records are lost (R434). -/
def eventsLost (n : Nat) : Prog :=
  .get fun b =>
    .seq (.op (.evr (.loseStaged n b.aux.clk.tick))) (progIf (decide (0 < n ∧ b.evr.staged ≠ [])) (setFlagBit (flEvr 0)))

/-- The outcome of an uncorrectable read for the port's consumer (R391). `who` names it: the ring for Q0, the
stream context for Q1, the head for Q2, bytes of staged input for Q4, the ring of a CAM_IMAGE_READ or 40 + the
camera for Q5, the bar for Q8, and for Q9 the staged event records of the line, 0 for another sequencer read. -/
def ueOutcome (port line who : Nat) : Prog :=
  match port with
  | 0 => if who < 40 then complete who 0x5D 0 else dropEntry (min who 88) true
  | 1 => requestSafe (min 31 (who / 4)) .domainFault none
  | 2 => modPool who fun p => { p with miss := true }
  | 3 => tileLost line
  | 4 => inputLost 1 who
  | 5 => if who < 40 then complete who 0x5D 0 else frameLineErr (who - 40)
  | 6 => outputLost
  | 7 => outputLost
  | 8 => lineUnread who
  | _ => if who = 0 then requestSafe dCore .domainFault none else eventsLost who

/-- An uncorrectable read. -/
def readLost (port line who : Nat) : Prog :=
  progAll [
    modAux fun a => { a with poison := if a.poison.contains line then a.poison else a.poison ++ [line] },
    setEccAddr line port,
    setFlag (flEcc 1),
    setFlag (flPort port 1),
    ueOutcome port line who]

/-- DRAM_READ: a read of a line completes to its port. `result` 0 good, 1 corrected, 2 uncorrectable; a poisoned
line and a line beyond the capacity are uncorrectable whatever the operand says. One beyond the capacity is not sent to a
channel, whose UE it leaves alone (R376, DEDUCED). -/
def dramReadProg (port line result ns who : Nat) : Prog :=
  .get fun b =>
    progAll [
      noteLatency port ns,
      if b.dramSize ≤ 64 * line then
        progAll [setEccAddr line port, setFlag (flEcc 2), setFlag (flPort port 1), ueOutcome port line who]
      else
        progAll [
          wakeDram,
          readQueue line,
          if b.forwarded line then .skip
          else if b.aux.poison.contains line || result == 2 then readLost port line who
          else progIf (result == 1) (setFlag (flEcc 0))]]

/-- LAT_MISS (R381, R268): the consumer of Q2 keeps its feed-forward. -/
def latMissProg (port who : Nat) : Prog :=
  .seq (setFlag (flPort port 0)) (progIf (port == 2) (modPool who fun p => { p with miss := true }))

/-- REFRESH (R387): the device temperatures as read show in DRAM_HOT. -/
def refreshProg (hot : Bool) : Prog := setF Reg.DMC_STATE F.DMC_STATE_DRAM_HOT (b2n hot)

/-- DRIFT_CHECK (R388): timing is corrected, which no register shows. -/
def driftCheckProg : Prog := .skip

/-- The conditions of R389 on modes. -/
def Blk.idleModes (b : Blk) : Bool :=
  [Mode.off, .setup, .service].contains (b.mode dCore) &&
    (List.range 46).all fun d => kindOf d == .motion || [Mode.off, .reset, .setup].contains (b.mode d)

/-- SELF_REFRESH_ENTRY (R389): IDLE_US have passed idle. -/
def selfRefreshEntryProg : Prog :=
  .get fun b =>
    progIf (b.a Reg.DMC_LP F.DMC_LP_SR_EN == 1 && b.f Reg.DMC_STATE F.DMC_STATE_STATE == 2 && b.idleModes)
      (setF Reg.DMC_STATE F.DMC_STATE_STATE 3)

/-- Exit from self-refresh begins when a condition on SR_EN or the modes has ended (R389). -/
def selfRefreshEdge : Prog :=
  progWhen (fun b => b.a Reg.DMC_LP F.DMC_LP_SR_EN == 0 || !b.idleModes) wakeDram

/-- SELF_REFRESH_EXIT (R389): the channels have left self-refresh. -/
def selfRefreshExitProg : Prog :=
  .get fun b =>
    let s := b.f Reg.DMC_STATE F.DMC_STATE_STATE
    progIf (s == 3 || s == 4) (setF Reg.DMC_STATE F.DMC_STATE_STATE 2)

/-- PATROL_SCRUB (R392): a line is read; an error of one symbol is corrected, a poisoned line is recorded and not
written. -/
def patrolScrubProg (line result : Nat) : Prog :=
  .get fun b =>
    progIf (b.a Reg.DMC_SCRUB F.DMC_SCRUB_EN == 1 && decide (64 * line < b.dramSize))
      (if b.aux.poison.contains line || result == 2 then
        progAll [
          modAux fun a => { a with poison := if a.poison.contains line then a.poison else a.poison ++ [line] },
          setEccAddr line 15,
          setFlag (flEcc 1)]
      else progIf (result == 1) (setFlag (flEcc 0)))

/-! ### SRAM (R394) -/

/-- The latest record of the diagnostic region is marked invalid. -/
def diagInvalid (i : Nat) : Prog :=
  .get fun b =>
    let a := 0x1000000 + 512 * (i % 12288) + 4
    .op (.win a (BitVec.ofNat 8 (Nat.land (b.winByte a).toNat 0xFD)))

/-- SRAM_UE (R394): an error in a row of the table, with `who` the context, axis, head, camera, bar, byte count,
record count or record at fault. With `ce` it was corrected. -/
def sramUeProg (row who : Nat) (ce : Bool) (ts : Prog) : Prog :=
  if ce then setFlag (flSram 0)
  else
    progAll [
      setF Reg.DMC_SRAM_STAT F.DMC_SRAM_STAT_REGION row,
      setFlag (flSram 1),
      match row with
      | 0 =>
        progAll [
          requestSafe dCore .domainFault none,
          .get fun b => modAux fun a => { a with fwLost := some b.ns2 },
          setF Reg.SYS_BOOT_STAT F.SYS_BOOT_STAT_FW_STATE 4]
      | 1 => requestSafe (min 31 (who / 4)) .domainFault none
      | 2 => requestSafe (min 31 (who / 3)) .domainFault none
      | 3 => requestSafe dCore .domainFault none
      | 4 =>
        if who < 32 then modPool who fun p => { p with miss := true }
        else modPool (who - 32) fun p => { p with trace := p.trace.map fun _ => lostRecord }
      | 5 => frameLineErr who
      | 6 => requestSafe (dFloat (min 1 who)) .domainFault none
      | 7 => if who = 0 then outputLost else inputLost 2 who
      | 8 => if who < 40 then complete who 0x5D 0 else dropEntry (min who 88) true
      | 9 => if who = 0 then ts else eventsLost who
      | _ => diagInvalid who]

/-! ### Diagnostic capture (R399) -/

/-- A frame of a lane is written to the diagnostic region, with the tick count of its bead. -/
def diagCapture (lane : Nat) (up valid : Bool) (tick : Nat) (ws : List Word) : Prog :=
  .get fun b =>
    let next := b.f Reg.DMC_DIAG F.DMC_DIAG_NEXT
    let dom := laneDom lane
    let data := (ws.take 126)
    progIf (b.f Reg.DMC_DIAG F.DMC_DIAG_EN == 1 && b.f Reg.DMC_DIAG F.DMC_DIAG_LANE == lane &&
        b.mode dom == .service)
      (.seq
        (winWrite (0x1000000 + 512 * (next % 12288))
          (toBytes 4 tick ++ toBytes 4 (b2n up + 2 * b2n valid + 256 * data.length) ++
            data.flatMap wordBytes ++ toBytes (4 * (126 - data.length)) 0))
        (setF Reg.DMC_DIAG F.DMC_DIAG_NEXT ((next + 1) % 12288)))

/-! ### The table window (R396 to R398) -/

/-- A mapped region of BAR2 that holds an offset, with what makes it busy; none where the window is unmapped. -/
inductive Region
  | friction (n : Nat)
  | cogging (n : Nat)
  | grid (h : Nat)
  | zones (bank : Nat)
  | defects
  | float (f : Nat) (ofs : Nat)
  | carriage (slot : Nat)
  | diag
  deriving DecidableEq, Repr

def regionOf (o : Nat) : Option Region :=
  if o < 0x60000 then some (.friction (o / 0x1000))
  else if o < 0x1E0000 then some (.cogging ((o - 0x60000) / 0x4000))
  else if o < 0x200000 then none
  else if o < 0x400000 then some (.grid ((o - 0x200000) / 0x10000))
  else if o < 0x410000 then some (.zones ((o - 0x400000) / 0x8000))
  else if 0x600000 ≤ o ∧ o < 0x608000 then some .defects
  else if 0x800000 ≤ o ∧ o < 0xA00000 then some (.float ((o - 0x800000) / 0x100000) ((o - 0x800000) % 0x100000))
  else if 0xA00000 ≤ o ∧ o < 0xA01000 then some (.carriage ((o - 0xA00000) / 0x100))
  else if 0x1000000 ≤ o ∧ o < 0x1600000 then some .diag
  else none

/-- A Float table of a bar is busy (R311). -/
def Blk.floatBusy (b : Blk) (f o : Nat) : Bool :=
  let x := b.bar f
  let bank := fun (r : Nat) (fl : Fld) (k : Nat) => b.f r fl == k || b.a r fl == k
  if o < 0x80 then
    bank (Reg.FLT_BAR_LEVSEL f) F.FLT_BAR_LEVSEL_LEVEL_BANK (o / 0x40) ||
      (x.prep.toList ++ x.cur.toList).any fun l => l.bank == o / 0x40
  else if 0x100 ≤ o ∧ o < 0x200 then
    bank (Reg.FLT_BAR_CFG f) F.FLT_BAR_CFG_COMP_BANK ((o - 0x100) / 0x80)
  else if 0x200 ≤ o ∧ o < 0x400 then
    bank (Reg.FLT_BAR_CFG f) F.FLT_BAR_CFG_HIDE_BANK ((o - 0x200) / 0x100)
  else if 0x400 ≤ o ∧ o < 0x440 then x.auth.isSome
  else if 0x1000 ≤ o ∧ o < 0x2800 then !x.meas.isEmpty
  else decide (0x4000 ≤ o ∧ o < 0x5800)

/-- A window byte is busy (R168, R208, R299, R311, R340, R396). -/
def Blk.busyByte (b : Blk) (o : Nat) : Bool :=
  match regionOf o with
  | none => false
  | some (.friction n) =>
    decide (n < 96) && (b.f (Reg.SRV_AXIS_CFG n) F.SRV_AXIS_CFG_FRIC_EN == 1 ||
      b.a (Reg.SRV_AXIS_CFG n) F.SRV_AXIS_CFG_FRIC_EN == 1)
  | some (.cogging n) =>
    decide (n < 96) && (b.f (Reg.SRV_AXIS_CFG n) F.SRV_AXIS_CFG_COG_SIZE != 0 ||
      b.a (Reg.SRV_AXIS_CFG n) F.SRV_AXIS_CFG_COG_SIZE != 0)
  | some (.grid h) => !([Mode.off, .reset, .setup, .service].contains (b.mode h))
  | some (.zones k) =>
    b.a Reg.OVL_ZONE_CFG F.OVL_ZONE_CFG_BANK == k ||
      (b.aux.dirty.contains Reg.OVL_ZONE_CFG && b.f Reg.OVL_ZONE_CFG F.OVL_ZONE_CFG_BANK == k)
  | some .defects => !([Mode.off, .setup, .service].contains (b.mode (dCam ((o - 0x600000) / 0x1000))))
  | some (.float f x) => b.floatBusy f x
  | some (.carriage k) =>
    b.phaseNo == 1 && (match b.coat b.coatNo with | some c => c.recoat == k | none => false)
  | some .diag => true

/-- Some byte of a range is not mapped. -/
def unmappedRange (o n : Nat) : Bool := (List.range n).any fun i => (regionOf (o + i)).isNone

/-- Some byte of a range is busy. -/
def Blk.busyRange (b : Blk) (o n : Nat) : Bool := (List.range n).any fun i => b.busyByte (o + i)

/-- BAR2_WRITE (R397): it lands, or is discarded whole. -/
def bar2WriteProg (o : Nat) (bs : List Byte) : Prog :=
  .get fun b =>
    if unmappedRange o bs.length || b.busyRange o bs.length then setFlag flWrDrop else winWrite o bs

end Sys2Proof.Machine
end

