-- ==== Sys2Proof/Machine/Steps.lean ====
section
/-!
DEFINITION. Steps issued by the axes with what hangs on them (R327, R306, R357), the ends of moves and of
homing with their effects on the Float bars (R307, matrix z).
-/
namespace Sys2Proof.Machine

/-- STEP_ISSUE (R327): the next fixed step of an axis whose time falls in the present tick. -/
def stepIssueProg (a : Nat) : Prog :=
  .get fun b =>
    match (b.mot a).planned with
    | [] => .skip
    | (t, pos) :: rest =>
      if b.now10 + b.tick10 ≤ t ∨ b.tests (58 + a / 3) = true then .skip
      else
        let old := b.axisPos a
        let new := intW (wordI (old + if pos then 1 else -1))
        let dir := pos == (b.a (Reg.MOT_AXIS_CFG a) F.MOT_AXIS_CFG_DIR_INV == 1)
        progAll [
          modMot a fun x => { x with planned := rest },
          setW (Reg.MOT_AXIS_POS a) (wordI new),
          emit (.pin "MDIR" a (b2n dir)),
          emit (.pin "MSTEP" a t),
          compareStep a old new,
          progEach ([0, 1].filter fun f => b.barAxis f == a) fun f => floatStep f pos t,
          limitCheck a]

/-- The carriage program's last move has ended. -/
def carriageEnded : Prog :=
  .get fun b =>
    progIf (b.aux.carriage.running && b.aux.carriage.left.isEmpty) (floatCarriageEnd b.carriageGroup)

/-- MOVE_END of an axis (R331, R307). -/
def axisMoveEnd (a : Nat) : Prog := moveEndProg a (progWhen (fun b => b.carriageGroup == a / 3) carriageEnded)

/-- A group's homing is complete: it leaves HOME, and so does each bar that waits on it, with its line counter 0
(matrix z). The counter is set 0 there wherever the axis then rests: DESIGN CHOICE, R43 does not say which instant of
homing is the home event, nor what the counter reads after the axis ran past the home position. -/
def groupHomed (g : Nat) : Prog :=
  .seq (requestMode (dGroup g) .setup .done)
    (progEach [0, 1] fun f =>
      progWhen (fun b => b.barGroup f == g && b.mode (dFloat f) == .home)
        (.seq (setW (Reg.FLT_BAR_POS f) 0) (requestMode (dFloat f) .setup .done)))

/-- HOMING of an axis. -/
def axisHoming (a : Nat) : Prog := homingProg a (groupHomed (a / 3))

end Sys2Proof.Machine
end

