-- ==== Sys2Proof/Machine/Operands.lean ====
section
/-!
DEFINITION. What a register read returns: the words the engines keep elsewhere, loads and budgets (R160 to R162), and
the access rules of BAR0 reads (R535, R536).
-/
namespace Sys2Proof.Machine

/-! ### Loads and budgets (R160 to R162) -/

/-- The greater of an item's cost at its active and at its shadow setting. -/
def itemCost (cost : Nat → Nat) (act shd : Nat) : Nat := max (cost act) (cost shd)

/-- Whether a load counts the active setting alone or the greater of active and shadow. -/
def Blk.setting (b : Blk) (pending : Bool) (off : Nat) : Nat × Nat :=
  ((b.aw off).toNat, if pending then (b.w off).toNat else (b.aw off).toNat)

/-- The load of an axis (R160), given SRV_AXIS_CFG's active and shadow words. -/
def axisLoad (c : Nat × Nat) : Nat :=
  let flag := fun (i n : Nat) => itemCost (fun x => if bit x i then n else 0) c.1 c.2
  40 + flag 0 8 + flag 1 8 + flag 2 4 + flag 3 4 +
    itemCost (fun x => match bits x 4 2 with | 1 => 3 | 2 => 4 | 3 => 6 | _ => 0) c.1 c.2 + flag 6 5

/-- The load of servo engine `s`; `pending` asks for the committed-or-pending load (R162). -/
def Blk.srvLoad (b : Blk) (pending : Bool) (s : Nat) : Nat :=
  10 + ((List.range 12).map fun i =>
    let n := 12 * s + i
    if b.unusable (n / 3) then 0 else axisLoad (b.setting pending (Reg.SRV_AXIS_CFG n))).sum

/-- The load of a head on its Trowel engine (R160). -/
def headLoad (c : Nat × Nat) : Nat :=
  let flag := fun (i n : Nat) => itemCost (fun x => if bit x i then n else 0) c.1 c.2
  130 + itemCost (fun x => match bits x 4 2 with | 0 => 10 | 1 => 20 | _ => 50) c.1 c.2 +
    flag 0 10 + flag 1 15 + flag 2 20 + flag 3 15

/-- The load of Trowel engine `s`. -/
def Blk.trwLoad (b : Blk) (pending : Bool) (s : Nat) : Nat :=
  10 + ((List.range 4).map fun i =>
    let h := 4 * s + i
    if b.unusable h then 0 else headLoad (b.setting pending (Reg.TRW_HEAD_CFG h))).sum

/-- The loads of the sixteen engines with a budget. -/
def Blk.loads (b : Blk) (pending : Bool) : List Nat :=
  (List.range 8).map (b.srvLoad pending) ++ (List.range 8).map (b.trwLoad pending)

/-- The budget at the shorter of the active and pending tick periods (R161, R162). -/
def Blk.budget (b : Blk) : Nat :=
  let p := min (b.f Reg.SYS_TICK_ACT F.SYS_TICK_ACT_PERIOD) (b.f Reg.SYS_TICK F.SYS_TICK_PERIOD)
  (if b.aux.otp.gradeX then 850 else 1000) * 2 ^ p

/-- No load written is above its engine's active load any more (R475). -/
def Blk.loadSettled (b : Blk) : Bool := b.loads true == b.loads false

/-! ### Words the engines keep -/

/-- TRW_HEAD_STATE of a head. -/
def Blk.headState (b : Blk) (h : Nat) : Nat :=
  let t := b.trowel h
  let idle := if t.dwellLeft != 0 then 7
    else if (match b.nextRun h with | some r => b.waitsOrder r | none => false) then 5 else 0
  let s := match t.st with
    | .run => if t.run.isNone then idle
        else match t.pieces with | p :: _ => if p.kind = .connector then 1 else 2 | [] => 2
    | .parked | .dwellBetween => idle
    | x => hstateCode x
  s + t.stroke % 8192 * 65536

/-- OVL_HSTAT of a head: its backlog and what Pergola makes of it. -/
def Blk.overlapState (b : Blk) (h : Nat) : Nat :=
  let t := b.trowel h
  let s := if withdrawMode (b.mode h) then 4
    else if t.st = .yield then (if t.atRest then 3 else 2) else if b.busyHead h then 1 else 0
  min 0xFFFFFF (b.backlog h) + s * 16777216

/-- TRW_CTX_RUNS of a context. -/
def Blk.ctxRuns (b : Blk) (c : Nat) : Nat :=
  min 0xFFFF (b.runs.runs.countP fun r => r.ctx == c && !r.startedOnce && !r.place.isDone) +
    (b.ctx c).submitted % 65536 * 65536

/-- A set field of a word as kept. -/
def withF (w : Word) (l : List (Fld × Nat)) : Word := l.foldl (fun w p => p.1.put p.2 w) w

/-- The state of an axis (MOT_AXIS_MSTAT.STATE). -/
def Blk.motState (b : Blk) (a : Nat) : Nat :=
  match (b.mot a).go with
  | some g => g.state
  | none => if (b.mot a).gear.isSome then 5 else 0

/-- The word a read of an offset of BAR0 finds (R537), once the register is located. -/
def Blk.liveWord (b : Blk) (off : Nat) : Word :=
  let w := BitVec.ofNat 32
  let within := fun (lo stride n : Nat) => decide (lo ≤ off ∧ off < lo + stride * n ∧ (off - lo) % stride = 0)
  let at_ := fun (lo stride : Nat) => (off - lo) / stride
  if within (Reg.SEQ_COMMIT 0) 0x20 48 then
    F.SEQ_COMMIT_PENDING.put (b.pendingBits (at_ (Reg.SEQ_COMMIT 0) 0x20)) (b.w off)
  else if within (Reg.TRW_LOAD 0) 4 8 then
    let s := at_ (Reg.TRW_LOAD 0) 4
    w (b.srvLoad true s + 65536 * b.trwLoad true s)
  else if off = Reg.TRW_BUDGET then
    F.TRW_BUDGET_GRADE_X.put (b2n b.aux.otp.gradeX) (F.TRW_BUDGET_BUDGET_LU.put b.budget (b.w off))
  else if within (Reg.TRW_HEAD_STATE 0) 0x80 32 then w (b.headState (at_ (Reg.TRW_HEAD_STATE 0) 0x80))
  else if within (Reg.TRW_CTX_STAT 0) 0x20 128 then w (b.credits (at_ (Reg.TRW_CTX_STAT 0) 0x20))
  else if within (Reg.TRW_CTX_RUNS 0) 0x20 128 then w (b.ctxRuns (at_ (Reg.TRW_CTX_RUNS 0) 0x20))
  else if within (Reg.OVL_HSTAT 0) 0x10 32 then w (b.overlapState (at_ (Reg.OVL_HSTAT 0) 0x10))
  else if within (Reg.OVL_HCNT 0) 0x10 32 then
    F.OVL_HCNT_YIELD_AGE.put (min 0xFFFF (b.trowel (at_ (Reg.OVL_HCNT 0) 0x10)).yieldAge) (b.w off)
  else if within (Reg.MPL_HEAD_LOOP 0) 0x80 32 then
    let h := at_ (Reg.MPL_HEAD_LOOP 0) 0x80
    w (unsgn 16 (b.poolRef h) + 65536 * unsgn 16 (b.pool h).trim)
  else if within (Reg.MPL_HEAD_INTEG 0) 0x80 32 then
    let h := at_ (Reg.MPL_HEAD_INTEG 0) 0x80
    wordI (rsh (b.pool h).qp (F.MPL_HEAD_PSHIFT_SH_I.get (b.pool h).cur.pshift))
  else if within (Reg.CAM_OUT 0) 0x400 8 then w (b.camBook (at_ (Reg.CAM_OUT 0) 0x400)).frames.length
  else if within (Reg.FLT_BAR_STATE 0) 0x400 2 then w (b.barState (at_ (Reg.FLT_BAR_STATE 0) 0x400))
  else if within (Reg.FLT_BAR_TOK 0) 0x400 2 then w (b.barTok (at_ (Reg.FLT_BAR_TOK 0) 0x400))
  else if within (Reg.FLT_BAR_TOK 0 + 4) 0x400 2 then
    w (b.barTok (at_ (Reg.FLT_BAR_TOK 0 + 4) 0x400) / 4294967296)
  else if within (Reg.MOT_AXIS_MSTAT 0) 0x100 12 then
    let a := at_ (Reg.MOT_AXIS_MSTAT 0) 0x100
    withF (b.w off) [(F.MOT_AXIS_MSTAT_STATE, b.motState a), (F.MOT_AXIS_MSTAT_QUEUE, (b.mot a).queue.length)]
  else if within (Reg.ENC_STAT 0) 0x40 16 then
    F.ENC_STAT_INVALID.put (b2n (b.encInvalid (at_ (Reg.ENC_STAT 0) 0x40))) (b.w off)
  else if off = Reg.EVR_SERIAL then w b.evr.next
  else if off = Reg.EVR_SERIAL + 4 then w (b.evr.next / 4294967296)
  else if off = Reg.EVR_OLDEST then w b.evr.oldest
  else if off = Reg.EVR_OLDEST + 4 then w (b.evr.oldest / 4294967296)
  else if off = Reg.EVR_FILL then w (min 4096 b.evr.pinned.length + 65536 * min 256 b.evr.staged.length)
  else if off = Reg.LCS_ID then w Config.deviceId.toNat
  else if off = Reg.LCS_ID + 4 then w (Config.deviceId.toNat / 4294967296)
  else if within (Reg.THM_READ 0) 4 192 then
    if b.thmIdle (at_ (Reg.THM_READ 0) 4) then 0x7FFF else b.w off
  else b.w off

/-- The word a read finds at an offset: 0 where no register is defined (R537). -/
def Blk.readWord (b : Blk) (off : Nat) : Word := if (findReg off).isSome then b.liveWord off else 0

/-- A word with its RC fields cleared, as a read leaves it (R9, R11). -/
def clearRc (d : RegDef) (idx : Nat) (v : Word) : Word :=
  d.fields.foldl (fun w f => if f.ty = .rc ∧ f.lo / 32 = idx then (⟨f.lo % 32, f.w⟩ : Fld).put 0 w else w) v

/-- A read of a word clears its RC fields. -/
def touchWord (off : Nat) : Prog :=
  .get fun b =>
    match findReg off with
    | some h => progIf (h.d.fields.any fun f => f.ty == .rc) (setW off (clearRc h.d h.idx (b.w off)))
    | none => .skip

/-- The words of the register at an offset, in one access. -/
def Blk.allWords (b : Blk) (h : Hit) : List Word :=
  (List.range h.d.words).map fun i => b.readWord (h.base + 4 * i)

/-- RC_READ with hardware sets in its bead interval: the fields that a mask names are set after the read, which
returned the values from before (R11). The one RC field of the block is DMC_PORT_MAX, which is set to a larger value. -/
def rcSets (off : Nat) (hw : Word) : Prog :=
  .get fun b =>
    match findReg (off / 4 * 4) with
    | some h =>
      progEach (h.d.fields.filter fun f => f.ty == .rc && f.lo / 32 == h.idx) fun f =>
        let g : Fld := ⟨f.lo % 32, f.w⟩
        setF (off / 4 * 4) g (max (b.f (off / 4 * 4) g) (g.get hw))
    | none => .skip

/-- A 4-byte read (R536): the low word of a wide register captures the higher ones, whose own 4-byte reads
return that capture. -/
def readOne (off : Nat) (k : Word → Prog) : Prog :=
  .get fun b =>
    match findReg off with
    | none => k 0
    | some h =>
      if h.d.words = 1 then .seq (touchWord off) (k (b.readWord off))
      else if h.idx = 0 then
        let ws := b.allWords h
        .seq (modAux fun a => { a with mmCap := (h.base, ws) :: a.mmCap.filter fun c => c.1 != h.base })
          (.seq (touchWord off) (k (ws.getD 0 0)))
      else
        match b.aux.mmCap.find? fun c => c.1 == h.base with
        | some c => .seq (touchWord off) (k (c.2.getD h.idx 0))
        | none => .seq (touchWord off) (k (b.readWord off))

/-- A BAR0 read of `n` bytes (R535): an 8-byte read of a wide register takes it in one access, a narrower one returns
the bytes of the enclosing word. -/
def barReadProg (off n : Nat) : Prog :=
  if n = 0 ∨ 8 < n ∨ 8 < off % 8 + n then .skip
  else
    .get fun b =>
      let lo := off / 4 * 4
      let cut := fun (ws : List Word) => emit (.readData (toWords ((n + 3) / 4) (leWords ws / 256 ^ (off % 4) % 256 ^ n)))
      if (off + n - 1) / 4 * 4 = lo then readOne lo fun v => cut [v]
      else
        match findReg lo with
        | some h =>
          if h.idx = 0 ∧ h.d.words = 2 ∧ off % 8 = 0 ∧ n = 8 then
            .seq (cut (b.allWords h)) (.seq (touchWord lo) (touchWord (lo + 4)))
          else readOne lo fun v => readOne (lo + 4) fun u => cut [v, u]
        | none => readOne lo fun v => readOne (lo + 4) fun u => cut [v, u]

end Sys2Proof.Machine
end

