-- ==== Sys2Proof/Machine/Boot.lean ====
section
/-!
DEFINITION. The levels of reset, the orderly shutdown, and the pins that act on the whole part (R55, R101, R421, R495,
R506 to R509, R514 to R516).
-/
namespace Sys2Proof.Machine

/-! ### Cold and warm reset (R514) -/

/-- Every book and memory but the aux state returns to its reset state: registers, the recorder's staging, rings,
runs, queues, DRAM and the window. -/
def clearBooks : Prog :=
  progAll [
    .op .regsReset,
    .op (.evr .restart),
    progEach (List.range 89) fun n => .op (.ring n .clear),
    .op (.run .clear),
    progEach (List.range 2) fun c => .op (.wq c .clear),
    progEach (List.range 8) fun c => .op (.cam c .clear),
    progEach (List.range 2) fun f => .op (.tok f .clear),
    progEach (List.range 2) fun p => .op (.tsq p .clear),
    .op .dramLost,
    .op .winLost]

/-- The state behind the registers after a reset of the part: what NAND, OTP and the outside hold is kept. -/
def Aux.restarted (a : Aux) (boot : Boot) : Aux :=
  { Aux.init with
    store := a.store.afterPowerLoss, otp := a.otp, boot := boot, free := a.free, out := a.out, limits := a.limits,
    safeInLow := a.safeInLow, linkUp := a.linkUp, evq := [], irq := [] }

/-- The limits of the die readings at reset on an SK9632-X, shadow and active. -/
def gradeLimits : Prog :=
  progWhen (fun b => b.aux.otp.gradeX)
    (progEach (List.range 24) fun n =>
      .seq (setW (Reg.THM_LIM n) 0x1CC01A40) (setW (Reg.THM_LIM n + 0x8000) 0x1CC01A40))

/-- What OTP shows in registers again: the life-cycle state with a SERVICE grant cleared, the fuses, and the grade. -/
def showOtp (lcs : Word) (fused : List (Nat × Nat)) : Prog :=
  progAll [
    setW Reg.LCS_STATE
      (if F.LCS_STATE_STATE.get lcs = 4 then F.LCS_STATE_TAP_OPEN.put 0 (F.LCS_STATE_STATE.put 3 lcs) else lcs),
    progEach (fused.filter fun x => decide (x.1 < 96)) fun (i, n) => setF (Reg.BST_RPR_ARR i) F.BST_RPR_ARR_FUSED n,
    gradeLimits]

/-- A cold reset, and what a loss of power leaves (R421, R514). -/
def coldProg : Prog :=
  .get fun b =>
    progAll [
      clearBooks,
      modAux fun a => { a.restarted { Boot.init with stored := a.boot.stored } with linkUp := true, inReset := true },
      showOtp (b.w Reg.LCS_STATE) b.aux.otp.fused]

/-- COLD_RESET (R508). -/
def coldResetProg : Prog := coldProg

/-- UNEXPECTED_LOSS_OF_POWER (R421): staged data is lost, and the part is as after a cold reset. -/
def powerLossProg : Prog := coldProg

/-- RESET_RELEASE (R509): the part leaves reset. -/
def resetReleaseProg : Prog := modAux fun a => { a with inReset := false }

/-- A warm reset (R514), with the LAST_RESET it leaves: BIST results and unusable marks are kept. -/
def warmReset (last : Nat) : Prog :=
  .get fun b =>
    let keep := fun off => setW off (b.w off)
    progAll [
      clearBooks,
      modAux fun a => a.restarted { Boot.init with bist := false, tested := List.range 48, stored := a.boot.stored },
      showOtp (b.w Reg.LCS_STATE) b.aux.otp.fused,
      keep Reg.BST_SUMMARY,
      setF Reg.BST_SUMMARY F.BST_SUMMARY_SHUT 0,
      progEach (List.range 168) fun u => progEach [0, 4, 8] fun i => keep (Reg.BST_UNIT u + i),
      progEach (List.range 96) fun a => keep (Reg.BST_RPR_ARR a),
      progEach (List.range 48) fun d => setF (Reg.SEQ_DOM_STAT d) F.SEQ_DOM_STAT_UNUSABLE (b2n (b.unusable d)),
      setF Reg.SYS_BOOT_STAT F.SYS_BOOT_STAT_LAST_RESET last]

/-- The modes in which a warm reset by key is permitted without AXES_REST (R515). -/
def restMode : Mode → Bool
  | .off | .reset | .selftest | .setup => true
  | _ => false

/-- A warm reset by key is permitted (R515). -/
def Blk.keyPermitted (b : Blk) : Bool :=
  b.f Reg.SYS_ABORT F.SYS_ABORT_AXES_REST == 1 || (List.range 38).all fun d => restMode (b.mode d)

/-- A write of SYS_RESET.KEY that was not rejected. -/
def keyAct (key : Nat) : Prog := progIf (key == 0x5741) (warmReset 1)

/-- WARM_RESET_AFTER_FW_LOSS (R515): 5 s after the firmware-region error, or when AXES_REST is 1. -/
def fwLossResetProg : Prog :=
  .get fun b =>
    match b.aux.fwLost with
    | some t =>
      progIf (b.f Reg.SYS_ABORT F.SYS_ABORT_AXES_REST == 1 || decide (t + 5000000000 ≤ b.ns2)) (warmReset 2)
    | none => .skip

/-! ### Link reset and pins -/

/-- FUNCTION_LEVEL_RESET (R107): an abort to its end, its transitions made, its entries written and its message sent; then
the host side resets. -/
def functionLevelResetProg : Prog :=
  progAll [
    abortRequest 3,
    drainSafe 4,
    drainEvents,
    sendDue,
    hostSideReset,
    setF Reg.SYS_ABORT F.SYS_ABORT_QUIESCENT 1]

/-- LINK_RESET (R514): the host side resets, with an abort when the core is not in OFF (R99). -/
def linkResetProg : Prog :=
  progAll [
    modAux fun a => { a with linkUp := false },
    progWhen (fun b => b.mode dCore != .off) (abortRequest 4),
    hostSideReset]

/-- SAFE_IN (R55, R58): SAFE_IN_N found low at two samples puts the core into SAFE; found high again it no longer
holds it there. -/
def safeInProg (low : Bool) : Prog :=
  .seq (modAux fun a => { a with safeInLow := low }) (progIf low (requestSafe dCore .safeIn none))

/-- Every scan axis and motion axis is at rest. -/
def Blk.axesAtRest (b : Blk) : Bool :=
  (List.range 32).all (fun h => (b.trowel h).atRest) && (List.range 12).all fun a => b.axisRest a

/-- AXES_REST (R101 step 9): after an abort every axis is at rest, whether or not it has been released; a warm reset for
lost firmware follows (R515). -/
def axesRestProg : Prog :=
  progWhen (fun b => (b.aux.restDue || b.aux.fwLost.isSome) && b.axesAtRest)
    (progAll [
      setF Reg.SYS_ABORT F.SYS_ABORT_AXES_REST 1,
      modAux fun a => { a with restDue := false },
      progWhen (fun b => b.aux.fwLost.isSome) (warmReset 2)])

/-! ### SHUTDOWN (R495) -/

/-- The first domain that stands against SHUTDOWN, 48 for an open build. -/
def Blk.shutdownBar (b : Blk) : Option Nat :=
  match (List.range 48).find? fun d => d != dStore && b.mode d != .off && b.mode d != .setup with
  | some d => some d
  | none => if b.build.isOpen then some 48 else none

/-- Steps 2 to 5: the events staged are programmed, the descriptor completes, the record-class test runs and leaves its
units at reset (R490), its result is committed where `stored`, and the storage domain enters OFF. -/
def shutdownFinish (ring : Nat) (results : List BistRes) (stored : Bool) : Prog :=
  .get fun b =>
    let rs := results.filter fun r => decide (62 ≤ r.unit ∧ r.unit < 168)
    progAll [
      programPages (b.evr.staged.length / 32 + 2),
      completeOk ring 0,
      progEach rs fun r => unitReset r.unit,
      progEach rs keepResult,
      if stored then modBoot fun x => { x with stored := some (rs.map fun r => { r with result := b.judged r }) }
      else .seq (modBoot fun x => { x with stored := none }) (setFlag (flBst 2)),
      enterMode dStore .off .command,
      setF Reg.BST_SUMMARY F.BST_SUMMARY_SHUT 2]

/-- SHUTDOWN (R495): refused, begun, or carried on once the other domains are in OFF and appends are durable.
`results` are those of the record-class test, `stored` whether their commit succeeds. -/
def shutdownProg (ring : Nat) (results : List BistRes) (stored : Bool) : Prog :=
  let rest := progWhen (fun b => (List.range 48).all (fun d => d == dStore || b.mode d == .off) && b.appendsDone)
    (shutdownFinish ring results stored)
  descrStage ring 0x2B fun begun ws =>
    if begun then rest
    else
      .get fun b =>
        checked ring (firstFail [fieldFail ws [], b.shutdownBar.map fun d => ⟨0x65, d⟩])
          (progAll [
            .op (.ring ring .start),
            progEach ((List.range 48).filter fun d => d != dStore && b.mode d != .off) fun d =>
              requestMode d .off .command,
            setF Reg.BST_SUMMARY F.BST_SUMMARY_SHUT 1,
            rest])

end Sys2Proof.Machine
end

