-- ==== Sys2Proof/Machine/RegWrite.lean ====
section
/-!
DEFINITION. Register writes: what lands, what is rejected whole, what a write does beyond landing (R9, R10, R12, R535
to R545 and the rules of each register), and the descriptors REG_WRITE, REG_READ and TABLE_LOAD (R83 to R87).
-/
namespace Sys2Proof.Machine

/-! ### Landing (R9, R10, R542) -/

/-- A value with a field replaced. -/
def putN (lo w x v : Nat) : Nat := v - v / 2 ^ lo % 2 ^ w * 2 ^ lo + x % 2 ^ w * 2 ^ lo

/-- The value of a register after a write: RW and RWS fields take the new bits, W1C bits written 1 clear, and every
other field is as it was. -/
def landValue (d : RegDef) (old new : Nat) : Nat :=
  d.fields.foldl
    (fun v f =>
      match f.ty with
      | .rw | .rws => putN f.lo f.w (bits new f.lo f.w) v
      | .w1c => putN f.lo f.w (Nat.land (bits v f.lo f.w) (2 ^ f.w - 1 - bits new f.lo f.w)) v
      | .wo | .rc | .occ => v)
    old

/-- Every written field of a value lies in its range (R538). -/
def fieldsOk (d : RegDef) (new : Nat) : Bool :=
  d.fields.all fun f =>
    match f.ty with
    | .rw | .rws | .wo => decide (f.min ≤ bits new f.lo f.w ∧ bits new f.lo f.w ≤ f.max)
    | .w1c | .rc | .occ => true

/-- The stored value of a register of `n` words. -/
def Blk.value (b : Blk) (base n : Nat) : Nat := leWords ((List.range n).map fun i => b.w (base + 4 * i))

/-- A value lands in a register: its words take it, and a shadow counts as written (R542). -/
def landProg (h : Hit) (v : Nat) : Prog :=
  .get fun b =>
    let ws := (toWords h.d.words (landValue h.d (b.value h.base h.d.words) v)).zipIdx
    .seq (progEach ws fun (w, i) => setW (h.base + 4 * i) w)
      (progIf h.d.cls.isSome (progEach ws fun (_, i) => markDirty (h.base + 4 * i)))

/-! ### Writes rejected whole -/

/-- A write raises the load of one of the engines of `ls` above its budget (R163). -/
def overBudget (after : Blk) (old new : Nat) : Bool := decide (after.budget < new ∧ old < new)

/-- SYS: R163, R511, R512, R515, SYS_OCC_CLR. -/
def Blk.rejSys (b after : Blk) (base v : Nat) : Bool :=
  let w := BitVec.ofNat 32 v
  let fw := b.f Reg.SYS_BOOT_STAT F.SYS_BOOT_STAT_FW_STATE
  if base = Reg.SYS_TICK then (after.loads true).any fun l => decide (after.budget < l)
  else if base = Reg.SYS_BOOT_CTRL then
    let load := F.SYS_BOOT_CTRL_LOAD.get w == 1
    let rel := F.SYS_BOOT_CTRL_RELEASE.get w == 1
    (load && (rel || fw == 1 || fw == 2)) || (rel && b.releaseRejected)
  else if base = Reg.SYS_BOOT_ADDR then fw == 1 || fw == 2
  else if base = Reg.SYS_RESET then F.SYS_RESET_KEY.get w == 0x5741 && !b.keyPermitted
  else if base = Reg.SYS_OCC_CLR then decide (25 ≤ F.SYS_OCC_CLR_BLOCK.get w) && F.SYS_OCC_CLR_ALL.get w == 0
  else false

/-- RING: R6, R66, R75, RING_DB_BASE. -/
def Blk.rejRing (b : Blk) (base v : Nat) : Bool :=
  if base = Reg.RING_DB_BASE then (List.range 89).any b.ringEnabled
  else if 0x21000 ≤ base ∧ base < 0x23000 then
    let n := (base - 0x21000) / 0x20
    let r := (base - 0x21000) % 0x20
    if r = 0 then
      let w := BitVec.ofNat 32 v
      let size := F.RING_CTRL_SIZE_LOG2.get w
      let cq := F.RING_CTRL_CQ.get w
      size == 31 ||
        (F.RING_CTRL_ENABLE.get w == 1 && (decide (89 ≤ n) || !decide (4 ≤ size ∧ size ≤ 16 ∧ 40 ≤ cq ∧ cq ≤ 47))) ||
        (b.ringEnabled n &&
          (size != b.f (Reg.RING_CTRL n) F.RING_CTRL_SIZE_LOG2 || cq != b.f (Reg.RING_CTRL n) F.RING_CTRL_CQ))
    else if r = 8 ∨ r = 0x10 then b.ringEnabled n
    else false
  else false

/-- TRW: R121, R157, R163. -/
def Blk.rejTrw (b after : Blk) (base : Nat) : Bool :=
  if 0x41000 ≤ base ∧ base < 0x42000 then
    let h := (base - 0x41000) / 0x80
    if base = Reg.TRW_HEAD_CFG h then overBudget after (b.trwLoad true (h / 4)) (after.trwLoad true (h / 4))
    else if base = Reg.TRW_HEAD_EMACC h ∨ base = Reg.TRW_HEAD_EMJERK h then
      !emergencyOk (after.w (Reg.TRW_HEAD_EMACC h)).toNat (after.w (Reg.TRW_HEAD_EMJERK h)).toNat
    else false
  else if 0x44000 ≤ base ∧ base < 0x45000 then
    let c := (base - 0x44000) / 0x20
    if base = Reg.TRW_CTX_BASE c ∨ base = Reg.TRW_CTX_CFG c then
      let m := b.mode (c / 4)
      !(b.ctx c).held.isEmpty || (b.ctx c).reserved != 0 || !(m == .off || m == .setup)
    else false
  else false

/-- OVL: R167. -/
def Blk.rejOvl (b : Blk) (base v : Nat) : Bool :=
  let w := BitVec.ofNat 32 v
  base == Reg.OVL_ZONE_CFG && !b.bankValid (F.OVL_ZONE_CFG_BANK.get w) (F.OVL_ZONE_CFG_COUNT.get w)

/-- SRV: R163, R218. -/
def Blk.rejSrv (b after : Blk) (base v : Nat) : Bool :=
  if 0x61000 ≤ base ∧ base < 0x67000 then
    let n := (base - 0x61000) / 0x100
    let w := BitVec.ofNat 32 v
    base == Reg.SRV_AXIS_CFG n &&
      ((F.SRV_AXIS_CFG_COG_INTERP.get w == 1 && F.SRV_AXIS_CFG_COG_SIZE.get w == 0) ||
        overBudget after (b.srvLoad true (n / 12)) (after.srvLoad true (n / 12)))
  else false

/-- MPL: the burst registers. -/
def Blk.rejMpl (b : Blk) (base v : Nat) : Bool :=
  if 0x81000 ≤ base ∧ base < 0x82000 then
    let h := (base - 0x81000) / 0x80
    let w := BitVec.ofNat 32 v
    if base = Reg.MPL_HEAD_BURST_BASE h then b.burstState h == 1 || b.burstState h == 2
    else if base = Reg.MPL_HEAD_BURST_TRIG h then
      F.MPL_HEAD_BURST_TRIG_TRG_SPAT.get w == 1 && F.MPL_HEAD_BURST_TRIG_SPAT_N.get w == 0
    else false
  else false

/-- The first entries of a camera's defect list are sound: raster order and no reserved bit (R299). -/
def Blk.defectsOk (b : Blk) (c n : Nat) : Bool :=
  let e := (List.range n).map fun i => b.winNat (0x600000 + 0x1000 * c + 4 * i) 4
  (e.all fun x => bits x 12 4 == 0 && bits x 28 4 == 0) &&
    (e.zip e.tail).all fun (x, y) =>
      decide (bits x 16 12 * 4096 + bits x 0 12 < bits y 16 12 * 4096 + bits y 0 12)

/-- CAM: R299, R300. -/
def Blk.rejCam (b after : Blk) (base v : Nat) : Bool :=
  if 0x91000 ≤ base ∧ base < 0x93000 then
    let c := (base - 0x91000) / 0x400
    let w := BitVec.ofNat 32 v
    if base = Reg.CAM_CFG c then
      F.CAM_CFG_ROLE.get w == 1 && (List.range 8).any fun i => i != c &&
        (after.f (Reg.CAM_CFG i) F.CAM_CFG_ROLE == 1 || after.a (Reg.CAM_CFG i) F.CAM_CFG_ROLE == 1)
    else if base = Reg.CAM_DEFECT c then !b.defectsOk c (F.CAM_DEFECT_DEF_COUNT.get w)
    else false
  else false

/-- A level bank is sound (R310): LEVEL[0] is 0, no entry decreases and none is 0xFFFF. -/
def Blk.levelsOk (b : Blk) (f bank : Nat) : Bool :=
  let l := (List.range 16).map (b.level f bank)
  l.headD 0 == 0 && (l.all fun x => x != 0xFFFF) && (l.zip l.tail).all fun (x, y) => decide (x ≤ y)

/-- A compensation bank is sound (R310). -/
def Blk.compOk (b : Blk) (f bank : Nat) : Bool :=
  (List.range 256).all fun i =>
    let x := bits (b.winByte (barTab f + 0x100 + 0x80 * bank + i / 2)).toNat (4 * (i % 2)) 4
    decide (i % 16 ≤ x) && (decide (16 ≤ i) || x == i)

/-- FLT: R310 and the ordered limits. -/
def Blk.rejFlt (b : Blk) (base v : Nat) : Bool :=
  if 0xA1000 ≤ base ∧ base < 0xA1800 then
    let f := (base - 0xA1000) / 0x400
    let w := BitVec.ofNat 32 v
    if base = Reg.FLT_BAR_CFG f then !b.compOk f (F.FLT_BAR_CFG_COMP_BANK.get w)
    else if base = Reg.FLT_BAR_LEVSEL f then !b.levelsOk f (F.FLT_BAR_LEVSEL_LEVEL_BANK.get w)
    else if base = Reg.FLT_BAR_TLIM f then
      decide (sgn 16 (F.FLT_BAR_TLIM_HARD.get w) ≤ sgn 16 (F.FLT_BAR_TLIM_SOFT.get w))
    else if base = Reg.FLT_BAR_MEAS f then
      decide (F.FLT_BAR_MEAS_I_HI.get w ≤ F.FLT_BAR_MEAS_I_LO.get w)
    else if base = Reg.FLT_BAR_VLIM f then
      decide (F.FLT_BAR_VLIM_VF_MAX.get w ≤ F.FLT_BAR_VLIM_VF_MIN.get w)
    else false
  else false

/-- MOT: N of a divided output is not above M. -/
def rejMot (base v : Nat) : Bool :=
  decide (Reg.MOT_DIV_CFG 0 ≤ base ∧ base < Reg.MOT_DIV_CFG 4) && decide (bits v 48 16 < bits v 32 16)

/-- LED: R368. -/
def Blk.rejLed (b after : Blk) (base : Nat) : Bool :=
  ((List.range 4).any fun c => base == Reg.LED_GRP_DISS c) &&
    decide (2400 < ((List.range 4).map fun c =>
      max (b.a (Reg.LED_GRP_DISS c) F.LED_GRP_DISS_RATE) (after.f (Reg.LED_GRP_DISS c) F.LED_GRP_DISS_RATE)).sum)

/-- DMC: R377, DMC_WQ, and the diagnostic arrays of R490. -/
def Blk.rejDmc (b after : Blk) (base v : Nat) : Bool :=
  let w := BitVec.ofNat 32 v
  if base = Reg.DMC_CFG then
    b.mode dCore != .off || (F.DMC_CFG_WIDTH.get w == 0 && F.DMC_CFG_MODULE.get w != 2) ||
      decide (128 < after.dramGiB) ||
      (F.DMC_CFG_EN.get w == 1 && decide (b.f Reg.DMC_DEV_SIZE F.DMC_DEV_SIZE_SIZE_GIB < 4))
  else if base = Reg.DMC_DEV_BASE ∨ base = Reg.DMC_DEV_SIZE then b.mode dCore != .off
  else if base = Reg.DMC_WQ then decide (F.DMC_WQ_HIGH_WM.get w ≤ F.DMC_WQ_LOW_WM.get w)
  else if base = Reg.DMC_DIAG then
    F.DMC_DIAG_EN.get w == 1 && (List.range 12).any fun i => b.unitResult (156 + i) == 2
  else false

/-- NVS: the staging limits. -/
def Blk.rejNvs (b : Blk) (base v : Nat) : Bool :=
  let w := BitVec.ofNat 32 v
  let mib := F.NVS_STAGE_STAGE_MIB.get w
  base == Reg.NVS_STAGE &&
    (decide (mib < 256) || decide (b.f Reg.DMC_DEV_SIZE F.DMC_DEV_SIZE_SIZE_GIB * 512 < mib) ||
      decide (F.NVS_STAGE_STAGE_HOLD.get w ≤ F.NVS_STAGE_STAGE_RESUME.get w))

/-- TIM: R440 and TIM_TB3. -/
def Blk.rejTim (b : Blk) (base v : Nat) : Bool :=
  let w := BitVec.ofNat 32 v
  if base = Reg.TIM_SETCTL then F.TIM_SETCTL_GO.get w == 1 && b.goRejected (F.TIM_SETCTL_TB.get w)
  else if base = Reg.TIM_TB3 then [Mode.armed, .expose, .hold, .drain].contains (b.mode dCore)
  else false

/-- PTP: the instance and port registers. -/
def Blk.rejPtp (b : Blk) (base v : Nat) : Bool :=
  let w := BitVec.ofNat 32 v
  let en := fun i => b.f (Reg.PTP_INST_CFG i) F.PTP_INST_CFG_EN == 1
  let inst := fun i =>
    if base = Reg.PTP_INST_CFG i then
      (en i && Nat.land v 0xFFFFFF0E != Nat.land (b.w base).toNat 0xFFFFFF0E) ||
        (F.PTP_INST_CFG_EN.get w == 1 && F.PTP_INST_CFG_PORTS.get w == 0)
    else base == Reg.PTP_INST_LIM i && en i
  let port := fun p =>
    base == Reg.PTP_PORT_CFG p &&
      (((List.range 2).any fun i => en i && bit (b.f (Reg.PTP_INST_CFG i) F.PTP_INST_CFG_PORTS) p) ||
        !decide (-7 ≤ sgn 4 (F.PTP_PORT_CFG_LOG_SYNC.get w) ∧ sgn 4 (F.PTP_PORT_CFG_LOG_SYNC.get w) ≤ 1))
  inst 0 || inst 1 || port 0 || port 1

/-- THM: HARD above SOFT. -/
def rejThm (base v : Nat) : Bool :=
  decide (Reg.THM_LIM 0 ≤ base ∧ base < Reg.THM_LIM 192) && decide (sgn 16 (bits v 16 16) ≤ sgn 16 (bits v 0 16))

/-- PMU: PMU_CFG. -/
def Blk.rejPmu (b : Blk) (base v : Nat) : Bool :=
  let w := BitVec.ofNat 32 v
  base == Reg.PMU_CFG &&
    (decide (F.PMU_CFG_VMAX.get w < F.PMU_CFG_VMIN.get w) ||
      decide (F.PMU_CFG_TARGET_PCT.get w ≤ b.f Reg.SYS_TICK_ACT F.SYS_TICK_ACT_SLACK_WARN) ||
      decide (99 < F.PMU_CFG_TARGET_PCT.get w + F.PMU_CFG_BAND_PCT.get w))

/-- CAL: R487. -/
def Blk.rejCal (b : Blk) (base : Nat) : Bool :=
  if 0x161000 ≤ base ∧ base < 0x161500 then
    let t := (base - 0x161000) / 0x10
    (base == Reg.CAL_RES t || base == Reg.CAL_TEMP t) && b.calRejected t
  else false

/-- BST: R496, R497. -/
def Blk.rejBst (b : Blk) (base v : Nat) : Bool :=
  let w := BitVec.ofNat 32 v
  if base = Reg.BST_RUN then b.bstRejected (F.BST_RUN_UNIT.get w)
  else base == Reg.BST_RPR_CFG && F.BST_RPR_CFG_FUSE.get w == 1 && b.lifeCycle != 1

/-- A write that would be rejected by a rule of its register; `after` is the block it would leave if it landed. -/
def Blk.ruleRejects (b after : Blk) (base v : Nat) : Bool :=
  match base / 65536 with
  | 0 => b.rejSys after base v
  | 2 => b.rejRing base v
  | 4 => b.rejTrw after base
  | 5 => b.rejOvl base v
  | 6 => b.rejSrv after base v
  | 8 => b.rejMpl base v
  | 9 => b.rejCam after base v
  | 10 => b.rejFlt base v
  | 11 => rejMot base v
  | 13 => b.rejLed after base
  | 14 => b.rejDmc after base v
  | 15 => b.rejNvs base v
  | 18 => b.rejTim base v
  | 19 => b.rejPtp base v
  | 20 => rejThm base v
  | 21 => b.rejPmu base v
  | 22 => b.rejCal base
  | 23 => b.rejBst base v
  | 24 => base == Reg.LCS_CTRL && b.lcsCtrlRejected (BitVec.ofNat 32 v)
  | _ => false

/-- A register that no write changes: an active copy or a register with read-only fields alone (R9). -/
def Hit.readOnly (h : Hit) : Bool :=
  h.active || h.d.fields.all fun f => match f.ty with | .rc | .occ => true | _ => false

/-- A write would make a region busy that a TABLE_LOAD is writing (R398); `after` is the block it would leave. -/
def Blk.busiesLoad (b after : Blk) : Bool :=
  b.aux.loads.any fun l => after.busyRange l.off l.bytes && !b.busyRange l.off l.bytes

/-- A write of a whole register is rejected (R398, R538, R539). -/
def Blk.rejects (b : Blk) (h : Hit) (v : Nat) : Bool :=
  !h.readOnly &&
    (!fieldsOk h.d v ||
      (let after := (landProg h v).run b
       b.ruleRejects after h.base v || b.busiesLoad after))

/-! ### What a write does -/

/-- Occurrence counters of a row of the register table return to 0, element by element. -/
def occZero (d : RegDef) (off : Nat) : Prog :=
  progEach (d.fields.filter fun f => f.ty == .occ) fun f =>
    setF (off + f.lo / 32 * 4) ⟨f.lo % 32, f.w⟩ 0

/-- The elements of a row that hold a value other than their reset value. -/
def Blk.listedOf (b : Blk) (d : RegDef) : List Nat :=
  (b.regs.filterMap fun (o, _) =>
    match locate d o with
    | some i => some (o - 4 * i)
    | none => none).eraseDups

/-- SYS_OCC_CLR of a block (R545). Counters that stand at their reset value are 0 already. -/
def occClear (blk : Nat) : Prog :=
  .get fun b =>
    progEach ((regsOfBlock blk).filter fun d => d.fields.any fun f => f.ty == .occ) fun d =>
      progEach (b.listedOf d) fun o => occZero d o

/-- A request of a WO field of class tick is held for the next tick edge (R543). -/
def holdReq (off mask : Nat) : Prog :=
  progIf (mask != 0)
    (modAux fun a =>
      let old := match a.reqs.find? fun r => r.1 == off with | some r => r.2 | none => 0
      { a with reqs := (off, Nat.lor old mask) :: a.reqs.filter fun r => r.1 != off })

/-- The WO registers that act at a tick edge. -/
def tickReqs : List Nat :=
  [Reg.SYS_SLACK_REARM, Reg.OVL_SNAP, Reg.SRV_SNAP, Reg.DMC_WQ_SNAP, Reg.EVR_SNAP, Reg.PTP_TSQ_SNAP]

/-- What a write of a SYS register does beyond landing (R104, R106, R510, R512, R515, R545). -/
def actSys (base : Nat) (w : Word) : Prog :=
  if base = Reg.SYS_ABORT then
    if F.SYS_ABORT_REQ.get w = 1 then abortRequest 1
    else if F.SYS_ABORT_RELEASE.get w = 1 then releaseRings else .skip
  else if base = Reg.SYS_BOOT_CTRL then
    .seq (progIf (F.SYS_BOOT_CTRL_LOAD.get w == 1) loadAct) (progIf (F.SYS_BOOT_CTRL_RELEASE.get w == 1) releaseAct)
  else if base = Reg.SYS_RESET then keyAct (F.SYS_RESET_KEY.get w)
  else if base = Reg.SYS_OCC_CLR then
    if F.SYS_OCC_CLR_ALL.get w = 1 then progEach (List.range 25) occClear else occClear (F.SYS_OCC_CLR_BLOCK.get w)
  else .skip

/-- What a write of a HIF or RING register does beyond landing (R70, R76, R77, R98, R100). `b` is the block before. -/
def actHost (b : Blk) (base : Nat) (w : Word) : Prog :=
  if base = Reg.HIF_WD then modAux fun a => { a with wdFrom := tbNs a.clk.tb2 }
  else if 0x18000 ≤ base ∧ base < 0x19000 then
    progIf (base % 16 == 12 && w.toNat % 2 == 0) (msixUnmaskProg ((base - 0x18000) / 16))
  else if base = Reg.RING_NUDGE then .get fun b => emit (.hostRead (b.w64 Reg.RING_DB_BASE) 2048)
  else if 0x21000 ≤ base ∧ base < 0x23000 ∧ base % 0x20 = 0 then
    let n := (base - 0x21000) / 0x20
    let en := F.RING_CTRL_ENABLE.get w == 1
    if en && !b.ringEnabled n then ringStart n
    else if !en && b.ringEnabled n then ringStop n else .skip
  else .skip

/-- What a write of a TIM or PTP register does beyond landing (R440, R442, R452). `b` is the block before. -/
def actTime (b : Blk) (base : Nat) (w : Word) : Prog :=
  if base = Reg.TIM_LATCH then progIf (w.toNat % 2 == 1) timLatchProg
  else if base = Reg.TIM_SETCTL then progIf (F.TIM_SETCTL_GO.get w == 1) (setBase (F.TIM_SETCTL_TB.get w))
  else
    progEach ((List.range 2).filter fun i => base == Reg.PTP_INST_CFG i) fun i =>
      let en := F.PTP_INST_CFG_EN.get w == 1
      progIf (en != (b.f (Reg.PTP_INST_CFG i) F.PTP_INST_CFG_EN == 1)) (instEnable i en)

/-- What an accepted write does beyond landing; `b` is the block before it. -/
def writeAct (b : Blk) (base v : Nat) : Prog :=
  let w := BitVec.ofNat 32 v
  if tickReqs.contains base then holdReq base (v % 4294967296)
  else
    match base / 65536 with
    | 0 => actSys base w
    | 1 | 2 => actHost b base w
    | 8 =>
      progIf (base == Reg.MPL_HM_FOLD && F.MPL_HM_FOLD_CLEAR.get w == 1)
        (modAux fun a => { a with build := { a.build with clearReq := true } })
    | 11 =>
      progIf (decide (0xB1000 ≤ base ∧ base < 0xB1C00) && base % 0x100 == 0x30 && bit v 32)
        (compareBehind ((base - 0xB1000) / 0x100))
    | 14 =>
      progIf (base == Reg.DMC_CFG)
        (if F.DMC_CFG_EN.get w = 0 then setF Reg.DMC_STATE F.DMC_STATE_STATE 0
        else progIf (b.f Reg.DMC_CFG F.DMC_CFG_EN == 0) (setF Reg.DMC_STATE F.DMC_STATE_STATE 1))
    | 18 | 19 => actTime b base w
    | 22 =>
      progIf (decide (0x161000 ≤ base ∧ base < 0x161500) && base % 0x10 == 0) (calRestoreAct ((base - 0x161000) / 0x10) w)
    | 23 =>
      if base = Reg.BST_RUN then modAux fun a => { a with boot := { a.boot with testing := some (F.BST_RUN_UNIT.get w) } }
      else progIf (base == Reg.BST_RPR_CFG && F.BST_RPR_CFG_FUSE.get w == 1) fuseAct
    | 24 => progIf (base == Reg.LCS_CTRL) (lcsCtrlAct w)
    | _ => .skip

/-- A register is one whose write can raise a load (R475). -/
def loadReg (base : Nat) : Bool := base / 65536 == 4 || base / 65536 == 6

/-- The PMU answers a write that raised a load above its active load (R475). -/
def raisedLoad (b : Blk) (base : Nat) : Prog :=
  progIf (loadReg base)
    (.get fun c =>
      progIf (((c.loads true).zip ((b.loads true).zip (c.loads false))).any fun (n, o, a) => decide (o < n ∧ a < n))
        pmuLoadRaised)

/-- An accepted write of a whole register: it lands, then it acts. -/
def acceptWrite (h : Hit) (v : Nat) : Prog :=
  progIf (!h.readOnly)
    (.get fun b =>
      progAll [landProg h v, writeAct b h.base v, raisedLoad b h.base])

/-- SYS_MAP_LAST names a write (R537, R539): its offset, source 0 MMIO or 1 REG_WRITE, and kind 0 rejected or 1
unmapped. -/
def mapLast (off src kind : Nat) : Prog :=
  setW Reg.SYS_MAP_LAST (withF 0
    [(F.SYS_MAP_LAST_OFFSET, off), (F.SYS_MAP_LAST_SRC, src), (F.SYS_MAP_LAST_KIND, kind)])

/-- An MMIO write is rejected whole. -/
def rejectedWrite (off : Nat) : Prog := .seq (mapLast off 0 0) (setFlag flReject)

/-- An MMIO write meets no register. -/
def unmappedWrite (off : Nat) : Prog := .seq (mapLast off 0 1) (setFlag flUnmapped)

/-- A whole register is written over MMIO. -/
def wholeWrite (h : Hit) (off v : Nat) : Prog :=
  .get fun b => if b.rejects h v then rejectedWrite off else acceptWrite h v

/-! ### MMIO writes (R535, R536) -/

/-- A 4-byte write. The lower words of a wide register are held until its highest word is written. -/
def wordWrite (off : Nat) (w : Word) : Prog :=
  .get fun b =>
    let hold := b.aux.mmHold
    .seq (modAux fun a => { a with mmHold := none })
      (match findReg off with
      | none => unmappedWrite off
      | some h =>
        let kept := match hold with
          | some (o, ws) => if o = h.base ∧ ws.length = h.idx then ws else
              (List.range h.idx).map fun i => b.w (h.base + 4 * i)
          | none => (List.range h.idx).map fun i => b.w (h.base + 4 * i)
        if h.idx + 1 = h.d.words then wholeWrite h off (leWords (kept ++ [w]))
        else modAux fun a => { a with mmHold := some (h.base, kept ++ [w]) })

/-- A write of a register over MMIO: `bytes` bytes at an offset. A request larger than 8 bytes or across an 8-byte
boundary has no effect; one narrower than 4 bytes, or not of whole words, is rejected. -/
def mmioWriteProg (off bytes value : Nat) : Prog :=
  if bytes = 0 ∨ 8 < bytes ∨ 8 < off % 8 + bytes then .skip
  else if bytes = 4 ∧ off % 4 = 0 then wordWrite off (BitVec.ofNat 32 value)
  else if bytes = 8 then
    match findReg off with
    | some h =>
      if h.d.words = 2 ∧ h.idx = 0 then
        .seq (modAux fun a => { a with mmHold := none }) (wholeWrite h off (value % 2 ^ 64))
      else .seq (wordWrite off (BitVec.ofNat 32 value))
        (wordWrite (off + 4) (BitVec.ofNat 32 (value / 4294967296)))
    | none => .seq (wordWrite off (BitVec.ofNat 32 value))
        (wordWrite (off + 4) (BitVec.ofNat 32 (value / 4294967296)))
  else
    .seq (modAux fun a => { a with mmHold := none })
      (match findReg (off / 4 * 4) with
      | none => unmappedWrite (off / 4 * 4)
      | some _ => rejectedWrite (off / 4 * 4))

/-- The RWS bits of a register, as a mask on its value. -/
def rwsMask (d : RegDef) : Nat :=
  d.fields.foldl (fun m f => if f.ty == .rws then Nat.lor m ((2 ^ f.w - 1) * 2 ^ f.lo) else m) 0

/-- The word an MMIO write brings to a shadow that a command-ring write of the same bead interval reaches too: the
RWS fields are the command-ring write's, which is applied second (R63). -/
def Blk.beneath (b : Blk) (off : Nat) (w : Word) : Word :=
  match findReg off with
  | some h =>
    if b.aux.bead.ring.contains off then
      let m := BitVec.ofNat 32 (rwsMask h.d / 2 ^ (32 * h.idx))
      (w &&& ~~~m) ||| (b.w off &&& m)
    else w
  | none => w

/-- A register is rejected whole as written, whatever a command-ring write of the same bead interval leaves in it. -/
def Blk.rejectsAt (b : Blk) (off bytes value : Nat) : Bool :=
  match findReg off with
  | some h => h.idx == 0 && 4 * h.d.words == bytes && b.rejects h (value % 2 ^ (8 * bytes))
  | none => false

/-- A write misses the boundaries that fall in the bead interval of the next command: the shadow words it lands on are
late for them (R50, R543, R547). -/
def lateWrite (p : Prog) : Prog :=
  .get fun b =>
    progAll [
      modAux fun a => { a with dirty := [] },
      p,
      modAux fun a => { a with
        dirty := b.aux.dirty ++ a.dirty.filter fun o => !b.aux.dirty.contains o
        bead := { a.bead with lateNext := a.bead.lateNext ++ a.dirty } }]

/-- REGISTER_WRITE: an MMIO write alone in its bead interval (0), in the bead interval of the command that follows it
(1), or in that of the REG_WRITE before it (2). -/
def mmioWriteIn (place off bytes value : Nat) : Prog :=
  if place = 1 then lateWrite (mmioWriteProg off bytes value)
  else if place = 2 then
    .get fun b =>
      if b.rejectsAt off bytes value then mmioWriteProg off bytes value
      else mmioWriteProg off bytes
        (leWords [b.beneath off (BitVec.ofNat 32 value), b.beneath (off + 4) (BitVec.ofNat 32 (value / 4294967296))])
  else mmioWriteProg off bytes value

/-- Hardware sets of the sticky flags that a mask names in the word at an offset. -/
def hardwareSets (off mask : Nat) : Prog :=
  progEach ((List.range 32).filter (bit mask)) fun i =>
    .get fun b =>
      match b.flagAt off i with
      | some fl => setFlag fl
      | none => .skip

/-- W1C_CLEAR: a 4-byte write, and the bits the hardware sets in its bead interval: a flag set so remains set, counts
and raises its event (R10, R544). -/
def w1cClearProg (off value hw : Nat) : Prog := .seq (mmioWriteProg off 4 value) (hardwareSets off hw)

/-- A whole register written by the command of its own row. -/
def regWriteProg (off value : Nat) : Prog :=
  .seq (modAux fun a => { a with mmHold := none })
    (match findReg off with
    | none => unmappedWrite off
    | some h => wholeWrite h off value)

/-! ### REG_WRITE, REG_READ, TABLE_LOAD (R83 to R87) -/

/-- A pair as judged: a whole register with its value and the index of its first pair. -/
structure PairWrite where
  idx : Nat
  h : Hit
  v : Nat

/-- The pairs of a REG_WRITE grouped into registers (R84): the writes, or the index of a rejected pair. -/
def groupPairs : Nat → Nat → List (Nat × Word) → Except Nat (List PairWrite)
  | 0, _, _ => .ok []
  | _, _, [] => .ok []
  | fuel + 1, i, (o, v) :: ps =>
    match findReg o with
    | none => .error i
    | some h =>
      if h.d.words = 1 then (groupPairs fuel (i + 1) ps).map (⟨i, h, v.toNat⟩ :: ·)
      else if h.idx ≠ 0 ∨ h.d.words ≠ 2 then .error i
      else
        match ps with
        | (o2, v2) :: ps2 =>
          if o2 = o + 4 then (groupPairs fuel (i + 2) ps2).map (⟨i, h, v.toNat + 4294967296 * v2.toNat⟩ :: ·)
          else .error i
        | [] => .error i

/-- The first rejected pair, each judged on what the pairs before it would leave, their acts included. -/
def judgePairs (b : Blk) : List PairWrite → Option Nat
  | [] => none
  | p :: ps => if b.rejects p.h p.v then some p.idx else judgePairs ((acceptWrite p.h p.v).run b) ps

/-- The rejected pair of a grouping: the first among those grouped before it, or the one that does not group. -/
def firstRejected (b : Blk) (ps : List (Nat × Word)) : Option Nat :=
  match groupPairs ps.length 0 ps with
  | .ok l => judgePairs b l
  | .error i =>
    match groupPairs i 0 (ps.take i) with
    | .ok l => some ((judgePairs b l).getD i)
    | .error j => some j

/-- The pairs of a REG_WRITE. -/
def pairsOf (ws : List Word) : List (Nat × Word) :=
  (List.range (min 6 (dw ws 1 % 16))).map fun i => (dw ws (2 + 2 * i), ws.getD (3 + 2 * i) 0)

/-- The shadow words a REG_WRITE landed stand before an MMIO write of its bead interval (R63). -/
def ringLanded (l : List PairWrite) : Prog :=
  modAux fun a => { a with
    bead := { a.bead with ringNext := l.flatMap fun p => (List.range p.h.d.words).map fun i => p.h.base + 4 * i } }

/-- The pairs of a REG_WRITE land. The descriptor completes before a pair that requests an abort acts, since it runs to
its normal end (R103). With `late` the writes fall in the bead interval of the next command. -/
def landPairs (ring : Nat) (late : Bool) (l : List PairWrite) : Prog :=
  let accept := fun (aborts : Bool) =>
    progEach (l.filter fun p => (p.h.base == Reg.SYS_ABORT) == aborts) fun p => acceptWrite p.h p.v
  progAll [
    if late then lateWrite (accept false) else accept false,
    ringLanded l,
    completeOk ring 0,
    accept true]

/-- REG_WRITE (R83, R84). -/
def regWriteDescr (ring : Nat) (late : Bool) : Prog :=
  descr ring 0x03 false fun ws =>
    .get fun b =>
      let n := dw ws 1 % 16
      let rules := ⟨1, 0xF, fun w => w % 16 != 0⟩ ::
        (List.range (min 7 n)).flatMap fun i => [⟨2 + 2 * i, 0x1FFFFF, fun _ => true⟩, anyW (3 + 2 * i)]
      checked ring
        (firstFail ([fieldFail ws rules, lenFail ws 1 15 (decide (7 ≤ n))] ++
          (List.range (min 6 n)).map fun i => alignFail ws (2 + 2 * i) 4))
        (match firstRejected b (pairsOf ws) with
        | some i =>
          let (o, _) := (pairsOf ws).getD i (0, 0)
          progAll [
            mapLast o 1 (b2n (findReg o).isNone),
            setFlagBit (if (findReg o).isNone then flUnmapped else flReject),
            complete ring 0x09 i]
        | none =>
          match groupPairs 6 0 (pairsOf ws) with
          | .ok l => landPairs ring late l
          | .error _ => .skip)

/-- Reading `n` words from an offset, a 64-bit register in one access (R86). -/
def readWords : Nat → Nat → List Word → (List Word → Prog) → Prog
  | 0, _, acc, k => k acc
  | n + 1, off, acc, k => .get fun b => .seq (touchWord off) (readWords n (off + 4) (acc ++ [b.readWord off]) k)

/-- REG_READ (R85, R86). -/
def regReadDescr (ring : Nat) : Prog :=
  descr ring 0x04 false fun ws =>
    let n := dw ws 1 % 65536
    checked ring
      (firstFail [
        fieldFail ws [⟨1, 0xFFFF, fun w => w != 0⟩, ⟨2, 0x1FFFFF, fun _ => true⟩, anyW 4, anyW 5, anyW 6],
        lenFail ws 1 0xFFFF (decide (512 < n ∨ dw ws 6 < n * 4)),
        lenFail ws 6 0xFFFFFFFF false,
        alignFail ws 2 4, alignFail ws 4 4])
      (readWords n (dw ws 2) [] fun vs => .seq (emit (.hostWrite (addr64 ws 4) vs)) (completeOk ring 0))

/-- A TABLE_LOAD of a ring is no longer writing its region. -/
def endLoad (ring : Nat) : Prog := modAux fun a => { a with loads := a.loads.filter fun l => l.ring != ring }

/-- A part of what a TABLE_LOAD reads reaches the window after the `done` bytes before it; with the last part, or at a
read error, the descriptor completes. -/
def loadPart (ring o n done : Nat) (data : Option (List Word)) (last : Bool) : Prog :=
  .seq (endLoad ring)
    (match data with
    | none => complete ring 0x08 0
    | some d =>
      let bs := (d.flatMap wordBytes).take (n - done)
      .seq (winWrite (o + done) bs)
        (if last then completeOk ring 0
        else modAux fun a => { a with loads := a.loads ++ [⟨ring, o, n, done + bs.length⟩] }))

/-- TABLE_LOAD (R87, R398), with a part of the bytes read from the host or a read error: the whole where `last` comes with
the first part. -/
def tableLoadDescr (ring : Nat) (data : Option (List Word)) (last : Bool) : Prog :=
  descrStage ring 0x05 fun begun ws =>
    .get fun b =>
      let n := dw ws 4
      let o := dw ws 5
      if begun then
        loadPart ring o n (((b.aux.loads.find? fun l => l.ring == ring).map TableWrite.done).getD 0) data last
      else
        checked ring
          (firstFail [
            fieldFail ws [anyW 2, anyW 3, ⟨4, 0xFFFFFFFF, fun w => w == 0xFFFFFFFF || (w != 0 && w % 64 == 0)⟩,
              ⟨5, 0x3FFFFFF, fun _ => true⟩],
            lenFail ws 4 0xFFFFFFFF (decide (0x4000000 < o + n)),
            alignFail ws 2 64, alignFail ws 5 64,
            if o + n ≤ 0x4000000 ∧ unmappedRange o n then some ⟨0x0D, 0⟩ else none,
            if o + n ≤ 0x4000000 ∧ b.busyRange o n then some ⟨0x0C, 0⟩ else none])
          (.seq (progIf (!last) (.op (.ring ring .start))) (loadPart ring o n 0 data last))

end Sys2Proof.Machine
end

