-- ==== Sys2Proof/Machine/Tick.lean ====
section
/-!
DEFINITION. The tick edge (R23 to R30, R39, R136 to R158, R244): results of the tick that ends reach their beads, time
advances, transitions and commits take effect, uplinks are sampled and downlinks launched, setpoints are handed over,
runs pass, and the computations of the tick that begins are made.
-/
namespace Sys2Proof.Machine

/-! ### Results that miss their bead (R25 to R29, R164) -/

/-- A head has results in a tick (R29). -/
def Blk.hasResult (b : Blk) (h : Nat) : Bool :=
  !(b.mode h == .off || b.mode h == .reset || b.mode h == .selftest) && !b.unusable h

/-- An engine serves a head: servo and Trowel engines and melt-pool units four heads each, Pergola all. -/
def serves (n h : Nat) : Bool := n == 24 || (n % 8 == h / 4)

/-- An engine has a result in a tick; Pergola has one for a head that offered a proposal or a probe (R28). -/
def Blk.engineHas (b : Blk) (n h : Nat) : Bool :=
  serves n h && b.hasResult h && (n != 24 || (b.itemOf h).isSome)

/-- The engines late for a head, given the late results named: Pergola is late for every head at once. -/
def Blk.lateFor (b : Blk) (late : List (Nat × Nat)) (h : Nat) : List Nat :=
  (List.range 25).filter fun n =>
    b.engineHas n h && late.any fun (m, g) => m == n && (n == 24 || g == h)

/-- The slack of an engine in ns: none when it has no result for any head (R29). -/
def Blk.slackOf (b : Blk) (late : List (Nat × Nat)) (slack : List Nat) (n : Nat) : Option Nat :=
  if (List.range 32).any fun h => b.engineHas n h then
    some (if (List.range 32).any fun h => (b.lateFor late h).contains n then 0 else slack.getD n 0)
  else none

/-- A slack is below SLACK_WARN per cent of the tick period (R30). -/
def Blk.slackLow (b : Blk) (ns : Nat) : Bool :=
  decide (ns * 100000 < b.tickPs * b.f Reg.SYS_TICK_ACT F.SYS_TICK_ACT_SLACK_WARN)

/-- A measured slack reaches its registers (R29, R30). -/
def recordSlack (n ns : Nat) (low : Bool) : Prog :=
  progAll [
    setF (Reg.SYS_SLACK n) F.SYS_SLACK_LAST_SLACK (min 0xFFFF ns),
    modF (Reg.SYS_SLACK n) F.SYS_SLACK_MIN_SLACK fun m => min m (min 0xFFFF ns),
    progIf low (setFlag (flSlackLow n))]

/-- SYS_SLACK_REARM: MIN_SLACK of the engines named starts again. -/
def rearmSlack (mask : Nat) : Prog :=
  progEach ((List.range 25).filter fun n => bit mask n) fun n =>
    setF (Reg.SYS_SLACK n) F.SYS_SLACK_MIN_SLACK 0xFFFF

/-- Modes in which three consecutive misses put a head into SAFE (R27). -/
def missSafe : Mode → Bool
  | .off | .reset | .selftest | .safe => false
  | _ => true

/-- What late results of a head do beside the repeats (R26, R27, R164): flags, events, consecutive misses. -/
def lateOutcome (h : Nat) (ns : List Nat) : Prog :=
  .get fun b =>
    let row := (List.range 4).map fun k =>
      if ns.any fun n => n / 8 == k then (b.trowel h).lateRow.getD k 0 + 1 else 0
    let third := ns.find? fun n => decide (3 ≤ row.getD (n / 8) 0)
    progAll [
      progEach ns fun n => setFlag (flTickLate n h),
      modTrowel h fun t => { t with lateRow := row },
      match third with
      | some n => progIf (missSafe (b.mode h)) (requestSafe h .tickLate (flTickLate n h).key)
      | none => .skip]

/-- The hold trajectory begins, where the head does not follow one already; without a run its emission ends (R154). The
clean ticks of R27 run on: after a miss of the melt-pool unit or Pergola those before it count toward RESUME_TICKS, since
the servo and Trowel engines had their slack then (DESIGN CHOICE: R27 does not say where its count begins). -/
def holdStart (h : Nat) : Prog :=
  .get fun b =>
    match b.engineRun h with
    | none => modTrowel h Trowel.putOut
    | some r => modTrowel h fun t =>
        if t.st = .hold ∨ t.st = .yield ∨ t.st = .emergency then t
        else { t.holdFrom (b.runCtx h r).c .hold with cleared := false, probes := 0 }

/-! ### Transitions at the edge (R39) -/

/-- A transition accepted before is no longer open at the edge: R36 has no row for it from the mode held there, effect g
of the storage domain bars a head in ARMED from EXPOSE (R43), or what holds a domain in SAFE has come up (R58, R105). -/
def Blk.closed (b : Blk) (t : Trans) : Bool :=
  let m := b.mode t.dom
  !row36 (b.prevMode t.dom) m t.mode ||
    (kindOf t.dom == .head && m == .armed && t.mode == .expose && b.storageG) ||
    (m == .safe && (b.aux.safeInLow || b.faultStands t.dom || b.abortActive))

/-- The transitions accepted take effect, each where it is still open. -/
def takeTransitions : Prog :=
  .get fun b =>
    .seq (modAux fun a => { a with trans := [] })
      (progEach b.aux.trans fun t => progWhen (fun c => !c.closed t) (enterMode t.dom t.mode t.cause))

/-- Effect H of core HOLD on the heads (R43): a head whose run is done and whose light is out. -/
def coreHoldEdge : Prog :=
  progEach (List.range 32) fun h =>
    progWhen (fun b => b.mode dCore == .hold && b.mode h == .expose && !b.busyHead h && (b.trowel h).isOut)
      (enterMode h .hold .core)

/-- The core returns to SETUP when the build is over (R551), at the edge at which it enters ARMED where that is the first
at which the rule holds: DESIGN CHOICE, the rule leaves open whether ARMED lasts a tick. -/
def buildEdge : Prog :=
  progWhen Blk.buildOver
    (progAll [modBuild fun _ => Build.init, forgetPatches, enterMode dCore .setup .done])

/-! ### Beads of a head (R23, R217, R235, R244) -/

/-- The downlink frame of a head for the present edge, `late` where a result of the tick missed it. -/
def Blk.frameOf (b : Blk) (h : Nat) (late : Bool) : DownFrame :=
  let x := b.lane h
  let e := (b.trowel h).emit
  let repeated := late || x.lost == 1
  let safe := b.mode h == .safe
  let lit := b.mode h == .expose || b.mode h == .drain
  let dark := repeated || !lit
  let period := b.f Reg.SYS_TICK_ACT F.SYS_TICK_ACT_PERIOD
  let ax := fun i => b.axis (3 * h + i)
  let lim := fun i => Int.ofNat (b.a (Reg.SRV_AXIS_PMSAFE (3 * h + i)) F.SRV_AXIS_PMSAFE_SAFE_OUT_LIM)
  { seq := b.aux.clk.tick % 65536, tph := b.tph, arm := b.laserEn h,
    gate0 := !dark && e.level, edges := if dark then [] else e.edges,
    rep := repeated || (List.range 3).any fun i => (ax i).miss == 1,
    demand := (List.range 3).map fun i =>
      let d := if b.headTested h || 2 ≤ (ax i).miss then 0 else if repeated then (ax i).demand else (ax i).next
      if (ax i).tripped then clampI (-(lim i)) (lim i) d else d,
    power := if safe then 0 else if repeated then (match x.sent with | some f => f.power | none => 0)
      else if lit && (e.level || !e.edges.isEmpty) then (b.pool h).power else 0,
    upOfs := b.a (Reg.HLK_LANE_CFG h) F.HLK_LANE_CFG_UP_OFS, period := period }

/-- The uplink sample bead of a head: what arrived, or its loss. -/
def sampleHead (h : Nat) : Prog :=
  .get fun b =>
    let x := b.lane h
    progAll [
      takeBlock h,
      progEach (List.range 3) fun i => modAxis (3 * h + i) fun a =>
        match x.rx with
        | some rx => { a with y := rx.pos.getD i 0, valid := rx.good.getD i false }
        | none => { a with valid := false },
      if x.rx.isSome || !b.expects h then beadClear h true
      else .seq (frameLost h) (beadClear h false)]

/-- The downlink launch bead of a head. A lane that is not UP launches nothing. -/
def launchHead (h : Nat) (f : DownFrame) : Prog :=
  .get fun b =>
    let up := b.laneUp h
    progAll [
      modLane h fun x => { x with third := x.before, before := x.sent, sent := if up then some f else none },
      progIf up (progAll [
        progEach (List.range 3) fun i => modAxis (3 * h + i) fun a => { a with demand := f.demand.getD i 0 },
        emit (.lane h 0 f.words),
        depositTick h f]),
      gapFill h (if up then frameGroups f.words.length else 0)]

/-- The hold that follows the first loss of an uplink frame (R244). -/
def lossHold (h : Nat) : Prog :=
  .get fun b =>
    progIf ((b.lane h).lost == 1 && (b.mode h == .expose || b.mode h == .drain))
      (.seq (holdStart h) (progIf (b.engineRun h).isSome (modLane h fun x => { x with hold := true })))

/-- The beads of one head at an edge: launch from what the tick computed, sample, hand over. -/
def headBeads (late : List (Nat × Nat)) (h : Nat) (trowelLate : Bool) : Prog :=
  .get fun b =>
    let f := b.frameOf h (late.any fun (_, g) => g == h)
    progAll [
      progIf (b.hasResult h || (b.lane h).rx.isSome || (b.lane h).sent.isSome) (sampleHead h),
      launchHead h f,
      lossHold h,
      trimEdge h,
      progIf (!trowelLate) (modTrowel h fun t => { t with sp := t.next })]

/-! ### The Trowel computation of a tick (R136 to R158, R200) -/

/-- A command position lies in the active field window (R138). -/
def Blk.inField (b : Blk) (h : Nat) (p : P2) : Bool :=
  decide (b.winEdge h 0 ≤ p.x ∧ p.x ≤ b.winEdge h 2 ∧ b.winEdge h 1 ≤ p.y ∧ p.y ≤ b.winEdge h 3)

/-- The engine follows the run's strokes: it runs, approaches, or waits for strokes. -/
def followsRun : HState → Bool
  | .run | .connector | .starved => true
  | _ => false

/-- The Z setpoint wanted (R148, R159); none where Z holds its last value. -/
def Blk.zWanted (b : Blk) (h : Nat) (t : Trowel) : Option Int :=
  if b.a (Reg.TRW_HEAD_CFG h) F.TRW_HEAD_CFG_FOCUS_EN = 0 then some (intW (b.aw (Reg.TRW_HEAD_ZPARK h)))
  else
    if followsRun t.st then
      let z := (match t.pieces with | p :: _ => p.heightAt t.motion.1 | [] => t.zh) + sgn 32 (dw (b.headSet h) 8)
      some (b.fieldOf h 0x9000 4 t.pos + rsh (intW (b.aw (Reg.TRW_HEAD_ZGAIN h)) * z) 16)
    else none

/-- The Z setpoint of a tick from the last one, and whether ZSTEP_MAX limited it. -/
def Blk.zStep (b : Blk) (h : Nat) (t : Trowel) (last : Int) : Int × Bool :=
  match b.zWanted h t with
  | none => (last, false)
  | some z =>
    let lim := Int.ofNat (b.a (Reg.TRW_HEAD_ZCFG h) F.TRW_HEAD_ZCFG_ZSTEP_MAX * 65536)
    let y := clampI (last - lim) (last + lim) z
    (y, y != z)

/-- The X and Y setpoints of the path (R136). A stop from a path without a run keeps its offset in the field (R156). -/
def Blk.setpointXY (b : Blk) (h : Nat) (t : Trowel) : List Int :=
  if t.st = .emergency then (b.fieldXY h t.pos).zipWith (· + ·) (t.spFrom.take 2) else b.fieldXY h t.pos

/-- Strokes marked in their runs' records (R152, R159). -/
def markStrokes (l : List (Key × Nat)) : Prog :=
  progEach l fun x => touchRun x.1 fun r => { r with marks := x.2 :: r.marks }

/-- The strokes whose last setpoint has been computed (R550). -/
def Trowel.finished (t : Trowel) : Nat := if t.unbegun then 0 else if t.pieces.isEmpty then t.stroke + 1 else t.stroke

/-- One tick of the path of a head that has left its park (R137 to R158). -/
def pathTick (h : Nat) : Prog :=
  .get fun b =>
    let t := b.trowel h
    let run := b.engineRun h
    let rc := match run with
      | some r => if followsRun t.st then some (b.runCtx h r) else none
      | none => none
    let c := match run with | some r => (b.runCtx h r).c | none => b.hcfg h (b.headSet h)
    let o := engineTick rc c t
    let flags := if t.st = .starved then o.flags.filter fun i => i != 5 else o.flags
    let (z, lag) := b.zStep h o.t (t.next.getD 2 0)
    progAll [
      modTrowel h fun _ => o.t,
      progEach flags fun i => setFlag (flTrw h i),
      markStrokes o.marks,
      match run with
      | some r =>
        progAll [
          progIf o.boundary (commitClass (· == h) .stroke),
          progIf (followsRun t.st && (o.boundary || o.t.pieces.isEmpty)) (strokesLeave r o.t.finished),
          progIf o.starved (touchRun r.key fun x => { x with starved := x.starved + 1 })]
      | none => .skip,
      if b.inField h o.t.pos || b.mode h == .safe then
        .seq (modTrowel h fun x => { x with next := b.setpointXY h o.t ++ [z] })
          (progIf lag (setFlag (flTrw h 3)))
      else
        progAll [
          setFlag (flTrw h 6),
          modTrowel h fun x => { x with next := x.sp },
          requestSafe h .domainFault (flTrw h 6).key],
      progIf o.ended (runDone h)]

/-- The setpoint path of R200 toward the targets of a mode, and the end of HOME. -/
def parkTick (h : Nat) (target : Nat → Int) (home : Bool) : Prog :=
  .seq
    (modTrowel h fun t =>
      let n := t.spTicks + 1
      { t with
        spTicks := min n 4001
        next := (List.range 3).map fun i => parkPath (t.spFrom.getD i 0) (target i) n })
    (.get fun b => progIf (home && (b.trowel h).spTicks == 4000) (requestMode h .setup .done))

/-- The run a head waits to start counts the ticks its order condition, or the want of a generation of its set, takes
(R120, R130). The dwell after a run comes first (R158). -/
def countWait (h : Nat) : Prog :=
  .get fun b =>
    match b.nextRun h with
    | some r => progIf (b.mode h == .expose && !b.busyHead h && (b.trowel h).dwellLeft == 0 && b.waitsOrder r)
        (touchRun r.key fun x => { x with waits := x.waits + 1 })
    | none => .skip

/-- The lag of an axis at the end of a ramp (R149), in ps: the following distance of the sample over the velocity of the
setpoint, both in field LSB. -/
def Blk.rampLag (b : Blk) (h i : Nat) (t : Trowel) : Option Nat :=
  let v := absI (t.sp.getD i 0 - t.spFrom.getD i 0)
  let a := b.axis (3 * h + i)
  if a.valid && decide (0 < v) then some (absI (t.sp.getD i 0 - a.y) * Int.ofNat b.tickPs / v).toNat else none

/-- One tick of the ramps of CALIBRATE (R149): X and Y at 2 m/s across the field window and back, both at once (DESIGN
CHOICE: the spec gives the velocity, not the extent), the lag taken where a ramp turns back. -/
def rampTick (h : Nat) : Prog :=
  .get fun b =>
    let t := b.trowel h
    let len := speedU 2000000 * Int.ofNat b.tickPs / e12
    let step := fun (lo hi x : Int) (i : Nat) =>
      if lo < hi then rampStep lo hi len x (t.dirs.getD i true) else (x, t.dirs.getD i true)
    let (x, ux) := step (b.winEdge h 0) (b.winEdge h 2) t.pos.x 0
    let (y, uy) := step (b.winEdge h 1) (b.winEdge h 3) t.pos.y 1
    let lags := fun (i : Nat) (u : Bool) (l : List Nat) =>
      if u = t.dirs.getD i true then l
      else match b.rampLag h i t with
        | some n => l.set (2 * i + if u then 1 else 0) n
        | none => l
    modTrowel h fun t => { t with
      pos := ⟨x, y⟩, dirs := [ux, uy], spFrom := t.sp, calLag := lags 1 uy (lags 0 ux t.calLag)
      next := b.fieldXY h ⟨x, y⟩ ++ [t.next.getD 2 0] }

/-- The Trowel computation of a tick by the head's mode. -/
def trowelTick (h : Nat) : Prog :=
  .get fun b =>
    match b.mode h with
    | .off | .reset | .selftest => .skip
    | .setup => parkTick h (fun i => intW (b.aw (Reg.SRV_AXIS_PARK (3 * h + i)))) false
    | .home => parkTick h (fun _ => 0) true
    | .calibrate => rampTick h
    | .service => modTrowel h fun t => { t with next := t.sp }
    | .armed | .expose | .hold | .drain | .safe =>
      progAll [
        modTrowel h fun t => { t with dwellLeft := t.dwellLeft - 1 },
        if (b.trowel h).st = .parked then modTrowel h fun t => { t with next := t.sp } else pathTick h,
        countWait h]

/-- The computations of a tick for one head: Trowel, then its three servo axes (R24). -/
def headCompute (h : Nat) : Prog :=
  .seq (trowelTick h) (progEach (List.range 3) fun i => axisStage h i)

/-! ### The tick edge (R441) -/

/-- The requests held for a tick edge act (R543). -/
def takeRequests (k : Nat) : Prog :=
  .get fun b =>
    let mask := fun (off : Nat) => ((b.aux.reqs.find? fun r => r.1 == off).map Prod.snd).getD 0
    progAll [
      modAux fun a => { a with reqs := [] },
      progIf (bit (mask Reg.OVL_SNAP) 0) ovlLatch,
      progEach ((List.range 8).filter fun s => bit (mask Reg.SRV_SNAP) s) fun s => srvLatch s k,
      progEach ((List.range 2).filter fun c => bit (mask Reg.DMC_WQ_SNAP) c) wqLatch,
      progIf (bit (mask Reg.EVR_SNAP) 0) evrLatch,
      progEach ((List.range 2).filter fun p => bit (mask Reg.PTP_TSQ_SNAP) p) tsqLatch]

/-- The results of the tick that ends, still under its tick count: Pergola's decision, then the melt-pool units on
what it leaves. -/
def resultsOf (pergolaLate : Bool) : Prog :=
  .get fun b =>
    let yielding := (List.range 32).filter fun h => (b.trowel h).yieldAge != 0
    progAll [
      progEach (List.range 32) fun h =>
        match (b.trowel h).emit.spot with
        | some p => modPool h fun q => { q with spot := some (bedNear p.x, bedNear p.y) }
        | none => .skip,
      exclusion pergolaLate,
      progEach yielding countYield,
      .get fun c => progEach (List.range 32) fun h =>
        if c.hasResult h then
          poolTick h (c.phaseNo == 3) (c.ghead h) fun pw => modPool h fun q => { q with power := pw }
        else traceEnd h]

/-- Slack and lateness of the tick that ends (R26 to R30, R164, R473, R474). `b0` is the block before its results. -/
def slackOutcome (b0 : Blk) (late : List (Nat × Nat)) (slack : List Nat) : Prog :=
  let got := (List.range 25).filterMap fun n => (b0.slackOf late slack n).map fun ns => (n, ns)
  let low := got.filter fun x => b0.slackLow x.2
  let anyLate := (List.range 32).any fun h => !(b0.lateFor late h).isEmpty
  let pct := got.foldl (fun m x => min m (x.2 * 100000 / b0.tickPs)) 100
  progAll [
    rearmSlack (((b0.aux.reqs.find? fun r => r.1 == Reg.SYS_SLACK_REARM).map Prod.snd).getD 0),
    progEach got fun (n, ns) => recordSlack n ns (b0.slackLow ns),
    progEach (List.range 32) fun h =>
      .seq (lateOutcome h (b0.lateFor late h))
        (modTrowel h fun t => { t with
          cleanTicks := if low.any fun x => x.1 == h / 4 || x.1 == 8 + h / 4 then 0 else t.cleanTicks + 1
          holdTicks := if b0.mode h = .hold then t.holdTicks + 1 else t.holdTicks }),
    .get fun b => pmuTick pct (!low.isEmpty) anyLate b.loadSettled]

/-- The heads with late results in EXPOSE enter HOLD, those in DRAIN follow the hold trajectory until RESUME_TICKS clean
ticks (R26, R27). -/
def lateHolds (hs : List Nat) : Prog :=
  progEach hs fun h =>
    .get fun b =>
      if b.mode h = .expose then enterMode h .hold .tickLate
      else progIf (b.mode h == .drain)
        (.seq (holdStart h) (modTrowel h fun t => { t with missed := t.run.isSome }))

/-- Pergola's movements of a tick, suspended runs before releases (R178); steals last, which the spec leaves open (DESIGN
CHOICE). -/
def movements : Prog := progAll [suspendedPasses, releases, steals]

/-- The beads of the bars at an edge, `el` 10 ns units after the one before: the duty buckets gain (R313), a single firing
begins or ends (R324), and the halves' frames pass. -/
def barBeads (el : Nat) : Prog :=
  progEach [0, 1] fun f => progAll [
    barRefill el f,
    fireTick f,
    progEach [0, 1] fun l => .seq (halfBead f l) (launchHalf f l)]

/-- The periods of DEP that have passed (R252). -/
def depTick : Prog := progEach (List.range 4) fun j => modLane (36 + j) fun x => { x with depLeft := x.depLeft - 1 }

/-- The cascade transmitters at an edge: idle on the lane of the member's own number (R250), and in OFF and RESET where
DEP has gone out (R252), and where its framer has failed (R491); otherwise a lane that was idle begins its bring-up
(R229). -/
def cascTransmit (j : Nat) : Prog :=
  .get fun b =>
    let l := 36 + j
    let off := b.mode dCore == .off || b.mode dCore == .reset
    if j = b.memberId ∨ (off ∧ (b.lane l).depLeft = 0) ∨ b.unitResult (54 + j) = 2 then
      progIf (b.laneState l != 0) (laneIdle l)
    else progIf (!off && b.laneState l == 0) (laneStart l)

/-- What goes on the lanes beside the tick frames: requests of the capability exchange and probes (R229, R240), and the
adaptation of the receivers (R228). -/
def laneTicks : Prog :=
  progEach (List.range 40) fun l => progAll [capRequest l, probeLaunch l, dfeAdapt l, laneEdge l]

/-- A coat whose carriage slot is 15 moves no carriage, so the bars' work in it ends at once (R307). -/
def noCarriageEnd : Prog :=
  .get fun b =>
    progIf (b.aux.carriage.slot == 15 && b.phaseNo == 1 && !b.aux.carriage.held) (floatCarriageEnd b.carriageGroup)

/-- TICK_EDGE (R441): `late` names the results that missed their beads, an engine 0 to 24 and a head, and `slack` the
slack of each engine in ns. A late result is discarded at its bead only: the engine's own state (the path of the Trowel
engine, QP and ff of the melt-pool unit) goes on as if the result had been in time (DESIGN CHOICE: R26 does not say what
becomes of it; R216 says the same of the controller of the servo engine). -/
def tickEdgeProg (late : List (Nat × Nat)) (slack : List Nat) : Prog :=
  .get fun b0 =>
    let late := late ++ b0.aux.lateLaunch.map fun h => (8 + h / 4, h)
    let lateHeads := (List.range 32).filter fun h => !(b0.lateFor late h).isEmpty
    let all := (List.range 32).flatMap fun h => (b0.lateFor late h).map fun n => (n, h)
    let trowelLate := fun (h : Nat) => all.any fun (n, g) => g == h && n / 8 == 1
    progAll [
      resultsOf (all.any fun (n, _) => n == 24),
      modAux fun a => { a with lateLaunch := [] },
      leaveExchange,
      advanceTime (b0.tickPs / 1000),
      depTick,
      slackOutcome b0 late slack,
      drainSafe 4,
      lateHolds lateHeads,
      coreHoldEdge,
      takeTransitions,
      bootTick,
      edgeCommit,
      agreeCoat b0.aux.clk.tick,
      buildEdge,
      drainSafe 4,
      leavePasses,
      progEach (List.range 4) cascTransmit,
      progEach (List.range 40) laneStep6,
      progEach (List.range 32) fun h => headBeads all h (trowelLate h),
      progEach (List.range 8) camEdge,
      barBeads (b0.tickPs / 10000),
      laneTicks,
      takeRequests b0.aux.clk.tick,
      progEach (List.range 32) headCompute,
      movements,
      progEach (List.range 12) axisMotionTick,
      progEach (List.range 4) divTick,
      carriageTick,
      noCarriageEnd,
      progEach [0, 1] barTick,
      progEach (List.range 4) (ledTick (b0.tickPs / 10000)),
      drainQueues,
      selfRefreshEdge,
      throttleScale]

/-- COAT_BOUNDARY (R111): the tick edge at which the boundary of the next coat falls. At an edge without one it is no
command of the part's. -/
def coatBoundaryProg (late : List (Nat × Nat)) (slack : List Nat) : Prog :=
  .get fun b => progIf (((tickEdgeProg late slack).run b).coatNo != b.coatNo) (tickEdgeProg late slack)

end Sys2Proof.Machine
end

