-- ==== Sys2Proof/Machine/Finish.lean ====
section
/-!
DEFINITION. How a command's meaning acts on the machine: its program, then the SAFE triggers it took, its events, the
messages due, the pins that moved and the diagnostic capture of the frames it sent.
-/
namespace Sys2Proof.Machine

/-- The level of SAFE_OUT (R507): at 10 kHz it changes every 50 µs while the sequencer runs and the core is not in SAFE;
otherwise it is low. Its phase follows TB2 (DESIGN CHOICE: the spec names none). -/
def Blk.safeOut (b : Blk) : Nat :=
  if b.aux.inReset || b.f Reg.SYS_BOOT_STAT F.SYS_BOOT_STAT_FW_STATE != 2 || b.mode dCore == .safe then 0
  else b.ns2 / 50000 % 2

/-- Pins whose level follows from the state: LASER_EN of a head, MEN of an axis and the pass-through of a group (R34, R334,
R360), SAFE_OUT (R507), and TDO, 0 where it is undriven and 1 where the open TAP may drive it (R501). -/
def Blk.pinLevels (b : Blk) : List (String × Nat × Nat) :=
  ((List.range 32).map fun h => ("LASER_EN", h, b2n (b.laserEn h))) ++
    ((List.range 12).map fun a => ("MEN", a, b2n (b.menLevel a))) ++
    ((List.range 4).flatMap fun g =>
      let l := b.passLevels g
      [("PASS_A", g, b2n l.1), ("PASS_B", g, b2n l.2.1), ("PASS_Z", g, b2n l.2.2)]) ++
    [("SAFE_OUT", 0, b.safeOut), ("TDO", 0, b2n (!b.tapHeld))]

/-- Pins that moved are driven. -/
def drivePins (before : Blk) : Prog :=
  .get fun b =>
    progEach ((b.pinLevels.zip before.pinLevels).filter fun x => x.1.2.2 != x.2.2.2) fun x =>
      emit (.pin x.1.1 x.1.2.1 x.1.2.2)

/-- Frames sent in a command are captured where their lane is (R399): 0 a head's, 5 a cascade frame, 6 a bar's. -/
def captureSent : Prog :=
  .get fun b =>
    progEach b.aux.out fun o =>
      match o with
      | .lane l kind ws => progIf (kind == 0 || kind == 5 || kind == 6) (diagCapture l false true b.aux.clk.tick ws)
      | _ => .skip

/-- The end of every command. -/
def finishProg (before : Blk) : Prog :=
  progAll [drainSafe 4, drainEvents, sendDue, drivePins before, captureSent]

/-- A command begins: outputs are those of this command alone, and the bead interval is its own. -/
def Aux.begin (a : Aux) : Aux := { a with out := [], bead := a.bead.next }

/-- What a command does to the block. -/
def Blk.after (b : Blk) (p : Prog) : Blk := (Prog.seq p (finishProg b)).run { b with aux := b.aux.begin }

/-- A command acts, also on a part in reset. -/
def State.always (s : State) (p : Prog) : Host.Outcome State Fault Refusal :=
  .next { s with blk := s.blk.after p }

/-- A command acts on a part that is not in reset; in reset it is without effect (R508, R509). -/
def State.act (s : State) (p : Prog) : Host.Outcome State Fault Refusal :=
  s.always (if s.blk.aux.inReset then .skip else p)

end Sys2Proof.Machine
end

