-- ==== Sys2Proof/Machine/BuildCmds.lean ====
section
/-!
DEFINITION. The meanings of build-data commands: builds, coats and their phases, parts, patches, sets and
streams (R108 to R135, R301, R413 to R415, R550, R551).
-/
namespace Sys2Proof.Machine

/-- BUILD_OPEN (R108). -/
def execBuildOpen (ring : Fin 40) (s : State) : Host.Outcome State Fault Refusal :=
  s.act (buildOpenProg ring)

/-- BUILD_CLOSE (R551). -/
def execBuildClose (ring : Fin 40) (s : State) : Host.Outcome State Fault Refusal :=
  s.act (buildCloseProg ring)

/-- COAT_DEFINE (R110). -/
def execCoatDefine (ring : Fin 40) (s : State) : Host.Outcome State Fault Refusal :=
  s.act (coatDefineProg ring)

/-- COAT_START (R112). -/
def execCoatStart (ring : Fin 40) (s : State) : Host.Outcome State Fault Refusal :=
  s.act (coatStartProg ring)

/-- COAT_CUT (R114). -/
def execCoatCut (ring : Fin 40) (s : State) : Host.Outcome State Fault Refusal :=
  s.act (coatCutProg ring)

/-- PART_LOAD (R116), with the words its host read returns, none for a read error. -/
def execPartLoad (ring : Fin 40) (data : Option (List Word)) (s : State) : Host.Outcome State Fault Refusal :=
  s.act (partLoadProg ring data)

/-- PATCH_LOAD (R116), with the words its host read returns, none for a read error. -/
def execPatchLoad (ring : Fin 40) (data : Option (List Word)) (s : State) : Host.Outcome State Fault Refusal :=
  s.act (patchLoadProg ring data)

/-- PSET_WRITE (R118), with the words its host read returns, none for a read error. -/
def execPsetWrite (ring : Fin 40) (data : Option (List Word)) (s : State) : Host.Outcome State Fault Refusal :=
  s.act (psetWriteProg ring data)

/-- STREAM_RESET (R134). -/
def execStreamReset (ring : Fin 40) (s : State) : Host.Outcome State Fault Refusal :=
  s.act (streamResetProg ring)

/-- STREAM_APPEND (R122). -/
def execStreamAppend (ring : Fin 40) (s : State) : Host.Outcome State Fault Refusal :=
  s.act (streamAppendProg ring)

/-- APPEND_BUFFER_READ (R124), with the words its host read returns, none for a read error. -/
def execAppendBufferRead (ring : Fin 40) (data : Option (List Word)) (s : State) : Host.Outcome State Fault Refusal :=
  s.act (appendBufferReadProg ring data)

/-- COAT_BOUNDARY (R111): the tick edge at which the boundary falls, with the late results and the slacks as in
TICK_EDGE. -/
def execCoatBoundary (s : State) (late : List (Nat × Nat) := []) (slack : List Nat := List.replicate 25 0) : Host.Outcome State Fault Refusal :=
  s.act (coatBoundaryProg late slack)

/-- PHASE2_START (R301). -/
def execPhase2Start (s : State) : Host.Outcome State Fault Refusal :=
  s.act (phase2StartProg)

/-- PHASE3_START (R20). -/
def execPhase3Start (s : State) : Host.Outcome State Fault Refusal :=
  s.act (phase3StartProg)

/-- PHASE3_END (R113). -/
def execPhase3End (s : State) : Host.Outcome State Fault Refusal :=
  s.act (phase3EndProg)

/-- HM_FOLD (R271). -/
def execHmFold (s : State) : Host.Outcome State Fault Refusal :=
  s.act (hmFoldProg)

/-- SEGMENT_DURABLE (R415). -/
def execSegmentDurable (s : State) : Host.Outcome State Fault Refusal :=
  s.act (segmentDurableProg)

end Sys2Proof.Machine
end

