-- ==== Sys2Proof/Machine/HeadCmds.lean ====
section
/-!
DEFINITION. The meanings of the commands of ticks, runs, lanes and the cascade (R23 to R41, R130 to R252).
-/
namespace Sys2Proof.Machine

/-- UPLINK_FRAME: the frame may be captured (R399), then it is judged. -/
def uplinkCmd (h : Nat) (ws : List Word) (ahead cv fill : Nat) : Prog :=
  .get fun b =>
    .seq (diagCapture h true (crcOk ws && cv == 0) b.nextTick ws)
      (uplinkFrameProg h ((List.range 3).map fun i => (b.axis (3 * h + i)).loop) ws ahead cv fill)

/-- FLOAT_UPLINK_FRAME: the frame may be captured (R399), then it is judged. -/
def floatUplinkCmd (l : Nat) (ws : List Word) (cv fill : Nat) : Prog :=
  .get fun b =>
    .seq (diagCapture (32 + l) true (crcOk ws && cv == 0) b.nextTick ws) (floatUplinkProg l ws cv fill)

/-- CASCADE_FRAME: the frame may be captured (R399), then it is judged. -/
def cascadeFrameCmd (j : Nat) (ws : List Word) (sof : Int) (reference : Bool) (cv fill : Nat) (prb : Bool) : Prog :=
  .get fun b =>
    .seq (diagCapture (36 + j) true (crcOk ws && cv == 0) b.aux.clk.tick ws)
      (cascadeFrameProg j ws sof reference cv fill prb)

/-- TICK_EDGE (R441): the late results, an engine 0 to 24 and a head each, and the slack of each engine in ns.
-/
def execTickEdge (late : List (Nat × Nat)) (slack : List Nat) (s : State) : Host.Outcome State Fault Refusal :=
  s.act (tickEdgeProg late slack)

/-- AUTO_RESUME (R41). -/
def execAutoResume (h : Fin 32) (s : State) : Host.Outcome State Fault Refusal :=
  s.act (autoResumeProg h)

/-- RUN_START (R130). -/
def execRunStart (h : Fin 32) (s : State) : Host.Outcome State Fault Refusal :=
  s.act (runStartProg h)

/-- PREFETCH_FILL (R550). -/
def execPrefetchFill (ctx : Fin 128) (s : State) : Host.Outcome State Fault Refusal :=
  s.act (prefetchFillProg ctx)

/-- TRANSIT_END (R174). -/
def execTransitEnd (h : Fin 32) (s : State) : Host.Outcome State Fault Refusal :=
  s.act (transitEndProg h)

/-- RUN_SUSPEND (R178). -/
def execRunSuspend (h : Fin 32) (s : State) : Host.Outcome State Fault Refusal :=
  s.act (runSuspendProg h)

/-- YIELD_CLEAR (R187). -/
def execYieldClear (h : Fin 32) (s : State) : Host.Outcome State Fault Refusal :=
  s.act (yieldClearProg h)

/-- RUN_RESUME (R155). -/
def execRunResume (h : Fin 32) (s : State) : Host.Outcome State Fault Refusal :=
  s.act (runResumeProg h)

/-- LINK_HOLD_CLEAR (R245). -/
def execLinkHoldClear (h : Fin 32) (s : State) : Host.Outcome State Fault Refusal :=
  s.act (linkHoldClearProg h)

/-- UPLINK_FRAME (R238): a frame of a head, `ahead` × 10 ns before the next sample bead, with `cv` code
violations, and `fill` in the elastic buffer at the SKP before it. -/
def execUplinkFrame (h : Fin 32) (words : List Word) (ahead : Nat) (cv : Nat) (s : State) (fill : Nat := 8) : Host.Outcome State Fault Refusal :=
  s.act (uplinkCmd h words ahead cv fill)

/-- CAPABILITY_FRAME (R229), with `cv` code violations, and `fill` in the elastic buffer at the SKP before it.
-/
def execCapabilityFrame (lane : Fin 36) (words : List Word) (s : State) (cv : Nat := 0) (fill : Nat := 8) : Host.Outcome State Fault Refusal :=
  s.act (capabilityFrameProg lane words cv fill)

/-- PROBE_ECHO (R240): a round trip of `rt` × 0.32 ns. -/
def execProbeEcho (lane : Fin 40) (rt : Nat) (s : State) : Host.Outcome State Fault Refusal :=
  s.act (probeEchoProg lane rt)

/-- LATENCY_PROBE (R241). -/
def execLatencyProbe (lane : Fin 40) (s : State) : Host.Outcome State Fault Refusal :=
  s.act (latencyProbeProg lane)

/-- LOL (R226), with the code violations met. -/
def execLol (lane : Fin 40) (cv : Nat) (s : State) : Host.Outcome State Fault Refusal :=
  s.act (lolProg lane cv)

/-- LOS (R227). -/
def execLos (lane : Fin 40) (s : State) : Host.Outcome State Fault Refusal :=
  s.act (losCmd lane)

/-- ELASTIC (R225). -/
def execElastic (lane : Fin 40) (s : State) : Host.Outcome State Fault Refusal :=
  s.act (elasticProg lane)

/-- LINK_FAIL (R229). -/
def execLinkFail (lane : Fin 40) (s : State) : Host.Outcome State Fault Refusal :=
  s.act (linkFailProg lane)

/-- DFE_LIMIT (R228): the tap at its upper or lower limit. -/
def execDfeLimit (lane : Fin 40) (s : State) (tap : Fin 5 := 0) (up : Bool := false) : Host.Outcome State Fault Refusal :=
  s.act (dfeLimitProg lane tap up)

/-- FLOAT_UPLINK_FRAME (R316): a frame of lane 32 + `lane`, with `cv` code violations, and `fill` in the elastic
buffer at the SKP before it. -/
def execFloatUplinkFrame (lane : Fin 4) (words : List Word) (cv : Nat) (s : State) (fill : Nat := 8) : Host.Outcome State Fault Refusal :=
  s.act (floatUplinkCmd lane words cv fill)

/-- CASCADE_LAUNCH (R189): `missed` names the heads whose proposal or probe has not reached the launch bead. -/
def execCascadeLaunch (s : State) (missed : List (Fin 32) := []) : Host.Outcome State Fault Refusal :=
  s.act (cascadeLaunchProg (missed.map Fin.val))

/-- CASCADE_FRAME (R251): a frame of a member, its SOF `sof` × 100 ps after the own edge of its tick count;
`reference` when the member is this part's time reference; with `cv` code violations, `fill` in the elastic
buffer at the SKP before it, and a PRB after it with `prb`. -/
def execCascadeFrame (member : Fin 4) (words : List Word) (sof : Int) (reference : Bool) (s : State) (cv : Nat := 0) (fill : Nat := 8) (prb : Bool := false) : Host.Outcome State Fault Refusal :=
  s.act (cascadeFrameCmd member words sof reference cv fill prb)

/-- CASC_MISS (R191). -/
def execCascMiss (member : Fin 4) (s : State) : Host.Outcome State Fault Refusal :=
  s.act (cascMissProg member)

/-- DEPART (R252). -/
def execDepart (member : Fin 4) (s : State) : Host.Outcome State Fault Refusal :=
  s.act (departProg member)

/-- SYNCHRONISED (R226), with what the elastic buffer holds. -/
def execSynchronised (lane : Fin 40) (fill : Nat) (s : State) : Host.Outcome State Fault Refusal :=
  s.act (synchronisedProg lane fill)

/-- DFE_ADAPTATION_DONE (R229). -/
def execDfeAdaptationDone (lane : Fin 40) (taps : Word) (s : State) : Host.Outcome State Fault Refusal :=
  s.act (dfeDoneProg lane taps)

end Sys2Proof.Machine
end

