-- ==== Sys2Proof/Machine/HostCmds.lean ====
section
/-!
DEFINITION. The meanings of host-interface commands: descriptors of the CONTROL and COMMAND rings that act on
modes, registers and the table window, MMIO writes and reads, rings, interrupts, aborts and the link (R61 to
R107, R534 to R545).
-/
namespace Sys2Proof.Machine

/-- NOP (R79). -/
def execNop (ring : Fin 40) (s : State) : Host.Outcome State Fault Refusal :=
  s.act (nopProg ring)

/-- MODE_SET (R82), with the rings whose MODE_SETs fall in the same bead interval (R40). -/
def execModeSet (ring : Fin 40) (s : State) (others : List (Fin 40) := []) : Host.Outcome State Fault Refusal :=
  s.act (modeSetProg ring (others.map Fin.val))

/-- REG_WRITE (R84): with `late` it falls in the bead interval of the command that follows (R50). -/
def execRegWrite (ring : Fin 40) (s : State) (late : Bool := false) : Host.Outcome State Fault Refusal :=
  s.act (regWriteDescr ring late)

/-- REG_READ (R86). -/
def execRegRead (ring : Fin 40) (s : State) : Host.Outcome State Fault Refusal :=
  s.act (regReadDescr ring)

/-- TABLE_LOAD (R87), with the words its host read returns, none for a read error; without `last` more of them
are to come. -/
def execTableLoad (ring : Fin 40) (data : Option (List Word)) (s : State) (last : Bool := true) : Host.Outcome State Fault Refusal :=
  s.act (tableLoadDescr ring data last)

/-- RING_RELEASE (R106). -/
def execRingRelease (ring : Fin 40) (s : State) : Host.Outcome State Fault Refusal :=
  s.act (ringReleaseProg ring)

/-- ABORT (R104). -/
def execAbort (ring : Fin 40) (s : State) : Host.Outcome State Fault Refusal :=
  s.act (abortProg ring)

/-- REGISTER_WRITE (R12): a write of `bytes` bytes at a BAR0 offset, in a bead interval of its own (0), in that
of the command after it (1), or in that of the REG_WRITE before it (2). -/
def execRegisterWrite (off : BitVec 21) (bytes : Nat) (value : BitVec 64) (s : State) (place : Fin 3 := 0) : Host.Outcome State Fault Refusal :=
  s.act (mmioWriteIn place off.toNat bytes value.toNat)

/-- W1C_CLEAR (R544): a 4-byte write, with the bits the hardware sets in the same bead interval. -/
def execW1cClear (off : BitVec 21) (value : Word) (hw : Word) (s : State) : Host.Outcome State Fault Refusal :=
  s.act (w1cClearProg off.toNat value.toNat hw.toNat)

/-- RC_READ (R11): a read of `bytes` bytes at a BAR0 offset, with the value the hardware sets RC fields to in
the same bead interval. -/
def execRcRead (off : BitVec 21) (bytes : Nat) (s : State) (hw : Word := 0) : Host.Outcome State Fault Refusal :=
  s.act (.seq (barReadProg off.toNat bytes) (rcSets off.toNat hw))

/-- RING_NUDGE (R70). -/
def execRingNudge (value : Word) (s : State) : Host.Outcome State Fault Refusal :=
  s.act (regWriteProg Reg.RING_NUDGE value.toNat)

/-- RING_ENABLE (R77): RING_CTRL takes a value with ENABLE 1. -/
def execRingEnable (ring : Fin 89) (value : Word) (s : State) : Host.Outcome State Fault Refusal :=
  s.act (regWriteProg (Reg.RING_CTRL ring) (F.RING_CTRL_ENABLE.put 1 value).toNat)

/-- RING_DISABLE (R76): RING_CTRL takes a value with ENABLE 0. -/
def execRingDisable (ring : Fin 89) (value : Word) (s : State) : Host.Outcome State Fault Refusal :=
  s.act (regWriteProg (Reg.RING_CTRL ring) (F.RING_CTRL_ENABLE.put 0 value).toNat)

/-- MSIX_UNMASK (R98). -/
def execMsixUnmask (vector : Fin 256) (s : State) : Host.Outcome State Fault Refusal :=
  s.act (msixUnmaskProg vector)

/-- SYS_ABORT_REQ (R101). -/
def execSysAbortReq (s : State) : Host.Outcome State Fault Refusal :=
  s.act (regWriteProg Reg.SYS_ABORT (F.SYS_ABORT_REQ.put 1 0).toNat)

/-- SYS_ABORT_RELEASE (R106). -/
def execSysAbortRelease (s : State) : Host.Outcome State Fault Refusal :=
  s.act (regWriteProg Reg.SYS_ABORT (F.SYS_ABORT_RELEASE.put 1 0).toNat)

/-- FUNCTION_LEVEL_RESET (R107). -/
def execFunctionLevelReset (s : State) : Host.Outcome State Fault Refusal :=
  s.act (functionLevelResetProg)

/-- DL_DOWN (R99). -/
def execDlDown (s : State) : Host.Outcome State Fault Refusal :=
  s.act (dlDownProg)

/-- HOST_WATCHDOG (R100). -/
def execHostWatchdog (s : State) : Host.Outcome State Fault Refusal :=
  s.act (hostWatchdogProg)

/-- SYS_SLACK_REARM (R543). -/
def execSysSlackRearm (value : Word) (s : State) : Host.Outcome State Fault Refusal :=
  s.act (regWriteProg Reg.SYS_SLACK_REARM value.toNat)

/-- OVL_SNAP (R182). -/
def execOvlSnap (value : Word) (s : State) : Host.Outcome State Fault Refusal :=
  s.act (regWriteProg Reg.OVL_SNAP value.toNat)

/-- SRV_SNAP (R219). -/
def execSrvSnap (value : Word) (s : State) : Host.Outcome State Fault Refusal :=
  s.act (regWriteProg Reg.SRV_SNAP value.toNat)

/-- DMC_WQ_SNAP (R386). -/
def execDmcWqSnap (value : Word) (s : State) : Host.Outcome State Fault Refusal :=
  s.act (regWriteProg Reg.DMC_WQ_SNAP value.toNat)

/-- EVR_SNAP (R430). -/
def execEvrSnap (value : Word) (s : State) : Host.Outcome State Fault Refusal :=
  s.act (regWriteProg Reg.EVR_SNAP value.toNat)

/-- PTP_TSQ_SNAP (R450). -/
def execPtpTsqSnap (value : Word) (s : State) : Host.Outcome State Fault Refusal :=
  s.act (regWriteProg Reg.PTP_TSQ_SNAP value.toNat)

/-- TIM_LATCH (R442). -/
def execTimLatch (value : Word) (s : State) : Host.Outcome State Fault Refusal :=
  s.act (regWriteProg Reg.TIM_LATCH value.toNat)

/-- TIM_SETCTL_GO (R440). -/
def execTimSetctlGo (value : Word) (s : State) : Host.Outcome State Fault Refusal :=
  s.act (regWriteProg Reg.TIM_SETCTL (F.TIM_SETCTL_GO.put 1 value).toNat)

/-- HM_FOLD_CLEAR (R543): MPL_HM_FOLD takes a value with CLEAR 1. -/
def execHmFoldClear (value : Word) (s : State) : Host.Outcome State Fault Refusal :=
  s.act (regWriteProg Reg.MPL_HM_FOLD (F.MPL_HM_FOLD_CLEAR.put 1 value).toNat)

/-- SYS_OCC_CLR (R545). -/
def execSysOccClr (value : Word) (s : State) : Host.Outcome State Fault Refusal :=
  s.act (regWriteProg Reg.SYS_OCC_CLR value.toNat)

/-- DOORBELL_POLL (R68): the ring, index and complement of each word read, none for a read error. -/
def execDoorbellPoll (words : Option (List (Nat × Word × Word))) (s : State) : Host.Outcome State Fault Refusal :=
  s.act (doorbellPollProg words)

/-- DESCRIPTOR_FETCH (R94), with the sixteen words read, none for a read error. -/
def execDescriptorFetch (ring : Fin 40) (data : Option (List Word)) (s : State) : Host.Outcome State Fault Refusal :=
  s.act (descriptorFetchProg ring data)

/-- MSIX_TIMER (R97). -/
def execMsixTimer (ring : Fin 89) (s : State) : Host.Outcome State Fault Refusal :=
  s.act (msixTimerProg ring)

/-- LINK_RESET (R514). -/
def execLinkReset (s : State) : Host.Outcome State Fault Refusal :=
  s.act (linkResetProg)

/-- BAD_OPCODE (R79). -/
def execBadOpcode (ring : Fin 40) (s : State) : Host.Outcome State Fault Refusal :=
  s.act (badOpcodeProg ring)

/-- HOST_LINK_UP (R101). -/
def execHostLinkUp (s : State) : Host.Outcome State Fault Refusal :=
  s.act (hostLinkUpProg)

end Sys2Proof.Machine
end

