-- ==== Sys2Proof/Machine/StoreCmds.lean ====
section
/-!
DEFINITION. The meanings of the commands of memory, the record store and the event recorder (R374 to R437,
R505).
-/
namespace Sys2Proof.Machine

/-- NAND_ENUMERATION (R409); the first one in SETUP commits a table page that supersedes the stored results (R494). -/
def enumerationCmd (ts : List Target) : Prog :=
  .seq
    (progWhen (fun b => b.mode dStore == .setup && !b.aux.store.enumerated) (modBoot fun x => { x with stored := none }))
    (nandEnumerationProg ts)

/-- NVS_READ (R422), with the uncorrectable codewords of the segment and their planes. -/
def execNvsRead (ring : Fin 40) (lost : List (Nat × Nat)) (s : State) : Host.Outcome State Fault Refusal :=
  s.act (nvsReadProg ring lost)

/-- NVS_RELEASE (R423). -/
def execNvsRelease (ring : Fin 40) (s : State) : Host.Outcome State Fault Refusal :=
  s.act (nvsReleaseProg ring)

/-- EVR_READ (R435), with the records that an uncorrectable codeword holds. -/
def execEvrRead (ring : Fin 40) (bad : List Nat) (s : State) : Host.Outcome State Fault Refusal :=
  s.act (evrReadProg ring bad)

/-- EVR_NONCE (R436). -/
def execEvrNonce (ring : Fin 40) (s : State) : Host.Outcome State Fault Refusal :=
  s.act (evrNonceProg ring)

/-- EVR_CLEAR (R437), with the token read, none for a read error. -/
def execEvrClear (ring : Fin 40) (data : Option (List Word)) (s : State) : Host.Outcome State Fault Refusal :=
  s.act (evrClearProg ring data)

/-- NVS_EXPORT (R505), with the authorisation read, none for a read error, and the uncorrectable codewords met.
-/
def execNvsExport (ring : Fin 40) (data : Option (List Word)) (lost : List (Nat × Nat)) (s : State) : Host.Outcome State Fault Refusal :=
  s.act (nvsExportProg ring data lost)

/-- BAR2_WRITE (R397). -/
def execBar2Write (off : BitVec 26) (bytes : List Byte) (s : State) : Host.Outcome State Fault Refusal :=
  s.act (bar2WriteProg off.toNat bytes)

/-- DRAM_READ (R391): the line, 0 good, 1 corrected or 2 uncorrectable, the latency, and the consumer. -/
def execDramRead (port : Fin 10) (line : Nat) (result : Nat) (ns : Nat) (who : Nat) (s : State) : Host.Outcome State Fault Refusal :=
  s.act (dramReadProg port line result ns who)

/-- LAT_MISS (R381), with the consumer. -/
def execLatMiss (port : Fin 10) (who : Nat) (s : State) : Host.Outcome State Fault Refusal :=
  s.act (latMissProg port who)

/-- REFRESH (R387), with the devices found hot or not. -/
def execRefresh (hot : Bool) (s : State) : Host.Outcome State Fault Refusal :=
  s.act (refreshProg hot)

/-- DRIFT_CHECK (R388). -/
def execDriftCheck (s : State) : Host.Outcome State Fault Refusal :=
  s.act (driftCheckProg)

/-- SELF_REFRESH_ENTRY (R389). -/
def execSelfRefreshEntry (s : State) : Host.Outcome State Fault Refusal :=
  s.act (selfRefreshEntryProg)

/-- SELF_REFRESH_EXIT (R389). -/
def execSelfRefreshExit (s : State) : Host.Outcome State Fault Refusal :=
  s.act (selfRefreshExitProg)

/-- PATROL_SCRUB (R392): the line, 0 good, 1 corrected or 2 uncorrectable. -/
def execPatrolScrub (line : Nat) (result : Nat) (s : State) : Host.Outcome State Fault Refusal :=
  s.act (patrolScrubProg line result)

/-- SRAM_UE (R394): the row of R394's table, who holds the word at fault, and whether the error was corrected.
-/
def execSramUe (row : Fin 11) (who : Nat) (ce : Bool) (s : State) : Host.Outcome State Fault Refusal :=
  s.act (sramUeProg row who ce stampLost)

/-- SKIM_JOB (R403), with the blocks the compressor made. -/
def execSkimJob (blocks : List SkimBlock) (s : State) : Host.Outcome State Fault Refusal :=
  s.act (skimJobProg blocks)

/-- NAND_PROGRAM_DONE (R411): 0 a page of the open segment, 1 an erase, 2 a page of the block table. -/
def execNandProgramDone (kind : Fin 3) (plane : Nat) (pass : Bool) (s : State) : Host.Outcome State Fault Refusal :=
  s.act (nandProgramProg kind plane pass)

/-- NAND_SCRUB (R419): the planes of blocks with an uncorrectable codeword, and the codewords not rebuilt. -/
def execNandScrub (planes : List Nat) (lost : List (Nat × Nat)) (s : State) : Host.Outcome State Fault Refusal :=
  s.act (nandScrubProg planes lost)

/-- STORAGE_RECOVERY (R420): the block table as found, and the factory bad blocks of each plane. -/
def execStorageRecovery (table : Fin 3) (bad : List Nat) (s : State) : Host.Outcome State Fault Refusal :=
  s.act (storageRecoveryProg table bad)

/-- NAND_ENUMERATION (R409). -/
def execNandEnumeration (targets : List Target) (s : State) : Host.Outcome State Fault Refusal :=
  s.act (enumerationCmd targets)

/-- UNEXPECTED_LOSS_OF_POWER (R421). -/
def execUnexpectedLossOfPower (s : State) : Host.Outcome State Fault Refusal :=
  s.always (powerLossProg)

/-- EVENT_COMPOSE (R429). -/
def execEventCompose (s : State) : Host.Outcome State Fault Refusal :=
  s.act (eventComposeProg)

/-- EVENT_FLUSH (R431), with the records of the oldest block erased to make room. -/
def execEventFlush (erase : Nat) (s : State) : Host.Outcome State Fault Refusal :=
  s.act (eventFlushProg erase)

/-- WEAR_LEVELLING_MOVE (R419). -/
def execWearLevellingMove (s : State) : Host.Outcome State Fault Refusal :=
  s.act (wearMoveProg)

end Sys2Proof.Machine
end

