-- ==== Sys2Proof/Machine/SystemCmds.lean ====
section
/-!
DEFINITION. The meanings of the commands of time, temperature, supplies, calibration, self-test, life cycle,
startup and resets (R438 to R515).
-/
namespace Sys2Proof.Machine

/-- SHUTDOWN (R495), with the results of the record-class test and whether their commit succeeds. -/
def execShutdown (ring : Fin 40) (results : List BistRes) (stored : Bool) (s : State) : Host.Outcome State Fault Refusal :=
  s.act (shutdownProg ring results stored)

/-- LCS_NONCE (R500). -/
def execLcsNonce (ring : Fin 40) (s : State) : Host.Outcome State Fault Refusal :=
  s.act (lcsNonceProg ring)

/-- LCS_TOKEN (R500), with the token read, none for a read error. -/
def execLcsToken (ring : Fin 40) (data : Option (List Word)) (s : State) : Host.Outcome State Fault Refusal :=
  s.act (lcsTokenProg ring data)

/-- AXES_REST (R101). -/
def execAxesRest (s : State) : Host.Outcome State Fault Refusal :=
  s.act (axesRestProg)

/-- SYS_RESET_KEY (R515). -/
def execSysResetKey (value : Word) (s : State) : Host.Outcome State Fault Refusal :=
  s.act (regWriteProg Reg.SYS_RESET value.toNat)

/-- BOOT_LOAD (R510): SYS_BOOT_CTRL takes a value with LOAD 1. -/
def execBootLoad (value : Word) (s : State) : Host.Outcome State Fault Refusal :=
  s.act (regWriteProg Reg.SYS_BOOT_CTRL (F.SYS_BOOT_CTRL_LOAD.put 1 value).toNat)

/-- FW_LOAD_DONE (R510), with the image read, none for a read error. -/
def execFwLoadDone (image : Option (List Word)) (s : State) : Host.Outcome State Fault Refusal :=
  s.act (fwLoadDoneProg image)

/-- BOOT_RELEASE (R512): SYS_BOOT_CTRL takes a value with RELEASE 1. -/
def execBootRelease (value : Word) (s : State) : Host.Outcome State Fault Refusal :=
  s.act (regWriteProg Reg.SYS_BOOT_CTRL (F.SYS_BOOT_CTRL_RELEASE.put 1 value).toNat)

/-- BOOT_DONE (R512). -/
def execBootDone (s : State) : Host.Outcome State Fault Refusal :=
  s.act (bootDoneProg)

/-- LANE_ABSENT (R513). -/
def execLaneAbsent (dom : Fin 34) (s : State) : Host.Outcome State Fault Refusal :=
  s.act (laneAbsentProg dom)

/-- BST_RUN (R496). -/
def execBstRun (value : Word) (s : State) : Host.Outcome State Fault Refusal :=
  s.act (regWriteProg Reg.BST_RUN value.toNat)

/-- RUN_DONE (R496): the result, SIG and repaired rows of the test on demand. -/
def execRunDone (result : Nat) (sig : Nat) (rows : Nat) (s : State) : Host.Outcome State Fault Refusal :=
  s.act (bstRunDoneProg result sig rows)

/-- BST_RPR_FUSE (R497): BST_RPR_CFG takes a value with FUSE 1. -/
def execBstRprFuse (value : Word) (s : State) : Host.Outcome State Fault Refusal :=
  s.act (regWriteProg Reg.BST_RPR_CFG (F.BST_RPR_CFG_FUSE.put 1 value).toNat)

/-- EXIT_SVC (R499). -/
def execExitSvc (s : State) : Host.Outcome State Fault Refusal :=
  s.act (regWriteProg Reg.LCS_CTRL (F.LCS_CTRL_EXIT_SVC.put 1 0).toNat)

/-- RB_COMMIT (R504). -/
def execRbCommit (s : State) : Host.Outcome State Fault Refusal :=
  s.act (regWriteProg Reg.LCS_CTRL (F.LCS_CTRL_RB_COMMIT.put 1 0).toNat)

/-- CAL_RESTORE (R487). -/
def execCalRestore (target : Fin 80) (value : Word) (s : State) : Host.Outcome State Fault Refusal :=
  s.act (regWriteProg (Reg.CAL_RES target) value.toNat)

/-- DRAIN_COMPLETE (R548). -/
def execDrainComplete (d : Fin 48) (s : State) : Host.Outcome State Fault Refusal :=
  s.act (drainCompleteProg d)

/-- ALIGN_LOST (R458). -/
def execAlignLost (s : State) : Host.Outcome State Fault Refusal :=
  s.act (alignLostProg)

/-- SAFE_IN (R55): SAFE_IN_N found at a level at two samples. -/
def execSafeIn (low : Bool) (s : State) : Host.Outcome State Fault Refusal :=
  s.act (safeInProg low)

/-- PTP_RX (R446). -/
def execPtpRx (port : Fin 2) (msg : PtpMsg) (s : State) : Host.Outcome State Fault Refusal :=
  s.act (ptpRxProg port msg)

/-- ANNOUNCE_TIMEOUT (R452): of the announce receipt, or with `offsets` of four Sync intervals without an
offset; and the parent named then. -/
def execAnnounceTimeout (inst : Fin 2) (offsets : Bool) (parent : Option (Nat × Nat)) (s : State) : Host.Outcome State Fault Refusal :=
  s.act (announceTimeoutProg inst offsets parent)

/-- PTP_TX (R447). -/
def execPtpTx (port : Fin 2) (inst : Fin 2) (mt : Fin 4) (seq : Nat) (s : State) : Host.Outcome State Fault Refusal :=
  s.act (ptpTxProg port inst mt seq)

/-- TX_TIMESTAMP (R448): a frame departs, or with `read` the firmware takes an entry. -/
def execTxTimestamp (port : Fin 2) (id : Nat) (stamp : Nat) (read : Bool) (s : State) : Host.Outcome State Fault Refusal :=
  s.act (txTimestampProg port id stamp read)

/-- LINK_DOWN (R443). -/
def execLinkDown (port : Fin 2) (s : State) : Host.Outcome State Fault Refusal :=
  s.act (linkDownProg port)

/-- ACQ_TIMEOUT (R460). -/
def execAcqTimeout (s : State) : Host.Outcome State Fault Refusal :=
  s.act (acqTimeoutProg)

/-- CORE_HOME_END (R460). -/
def execCoreHomeEnd (s : State) : Host.Outcome State Fault Refusal :=
  s.act (coreHomeEndProg)

/-- THERMAL_SAMPLE (R462), with what a die or board sensor answers, none for no good answer. -/
def execThermalSample (idx : Fin 192) (value : Option Int) (s : State) : Host.Outcome State Fault Refusal :=
  s.act (thermalSampleProg idx value)

/-- THROTTLE_STEP (R466). -/
def execThrottleStep (s : State) : Host.Outcome State Fault Refusal :=
  s.act (throttleStepProg)

/-- PMU_WINDOW (R473), with VCORE as measured in mV. -/
def execPmuWindow (vmeas : Nat) (s : State) : Host.Outcome State Fault Refusal :=
  s.act (pmuWindowProg vmeas)

/-- SUPPLY_LOW (R477): a rail, or VCORE_PG. -/
def execSupplyLow (rail : Fin 6) (pg : Bool) (s : State) : Host.Outcome State Fault Refusal :=
  s.act (supplyLowProg rail pg)

/-- CAL_RUN (R484): the measurements of a run, each with its quality figures. -/
def execCalRun (target : Fin 80) (meas : List (Word × Nat × Nat)) (s : State) : Host.Outcome State Fault Refusal :=
  s.act (calRunProg target meas)

/-- CALIBRATE_END (R481), with the outcome of what is not a target and the directions of the X and Y ramps that
give a head its lag. -/
def execCalibrateEnd (d : Fin 48) (ok : Bool) (ramps : Fin 4) (s : State) : Host.Outcome State Fault Refusal :=
  s.act (calibrateEndProg d ok ramps)

/-- SELFTEST_END (R491), with the results of the units tested. -/
def execSelftestEnd (d : Fin 48) (results : List BistRes) (s : State) : Host.Outcome State Fault Refusal :=
  s.act (selftestEndProg d results)

/-- COLD_RESET (R508). -/
def execColdReset (s : State) : Host.Outcome State Fault Refusal :=
  s.always (coldResetProg)

/-- RESET_RELEASE (R509). -/
def execResetRelease (s : State) : Host.Outcome State Fault Refusal :=
  s.always (resetReleaseProg)

/-- ETH_LINK_UP (R443). -/
def execEthLinkUp (port : Fin 2) (s : State) : Host.Outcome State Fault Refusal :=
  s.act (ethLinkUpProg port)

/-- NONCE_EXPIRY (R436): 0 the event-clear nonce, 1 the life-cycle nonce. -/
def execNonceExpiry (which : Fin 2) (s : State) : Host.Outcome State Fault Refusal :=
  s.act (nonceExpiryProg which)

/-- WARM_RESET_AFTER_FW_LOSS (R515). -/
def execWarmResetAfterFwLoss (s : State) : Host.Outcome State Fault Refusal :=
  s.act (fwLossResetProg)

end Sys2Proof.Machine
end

