-- ==== Sys2Proof/Machine/UnitCmds.lean ====
section
/-!
DEFINITION. The meanings of the commands of melt-pool captures, cameras, flashes, bars, motion axes and encoders
(R253 to R373).
-/
namespace Sys2Proof.Machine

/-- MP_BURST_ARM (R279). -/
def execMpBurstArm (ring : Fin 40) (s : State) : Host.Outcome State Fault Refusal :=
  s.act (burstArmProg ring)

/-- MP_BURST_READ (R279). -/
def execMpBurstRead (ring : Fin 40) (s : State) : Host.Outcome State Fault Refusal :=
  s.act (burstReadProg ring)

/-- CAM_IMAGE_READ (R303). -/
def execCamImageRead (ring : Fin 40) (s : State) : Host.Outcome State Fault Refusal :=
  s.act (camImageReadProg ring)

/-- FLT_MEASURE (R324). -/
def execFltMeasure (ring : Fin 40) (s : State) : Host.Outcome State Fault Refusal :=
  s.act (fltMeasureProg ring)

/-- FLT_FIRE (R324). -/
def execFltFire (ring : Fin 40) (s : State) : Host.Outcome State Fault Refusal :=
  s.act (fltFireProg ring)

/-- MOT_MOVE (R333). -/
def execMotMove (ring : Fin 40) (s : State) : Host.Outcome State Fault Refusal :=
  s.act (motMoveProg ring)

/-- AUTH_RESPONSE (R325). -/
def execAuthResponse (bar : Fin 2) (msg : List Word) (s : State) : Host.Outcome State Fault Refusal :=
  s.act (authResponseProg bar msg)

/-- AUTH_TIMEOUT (R325). -/
def execAuthTimeout (bar : Fin 2) (s : State) : Host.Outcome State Fault Refusal :=
  s.act (authTimeoutProg bar)

/-- FRAME_BOUNDARY (R285). -/
def execFrameBoundary (c : Fin 8) (s : State) : Host.Outcome State Fault Refusal :=
  s.act (frameBoundaryLed c)

/-- FRAME_START (R288), of a virtual channel (VCX and VC), with an uncorrectable header or not. -/
def execFrameStart (c : Fin 8) (hdrBad : Bool) (s : State) (vc : Fin 16 := 0) : Host.Outcome State Fault Refusal :=
  s.act (frameStartProg c vc hdrBad)

/-- LONG_PACKET (R290): a line of pixels of a virtual channel and data type, with its payload CRC and header
outcome. -/
def execLongPacket (c : Fin 8) (pixels : List Nat) (crcBad : Bool) (hdrBad : Bool) (s : State) (vc : Fin 16 := 0) (ty : Fin 64 := 0x2C) : Host.Outcome State Fault Refusal :=
  s.act (longPacketProg c vc ty pixels crcBad hdrBad)

/-- FRAME_END (R288), of a virtual channel, with an uncorrectable header or not. -/
def execFrameEnd (c : Fin 8) (hdrBad : Bool) (s : State) (vc : Fin 16 := 0) : Host.Outcome State Fault Refusal :=
  s.act (frameEndProg c vc hdrBad)

/-- FRAME_LOST (R288). -/
def execFrameLost (c : Fin 8) (s : State) : Host.Outcome State Fault Refusal :=
  s.act (frameLostProg c)

/-- STATS_COMPLETE (R294). -/
def execStatsComplete (c : Fin 8) (s : State) : Host.Outcome State Fault Refusal :=
  s.act (statsCompleteProg c)

/-- DARK_REFERENCE (R297). -/
def execDarkReference (c : Fin 8) (s : State) : Host.Outcome State Fault Refusal :=
  s.act (darkReferenceProg c)

/-- DEFECT_MAP (R298). -/
def execDefectMap (c : Fin 8) (s : State) : Host.Outcome State Fault Refusal :=
  s.act (defectMapProg c)

/-- FLASH_START (R367). -/
def execFlashStart (g : Fin 4) (s : State) : Host.Outcome State Fault Refusal :=
  s.act (flashStartProg g)

/-- FLASH_SAMPLE (R371): the voltage and current of a channel. -/
def execFlashSample (ch : Fin 24) (v : Nat) (cur : Nat) (s : State) : Host.Outcome State Fault Refusal :=
  s.act (flashSampleProg ch v cur)

/-- FLASH_END (R365). -/
def execFlashEnd (g : Fin 4) (s : State) : Host.Outcome State Fault Refusal :=
  s.act (flashEndProg g)

/-- LED_PROBE_SAMPLE (R370): the pin voltage of a channel and VLED. -/
def execLedProbeSample (ch : Fin 24) (v : Nat) (vled : Nat) (s : State) : Host.Outcome State Fault Refusal :=
  s.act (ledProbeProg ch v vled)

/-- STEP_ISSUE (R327). -/
def execStepIssue (axis : Fin 12) (s : State) : Host.Outcome State Fault Refusal :=
  s.act (stepIssueProg axis)

/-- MOVE_BOUNDARY (R331). -/
def execMoveBoundary (axis : Fin 12) (s : State) : Host.Outcome State Fault Refusal :=
  s.act (moveBoundaryProg axis)

/-- MOVE_END (R331). -/
def execMoveEnd (axis : Fin 12) (s : State) : Host.Outcome State Fault Refusal :=
  s.act (axisMoveEnd axis)

/-- HOMING (R354). -/
def execHoming (axis : Fin 12) (s : State) : Host.Outcome State Fault Refusal :=
  s.act (axisHoming axis)

/-- ENCODER_EDGE (R344): the levels of A, B and Z accepted after an edge. -/
def execEncoderEdge (e : Fin 16) (la : Bool) (lb : Bool) (lz : Bool) (s : State) : Host.Outcome State Fault Refusal :=
  s.act (encoderEdgeProg e la lb lz)

/-- SSI_READ (R346), with the word clocked in, none for a bad read. -/
def execSsiRead (e : Fin 16) (data : Option Nat) (s : State) : Host.Outcome State Fault Refusal :=
  s.act (ssiReadProg e data)

/-- ENC_SPEED_WINDOW (R349). -/
def execEncSpeedWindow (e : Fin 16) (s : State) : Host.Outcome State Fault Refusal :=
  s.act (encSpeedProg e)

/-- LIMIT_INPUT (R351): a debounced level of an input, and the raw changes counted. -/
def execLimitInput (input : Fin 24) (level : Bool) (raw : Nat) (s : State) : Host.Outcome State Fault Refusal :=
  s.act (limitInputProg input level raw)

/-- MEASUREMENT_RESULT (R321). -/
def execMeasurementResult (bar : Fin 2) (s : State) : Host.Outcome State Fault Refusal :=
  s.act (measurementProg bar)

end Sys2Proof.Machine
end

