-- ==== Sys2Proof/Machine/Dispatch.lean ====
section
/-!
DEFINITION. Which meaning each command has.
-/
namespace Sys2Proof.Machine

def exec (i : Instr) (s : State) : Host.Outcome State Fault Refusal :=
  match i with
  | .nop ring => Sys2Proof.Machine.execNop ring s
  | .modeSet ring others => Sys2Proof.Machine.execModeSet ring s others
  | .regWrite ring late => Sys2Proof.Machine.execRegWrite ring s late
  | .regRead ring => Sys2Proof.Machine.execRegRead ring s
  | .tableLoad ring data last => Sys2Proof.Machine.execTableLoad ring data s last
  | .ringRelease ring => Sys2Proof.Machine.execRingRelease ring s
  | .abort ring => Sys2Proof.Machine.execAbort ring s
  | .buildOpen ring => Sys2Proof.Machine.execBuildOpen ring s
  | .buildClose ring => Sys2Proof.Machine.execBuildClose ring s
  | .coatDefine ring => Sys2Proof.Machine.execCoatDefine ring s
  | .coatStart ring => Sys2Proof.Machine.execCoatStart ring s
  | .coatCut ring => Sys2Proof.Machine.execCoatCut ring s
  | .partLoad ring data => Sys2Proof.Machine.execPartLoad ring data s
  | .patchLoad ring data => Sys2Proof.Machine.execPatchLoad ring data s
  | .psetWrite ring data => Sys2Proof.Machine.execPsetWrite ring data s
  | .streamReset ring => Sys2Proof.Machine.execStreamReset ring s
  | .streamAppend ring => Sys2Proof.Machine.execStreamAppend ring s
  | .appendBufferRead ring data => Sys2Proof.Machine.execAppendBufferRead ring data s
  | .mpBurstArm ring => Sys2Proof.Machine.execMpBurstArm ring s
  | .mpBurstRead ring => Sys2Proof.Machine.execMpBurstRead ring s
  | .camImageRead ring => Sys2Proof.Machine.execCamImageRead ring s
  | .fltMeasure ring => Sys2Proof.Machine.execFltMeasure ring s
  | .fltFire ring => Sys2Proof.Machine.execFltFire ring s
  | .motMove ring => Sys2Proof.Machine.execMotMove ring s
  | .nvsRead ring lost => Sys2Proof.Machine.execNvsRead ring lost s
  | .nvsRelease ring => Sys2Proof.Machine.execNvsRelease ring s
  | .evrRead ring bad => Sys2Proof.Machine.execEvrRead ring bad s
  | .evrNonce ring => Sys2Proof.Machine.execEvrNonce ring s
  | .evrClear ring data => Sys2Proof.Machine.execEvrClear ring data s
  | .shutdown ring results stored => Sys2Proof.Machine.execShutdown ring results stored s
  | .lcsNonce ring => Sys2Proof.Machine.execLcsNonce ring s
  | .lcsToken ring data => Sys2Proof.Machine.execLcsToken ring data s
  | .nvsExport ring data lost => Sys2Proof.Machine.execNvsExport ring data lost s
  | .registerWrite off bytes value place => Sys2Proof.Machine.execRegisterWrite off bytes value s place
  | .w1cClear off value hw => Sys2Proof.Machine.execW1cClear off value hw s
  | .rcRead off bytes hw => Sys2Proof.Machine.execRcRead off bytes s hw
  | .ringNudge value => Sys2Proof.Machine.execRingNudge value s
  | .ringEnable ring value => Sys2Proof.Machine.execRingEnable ring value s
  | .ringDisable ring value => Sys2Proof.Machine.execRingDisable ring value s
  | .msixUnmask vector => Sys2Proof.Machine.execMsixUnmask vector s
  | .sysAbortReq => Sys2Proof.Machine.execSysAbortReq s
  | .axesRest => Sys2Proof.Machine.execAxesRest s
  | .sysAbortRelease => Sys2Proof.Machine.execSysAbortRelease s
  | .functionLevelReset => Sys2Proof.Machine.execFunctionLevelReset s
  | .dlDown => Sys2Proof.Machine.execDlDown s
  | .hostWatchdog => Sys2Proof.Machine.execHostWatchdog s
  | .sysSlackRearm value => Sys2Proof.Machine.execSysSlackRearm value s
  | .ovlSnap value => Sys2Proof.Machine.execOvlSnap value s
  | .srvSnap value => Sys2Proof.Machine.execSrvSnap value s
  | .dmcWqSnap value => Sys2Proof.Machine.execDmcWqSnap value s
  | .evrSnap value => Sys2Proof.Machine.execEvrSnap value s
  | .ptpTsqSnap value => Sys2Proof.Machine.execPtpTsqSnap value s
  | .timLatch value => Sys2Proof.Machine.execTimLatch value s
  | .timSetctlGo value => Sys2Proof.Machine.execTimSetctlGo value s
  | .hmFoldClear value => Sys2Proof.Machine.execHmFoldClear value s
  | .sysOccClr value => Sys2Proof.Machine.execSysOccClr value s
  | .sysResetKey value => Sys2Proof.Machine.execSysResetKey value s
  | .bootLoad value => Sys2Proof.Machine.execBootLoad value s
  | .fwLoadDone image => Sys2Proof.Machine.execFwLoadDone image s
  | .bootRelease value => Sys2Proof.Machine.execBootRelease value s
  | .bootDone => Sys2Proof.Machine.execBootDone s
  | .laneAbsent dom => Sys2Proof.Machine.execLaneAbsent dom s
  | .bstRun value => Sys2Proof.Machine.execBstRun value s
  | .runDone result sig rows => Sys2Proof.Machine.execRunDone result sig rows s
  | .bstRprFuse value => Sys2Proof.Machine.execBstRprFuse value s
  | .exitSvc => Sys2Proof.Machine.execExitSvc s
  | .rbCommit => Sys2Proof.Machine.execRbCommit s
  | .calRestore target value => Sys2Proof.Machine.execCalRestore target value s
  | .bar2Write off bytes => Sys2Proof.Machine.execBar2Write off bytes s
  | .doorbellPoll words => Sys2Proof.Machine.execDoorbellPoll words s
  | .descriptorFetch ring data => Sys2Proof.Machine.execDescriptorFetch ring data s
  | .msixTimer ring => Sys2Proof.Machine.execMsixTimer ring s
  | .tickEdge late slack => Sys2Proof.Machine.execTickEdge late slack s
  | .autoResume h => Sys2Proof.Machine.execAutoResume h s
  | .runStart h => Sys2Proof.Machine.execRunStart h s
  | .prefetchFill ctx => Sys2Proof.Machine.execPrefetchFill ctx s
  | .transitEnd h => Sys2Proof.Machine.execTransitEnd h s
  | .runSuspend h => Sys2Proof.Machine.execRunSuspend h s
  | .yieldClear h => Sys2Proof.Machine.execYieldClear h s
  | .runResume h => Sys2Proof.Machine.execRunResume h s
  | .linkHoldClear h => Sys2Proof.Machine.execLinkHoldClear h s
  | .drainComplete d => Sys2Proof.Machine.execDrainComplete d s
  | .coatBoundary late slack => Sys2Proof.Machine.execCoatBoundary s late slack
  | .authResponse bar msg => Sys2Proof.Machine.execAuthResponse bar msg s
  | .authTimeout bar => Sys2Proof.Machine.execAuthTimeout bar s
  | .phase2Start => Sys2Proof.Machine.execPhase2Start s
  | .phase3Start => Sys2Proof.Machine.execPhase3Start s
  | .phase3End => Sys2Proof.Machine.execPhase3End s
  | .hmFold => Sys2Proof.Machine.execHmFold s
  | .segmentDurable => Sys2Proof.Machine.execSegmentDurable s
  | .uplinkFrame h words ahead cv fill => Sys2Proof.Machine.execUplinkFrame h words ahead cv s fill
  | .capabilityFrame lane words cv fill => Sys2Proof.Machine.execCapabilityFrame lane words s cv fill
  | .probeEcho lane rt => Sys2Proof.Machine.execProbeEcho lane rt s
  | .latencyProbe lane => Sys2Proof.Machine.execLatencyProbe lane s
  | .lol lane cv => Sys2Proof.Machine.execLol lane cv s
  | .los lane => Sys2Proof.Machine.execLos lane s
  | .elastic lane => Sys2Proof.Machine.execElastic lane s
  | .linkFail lane => Sys2Proof.Machine.execLinkFail lane s
  | .dfeLimit lane tap up => Sys2Proof.Machine.execDfeLimit lane s tap up
  | .floatUplinkFrame lane words cv fill => Sys2Proof.Machine.execFloatUplinkFrame lane words cv s fill
  | .cascadeLaunch missed => Sys2Proof.Machine.execCascadeLaunch s missed
  | .cascadeFrame member words sof reference cv fill prb => Sys2Proof.Machine.execCascadeFrame member words sof reference s cv fill prb
  | .cascMiss member => Sys2Proof.Machine.execCascMiss member s
  | .depart member => Sys2Proof.Machine.execDepart member s
  | .alignLost => Sys2Proof.Machine.execAlignLost s
  | .safeIn low => Sys2Proof.Machine.execSafeIn low s
  | .frameBoundary c => Sys2Proof.Machine.execFrameBoundary c s
  | .frameStart c hdrBad vc => Sys2Proof.Machine.execFrameStart c hdrBad s vc
  | .longPacket c pixels crcBad hdrBad vc ty => Sys2Proof.Machine.execLongPacket c pixels crcBad hdrBad s vc ty
  | .frameEnd c hdrBad vc => Sys2Proof.Machine.execFrameEnd c hdrBad s vc
  | .frameLost c => Sys2Proof.Machine.execFrameLost c s
  | .statsComplete c => Sys2Proof.Machine.execStatsComplete c s
  | .darkReference c => Sys2Proof.Machine.execDarkReference c s
  | .defectMap c => Sys2Proof.Machine.execDefectMap c s
  | .flashStart g => Sys2Proof.Machine.execFlashStart g s
  | .flashSample ch v cur => Sys2Proof.Machine.execFlashSample ch v cur s
  | .flashEnd g => Sys2Proof.Machine.execFlashEnd g s
  | .ledProbeSample ch v vled => Sys2Proof.Machine.execLedProbeSample ch v vled s
  | .stepIssue axis => Sys2Proof.Machine.execStepIssue axis s
  | .moveBoundary axis => Sys2Proof.Machine.execMoveBoundary axis s
  | .moveEnd axis => Sys2Proof.Machine.execMoveEnd axis s
  | .homing axis => Sys2Proof.Machine.execHoming axis s
  | .encoderEdge e la lb lz => Sys2Proof.Machine.execEncoderEdge e la lb lz s
  | .ssiRead e data => Sys2Proof.Machine.execSsiRead e data s
  | .encSpeedWindow e => Sys2Proof.Machine.execEncSpeedWindow e s
  | .limitInput input level raw => Sys2Proof.Machine.execLimitInput input level raw s
  | .measurementResult bar => Sys2Proof.Machine.execMeasurementResult bar s
  | .dramRead port line result ns who => Sys2Proof.Machine.execDramRead port line result ns who s
  | .latMiss port who => Sys2Proof.Machine.execLatMiss port who s
  | .refresh hot => Sys2Proof.Machine.execRefresh hot s
  | .driftCheck => Sys2Proof.Machine.execDriftCheck s
  | .selfRefreshEntry => Sys2Proof.Machine.execSelfRefreshEntry s
  | .selfRefreshExit => Sys2Proof.Machine.execSelfRefreshExit s
  | .patrolScrub line result => Sys2Proof.Machine.execPatrolScrub line result s
  | .sramUe row who ce => Sys2Proof.Machine.execSramUe row who ce s
  | .skimJob blocks => Sys2Proof.Machine.execSkimJob blocks s
  | .nandProgramDone kind plane pass => Sys2Proof.Machine.execNandProgramDone kind plane pass s
  | .nandScrub planes lost => Sys2Proof.Machine.execNandScrub planes lost s
  | .storageRecovery table bad => Sys2Proof.Machine.execStorageRecovery table bad s
  | .nandEnumeration targets => Sys2Proof.Machine.execNandEnumeration targets s
  | .unexpectedLossOfPower => Sys2Proof.Machine.execUnexpectedLossOfPower s
  | .eventCompose => Sys2Proof.Machine.execEventCompose s
  | .eventFlush erase => Sys2Proof.Machine.execEventFlush erase s
  | .ptpRx port msg => Sys2Proof.Machine.execPtpRx port msg s
  | .announceTimeout inst offsets parent => Sys2Proof.Machine.execAnnounceTimeout inst offsets parent s
  | .ptpTx port inst mt seq => Sys2Proof.Machine.execPtpTx port inst mt seq s
  | .txTimestamp port id stamp read => Sys2Proof.Machine.execTxTimestamp port id stamp read s
  | .linkDown port => Sys2Proof.Machine.execLinkDown port s
  | .acqTimeout => Sys2Proof.Machine.execAcqTimeout s
  | .coreHomeEnd => Sys2Proof.Machine.execCoreHomeEnd s
  | .thermalSample idx value => Sys2Proof.Machine.execThermalSample idx value s
  | .throttleStep => Sys2Proof.Machine.execThrottleStep s
  | .pmuWindow vmeas => Sys2Proof.Machine.execPmuWindow vmeas s
  | .supplyLow rail pg => Sys2Proof.Machine.execSupplyLow rail pg s
  | .calRun target meas => Sys2Proof.Machine.execCalRun target meas s
  | .calibrateEnd d ok ramps => Sys2Proof.Machine.execCalibrateEnd d ok ramps s
  | .selftestEnd d results => Sys2Proof.Machine.execSelftestEnd d results s
  | .coldReset => Sys2Proof.Machine.execColdReset s
  | .linkReset => Sys2Proof.Machine.execLinkReset s
  | .badOpcode ring => Sys2Proof.Machine.execBadOpcode ring s
  | .synchronised lane fill => Sys2Proof.Machine.execSynchronised lane fill s
  | .dfeAdaptationDone lane taps => Sys2Proof.Machine.execDfeAdaptationDone lane taps s
  | .hostLinkUp => Sys2Proof.Machine.execHostLinkUp s
  | .resetRelease => Sys2Proof.Machine.execResetRelease s
  | .ethLinkUp port => Sys2Proof.Machine.execEthLinkUp port s
  | .nonceExpiry which => Sys2Proof.Machine.execNonceExpiry which s
  | .wearLevellingMove => Sys2Proof.Machine.execWearLevellingMove s
  | .warmResetAfterFwLoss => Sys2Proof.Machine.execWarmResetAfterFwLoss s

end Sys2Proof.Machine
end

