-- ==== Sys2Proof/Safety.lean ====
section
/-!
DEFINITION. What the claims speak of: commands that answer next states, the books that balance in each of them, memories
in canonical form, and the invariant made of these.
-/
namespace Sys2Proof.Safety

open Sys2Proof.Machine

/-- A command answers a next state. -/
def Completes (i : Instr) (s : State) : Prop := ∃ t, exec i s = .next t

/-- The part is not in reset, so that commands act (R508, R509). -/
def Awake (s : State) : Prop := s.blk.aux.inReset = false

/-- No laser is enabled. -/
def LasersOff (b : Blk) : Prop := ∀ h, h < 32 → b.laserEn h = false

/-- The canonical form of a memory of bytes: addresses strictly rising, no entry equal to what an unlisted byte reads
as. -/
def memoryWf (m : List (Nat × Byte)) : Bool := mapWf (fun _ => 0) m

/-- The canonical form of the register map: no entry equal to a reset value. -/
def regsWf (m : List (Nat × Word)) : Bool := mapWf defaultWord m

/-- The register map, DRAM and the BAR2 window are in canonical form. -/
def MemoriesWf (b : Blk) : Prop := regsWf b.regs = true ∧ memoryWf b.dram = true ∧ memoryWf b.win = true

/-- R430: raised = recorded + limited + lost + intake, and R428: at most 64 events in the intake. -/
def EventsBalance (v : Evr) : Prop :=
  v.raised = v.recorded + v.limited + v.lost + v.intake.length ∧ v.intake.length ≤ 64

/-- R96: entries generated = entries written + entries dropped, and R95: at most 64 fetched descriptors, each with a
completion ring named in the eight bits of RING_CTRL.CQ. -/
def RingBalances (r : Ring) : Prop :=
  r.generated = r.written + r.dropped ∧ r.fetched.length ≤ 64 ∧ ∀ d ∈ r.fetched, d.cq < 256

/-- R181: queued + transit + executing + done = submitted. -/
def RunsBalance (r : RunBook) : Prop := r.queued + r.transit + r.executing + r.done = r.submitted

/-- R386: accepted = merged + queued + in flight + retired, and R379: at most 64 entries in the queue. -/
def WritesBalance (q : Wq) : Prop :=
  q.accepted = q.merged + q.queue.length + q.inflight + q.retired ∧ q.queue.length ≤ 64

/-- R289: frames triggered = frames ended + frames outstanding. -/
def FramesBalance (c : CamBook) : Prop := c.triggered = c.ended + c.frames.length

/-- R313: level + committed = initial + refilled − overflow − spent, for one bucket. -/
def BucketBalances (t : Tok) : Prop := t.level + t.committed + t.overflow + t.spent = t.initial + t.refilled

/-- R313 for the buckets of a bar. -/
def TokensBalance (t : TokBar) : Prop := BucketBalances t.bar ∧ ∀ x ∈ t.emit, BucketBalances x

/-- R450: IDs issued = read + queued + in flight + lost, and R448: at most 16 entries queued. -/
def StampsBalance (q : Tsq) : Prop :=
  q.issued = q.read + q.queue.length + q.flight.length + q.lost ∧ q.queue.length ≤ 16

/-- The numbers of rings, memory channels, cameras, bars and ports of the block (R64 for the rings). -/
def Counts (b : Blk) : Prop :=
  b.rings.length = 89 ∧ b.wqs.length = 2 ∧ b.camBooks.length = 8 ∧ b.toks.length = 2 ∧ b.tsqs.length = 2

/-- What every command keeps. -/
structure Inv (b : Blk) : Prop where
  memories : MemoriesWf b
  events : EventsBalance b.evr
  rings : ∀ r ∈ b.rings, RingBalances r
  runs : RunsBalance b.runs
  writes : ∀ q ∈ b.wqs, WritesBalance q
  frames : ∀ c ∈ b.camBooks, FramesBalance c
  tokens : ∀ t ∈ b.toks, TokensBalance t
  stamps : ∀ q ∈ b.tsqs, StampsBalance q
  counts : Counts b

/-- No trigger of SAFE entry (R54) waits: each is acted upon in the command that takes it. -/
def NoTrigger (b : Blk) : Prop := b.aux.safeReq = []

/-- A state in which a command finds the block: not in reset, no trigger waiting, its registers in canonical form. -/
structure Ready (s : State) : Prop where
  awake : Awake s
  quiet : NoTrigger s.blk
  regs : regsWf s.blk.regs = true

/-- The registers that the end of a command may write: the flag of a lost event, the pending-bit array of MSI-X and
the position of the diagnostic capture. -/
def EndReg (o : Nat) : Prop := o = Reg.EVR_STAT ∨ o = Reg.DMC_DIAG ∨ ∃ k, k < 8 ∧ o = Reg.MSIX_PBA k

/-- The engines' state without the outputs of the command and without the messages and events that are due at its end. -/
def engines (a : Aux) : Aux := { a with out := [], irq := [], evq := [] }

/-- The message of a vector, with the address and data of its entry in the MSI-X table. -/
def msixOf (b : Blk) (v : Nat) : Output :=
  .msix v ((b.w (Reg.MSIX_TABLE v 0)).toNat + 4294967296 * (b.w (Reg.MSIX_TABLE v 1)).toNat)
    (b.w (Reg.MSIX_TABLE v 2)).toNat

/-- A block agrees with the one described: everything is as described but for what the end of a command does with
messages, events, pins and diagnostic capture. The outputs described are among those of the command, and so is the
message of each vector described as due and not masked (R98); every event described as due has been raised (R426). -/
structure Agrees (described b : Blk) : Prop where
  regs : ∀ o, ¬ EndReg o → b.w o = described.w o
  rings : b.rings = described.rings
  runs : b.runs = described.runs
  wqs : b.wqs = described.wqs
  camBooks : b.camBooks = described.camBooks
  toks : b.toks = described.toks
  tsqs : b.tsqs = described.tsqs
  dram : b.dram = described.dram
  win : described.f Reg.DMC_DIAG F.DMC_DIAG_EN = 0 → b.win = described.win
  engines : engines b.aux = engines described.aux
  out : ∀ o ∈ described.aux.out, o ∈ b.aux.out
  messages : ∀ v ∈ described.aux.irq, v < 256 → described.f (Reg.MSIX_TABLE v 3) ⟨0, 1⟩ ≠ 1 →
    msixOf described v ∈ b.aux.out
  events : b.evr.raised = described.evr.raised + described.aux.evq.length

/-- The engines' state of a block changed. -/
def withAux (f : Aux → Aux) (b : Blk) : Blk := { b with aux := f b.aux }

/-- The block as a command finds it: the outputs of the command before are gone, and so is its bead interval. -/
def fresh (b : Blk) : Blk := withAux Aux.begin b

/-- A register of a block takes a value; every other register and everything else stays. -/
def put (o : Nat) (v : Word) (b : Blk) : Blk := { b with regs := mapSet defaultWord b.regs o v }

/-- A field of a register of a block takes a value. -/
def putF (o : Nat) (f : Fld) (x : Nat) (b : Blk) : Blk := put o (f.put x (b.w o)) b

/-- Registers take values, one after the other. -/
def puts (l : List (Nat × Word)) (b : Blk) : Blk := l.foldl (fun b x => put x.1 x.2 b) b

/-- A hardware set of a sticky flag (R544, R546): its bit is 1, its occurrence counter counts and saturates, and its event
is due. -/
def flagged (fl : Flag) (b : Blk) : Blk :=
  let b1 := putF fl.off ⟨fl.bit, 1⟩ 1 b
  let b2 := match fl.cnt with
    | some (o, f) => putF o f (satInc f.w (b1.f o f)) b1
    | none => b1
  match fl.code with
  | some code =>
    withAux (fun a => { a with evq := a.evq ++
      [b2.event code fl.inst fl.dom (fl.off % 65536 + fl.bit * 2 ^ 24)
        (match fl.cnt with | some (o, f) => b2.f o f | none => 0) 0] }) b2
  | none => b2

/-- An output of the command. -/
def shown (o : Output) (b : Blk) : Blk := withAux (fun a => { a with out := a.out ++ [o] }) b

/-- A transition of a domain is accepted and waits for the next tick edge (R39). -/
def awaiting (d : Nat) (m : Mode) (c : Cause) (b : Blk) : Blk :=
  withAux (fun a => { a with trans := a.trans ++ [⟨d, m, c, false⟩] }) b

/-- A value lands in a register by the types of its fields (R9), and a shadow counts as written (R542). -/
def landed (h : Hit) (v : Nat) (b : Blk) : Blk := (landProg h v).run b

/-- What a command does in the bead interval of the next command: the shadows it writes are late for the boundaries of
that command (R50). -/
def lateIn (f : Blk → Blk) (b : Blk) : Blk :=
  withAux (fun a => { a with
      dirty := b.aux.dirty ++ a.dirty.filter fun o => !b.aux.dirty.contains o
      bead := { a.bead with lateNext := a.bead.lateNext ++ a.dirty } })
    (f (withAux (fun a => { a with dirty := [] }) b))

/-- The hardware sets the sticky flags that a mask names in a register (R10). -/
def hardwareSet (off mask : Nat) (b : Blk) : Blk :=
  ((List.range 32).filter (bit mask)).foldl
    (fun b i => match b.flagAt off i with | some fl => flagged fl b | none => b) b

/-- The hardware raises the read-clear fields of a word to what it holds for them (R11). -/
def countersRaised (h : Hit) (off : Nat) (hw : Word) (b : Blk) : Blk :=
  (h.d.fields.filter fun f => f.ty == .rc && f.lo / 32 == h.idx).foldl
    (fun c f => putF off ⟨f.lo % 32, f.w⟩ (max (b.f off ⟨f.lo % 32, f.w⟩) (Fld.get ⟨f.lo % 32, f.w⟩ hw)) c) b

/-- The writing of a table by the TABLE_LOAD of a ring is at its end (R398). -/
def loadEnded (ring : Nat) (b : Blk) : Blk :=
  withAux (fun a => { a with loads := a.loads.filter fun l => l.ring != ring }) b

/-- The low part of a wide register that waits for its high part is given up (R536). -/
def unheld (b : Blk) : Blk := withAux (fun a => { a with mmHold := none }) b

/-- A register takes a value written over MMIO, by the types of its fields. -/
def landedAt (off v : Nat) (b : Blk) : Blk :=
  match findReg off with
  | some h => landed h v b
  | none => b

/-- A write that is rejected whole leaves its offset in SYS_MAP_LAST and sets the flag REJECT (R539). -/
def refusedAt (off : Nat) (b : Blk) : Blk :=
  flagged flReject (put Reg.SYS_MAP_LAST (withF 0
    [(F.SYS_MAP_LAST_OFFSET, off), (F.SYS_MAP_LAST_SRC, 0), (F.SYS_MAP_LAST_KIND, 0)]) b)

/-- The requests held for the next tick edge are joined by those of a mask on a register (R543). -/
def holding (off mask : Nat) (b : Blk) : Blk :=
  withAux (fun a =>
    let held := match a.reqs.find? fun r => r.1 == off with | some r => r.2 | none => 0
    { a with reqs := (off, Nat.lor held mask) :: a.reqs.filter fun r => r.1 != off }) b

/-- The register blocks whose registers only hold what is written: SEQ, HLK, CAM, FLT, ENC, LED, NVS, SKM, THM and PMU. -/
def plainBlock (base : Nat) : Bool := [3, 7, 9, 10, 12, 13, 15, 16, 20, 21].contains (base / 65536)

/-- A command completes in the state described, with the queue as it was. -/
def Does (i : Instr) (s : State) (described : Blk) : Prop :=
  ∃ b, exec i s = .next ⟨s.pending, b⟩ ∧ Agrees described b

/-- The descriptor of a ring in execution: fetched first, of the opcode named, not begun (or begun, for the second stage of
a descriptor that waits), on a ring that takes it, while descriptors execute (R78 to R80). -/
structure Stands (b : Blk) (ring op : Nat) (begun : Bool) (ws : List Word) : Prop where
  front : ∃ d, b.front ring = some d ∧ d.ws = ws ∧ d.begun = begun
  opcode : opcodeOf ws = op
  executing : b.executing = true
  taken : ∃ m, opcodeRings op = some m ∧ bit m (ringBit ring) = true

/-- What a block shows once the core has entered SAFE and taken the other domains along (R43, R54, R57). -/
structure SafeAll (b0 b : Blk) : Prop where
  core : b.mode dCore = .safe
  others : ∀ d, d < 46 → b.mode d = if coreStops .safe d (b0.mode d) then .safe else b0.mode d
  sys : ∀ o, o < 65536 → b.w o = b0.w o
  quiet : NoTrigger b

/-- What SYS_ABORT shows after a request of a source. -/
structure AbortShown (b0 : Blk) (src quiescent : Nat) (b : Blk) : Prop where
  active : b.f Reg.SYS_ABORT F.SYS_ABORT_ACTIVE = 1
  quiescent : b.f Reg.SYS_ABORT F.SYS_ABORT_QUIESCENT = quiescent
  source : b.f Reg.SYS_ABORT F.SYS_ABORT_SRC = src
  count : b.f Reg.SYS_ABORT F.SYS_ABORT_COUNT = satInc 16 (b0.f Reg.SYS_ABORT F.SYS_ABORT_COUNT)

/-- A register that a reset keeps or writes: the modes, the life cycle, the test results and the cause of the reset. -/
def AcrossReset (o : Nat) : Prop :=
  o = Reg.LCS_STATE ∨ o = Reg.SYS_BOOT_STAT ∨ o / 65536 = 0x17 ∨ ∃ d, d < 48 ∧ o = Reg.SEQ_DOM_STAT d

/-- A limit of a die reading, shadow or active, whose reset value depends on the grade. -/
def GradeLimit (o : Nat) : Prop := ∃ n, n < 24 ∧ (o = Reg.THM_LIM n ∨ o = Reg.THM_LIM n + 0x8000)

/-- What a block shows after a cold or warm reset (R508, R514). -/
structure Restarted (b0 b : Blk) : Prop where
  regs : ∀ o, ¬ AcrossReset o → ¬ EndReg o → ¬ GradeLimit o → b.w o = defaultWord o
  limits : ∀ o, GradeLimit o → b.w o = if b0.aux.otp.gradeX then 0x1CC01A40 else defaultWord o
  modes : ∀ d, d < 48 → b.mode d = .off
  rings : ∀ r ∈ b.rings, r = Ring.init
  runs : b.runs = RunBook.init
  dram : b.dram = []
  win : b.win = []
  otp : b.aux.otp = b0.aux.otp

/-- The engines' state of one lane changed. -/
def laneSet (l : Nat) (f : Lane → Lane) (b : Blk) : Blk := withAux (fun a => { a with lanes := a.lanes.modify l f }) b

/-- A lane whose receiver is synchronised loses synchronisation (R226, R231): it shows SIGNAL, its frames and its measurement
are given up, and the 10 ms of bring-up start again where it was UP. -/
def laneDown (l : Nat) (b : Blk) : Blk :=
  if b.laneSynced l then
    laneSet l (fun x => { x with
        start := if b.laneUp l then b.ns2 else x.start, dfe := false, cal := false, meas := .none, flying := false
        rtts := [], await := 0, tries := 0, rx := none, sent := none, before := none, third := none })
      (putF (Reg.HLK_LANE_STATE l) F.HLK_LANE_STATE_STATE 1 b)
  else b

/-- Bring-up of a lane begins (R229 step 1): it shows SIGNAL. -/
def laneBegun (l : Nat) (b : Blk) : Blk :=
  laneSet l (fun x => { Lane.init with
      start := b.ns2, signal := x.signal, calDone := x.calDone, depLeft := x.depLeft
      temps := x.temps, tempsAt := x.tempsAt })
    (putF (Reg.HLK_LANE_STATE l) F.HLK_LANE_STATE_STATE 1 b)

/-- Code violations are counted in CV_COUNT, and a synchronised receiver's elastic buffer is kept by a SKP between 6 and
10 code groups (R225). -/
def laneHeard (l cv fill : Nat) (b : Blk) : Blk :=
  let b1 := putF (Reg.HLK_LANE_LOSS l) F.HLK_LANE_LOSS_CV_COUNT
    (min 0xFFFF (b.f (Reg.HLK_LANE_LOSS l) F.HLK_LANE_LOSS_CV_COUNT + cv)) b
  if b1.laneSynced l then putF (Reg.HLK_LANE_STATE l) F.HLK_LANE_STATE_FILL (skpFill (min 16 fill)) b1 else b1

/-- LAT_SHIFT is set where DN_LAT is more than 10 ns from that of CALIBRATE (R241). -/
def shiftChecked (l : Nat) (b : Blk) : Blk :=
  if (b.lane l).calDone && (decide (b.calDnLat l + 100 < b.dnLat l) || decide (b.dnLat l + 100 < b.calDnLat l)) then
    flagged (flHlk l 10) b
  else b

/-- RTT, DN_LAT and UP_OFS_MAX of a lane follow from the round trips it holds (R240 to R242). -/
def latencyTaken (l : Nat) (b : Blk) : Blk :=
  let rtt := meanRtt (b.lane l).rtts
  let dn := b.dnLatOf l rtt
  putF (Reg.HLK_LANE_LAT l) ⟨20, 12⟩ (if l < 32 then b.upOfsMax l dn rtt else 0)
    (putF (Reg.HLK_LANE_LAT l) ⟨0, 20⟩ dn (putF (Reg.HLK_LANE_CAP l) ⟨0, 16⟩ rtt b))

/-- The engines' state of a member of the cascade changed. -/
def peerSet (j : Nat) (f : Peer → Peer) (b : Blk) : Blk := withAux (fun a => { a with peers := a.peers.modify j f }) b

/-- A member is reported departed (R252); it leaves the exchange at the next tick edge (R192). -/
def memberGone (j : Nat) (b : Blk) : Blk :=
  peerSet j (fun p => { p with departed := true, leaving := true, misses := 0 })
    (putF (Reg.HLK_LANE_STATE (36 + j)) F.HLK_LANE_STATE_STATE 6 (flagged (flHlk (36 + j) 14) b))

/-- The engines' state of one camera changed. -/
def camSet (c : Nat) (f : Cam → Cam) (b : Blk) : Blk := withAux (fun a => { a with cams := a.cams.modify c f }) b

/-- The engines' state of one illumination group changed. -/
def grpSet (g : Nat) (f : LedGrp → LedGrp) (b : Blk) : Blk := withAux (fun a => { a with leds := a.leds.modify g f }) b

/-- The engines' state of one illumination channel changed. -/
def chSet (n : Nat) (f : LedCh → LedCh) (b : Blk) : Blk := withAux (fun a => { a with ledChs := a.ledChs.modify n f }) b

/-- A fault of an illumination channel: OPEN (0), SHORT (1) or REG_LOW (2), of which the first two bar it (R372). -/
def chFault (n i : Nat) (b : Blk) : Blk :=
  let b1 := flagged (flLedCh n i (b.ledDom (n / 6))) b
  if i < 2 then chSet n (fun x => { x with barred := true, good := 0 }) b1 else b1

/-- The engines' state of one temperature reading changed. -/
def tempSet (n : Nat) (t : Temp) (b : Blk) : Blk := withAux (fun a => { a with temps := a.temps.modify n fun _ => t }) b

/-- The code of the core supply changes, and the VID pins with it. -/
def vidSet (c : Nat) (b : Blk) : Blk :=
  if b.vid != c then shown (.pin "VID" 0 c) (putF Reg.PMU_VID F.PMU_VID_CODE c b) else b

/-- A block once the triggers of SAFE entry that a command took are acted upon (R43, R54, R57). -/
def safeTaken (b : Blk) : Blk := (drainSafe 4).run b

/-- The engines' state of one motion axis changed. -/
def motSet (a : Nat) (f : Mot → Mot) (b : Blk) : Blk := withAux (fun x => { x with mots := x.mots.modify a f }) b

/-- The engines' state of one encoder input changed. -/
def encSet (e : Nat) (f : Enc → Enc) (b : Blk) : Blk := withAux (fun x => { x with encs := x.encs.modify e f }) b

/-- The state of the build changed. -/
def buildSet (f : Build → Build) (b : Blk) : Blk := withAux (fun a => { a with build := f a.build }) b

/-- A coat enters phase `ph` (R111): its stage, SEQ_COAT.PHASE and the start mark of the build record (R415). -/
def phaseBegun (n ph : Nat) (b : Blk) : Blk :=
  phaseMark.run (putF Reg.SEQ_COAT F.SEQ_COAT_PHASE ph
    (buildSet (fun x => { x with coats := x.coats.map fun c => if c.num == n then { c with stage := ph } else c }) b))

/-- A request of a mode of a domain that is in a given mode (R36). -/
def askedFrom (d : Nat) (old m : Mode) (b : Blk) : Blk := if b.mode d = old then awaiting d m .done b else b

/-- The state of one Float bar changed. -/
def barSet (f : Nat) (g : Bar → Bar) (b : Blk) : Blk := withAux (fun a => { a with bars := a.bars.modify f g }) b

/-- The state of start-up and self-test changed. -/
def bootSet (f : Boot → Boot) (b : Blk) : Blk := withAux (fun a => { a with boot := f a.boot }) b

/-- The state of one calibration target changed. -/
def calSet (t : Nat) (f : CalTarget → CalTarget) (b : Blk) : Blk := withAux (fun a => { a with cals := a.cals.modify t f }) b

/-- A bar's authentication has failed (R325): its flag, and SAFE where authentication is required. -/
def authFailed (f : Nat) (b : Blk) : Blk :=
  let b1 := flagged (flFlt f 10) (barSet f (fun x => { x with auth := none }) b)
  if b.barCfg f F.FLT_BAR_CFG_AUTH_REQ = 1 then
    withAux (fun a => { a with
      safeReq := a.safeReq ++ [⟨dFloat f, .domainFault, (flFlt f 10).key⟩]
      trans := a.trans.map (Trans.aged (dFloat f)) }) b1
  else b1

end Sys2Proof.Safety
end

