-- ==== Sys2Proof/Certificates/Slice0/Obligations.lean ====
section
/-!
DEFINITION. Statements for the provers.
-/
open Sys2Proof Sys2Proof.Machine Sys2Proof.Safety

/-- Stepping a state whose queue has c in front is exec of c on the state with the rest of the queue. -/
def Obligations.StepRunsFrontCommand : Prop :=
  ∀ (c : Instr) (s : State), step { s with pending := c :: s.pending } = exec c s

/-- The state after reset has its memories in canonical form and all its books in balance, and is ready for a command. That the part is out of reset there is the model's choice (assumption log, entry 2). -/
def Obligations.ResetMeetsInvariant : Prop :=
  Inv State.reset.blk ∧ Ready State.reset

/-- If the register map, DRAM and the BAR2 window of a state are in canonical form, they are so after any step. -/
def Obligations.StepKeepsMemories : Prop :=
  ∀ s t : State, MemoriesWf s.blk → step s = .next t → MemoriesWf t.blk

/-- If raised = recorded + limited + lost + intake, with at most 64 events in the intake, then the same holds after any step. -/
def Obligations.StepKeepsEventBooks : Prop :=
  ∀ s t : State, EventsBalance s.blk.evr → step s = .next t → EventsBalance t.blk.evr

/-- If for every ring entries generated = entries written + entries dropped, and at most 64 descriptors are fetched and uncompleted, each with a completion ring named in eight bits, then the same holds after any step. -/
def Obligations.StepKeepsRingBooks : Prop :=
  ∀ s t : State, (∀ r ∈ s.blk.rings, RingBalances r) → step s = .next t → ∀ r ∈ t.blk.rings, RingBalances r

/-- If queued + transit + executing + done = submitted, then the same holds after any step. -/
def Obligations.StepKeepsRunBooks : Prop :=
  ∀ s t : State, RunsBalance s.blk.runs → step s = .next t → RunsBalance t.blk.runs

/-- If for each memory channel accepted = merged + queued + in flight + retired, with at most 64 entries queued, then the same holds after any step. -/
def Obligations.StepKeepsWriteBooks : Prop :=
  ∀ s t : State, (∀ q ∈ s.blk.wqs, WritesBalance q) → step s = .next t → ∀ q ∈ t.blk.wqs, WritesBalance q

/-- If for each camera frames triggered = frames ended + frames outstanding, then the same holds after any step. -/
def Obligations.StepKeepsFrameBooks : Prop :=
  ∀ s t : State, (∀ c ∈ s.blk.camBooks, FramesBalance c) → step s = .next t → ∀ c ∈ t.blk.camBooks, FramesBalance c

/-- If for each bucket level + committed = initial + refilled - overflow - spent, then the same holds after any step. -/
def Obligations.StepKeepsTokenBooks : Prop :=
  ∀ s t : State, (∀ q ∈ s.blk.toks, TokensBalance q) → step s = .next t → ∀ q ∈ t.blk.toks, TokensBalance q

/-- If for each port IDs issued = read + queued + in flight + lost, with at most 16 entries queued, then the same holds after any step. -/
def Obligations.StepKeepsStampBooks : Prop :=
  ∀ s t : State, (∀ q ∈ s.blk.tsqs, StampsBalance q) → step s = .next t → ∀ q ∈ t.blk.tsqs, StampsBalance q

/-- A NOP in execution whose words pass the checks completes with status 0 and DETAIL 0; nothing else of the block changes. -/
def Obligations.NopCompletes : Prop :=
  ∀ (s : State) (ring : Fin 40) (ws : List Word), Ready s → Stands s.blk ring 0x01 false ws → fieldFail ws [] = none →
    Does (.nop ring) s ((complete ring 0 0).run (fresh s.blk))

/-- A fetched descriptor whose opcode no table lists completes with status 2 (BAD_OPCODE) and has no other effect. -/
def Obligations.BadOpcodeCompletes : Prop :=
  ∀ (s : State) (ring : Fin 40) (d : Fetched), Ready s → s.blk.front ring = some d → s.blk.executing = true →
    d.begun = false → opcodeRings (opcodeOf d.ws) = none →
    Does (.badOpcode ring) s ((complete ring 0x02 0).run (fresh s.blk))

/-- The table of R36 is `row36`, for each mode `back` that CALIBRATE may have been entered from. -/
def Obligations.ModeSetOutsideTable : Prop :=
  ∀ (s : State) (ring : Fin 40) (ws : List Word) (d : Nat) (m : Mode), Ready s → Stands s.blk ring 0x02 false ws →
    modeSetFail s.blk ws = none → d = bits (dw ws 1) 0 8 → m = modeOf (bits (dw ws 1) 8 4) → s.blk.mode d ≠ m →
    (∀ back, row36 back (s.blk.mode d) m = false) →
    Does (.modeSet ring []) s ((complete ring 0x01 (modeCode (s.blk.mode d))).run (fresh s.blk))

/-- A MODE_SET in execution that passes its checks and names the mode its domain holds completes with OK, DETAIL the present mode; nothing else of the block changes. -/
def Obligations.ModeSetHeldMode : Prop :=
  ∀ (s : State) (ring : Fin 40) (ws : List Word) (d : Nat), Ready s → Stands s.blk ring 0x02 false ws →
    modeSetFail s.blk ws = none → d = bits (dw ws 1) 0 8 → s.blk.mode d = modeOf (bits (dw ws 1) 8 4) →
    Does (.modeSet ring []) s ((complete ring 0 (modeCode (s.blk.mode d))).run (fresh s.blk))

/-- A MODE_SET that names a transition other than SAFE entry and is not refused leaves the mode as it is until the next tick edge: the transition with cause COMMAND joins those that wait, and the descriptor completes with OK and the new mode as DETAIL. -/
def Obligations.ModeSetAccepted : Prop :=
  ∀ (s : State) (ring : Fin 40) (ws : List Word) (d : Nat) (m : Mode), Ready s → Stands s.blk ring 0x02 false ws →
    modeSetFail s.blk ws = none → d = bits (dw ws 1) 0 8 → m = modeOf (bits (dw ws 1) 8 4) → s.blk.mode d ≠ m →
    s.blk.modeRefused d (s.blk.mode d) m = false → m ≠ .safe →
    Does (.modeSet ring []) s ((complete ring 0 (modeCode m)).run (awaiting d m .command (fresh s.blk)))

/-- RING_RELEASE executed while QUIESCENT is 1 makes ACTIVE and QUIESCENT 0 and completes with OK and DETAIL 0; while QUIESCENT is 0 it changes nothing and completes with OK and DETAIL 1. An ABORT descriptor decoded while ACTIVE is 1 completes with OK and DETAIL 1 and changes nothing, COUNT included. -/
def Obligations.RingReleaseAndAbort : Prop :=
  ∀ (s : State) (ring : Fin 40) (ws : List Word), Ready s → fieldFail ws [] = none →
    (Stands s.blk ring 0x0E false ws →
      (s.blk.f Reg.SYS_ABORT F.SYS_ABORT_QUIESCENT = 1 →
        Does (.ringRelease ring) s ((complete ring 0 0).run
          (putF Reg.SYS_ABORT F.SYS_ABORT_QUIESCENT 0 (putF Reg.SYS_ABORT F.SYS_ABORT_ACTIVE 0 (fresh s.blk))))) ∧
      (s.blk.f Reg.SYS_ABORT F.SYS_ABORT_QUIESCENT ≠ 1 →
        Does (.ringRelease ring) s ((complete ring 0 1).run (fresh s.blk)))) ∧
    (Stands s.blk ring 0x0F false ws → (ring : Nat) ≤ 7 → s.blk.abortActive = true →
      Does (.abort ring) s ((complete ring 0 1).run (fresh s.blk)))

/-- When the oldest descriptor of a ring completes with a status and a DETAIL and its completion ring is enabled and not stopped, then it is no longer among the fetched ones, the ring's DEV_IDX goes up by one, one entry is written at the completion ring's producer index with PHASE, USER, ring, STATUS, DETAIL, CONS_IDX and the tick, and that index goes up by one. -/
def Obligations.CompletionEntry : Prop :=
  ∀ (b : Blk) (ring status detail : Nat) (d : Fetched), regsWf b.regs = true → ring < 40 → 40 ≤ d.cq → d.cq < 89 →
    b.rings.length = 89 → b.front ring = some d → b.ringEnabled d.cq = true → b.ringStopped d.cq = false →
    let c := (complete ring status detail).run b
    let cons := (b.devIdx ring + 1) % 4294967296
    (c.ring ring).fetched = (b.ring ring).fetched.tail ∧ c.devIdx ring = cons ∧
    c.devIdx d.cq = (b.devIdx d.cq + 1) % 4294967296 ∧
    Output.hostWrite (b.slotAddr d.cq (b.devIdx d.cq)) (withPhase (b.phase d.cq (b.devIdx d.cq))
      [BitVec.ofNat 32 (1 + dw d.ws 0 / 65536 * 65536),
        BitVec.ofNat 32 (ring + status * 256 + detail % 65536 * 65536), BitVec.ofNat 32 cons,
        BitVec.ofNat 32 b.aux.clk.tick]) ∈ c.aux.out

/-- A 4-byte write of a one-word register of the blocks whose registers only hold what is written, when no rule rejects it: RW and RWS fields take the new bits and W1C bits written 1 clear. In the bead interval of the next command its shadows are late for that command's boundaries; in that of the REG_WRITE before it, the RWS fields of a word which that descriptor wrote stay as it left them. A flag that the hardware sets in the same bead interval as a W1C_CLEAR is set afterwards, counts, and its event is due. A rejected write changes nothing but SYS_MAP_LAST and the flag REJECT; one that meets no register nothing but SYS_MAP_LAST and the flag UNMAPPED. -/
def Obligations.RegisterWriteLands : Prop :=
  ∀ (s : State) (off : BitVec 21) (value : BitVec 64) (hw : Word) (b : Blk) (w : Word), Ready s → off.toNat % 4 = 0 →
    b = unheld (fresh s.blk) → w = value.setWidth 32 →
    (∀ h, findReg off.toNat = some h → h.d.words = 1 → h.idx = 0 → h.readOnly = false → plainBlock h.base = true →
      (b.rejects h w.toNat = false →
        Does (.w1cClear off w hw) s (hardwareSet off.toNat hw.toNat (landed h w.toNat b)) ∧
        Does (.registerWrite off 4 value 0) s (landed h w.toNat b) ∧
        (∀ c, c = unheld (withAux (fun a => { a with dirty := [] }) (fresh s.blk)) → c.rejects h w.toNat = false →
          Does (.registerWrite off 4 value 1) s (lateIn (fun d => landed h w.toNat (unheld d)) (fresh s.blk))) ∧
        ((fresh s.blk).rejects h w.toNat = false → b.rejects h (b.beneath off.toNat w).toNat = false →
          Does (.registerWrite off 4 value 2) s (landed h (b.beneath off.toNat w).toNat b))) ∧
      (b.rejects h w.toNat = true → Does (.registerWrite off 4 value 0) s (refusedAt off.toNat b))) ∧
    (findReg off.toNat = none →
      Does (.registerWrite off 4 value 0) s (flagged flUnmapped (put Reg.SYS_MAP_LAST (withF 0
          [(F.SYS_MAP_LAST_OFFSET, off.toNat), (F.SYS_MAP_LAST_SRC, 0), (F.SYS_MAP_LAST_KIND, 1)]) b)))

/-- Bits outside the fields are those of any span that meets no field. -/
def Obligations.FieldsByType : Prop :=
  ∀ (d : RegDef) (old new : Nat),
    d.fields.Pairwise (fun f g => f.lo + f.w ≤ g.lo ∨ g.lo + g.w ≤ f.lo) →
    (∀ f ∈ d.fields, bits (landValue d old new) f.lo f.w =
      match f.ty with
      | .rw | .rws => bits new f.lo f.w
      | .w1c => Nat.land (bits old f.lo f.w) (2 ^ f.w - 1 - bits new f.lo f.w)
      | .wo | .rc | .occ => bits old f.lo f.w) ∧
    (∀ lo w, (∀ f ∈ d.fields, f.lo + f.w ≤ lo ∨ lo + w ≤ f.lo) → bits (landValue d old new) lo w = bits old lo w)

/-- RC_READ of a one-word register returns the word that stands in it; of a register with an RC field that field is 0 afterwards, or what the hardware sets it to in the same bead interval; of another register nothing changes. A read that meets no register returns 0 and changes nothing. -/
def Obligations.RegisterReads : Prop :=
  ∀ (s : State) (off : BitVec 21) (hw : Word), Ready s → off.toNat % 4 = 0 →
    (∀ h, findReg off.toNat = some h → h.d.words = 1 →
      (h.d.fields.any (fun f => f.ty == .rc) = false →
        Does (.rcRead off 4 hw) s (shown (.readData [(fresh s.blk).readWord off.toNat]) (fresh s.blk))) ∧
      (h.d.fields.any (fun f => f.ty == .rc) = true →
        Does (.rcRead off 4 hw) s (countersRaised h off.toNat hw (shown (.readData [(fresh s.blk).readWord off.toNat])
          (put off.toNat (clearRc h.d h.idx (s.blk.w off.toNat)) (fresh s.blk)))))) ∧
    (findReg off.toNat = none → Does (.rcRead off 4 hw) s (shown (.readData [0]) (fresh s.blk)))

/-- A REG_WRITE whose words pass the checks: when every pair names a whole register of the blocks whose registers only hold what is written and no rule rejects it, each register takes its value in order, in the bead interval of the next command where the command says so, a later MMIO write of that interval meets the words so written (R63), and the descriptor completes with OK; when a pair is rejected, no register is written, SYS_MAP_LAST and the flag REJECT, or UNMAPPED, record it without an event, and the descriptor completes with status 9 and the pair's index. -/
def Obligations.RegWriteDescriptor : Prop :=
  ∀ (s : State) (ring : Fin 40) (ws : List Word) (late : Bool) (l : List PairWrite) (n : Nat), Ready s →
    Stands s.blk ring 0x03 false ws → n = dw ws 1 → 1 ≤ n → n ≤ 6 → fieldFail ws (⟨1, 0xF, fun w => w % 16 != 0⟩ ::
      (List.range n).flatMap fun i => [⟨2 + 2 * i, 0x1FFFFF, fun _ => true⟩, anyW (3 + 2 * i)]) = none →
    (∀ i, i < n → dw ws (2 + 2 * i) % 4 = 0) →
    (groupPairs 6 0 (pairsOf ws) = .ok l → (∀ p ∈ l, p.h.readOnly = false ∧ plainBlock p.h.base = true) →
      firstRejected (fresh s.blk) (pairsOf ws) = none →
      ∃ c, c = (if late then lateIn fun b => l.foldl (fun b p => landed p.h p.v b) b
        else fun b => l.foldl (fun b p => landed p.h p.v b) b) (fresh s.blk) ∧
      Does (.regWrite ring late) s ((complete ring 0 0).run ((ringLanded l).run c))) ∧
    (∀ i o, firstRejected (fresh s.blk) (pairsOf ws) = some i → o = ((pairsOf ws).getD i (0, 0)).1 →
      Does (.regWrite ring late) s ((complete ring 0x09 i).run
        ((setFlagBit (if (findReg o).isNone then flUnmapped else flReject)).run
          (put Reg.SYS_MAP_LAST (withF 0 [(F.SYS_MAP_LAST_OFFSET, o), (F.SYS_MAP_LAST_SRC, 1),
            (F.SYS_MAP_LAST_KIND, b2n (findReg o).isNone)]) (fresh s.blk)))))

/-- A REG_READ of words that hold no RC field writes COUNT words, read from OFFSET upwards, at its host address and completes with OK. A TABLE_LOAD stores the bytes that its host reads bring at its offset of the table window, in the order of the reads, each behind those before it: it completes with OK after the last, and until then its region counts as being written; where a host read fails, it stores nothing more and completes with HOST_ERR (status 8). -/
def Obligations.RegReadAndTableLoad : Prop :=
  ∀ (s : State) (ring : Fin 40) (ws : List Word), Ready s →
    (∀ n, Stands s.blk ring 0x04 false ws → n = dw ws 1 → n ≤ 512 → n * 4 ≤ dw ws 6 → dw ws 6 ≠ 0xFFFFFFFF →
      dw ws 2 % 4 = 0 → dw ws 4 % 4 = 0 →
      fieldFail ws [⟨1, 0xFFFF, fun w => w != 0⟩, ⟨2, 0x1FFFFF, fun _ => true⟩, anyW 4, anyW 5, anyW 6] = none →
      (∀ i h, i < n → findReg (dw ws 2 + 4 * i) = some h → h.d.fields.any (fun f => f.ty == .rc) = false) →
      Does (.regRead ring) s ((complete ring 0 0).run (shown (.hostWrite (addr64 ws 4)
        ((List.range n).map fun i => (fresh s.blk).readWord (dw ws 2 + 4 * i))) (fresh s.blk)))) ∧
    (∀ n o, Stands s.blk ring 0x05 false ws → n = dw ws 4 → o = dw ws 5 → n ≠ 0xFFFFFFFF → o + n ≤ 0x4000000 →
      dw ws 2 % 64 = 0 → o % 64 = 0 → unmappedRange o n = false → (fresh s.blk).busyRange o n = false →
      fieldFail ws [anyW 2, anyW 3, ⟨4, 0xFFFFFFFF, fun w => w == 0xFFFFFFFF || (w != 0 && w % 64 == 0)⟩,
        ⟨5, 0x3FFFFFF, fun _ => true⟩] = none →
      (∀ d, Does (.tableLoad ring (some d) true) s
        ((complete ring 0 0).run ((winWrite o ((d.flatMap wordBytes).take n)).run (loadEnded ring (fresh s.blk)))) ∧
       ∀ bs, bs = (d.flatMap wordBytes).take n → Does (.tableLoad ring (some d) false) s
        (withAux (fun a => { a with loads := a.loads ++ [⟨ring, o, n, bs.length⟩] })
          ((winWrite o bs).run (loadEnded ring ((Prim.ring ring .start).apply (fresh s.blk)))))) ∧
      Does (.tableLoad ring none true) s ((complete ring 0x08 0).run (loadEnded ring (fresh s.blk)))) ∧
    (∀ n o k, Stands s.blk ring 0x05 true ws → n = dw ws 4 → o = dw ws 5 →
      k = ((s.blk.aux.loads.find? fun l => l.ring == (ring : Nat)).map TableWrite.done).getD 0 →
      (∀ d bs, bs = (d.flatMap wordBytes).take (n - k) →
        Does (.tableLoad ring (some d) true) s
          ((complete ring 0 0).run ((winWrite (o + k) bs).run (loadEnded ring (fresh s.blk)))) ∧
        Does (.tableLoad ring (some d) false) s
          (withAux (fun a => { a with loads := a.loads ++ [⟨ring, o, n, k + bs.length⟩] })
            ((winWrite (o + k) bs).run (loadEnded ring (fresh s.blk))))) ∧
      ∀ last, Does (.tableLoad ring none last) s ((complete ring 0x08 0).run (loadEnded ring (fresh s.blk))))

/-- Every write of a register ends the wait of R536 for a high part. -/
def Obligations.TickRequestsWait : Prop :=
  ∀ (s : State) (v : Word), Ready s → v ≠ 0 → ∀ c off,
    (c, off) ∈ [(Instr.sysSlackRearm v, Reg.SYS_SLACK_REARM), (.ovlSnap v, Reg.OVL_SNAP), (.srvSnap v, Reg.SRV_SNAP),
      (.dmcWqSnap v, Reg.DMC_WQ_SNAP), (.evrSnap v, Reg.EVR_SNAP), (.ptpTsqSnap v, Reg.PTP_TSQ_SNAP)] →
    Does c s (holding off v.toNat (unheld (fresh s.blk)))

/-- RING_ENABLE of a disabled ring with a size and a completion ring in range lands, takes DEV_IDX as the index last seen, and starts the ring there; RING_DISABLE of an enabled ring that leaves size, which is not all ones, and completion ring as they are lands and clears the ring's stop and its cause; RING_NUDGE starts a read of the doorbell words. -/
def Obligations.RingControl : Prop :=
  ∀ (s : State) (n : Fin 89) (v w1 w0 : Word) (b : Blk), Ready s → b = unheld (fresh s.blk) →
    w1 = F.RING_CTRL_ENABLE.put 1 v → w0 = F.RING_CTRL_ENABLE.put 0 v →
    (s.blk.ringEnabled n = false → 4 ≤ F.RING_CTRL_SIZE_LOG2.get v → F.RING_CTRL_SIZE_LOG2.get v ≤ 16 →
      40 ≤ F.RING_CTRL_CQ.get v → F.RING_CTRL_CQ.get v ≤ 47 →
      Does (.ringEnable n v) s ((Prim.ring n (.enable (s.blk.devIdx n))).apply
        (put (Reg.RING_IDX n + 4) (s.blk.w (Reg.RING_IDX n)) (landedAt (Reg.RING_CTRL n) w1.toNat b)))) ∧
    (s.blk.ringEnabled n = true → F.RING_CTRL_SIZE_LOG2.get v = s.blk.f (Reg.RING_CTRL n) F.RING_CTRL_SIZE_LOG2 →
      F.RING_CTRL_SIZE_LOG2.get v ≠ 31 →
      F.RING_CTRL_CQ.get v = s.blk.f (Reg.RING_CTRL n) F.RING_CTRL_CQ →
      Does (.ringDisable n v) s (putF (Reg.RING_ERR n) F.RING_ERR_CAUSE 0 (putF (Reg.RING_ERR n) F.RING_ERR_STOPPED 0
        (landedAt (Reg.RING_CTRL n) w0.toNat b)))) ∧
    Does (.ringNudge v) s (shown (.hostRead (b.w64 Reg.RING_DB_BASE) 2048) b)

/-- The books of the rings in balance is an invariant of the model (StepKeepsRingBooks). -/
def Obligations.SafeInStopsTheMachine : Prop :=
  ∀ s : State, Ready s → (∀ r ∈ s.blk.rings, RingBalances r) → s.blk.mode dCore ≠ .off → s.blk.mode dCore ≠ .safe →
    ∃ b, exec (.safeIn true) s = .next ⟨s.pending, b⟩ ∧ SafeAll s.blk b ∧ LasersOff b

/-- The watchdog's premises are those of R100. QUIESCENT with the link down waits for HOST_LINK_UP. -/
def Obligations.AbortStopsTheMachine : Prop :=
  ∀ (s : State) (c : Instr) (src : Nat) (up : Bool), Ready s → (∀ r ∈ s.blk.rings, RingBalances r) →
    s.blk.abortActive = false → s.blk.mode dCore ≠ .off → s.blk.mode dCore ≠ .safe →
    ((c = .sysAbortReq ∧ src = 1 ∧ up = s.blk.aux.linkUp) ∨
      (∃ (ring : Fin 40) (d : Fetched), c = .abort ring ∧ src = 2 ∧ up = s.blk.aux.linkUp ∧ (ring : Nat) ≤ 7 ∧
        (s.blk.ring ring).fetched.find? (fun d => opcodeOf d.ws == 0x0F && !d.begun) = some d ∧ fieldFail d.ws [] = none) ∨
      (c = .dlDown ∧ src = 4 ∧ up = false) ∨
      (c = .hostWatchdog ∧ src = 5 ∧ up = s.blk.aux.linkUp ∧
        (s.blk.mode dCore = .expose ∨ s.blk.mode dCore = .hold) ∧ s.blk.f Reg.HIF_WD F.HIF_WD_WD_MS ≠ 0 ∧
        s.blk.aux.wdFrom + s.blk.f Reg.HIF_WD F.HIF_WD_WD_MS * 1000000 ≤ s.blk.ns2)) →
    ∃ b, exec c s = .next ⟨s.pending, b⟩ ∧ AbortShown s.blk src (b2n up) b ∧ b.mode dCore = .safe ∧
      (∀ d, d < 46 → b.mode d = if coreStops .safe d (s.blk.mode d) then .safe else s.blk.mode d) ∧ LasersOff b ∧
      NoTrigger b

/-- The pending-bit array may also change at the end of a command (EndReg). -/
def Obligations.MsixMessages : Prop :=
  ∀ s : State, Ready s →
    (∀ v : Fin 256,
      let b := putF (Reg.MSIX_TABLE v 3) ⟨0, 1⟩ 0 (fresh s.blk)
      (s.blk.f (Reg.MSIX_PBA (v / 32)) ⟨v % 32, 1⟩ = 1 →
        Does (.msixUnmask v) s (shown (msixOf s.blk v) (putF (Reg.MSIX_PBA (v / 32)) ⟨v % 32, 1⟩ 0 b))) ∧
      (s.blk.f (Reg.MSIX_PBA (v / 32)) ⟨v % 32, 1⟩ ≠ 1 → Does (.msixUnmask v) s b)) ∧
    (∀ n : Fin 89, 40 ≤ (n : Nat) → s.blk.ringEnabled n = true → 0 < (s.blk.ring n).since →
      s.blk.f (Reg.RING_MOD n) F.RING_MOD_TIME_US ≠ 0 →
      (s.blk.ring n).firstNs + s.blk.f (Reg.RING_MOD n) F.RING_MOD_TIME_US * 1000 ≤ s.blk.ns2 →
      Does (.msixTimer n) s (withAux (fun a => { a with irq := a.irq ++ [s.blk.f (Reg.RING_CTRL n) F.RING_CTRL_VECTOR] })
        ((Prim.ring n .signalled).apply (fresh s.blk))))

/-- While a ring is enabled and the link is up: a read that succeeds ends the wait of ring 0 after an abort, unless an abort is still at work; a failed doorbell read sets the flag READ_ERR; a word whose complement disagrees sets TORN and moves no index; a word that repeats the index known changes nothing; a new index within the ring becomes the ring's host index and restarts the watchdog's time; an index out of range stops the ring with cause 1 and makes the error message due. A ring that may fetch takes the sixteen words with its completion ring; a failed fetch stops the ring with cause 2 and makes the error message due. -/
def Obligations.DoorbellAndFetch : Prop :=
  ∀ s : State, Ready s →
    (∀ (n : Nat) (idx inv : Word) (seen : Aux → Aux), seen = (if !s.blk.abortActive ||
          s.blk.f Reg.SYS_ABORT F.SYS_ABORT_QUIESCENT == 1 then fun a => { a with ring0Wait := false } else id) → n < 89 → s.blk.ringEnabled n = true → s.blk.aux.linkUp = true →
      Does (.doorbellPoll none) s (flagged flReadErr (fresh s.blk)) ∧
      (inv ≠ ~~~idx → Does (.doorbellPoll (some [(n, idx, inv)])) s (withAux seen (flagged flTorn (fresh s.blk)))) ∧
      (inv = ~~~idx → idx.toNat = s.blk.hostSeen n →
        Does (.doorbellPoll (some [(n, idx, inv)])) s (withAux seen (fresh s.blk))) ∧
      (inv = ~~~idx → idx.toNat ≠ s.blk.hostSeen n → s.blk.dbOutOfRange n idx.toNat = false →
        Does (.doorbellPoll (some [(n, idx, inv)])) s
          (withAux seen (withAux (fun a => { a with wdFrom := tbNs a.clk.tb2 }) (put (Reg.RING_IDX n + 4) idx (fresh s.blk))))) ∧
      (inv = ~~~idx → idx.toNat ≠ s.blk.hostSeen n → s.blk.dbOutOfRange n idx.toNat = true →
        s.blk.ringStopped n = false → ∃ b, exec (.doorbellPoll (some [(n, idx, inv)])) s = .next ⟨s.pending, b⟩ ∧
          b.ringStopped n = true ∧ b.f (Reg.RING_ERR n) F.RING_ERR_CAUSE = 1 ∧
          b.evr.raised = s.blk.evr.raised + s.blk.aux.evq.length + 1)) ∧
    (∀ (n : Fin 40) (ws : List Word), s.blk.mayFetch n = true → ws.length = 16 →
      Does (.descriptorFetch n (some ws)) s
        ((Prim.ring n (.fetch ws (s.blk.f (Reg.RING_CTRL n) F.RING_CTRL_CQ))).apply (fresh s.blk)) ∧
      Does (.descriptorFetch n none) s
        (withAux (fun a => { a with irq := a.irq ++ [s.blk.f Reg.HIF_IRQ_VEC F.HIF_IRQ_VEC_ERR_VEC] })
          (putF (Reg.RING_ERR n) F.RING_ERR_CAUSE 2 (putF (Reg.RING_ERR n) F.RING_ERR_STOPPED 1 (fresh s.blk)))))

/-- A request of an abort that is not active yet: AbortStopsTheMachine. -/
def Obligations.HostSideResets : Prop :=
  ∀ (s : State) (c : Instr), Ready s → s.blk.rings.length = 89 →
    ((c = .functionLevelReset ∧ s.blk.abortActive = true) ∨
      (c = .linkReset ∧ (s.blk.abortActive = true ∨ s.blk.mode dCore = .off))) →
    ∃ b, exec c s = .next ⟨s.pending, b⟩ ∧
      (∀ o, 0x10000 ≤ o → o < 0x30000 → ¬ EndReg o → b.w o = defaultWord o) ∧
      (∀ o, o < 0x10000 ∨ 0x30000 ≤ o → ¬ EndReg o → o ≠ Reg.SYS_ABORT → b.w o = s.blk.w o) ∧
      (∀ r ∈ b.rings, r = Ring.init) ∧ b.rings.length = 89 ∧
      (c = .functionLevelReset → b.f Reg.SYS_ABORT F.SYS_ABORT_QUIESCENT = 1 ∧ b.aux.linkUp = s.blk.aux.linkUp) ∧
      (c = .linkReset → b.w Reg.SYS_ABORT = s.blk.w Reg.SYS_ABORT ∧ b.aux.linkUp = false)

/-- HOST_LINK_UP marks the link up and, while an abort is active with QUIESCENT 0, completes the fetched descriptors so that QUIESCENT is 1 with every mode and other trigger as it was; otherwise it does nothing more. AXES_REST, while an abort still waits for it and every axis is at rest, sets the bit AXES_REST and ends the wait. SYS_ABORT_RELEASE while QUIESCENT is 1 makes ACTIVE and QUIESCENT 0; while QUIESCENT is 0 it changes nothing. -/
def Obligations.AbortAftermath : Prop :=
  ∀ s : State, Ready s →
    (let x := withAux (fun a => { a with linkUp := true }) (fresh s.blk);
      (s.blk.abortActive = false ∨ s.blk.f Reg.SYS_ABORT F.SYS_ABORT_QUIESCENT ≠ 0 → Does .hostLinkUp s x) ∧
      ((∀ r ∈ s.blk.rings, RingBalances r) → s.blk.abortActive = true →
        s.blk.f Reg.SYS_ABORT F.SYS_ABORT_QUIESCENT = 0 →
        ∃ b, exec .hostLinkUp s = .next ⟨s.pending, b⟩ ∧ b.abortActive = true ∧
          b.f Reg.SYS_ABORT F.SYS_ABORT_QUIESCENT = 1 ∧ NoTrigger b ∧
          ∀ d, d < 47 → b.mode d = s.blk.mode d)) ∧
    (s.blk.aux.restDue = true → s.blk.aux.fwLost = none → s.blk.axesAtRest = true → Does .axesRest s
      (withAux (fun a => { a with restDue := false }) (putF Reg.SYS_ABORT F.SYS_ABORT_AXES_REST 1 (fresh s.blk)))) ∧
    (s.blk.f Reg.SYS_ABORT F.SYS_ABORT_QUIESCENT = 1 → Does .sysAbortRelease s
      (putF Reg.SYS_ABORT F.SYS_ABORT_QUIESCENT 0 (putF Reg.SYS_ABORT F.SYS_ABORT_ACTIVE 0 (unheld (fresh s.blk))))) ∧
    (s.blk.f Reg.SYS_ABORT F.SYS_ABORT_QUIESCENT ≠ 1 → Does .sysAbortRelease s (unheld (fresh s.blk)))

/-- R508 to R516: what survives is AcrossReset; storage contents are the operand of STORAGE_RECOVERY. -/
def Obligations.Resets : Prop :=
  ∀ s : State, s.blk.rings.length = 89 → regsWf s.blk.regs = true →
    (∀ c ∈ [Instr.coldReset, .unexpectedLossOfPower],
      ∃ b, exec c s = .next ⟨s.pending, b⟩ ∧ Restarted s.blk b ∧ b.aux.inReset = true) ∧
    (NoTrigger s.blk → Does .resetRelease s (withAux (fun a => { a with inReset := false }) (fresh s.blk))) ∧
    (Ready s →
      (∀ t, s.blk.aux.fwLost = some t →
        s.blk.f Reg.SYS_ABORT F.SYS_ABORT_AXES_REST = 1 ∨ t + 5000000000 ≤ s.blk.ns2 →
        ∃ b, exec .warmResetAfterFwLoss s = .next ⟨s.pending, b⟩ ∧ Restarted s.blk b ∧ b.aux.inReset = false ∧
          b.f Reg.SYS_BOOT_STAT F.SYS_BOOT_STAT_LAST_RESET = 2) ∧
      (∀ v, F.SYS_RESET_KEY.get v = 0x5741 → s.blk.keyPermitted = true →
        ∃ b, exec (.sysResetKey v) s = .next ⟨s.pending, b⟩ ∧ Restarted s.blk b ∧ b.aux.inReset = false ∧
          b.f Reg.SYS_BOOT_STAT F.SYS_BOOT_STAT_LAST_RESET = 1) ∧
      (∀ v, F.SYS_RESET_KEY.get v ≠ 0x5741 → Does (.sysResetKey v) s (unheld (fresh s.blk))))

/-- TIM_LATCH with its bit written 1 copies the four time bases, as 128-bit stamps of one moment, and the tick count into their registers. TIM_SETCTL with GO loads time base 0 or 1 from TIM_SETVAL unless its instance is enabled or the stamp is not valid: then the write is rejected. MPL_HM_FOLD with CLEAR lands and asks for the clearing of the map unless its N is above 256: then the write is rejected. A trim written to CAL_RES of a target below 78 whose domain is in OFF or RESET is restored: the register takes it and its state shows 2; otherwise the write is rejected. -/
def Obligations.TimeAndTrimsByRegister : Prop :=
  ∀ s : State, Ready s →
    (∀ v : Word,
      let c := s.blk.aux.clk
      let b := unheld (fresh s.blk)
      (v.toNat % 2 = 1 → Does (.timLatch v) s (puts ((((List.range 4).flatMap fun i => (List.range 4).map fun j =>
          (Reg.TIM_VAL i j, (toWords 4 (stampOf ([c.tb0, c.tb1, c.tb2, c.tb3].getD i 0))).getD j 0))) ++
        [(Reg.TIM_TICK, BitVec.ofNat 32 c.tick), (Reg.TIM_TICK + 4, BitVec.ofNat 32 (c.tick / 4294967296))]) b)) ∧
      (v.toNat % 2 = 0 → Does (.timLatch v) s b)) ∧
    (∀ v : Word,
      let tb := F.TIM_SETCTL_TB.get v
      let b := unheld (fresh s.blk)
      (s.blk.goRejected tb = false → Does (.timSetctlGo v) s (withAux (fun a => { a with clk :=
        if tb = 0 then { a.clk with tb0 := ofStamp s.blk.setVal } else { a.clk with tb1 := ofStamp s.blk.setVal } })
          (landedAt Reg.TIM_SETCTL (F.TIM_SETCTL_GO.put 1 v).toNat b))) ∧
      (s.blk.goRejected tb = true → Does (.timSetctlGo v) s (refusedAt Reg.TIM_SETCTL b))) ∧
    (∀ v w : Word, w = F.MPL_HM_FOLD_CLEAR.put 1 v →
      (bits w.toNat 0 9 ≤ 256 →
        Does (.hmFoldClear v) s (withAux (fun a => { a with build := { a.build with clearReq := true } })
          (landedAt Reg.MPL_HM_FOLD w.toNat (unheld (fresh s.blk))))) ∧
      (256 < bits w.toNat 0 9 → Does (.hmFoldClear v) s (refusedAt Reg.MPL_HM_FOLD (unheld (fresh s.blk))))) ∧
    (∀ (t : Fin 80) (v : Word),
      let b := unheld (fresh s.blk)
      (s.blk.calRejected t = false → Does (.calRestore t v) s (putF (Reg.CAL_TSTAT t) F.CAL_TSTAT_STATE 2
        (withAux (fun a => { a with cals := a.cals.modify t fun x => { x with restored := true } })
          (put (Reg.CAL_RES t) v (landedAt (Reg.CAL_RES t) v.toNat b))))) ∧
      (s.blk.calRejected t = true → Does (.calRestore t v) s (refusedAt (Reg.CAL_RES t) b)))

/-- BST_RUN of a unit that may be tested begins its test; otherwise the write is rejected. RUN_DONE of a test under way resets the unit, keeps its result and sets the flag RUN_DONE; with no test it does nothing. BST_RPR_CFG with FUSE in manufacturing adds each array's soft repairs, up to 8 rows, to its fused ones; in another life cycle the write is rejected. EXIT_SVC in service leaves the life cycle field, the test port closed, and every domain in SERVICE asking for SETUP; in another life cycle it does nothing. RB_COMMIT, where it is accepted, takes the rollback number of the firmware loaded; otherwise it is rejected. -/
def Obligations.TestAndLifeCycleByRegister : Prop :=
  ∀ s : State, Ready s →
    (∀ v : Word,
      (s.blk.bstRejected (v.toNat % 256) = false → Does (.bstRun v) s
        (withAux (fun a => { a with boot := { a.boot with testing := some (v.toNat % 256) } }) (unheld (fresh s.blk)))) ∧
      (s.blk.bstRejected (v.toNat % 256) = true → Does (.bstRun v) s (refusedAt Reg.BST_RUN (unheld (fresh s.blk))))) ∧
    (∀ result sig rows,
      (∀ u, s.blk.aux.boot.testing = some u →
        Does (.runDone result sig rows) s (flagged (flBst 1) ((keepResult ⟨u, result, sig, rows⟩).run ((unitReset u).run
          (withAux (fun a => { a with boot := { a.boot with testing := none } }) (fresh s.blk)))))) ∧
      (s.blk.aux.boot.testing = none → Does (.runDone result sig rows) s (fresh s.blk))) ∧
    (∀ v : Word,
      (s.blk.lifeCycle = 1 → ∃ b, exec (.bstRprFuse v) s = .next ⟨s.pending, b⟩ ∧ ∀ a, a < 96 →
        b.f (Reg.BST_RPR_ARR a) F.BST_RPR_ARR_FUSED =
          min 8 (s.blk.f (Reg.BST_RPR_ARR a) F.BST_RPR_ARR_FUSED + s.blk.f (Reg.BST_RPR_ARR a) F.BST_RPR_ARR_SOFT) ∧
        b.f (Reg.BST_RPR_ARR a) F.BST_RPR_ARR_SOFT = 0) ∧
      (s.blk.lifeCycle ≠ 1 → Does (.bstRprFuse v) s (refusedAt Reg.BST_RPR_CFG (unheld (fresh s.blk))))) ∧
    (s.blk.lifeCycle = 4 → ∃ b, exec .exitSvc s = .next ⟨s.pending, b⟩ ∧ b.lifeCycle = 3 ∧
      b.f Reg.LCS_STATE F.LCS_STATE_TAP_OPEN = 0 ∧ b.aux.trans = s.blk.aux.trans ++
        ((List.range 48).filter fun d => s.blk.mode d == .service).map fun d => ⟨d, .setup, .lifecycle, false⟩) ∧
    (s.blk.lifeCycle ≠ 4 → Does .exitSvc s (unheld (fresh s.blk))) ∧
    (s.blk.aux.boot.fw = none → Does .rbCommit s (refusedAt Reg.LCS_CTRL (unheld (fresh s.blk)))) ∧
    (∀ version rb, s.blk.aux.boot.fw = some (version, rb) →
      ((s.blk.lifeCycle = 2 ∨ s.blk.lifeCycle = 3 ∨ s.blk.lifeCycle = 4) → s.blk.f Reg.LCS_STATE F.LCS_STATE_RB < rb →
        Does .rbCommit s (putF Reg.LCS_STATE F.LCS_STATE_RB rb (unheld (fresh s.blk)))) ∧
      (rb ≤ s.blk.f Reg.LCS_STATE F.LCS_STATE_RB → Does .rbCommit s (refusedAt Reg.LCS_CTRL (unheld (fresh s.blk)))))

/-- SYS_BOOT_CTRL with LOAD (and not RELEASE) lands and, unless a load is under way or done, reads the image header: FW_STATE is 1; otherwise it is rejected. FW_LOAD_DONE of a load under way: a failed read shows FW_STATE 3, a sound image 2 with its version kept, an unsound one 3 with the flag FW_REJECT. RELEASE (and not LOAD), where it is permitted, lands and asks every usable domain in OFF for RESET with cause POWER_UP; otherwise it is rejected. A domain in RESET or SELFTEST whose lanes are not up LINK_MS after the release is marked absent. BOOT_DONE, once no domain waits but those marked absent, sets DONE, shows EXP_DONE after a full test, and raises event 0x030. -/
def Obligations.BootSteps : Prop :=
  ∀ s : State, Ready s →
    (∀ (v w : Word) (ok : Bool), w = F.SYS_BOOT_CTRL_LOAD.put 1 v →
      (ok = true ↔ F.SYS_BOOT_CTRL_RELEASE.get v = 0 ∧ 1 ≤ F.SYS_BOOT_CTRL_LINK_MS.get v ∧
        F.SYS_BOOT_CTRL_LINK_MS.get v ≤ 65534 ∧ s.blk.f Reg.SYS_BOOT_STAT F.SYS_BOOT_STAT_FW_STATE ≠ 1 ∧
        s.blk.f Reg.SYS_BOOT_STAT F.SYS_BOOT_STAT_FW_STATE ≠ 2) →
      (ok = true → Does (.bootLoad v) s (shown (.hostRead (s.blk.w64 Reg.SYS_BOOT_ADDR) 128)
          (putF Reg.SYS_BOOT_STAT F.SYS_BOOT_STAT_FW_STATE 1 (landedAt Reg.SYS_BOOT_CTRL w.toNat (unheld (fresh s.blk)))))) ∧
      (ok = false → Does (.bootLoad v) s (refusedAt Reg.SYS_BOOT_CTRL (unheld (fresh s.blk))))) ∧
    (s.blk.f Reg.SYS_BOOT_STAT F.SYS_BOOT_STAT_FW_STATE = 1 →
      Does (.fwLoadDone none) s (putF Reg.SYS_BOOT_STAT F.SYS_BOOT_STAT_FW_STATE 3 (fresh s.blk)) ∧
      ∀ ws, (∀ fw, s.blk.imageOk ws = some fw → Does (.fwLoadDone (some ws)) s
          (withAux (fun a => { a with boot := { a.boot with fw := some fw } })
            (putF Reg.SYS_BOOT_STAT F.SYS_BOOT_STAT_FW_STATE 2 (fresh s.blk)))) ∧
        (s.blk.imageOk ws = none → Does (.fwLoadDone (some ws)) s
          (putF Reg.SYS_BOOT_STAT F.SYS_BOOT_STAT_FW_STATE 3 (flagged (flLcs 1) (fresh s.blk))))) ∧
    (∀ (v w : Word) (ok : Bool), w = F.SYS_BOOT_CTRL_RELEASE.put 1 v →
      (ok = true ↔ F.SYS_BOOT_CTRL_LOAD.get v = 0 ∧ 1 ≤ F.SYS_BOOT_CTRL_LINK_MS.get v ∧
        F.SYS_BOOT_CTRL_LINK_MS.get v ≤ 65534 ∧ s.blk.releaseRejected = false) →
      (ok = true → Does (.bootRelease v) s
        (((List.range 48).filter fun d => s.blk.mode d == .off && !s.blk.unusable d).foldl
          (fun b d => awaiting d .reset .powerUp b)
          (withAux (fun a => { a with boot := { a.boot with released := true } })
            (landedAt Reg.SYS_BOOT_CTRL w.toNat (unheld (fresh s.blk)))))) ∧
      (ok = false → Does (.bootRelease v) s (refusedAt Reg.SYS_BOOT_CTRL (unheld (fresh s.blk))))) ∧
    (∀ (d : Fin 34) t, s.blk.aux.boot.upFrom = some t → (s.blk.mode d = .reset ∨ s.blk.mode d = .selftest) → s.blk.lanesUp d = false →
      t + 1000000 * s.blk.f Reg.SYS_BOOT_CTRL F.SYS_BOOT_CTRL_LINK_MS ≤ s.blk.ns2 → Does (.laneAbsent d) s
        (if (d : Nat) < 32 then putF Reg.SYS_BOOT_ABSENT ⟨d, 1⟩ 1 (fresh s.blk)
        else putF Reg.SYS_BOOT_STAT ⟨10 + ((d : Nat) - 32), 1⟩ 1 (fresh s.blk))) ∧
    (s.blk.f Reg.SYS_BOOT_STAT F.SYS_BOOT_STAT_RELEASED = 1 → s.blk.f Reg.SYS_BOOT_STAT F.SYS_BOOT_STAT_DONE = 0 →
      s.blk.aux.boot.upFrom.isSome = true →
      (∀ d, d < 48 → (s.blk.mode d = .reset ∨ s.blk.mode d = .selftest → s.blk.absent d = true) ∧
        ∀ t ∈ s.blk.aux.trans, t.dom = d → t.mode ≠ .reset) →
      ∃ b, exec .bootDone s = .next ⟨s.pending, b⟩ ∧ b.f Reg.SYS_BOOT_STAT F.SYS_BOOT_STAT_DONE = 1 ∧
        (s.blk.aux.boot.bist = true → b.f Reg.BST_SUMMARY F.BST_SUMMARY_EXP_DONE = 1) ∧
        b.evr.raised = s.blk.evr.raised + s.blk.aux.evq.length + 1)

/-- The checks of each descriptor, in the order of R80 and of its own rule, stand in the hypotheses. -/
def Obligations.BuildControl : Prop :=
  ∀ (s : State) (ring : Fin 40) (ws : List Word) (x : Option Fail), Ready s →
    let b := fresh s.blk
    (Stands s.blk ring 0x10 false ws → x = firstFail [fieldFail ws [anyW 1, anyW 2], stateFail b [.setup],
        need (!(b.lifeCycle == 0 || b.lifeCycle == 5)) 0x67 0] →
      (∀ e, x = some e → Does (.buildOpen ring) s ((complete ring e.status e.detail).run b)) ∧
      (x = none → Does (.buildOpen ring) s ((complete ring 0 0).run (awaiting dCore .armed .command (put Reg.SEQ_COAT 0
        (forgetPatches.run (withAux (fun a => { a with build := { Build.init with isOpen := true, id := addr64 ws 1 } }) b))))))) ∧
    (Stands s.blk ring 0x11 false ws → x = firstFail [fieldFail ws [], stateFail b inBuild] →
      (∀ e, x = some e → Does (.buildClose ring) s ((complete ring e.status e.detail).run b)) ∧
      (x = none → Does (.buildClose ring) s ((complete ring 0 0).run
        (withAux (fun a => { a with build := { a.build with closed := true } }) b)))) ∧
    (∀ n coats, Stands s.blk ring 0x12 false ws → n = dw ws 1 → x = firstFail [fieldFail ws coatDefineRules,
        lenFail ws 2 0xFFFFFFFF (decide (4095 < dw ws 2)), stateFail b inBuild, need (!b.build.closed) 0x6A 0,
        need (decide (b.build.last < n)) 0x4F 0,
        need (decide ((b.build.coats.filter fun c => !c.ended3).length < 4)) 0x4E 0] →
      coats = s.blk.build.coats ++ [{
        num := n, parts := dw ws 2, layer := bits (dw ws 3) 0 16, flow := bits (dw ws 3) 16 16,
        recoat := bits (dw ws 4) 0 4, float := bits (dw ws 4) 4 4, image := bit (dw ws 4) 8, auto := bit (dw ws 4) 9,
        tag := dw ws 5, released := false, stage := 0, cut := false, ended3 := false, part := [] }] →
      (∀ e, x = some e → Does (.coatDefine ring) s ((complete ring e.status e.detail).run b)) ∧
      (x = none → Does (.coatDefine ring) s ((complete ring 0 0).run
        (putF Reg.SEQ_COAT F.SEQ_COAT_DEFINED (coats.filter fun c => !c.ended3).length
          (withAux (fun a => { a with build := { a.build with last := n, coats := coats } }) b))))) ∧
    (Stands s.blk ring 0x13 false ws → x = firstFail [fieldFail ws [⟨1, 0xFFFFFF, fun _ => true⟩], stateFail b inBuild,
        need (((b.coat (dw ws 1)).map fun c => c.stage == 0).getD false) 0x40 0] →
      (∀ e, x = some e → Does (.coatStart ring) s ((complete ring e.status e.detail).run b)) ∧
      (x = none → Does (.coatStart ring) s ((complete ring 0 0).run (withAux (fun a => { a with build := { a.build with
        coats := a.build.coats.map fun c => if c.num == dw ws 1 then { c with released := true } else c } }) b)))) ∧
    (Stands s.blk ring 0x14 false ws → x = firstFail [fieldFail ws [], stateFail b [.expose, .hold],
        need (b.phaseNo == 1 || b.phaseNo == 2 || b.phaseNo == 3) 0x40 0] →
      (∀ e, x = some e → Does (.coatCut ring) s ((complete ring e.status e.detail).run b)) ∧
      (x = none → b.phaseNo ≠ 3 → Does (.coatCut ring) s (withAux (fun a => { a with build := { a.build with
          cutRings := a.build.cutRings ++ [(ring : Nat)],
          coats := a.build.coats.map fun c => if c.num == s.blk.coatNo then { c with cut := true } else c } })
        ((Prim.ring ring .start).apply b))))

/-- PART_LOAD, PATCH_LOAD and PSET_WRITE complete with their first check that fails; with HOST_ERR where the host read fails; with the status of the first entry that is unsound, the patch limit or the set that is busy; each with no other effect. Otherwise all parts join the coat, all patches join their part, all sets land as waiting generations, and the descriptor completes with OK. -/
def Obligations.LoadsOfBuildData : Prop :=
  ∀ (s : State) (ring : Fin 40) (ws d : List Word), Ready s →
    let b := fresh s.blk
    (Stands s.blk ring 0x15 false ws →
      (∀ e data, loadFail b ws false = some e → Does (.partLoad ring data) s ((complete ring e.status e.detail).run b)) ∧
      (loadFail b ws false = none →
        Does (.partLoad ring none) s ((complete ring 0x08 0).run b) ∧
        ∀ c, s.blk.coat (dw ws 1) = some c →
          (∀ e, partEntries c (dw ws 2) d (dw ws 4) 0 = .error e →
            Does (.partLoad ring (some d)) s ((complete ring e.status e.detail).run b)) ∧
          (∀ ps, partEntries c (dw ws 2) d (dw ws 4) 0 = .ok ps →
            Does (.partLoad ring (some d)) s ((complete ring 0 0).run (withAux (fun a => { a with build := { a.build with
              coats := a.build.coats.map fun y => if y.num == dw ws 1 then { y with part := y.part ++ ps } else y } })
                b))))) ∧
    (Stands s.blk ring 0x16 false ws →
      (∀ e data, loadFail b ws true = some e → Does (.patchLoad ring data) s ((complete ring e.status e.detail).run b)) ∧
      (loadFail b ws true = none →
        Does (.patchLoad ring none) s ((complete ring 0x08 0).run b) ∧
        ∀ c p, s.blk.coat (dw ws 1) = some c → c.findPart (dw ws 2) = some p →
          (∀ e, patchEntries p (dw ws 3) d (dw ws 4) 0 = .error e →
            Does (.patchLoad ring (some d)) s ((complete ring e.status e.detail).run b)) ∧
          (∀ qs, patchEntries p (dw ws 3) d (dw ws 4) 0 = .ok qs → 1048576 < s.blk.patchCount + qs.length →
            Does (.patchLoad ring (some d)) s ((complete ring 0x50 0).run b)) ∧
          (∀ qs, patchEntries p (dw ws 3) d (dw ws 4) 0 = .ok qs → s.blk.patchCount + qs.length ≤ 1048576 →
            Does (.patchLoad ring (some d)) s ((complete ring 0 0).run (withAux (fun a => { a with build := { a.build with
              coats := a.build.coats.map fun y => if y.num == dw ws 1 then addPatches (dw ws 2) qs y else y } }) b))))) ∧
    (∀ first n x, Stands s.blk ring 0x17 false ws → first = dw ws 1 → n = dw ws 2 → x = firstFail [
        fieldFail ws psetRules,
        lenFail ws 2 0xFFFF (decide (256 < n) || decide (256 < first + n) || decide (dw ws 6 < n * 64)),
        lenFail ws 6 0xFFFFFFFF false, alignFail ws 4 64, stateFail b (.setup :: inBuild)] →
      (∀ e data, x = some e → Does (.psetWrite ring data) s ((complete ring e.status e.detail).run b)) ∧
      (x = none →
        Does (.psetWrite ring none) s ((complete ring 0x08 0).run b) ∧
        (∀ e, psetEntries b first d n 0 = .error e →
          Does (.psetWrite ring (some d)) s ((complete ring e.status e.detail).run b)) ∧
        (∀ i, psetEntries b first d n 0 = .ok () → (List.range n).find? (fun i => b.setBusy (first + i)) = some i →
          Does (.psetWrite ring (some d)) s ((complete ring 0x49 (first + i)).run b)) ∧
        (psetEntries b first d n 0 = .ok () → (∀ i, i < n → s.blk.setBusy (first + i) = false) →
          Does (.psetWrite ring (some d)) s ((complete ring 0 0).run
            (withAux (fun a => { a with psets := landSets first d n a.psets }) b)))))

/-- MP_BURST_ARM, MP_BURST_READ, CAM_IMAGE_READ, FLT_MEASURE, FLT_FIRE and MOT_MOVE complete with their first check that fails and do nothing else. Otherwise: the burst of the head is armed with length, position and trigger; the burst's samples, or the image's pixels, go from DRAM to the host address (an image with a line that cannot be read completes with MEM_UE after its error is recorded); the bar's measurement job, or fire request, begins and the descriptor stays in execution; the move joins the axis's queue with the next sequence number, which is the DETAIL. -/
def Obligations.MeasureAndMoveCommands : Prop :=
  ∀ (s : State) (ring : Fin 40) (ws : List Word) (x : Option Fail), Ready s →
    let b := fresh s.blk
    (∀ h len pre, Stands s.blk ring 0x20 false ws → h = bits (dw ws 1) 0 5 → len = dw ws 2 → pre = dw ws 3 →
      x = firstFail [
        fieldFail ws [⟨1, 0x1F, fun _ => true⟩,
          ⟨2, 0xFFFFFFFF, fun w => decide (w = 0xFFFFFFFF ∨ (1 ≤ w ∧ w ≤ 65536))⟩,
          ⟨3, 0xFFFFFFFF, fun w => decide (w = 0xFFFFFFFF ∨ w < len)⟩, ⟨4, 1, fun _ => true⟩],
        lenFail ws 2 0xFFFFFFFF false, lenFail ws 3 0xFFFFFFFF false,
        need (!(b.burstState h == 1 || b.burstState h == 2)) 0x53 0] →
      (∀ e, x = some e → Does (.mpBurstArm ring) s ((complete ring e.status e.detail).run b)) ∧
      (x = none → Does (.mpBurstArm ring) s ((complete ring 0 0).run
        ((modPool h fun p => { p with burst := ⟨len, pre, bit (dw ws 4) 0, 0⟩ }).run
          (putF (Reg.MPL_HEAD_BURST h) F.MPL_HEAD_BURST_STATE 1 b))))) ∧
    (∀ h n, Stands s.blk ring 0x21 false ws → h = bits (dw ws 1) 0 5 → n = dw ws 3 → x = firstFail [
        fieldFail ws [⟨1, 0x1F, fun _ => true⟩, anyW 2, ⟨3, 0xFFFFFFFF, fun w => w != 0⟩, anyW 4, anyW 5, anyW 6],
        lenFail ws 3 0xFFFFFFFF ((b.burstState h != 0 && decide ((b.pool h).burst.len < dw ws 2 + n)) || decide (dw ws 6 < n * 4)),
        lenFail ws 6 0xFFFFFFFF false, alignFail ws 4 4, need (b.burstState h != 2) 0x53 0, need (b.burstState h == 3) 0x54 0] →
      (∀ e, x = some e → Does (.mpBurstRead ring) s ((complete ring e.status e.detail).run b)) ∧
      (x = none → Does (.mpBurstRead ring) s ((complete ring 0 0).run
        (shown (.hostWrite (addr64 ws 4) (s.blk.dramWords (s.blk.w64 (Reg.MPL_HEAD_BURST_BASE h) + 4 * dw ws 2) n))
          b)))) ∧
    (∀ c i w h busy bad, Stands s.blk ring 0x22 false ws → c = bits (dw ws 1) 0 3 → i = bits (dw ws 1) 3 1 →
      w = bits (s.blk.w (Reg.CAM_IMG c i + 4)).toNat 0 13 → h = bits (s.blk.w (Reg.CAM_IMG c i + 4)).toNat 16 13 →
      busy = ((s.blk.camBook c).frames.any (fun f => f.buf == some i) ||
        (s.blk.cam c).ended.any (fun f => f.buf == some i)) →
      bad = b.badLine (b.imageBase c + 33554432 * i) (2 * w * h) →
      x = firstFail [
        fieldFail ws [⟨1, 0xF, fun _ => true⟩, anyW 2, anyW 3, anyW 4], lenFail ws 4 0xFFFFFFFF false,
        need (decide (w * h * 2 ≤ dw ws 4)) 0x06 4,
        alignFail ws 2 64, need (!busy) 0x55 0, need (s.blk.f (Reg.CAM_IMG c i) F.CAM_IMG_VALID == 1) 0x56 0] →
      (∀ e, x = some e → Does (.camImageRead ring) s ((complete ring e.status e.detail).run b)) ∧
      (∀ l, x = none → bad = some l → Does (.camImageRead ring) s ((complete ring 0x5D 0).run ((badRead 5 l).run b))) ∧
      (x = none → bad = none → Does (.camImageRead ring) s
        ((complete ring 0 (s.blk.f (Reg.CAM_IMG c i) F.CAM_IMG_COAT % 65536)).run
          (shown (.hostWrite (addr64 ws 2) (bytesToWords (s.blk.dramRead ((s.blk.imageBase c + 33554432 * i)) (2 * w * h)))) b)))) ∧
    (Stands s.blk ring 0x23 false ws → x = fltFail b ws false →
      (∀ e, x = some e → Does (.fltMeasure ring) s ((complete ring e.status e.detail).run b)) ∧
      (x = none → Does (.fltMeasure ring) s ((modBar (bits (dw ws 1) 0 1) fun x => { x with
        meas := [⟨.command ring, dw ws 2, dw ws 2 + dw ws 3, [], false, false⟩] }).run
          ((Prim.ring ring .start).apply b)))) ∧
    (Stands s.blk ring 0x24 false ws → x = fltFail b ws true →
      (∀ e, x = some e → Does (.fltFire ring) s ((complete ring e.status e.detail).run b)) ∧
      (x = none → Does (.fltFire ring) s ((modBar (bits (dw ws 1) 0 1) fun x => { x with
        fire := some ⟨ring, dw ws 2, dw ws 3 % 16, none⟩ }).run ((Prim.ring ring .start).apply b)))) ∧
    (∀ a seq, Stands s.blk ring 0x25 false ws → a = bits (dw ws 1) 0 4 → seq = ((s.blk.mot a).seq + 1) % 256 →
      x = motMoveFail b ws →
      (∀ e, x = some e → Does (.motMove ring) s ((complete ring e.status e.detail).run b)) ∧
      (x = none → Does (.motMove ring) s ((complete ring 0 seq).run
        ((modMot a fun y => { y with seq := seq, queue := y.queue ++ [moveOf ws seq] }).run b))))

/-- STREAM_RESET and STREAM_APPEND complete with their first check that fails and do nothing else. Otherwise STREAM_RESET discards the queued runs of the context and gives up its held records, last key and unfinished part, and STREAM_APPEND stays in execution until its buffer is read. When it is read (APPEND_BUFFER_READ) with credits for its records it completes with HOST_ERR where the host read fails, with CORRUPT, LENGTH or SHORT where its compressed records do not expand, with the first record that is unsound, or all of its records are held, new runs are submitted, records that may enter the prefetch are released, and the number of records is the DETAIL; without credits it waits. -/
def Obligations.StreamCommands : Prop :=
  ∀ (s : State) (ring : Fin 40) (ws : List Word), Ready s →
    let b := fresh s.blk
    (∀ c mine waiting x, Stands s.blk ring 0x18 false ws → c = dw ws 1 →
      mine = s.blk.runs.runs.filter (fun r => r.ctx == c) →
      waiting = ((s.blk.front (8 + c / 4)).map fun d => d.begun && ctxOf (8 + c / 4) d.ws == c).getD false →
      x = firstFail [
        fieldFail ws [⟨1, 0x7F, fun _ => true⟩],
        need (([Mode.setup, .armed, .safe, .service].contains (s.blk.mode (c / 4))) &&
          !(mine.any fun r => r.place.isExec || r.place.isTransit) && !waiting) 0x4D 0] →
      (∀ e, x = some e → Does (.streamReset ring) s ((complete ring e.status e.detail).run b)) ∧
      (x = none → Does (.streamReset ring) s ((complete ring 0 0).run
        ((modCtx c fun y => { y with held := [], lastKey := none, part := none }).run
          ((progEach (mine.filter fun r => r.place.isQueued) fun r => endRun r.key .discarded).run b))))) ∧
    (Stands s.blk ring 0x40 false ws →
      (∀ e, appendFail b ring ws = some e → Does (.streamAppend ring) s ((complete ring e.status e.detail).run b)) ∧
      (appendFail b ring ws = none →
        ∃ b2, exec (.streamAppend ring) s = .next ⟨s.pending, b2⟩ ∧ Agrees ((Prim.ring ring .start).apply b) b2)) ∧
    (∀ c n b1, Stands s.blk ring 0x40 true ws → c = ctxOf ring ws → n = recordBytes ws / 32 →
      b1 = (modCtx c fun y => { y with reserved := 0 }).run ((modCtx c fun y => { y with reserved := n }).run b) →
      (s.blk.credits c < n → ∀ data, Does (.appendBufferRead ring data) s b) ∧
      (n ≤ s.blk.credits c →
        Does (.appendBufferRead ring none) s ((complete ring 0x08 0).run b1) ∧
        (∀ d e, bit (dw ws 1) 2 = true → skimExpand (dw ws 5) ((d.flatMap wordBytes).take (dw ws 4)) = .error e →
          Does (.appendBufferRead ring (some d)) s
            (if e = .corrupt then (complete ring 0x4B 0).run (flagged (flSkm 2) b1)
            else (complete ring 0x06 5).run b1)) ∧
        (∀ d out, bit (dw ws 1) 2 = true → skimExpand (dw ws 5) ((d.flatMap wordBytes).take (dw ws 4)) = .ok out →
          out.length < dw ws 5 → Does (.appendBufferRead ring (some d)) s ((complete ring 0x4C 0).run b1)) ∧
        (∀ d rs, (bit (dw ws 1) 2 = false ∧ rs = d) ∨ (bit (dw ws 1) 2 = true ∧ ∃ out,
            skimExpand (dw ws 5) ((d.flatMap wordBytes).take (dw ws 4)) = .ok out ∧ dw ws 5 ≤ out.length ∧
            rs = bytesToWords out) →
          (∀ f, parseAll b1 (headOfRing ring) c (b1.capacity c) n 0 rs ⟨(b1.ctx c).part, (b1.ctx c).lastKey, [], []⟩ =
              .error f → Does (.appendBufferRead ring (some d)) s ((complete ring f.status f.detail).run b1)) ∧
          (∀ p, parseAll b1 (headOfRing ring) c (b1.capacity c) n 0 rs ⟨(b1.ctx c).part, (b1.ctx c).lastKey, [], []⟩ =
              .ok p → Does (.appendBufferRead ring (some d)) s ((complete ring 0 (min n 0xFFFF)).run (releaseRecords.run
            ((progEach p.fresh submitRun).run ((modCtx c fun y => { y with
              held := y.held ++ p.recs, lastKey := p.lastKey, part := p.part }).run b1))))))))

/-- NVS_READ, NVS_RELEASE and NVS_EXPORT complete with their first check that fails and do nothing else. Otherwise NVS_READ gives the host the bytes asked for: of a segment, where codewords that were lost read as zeros and complete the descriptor with UNCORRECTABLE and their number; of the index; or of the identity area. NVS_RELEASE stays in execution, joins the releases that wait and is carried out at once where no segment is open. NVS_EXPORT gives the host an export that begins with its magic, the segment's number and its size. Bytes the spec does not give are free values. -/
def Obligations.RecordStoreCommands : Prop :=
  ∀ (s : State) (ring : Fin 40) (ws : List Word) (cw : List (Nat × Nat)), Ready s →
    let b := fresh s.blk
    (Stands s.blk ring 0x26 false ws →
      (∀ e, nvsReadFail b ws = some e → Does (.nvsRead ring cw) s ((complete ring e.status e.detail).run b)) ∧
      (∀ met g, nvsReadFail b ws = none → dw ws 1 = 0 → s.blk.aux.store.readable (dw ws 2) = some g →
        met = metBy cw (addr64 ws 3) (dw ws 5) →
        let b1 := shown (.hostWrite (addr64 ws 6)
          (bytesToWords (maskBytes g.bytes (addr64 ws 3) (dw ws 5) (met.map Prod.fst)))) b
        (met = [] → Does (.nvsRead ring cw) s ((complete ring 0 0).run b1)) ∧
        (met ≠ [] → Does (.nvsRead ring cw) s
          ((complete ring 0x5F (min 0xFFFF met.length)).run ((codewordsLost (dw ws 2) met).run b1)))) ∧
      (nvsReadFail b ws = none → dw ws 1 = 1 → Does (.nvsRead ring cw) s ((complete ring 0 0).run
        (shown (.hostWrite (addr64 ws 6) (bytesToWords
          ((List.range (dw ws 5 / 32)).flatMap fun i => s.blk.aux.store.entryOf (dw ws 2 + i)))) b))) ∧
      (∀ n, nvsReadFail b ws = none → dw ws 1 = 2 → n = (dw ws 5 + 3) / 4 →
        (dw ws 2 = 0xFFFFFF00 → Does (.nvsRead ring cw) s ((complete ring 0 0).run
          (shown (.hostWrite (addr64 ws 6) (bytesToWords (((List.range n).flatMap fun i =>
            wordBytes (Config.identityWord (1024 * s.blk.aux.otp.identity + i))).take (dw ws 5)))) b))) ∧
        (dw ws 2 ≠ 0xFFFFFF00 → Does (.nvsRead ring cw) s ((complete ring 0 0).run
          (shown (.hostWrite (addr64 ws 6) (bytesToWords
            (((freeWords s.blk.aux.free n).flatMap wordBytes).take (dw ws 5))))
            (withAux (fun a => { a with free := a.free + n }) b)))))) ∧
    (∀ id x, Stands s.blk ring 0x27 false ws → id = addr64 ws 1 → x = firstFail [
        fieldFail ws [anyW 1, anyW 2],
        need (!(s.blk.build.isOpen && s.blk.build.id == id)) 0x61 0,
        need ([Mode.armed, .setup, .expose].contains (s.blk.mode dStore)) 0x60 0] →
      (∀ e, x = some e → Does (.nvsRelease ring) s ((complete ring e.status e.detail).run b)) ∧
      (x = none → ∃ b2, exec (.nvsRelease ring) s = .next ⟨s.pending, b2⟩ ∧ Agrees
        (startRelease.run (withAux (fun a => { a with store := { a.store with
          releases := a.store.releases ++ [((ring : Nat), id)] } }) ((Prim.ring ring .start).apply b))) b2)) ∧
    (∀ data size total auth met x, Stands s.blk ring 0x2E false ws →
      size = ((s.blk.aux.store.readable (dw ws 1)).map fun g => g.size).getD 0 →
      total = 128 + size + 16 * ((size + 65535) / 65536) → auth = (data.getD []).flatMap wordBytes →
      met = metBy cw 0 size →
      x = firstFail [
        fieldFail ws [anyW 1, anyW 2, anyW 3, anyW 4, anyW 5, anyW 6],
        lenFail ws 6 0xFFFFFFFF (decide (dw ws 6 < total)), alignFail ws 2 64, alignFail ws 4 64,
        need data.isSome 0x08 0, need (s.blk.exportOk auth) 0x68 0, need (!s.blk.storeAsleep) 0x60 0,
        need (s.blk.aux.store.readable (dw ws 1)).isSome 0x5E 0] →
      (∀ e, x = some e → Does (.nvsExport ring data cw) s ((complete ring e.status e.detail).run b)) ∧
      (x = none →
        let n := (total + 3) / 4
        let b1 := shown (.hostWrite (addr64 ws 4) ([0x58454B53, BitVec.ofNat 32 (dw ws 1)] ++ toWords 2 size ++
          freeWords s.blk.aux.free (n - 4))) (withAux (fun a => { a with free := a.free + n }) b)
        (met = [] → Does (.nvsExport ring data cw) s ((complete ring 0 0).run b1)) ∧
        (met ≠ [] → Does (.nvsExport ring data cw) s
          ((complete ring 0x5F (min 0xFFFF met.length)).run ((codewordsLost (dw ws 1) met).run b1)))))

/-- EVR_READ, EVR_NONCE, EVR_CLEAR, LCS_NONCE and LCS_TOKEN complete with their first check that fails and do nothing else. Otherwise EVR_READ gives the host the records asked for, with zeros for those an uncorrectable codeword holds, and their number; a nonce of eight words, free values, is given to the host and kept for 600 s; a token without a live nonce is refused; EVR_CLEAR waits while storage cannot program; with storage able to program it consumes the nonce, and a token that proves right records the clear and with it removes the circular records below the SERIAL of that record, while one that does not records the refusal; LCS_TOKEN consumes the nonce and, where length, read, key, tests and signature are right, its action is carried out. -/
def Obligations.RecorderAndKeyCommands : Prop :=
  ∀ (s : State) (ring : Fin 40) (ws : List Word), Ready s →
    let b := fresh s.blk
    let free8 := withAux (fun a => { a with free := a.free + 8 }) b
    let nonce : Nonce := ⟨freeWords s.blk.aux.free 8, free8.ns2 + 600000000000⟩
    (∀ bad rs, Stands s.blk ring 0x28 false ws →
      rs = (((s.blk.evr.present (bit (dw ws 1) 0)).filter fun r => decide (addr64 ws 2 ≤ r.serial)).take (dw ws 4)) →
      (∀ e, evrReadFail ws = some e → Does (.evrRead ring bad) s ((complete ring e.status e.detail).run b)) ∧
      (evrReadFail ws = none →
        let b1 := shown (.hostWrite (addr64 ws 5)
          (rs.flatMap fun r => if bad.contains r.serial then List.replicate 16 0 else r.ws)) b
        ((∀ r ∈ rs, bad.contains r.serial = false) → Does (.evrRead ring bad) s ((complete ring 0 rs.length).run b1)) ∧
        ((∃ r ∈ rs, bad.contains r.serial = true) → Does (.evrRead ring bad) s
          ((complete ring 0x62 rs.length).run ((setFlagBit (flEvr 3)).run b1))))) ∧
    (Stands s.blk ring 0x29 false ws →
      (∀ e, bufferFail ws 32 = some e → Does (.evrNonce ring) s ((complete ring e.status e.detail).run b)) ∧
      (bufferFail ws 32 = none → Does (.evrNonce ring) s ((complete ring 0 0).run
        (shown (.hostWrite (addr64 ws 5) nonce.ws) (withAux (fun a => { a with evrNonce := some nonce }) free8))))) ∧
    (∀ data, Stands s.blk ring 0x2A false ws →
      (∀ e, bufferFail ws 104 = some e → Does (.evrClear ring data) s ((complete ring e.status e.detail).run b)) ∧
      (bufferFail ws 104 = none → b.liveNonce s.blk.aux.evrNonce = none →
        Does (.evrClear ring data) s ((complete ring 0x63 0).run b)) ∧
      (bufferFail ws 104 = none → (∃ n, b.liveNonce s.blk.aux.evrNonce = some n) → s.blk.evrProgrammable = false →
        Does (.evrClear ring data) s b) ∧
      (∀ n, bufferFail ws 104 = none → b.liveNonce s.blk.aux.evrNonce = some n → s.blk.evrProgrammable = true →
        let b1 := withAux (fun a => { a with evrNonce := none }) b
        (data = none → Does (.evrClear ring data) s ((complete ring 0x08 0).run b1)) ∧
        (∀ d, data = some d → s.blk.clearTokenOk n (d.flatMap wordBytes) = true →
          Does (.evrClear ring data) s ((complete ring 0 0).run ((setFlagBit (flEvr 1)).run
            ((recordClear true).run b1)))) ∧
        (∀ d, data = some d → s.blk.clearTokenOk n (d.flatMap wordBytes) = false →
          Does (.evrClear ring data) s ((complete ring 0x64 0).run ((setFlagBit (flEvr 2)).run
            ((recordClear false).run b1)))))) ∧
    (Stands s.blk ring 0x2C false ws →
      (∀ e, bufferFail ws 32 = some e → Does (.lcsNonce ring) s ((complete ring e.status e.detail).run b)) ∧
      (bufferFail ws 32 = none → Does (.lcsNonce ring) s ((complete ring 0 0).run
        (shown (.hostWrite (addr64 ws 5) nonce.ws) (withAux (fun a => { a with lcsNonce := some nonce }) free8))))) ∧
    (∀ data, Stands s.blk ring 0x2D false ws →
      (∀ e, bufferFail ws 0 = some e → Does (.lcsToken ring data) s ((complete ring e.status e.detail).run b)) ∧
      (bufferFail ws 0 = none → b.liveNonce s.blk.aux.lcsNonce = none →
        Does (.lcsToken ring data) s ((complete ring 0x63 0).run b)) ∧
      (∀ n, bufferFail ws 0 = none → b.liveNonce s.blk.aux.lcsNonce = some n →
        let b1 := withAux (fun a => { a with lcsNonce := none }) b
        (dw ws 7 < 172 → Does (.lcsToken ring data) s ((complete ring 0x06 7).run b1)) ∧
        (172 ≤ dw ws 7 → data = none → Does (.lcsToken ring data) s ((complete ring 0x08 0).run b1)) ∧
        (∀ d t action key, 172 ≤ dw ws 7 → data = some d → t = d.flatMap wordBytes →
          action = leBytes ((t.drop 40).take 4) → key = s.blk.lifeKey s.blk.lifeCycle action →
          (key = none ∨ s.blk.lifeBusy = true → Does (.lcsToken ring data) s ((complete ring 0x67 0).run b1)) ∧
          (∀ k, key = some k → s.blk.lifeBusy = false →
            let right := leBytes (t.take 8) = Config.deviceId.toNat ∧ (t.drop 8).take 32 = n.ws.flatMap wordBytes ∧
              sigOk k (t.take 108) (t.drop 108) = true
            (right → Does (.lcsToken ring data) s
              ((complete ring 0 0).run ((lifeAct action ((t.drop 44).take 64)).run b1))) ∧
            (¬ right → Does (.lcsToken ring data) s
              ((complete ring 0x66 0).run (flagged (flLcs 0) b1)))))))

/-- AUTO_RESUME, DRAIN_COMPLETE, CORE_HOME_END and ACQ_TIMEOUT each make the transition they name wait for the next tick edge when their condition holds, ACQ_TIMEOUT with its flag, and have no effect otherwise. -/
def Obligations.TransitionsByCondition : Prop :=
  ∀ s : State, Ready s →
    let b := fresh s.blk
    (∀ h : Fin 32, ∀ go : Bool,
      go = (s.blk.mode h == .hold && s.blk.cause h == causeCode .tickLate &&
        s.blk.a (Reg.SEQ_DOM_CFG h) F.SEQ_DOM_CFG_AUTO_RESUME == 1 && s.blk.mode dCore == .expose &&
        decide (s.blk.a (Reg.SEQ_DOM_CFG h) F.SEQ_DOM_CFG_RESUME_TICKS ≤ (s.blk.trowel h).cleanTicks)) →
      Does (.autoResume h) s (if go then awaiting h .expose .done b else b)) ∧
    (∀ d : Fin 48, ∀ go : Bool, go = (s.blk.mode d == .drain && s.blk.drained d) →
      Does (.drainComplete d) s (if go then awaiting d .armed .done b else b)) ∧
    Does .coreHomeEnd s (if s.blk.coreHoming && s.blk.timeReady then awaiting dCore .setup .done b else b) ∧
    (∀ go : Bool, go = (s.blk.coreHoming && !s.blk.timeReady &&
        decide (s.blk.aux.homeFrom + s.blk.f Reg.TIM_TB3 F.TIM_TB3_ACQ_S * 1000000000 ≤ b.ns2)) →
      Does .acqTimeout s (if go then awaiting dCore .setup .done (flagged (flTim 2) b) else b))

/-- RUN_START starts the head's next run where it can start: its registers and, for a new patch, the patch's commit, the patch binds its parameter set, the run executes with a new segment, its settings are captured for its light, and the head begins the run or resumes it at its point, with the flags of the stroke it begins at; otherwise it has no effect. PREFETCH_FILL marks the records that the window of the prefetch holds. TRANSIT_END queues the runs whose two ticks of travel are over, or ends them where their coat is cut. RUN_SUSPEND, YIELD_CLEAR, RUN_RESUME and LINK_HOLD_CLEAR suspend, clear, resume and release a head where their conditions hold, and have no effect otherwise. -/
def Obligations.RunsStartAndMove : Prop :=
  ∀ s : State, Ready s →
    let b := fresh s.blk
    (∀ h : Fin 32, (∀ r, s.blk.nextRun h = some r → s.blk.canStart h r = false) → Does (.runStart h) s b) ∧
    (∀ (h : Fin 32) r newPatch b1 p b2 b3 x, s.blk.nextRun h = some r → s.blk.canStart h r = true →
      newPatch = ((s.blk.trowel h).lastPatch != some (patchKey r.key)) →
      b1 = (progIf newPatch commitPsets).run ((poolBoundary h newPatch).run
        ((commitClasses (· == (h : Nat)) (if newPatch then [.stroke, .run, .patch] else [.stroke, .run])).run b)) →
      b1.patchOf r.key = some p →
      b2 = (if p.bound.isNone then (modPatch r.key fun q => { q with bound := (b1.pset p.pset).active.map Gen.num }).run b1
        else b1) →
      b3 = (Prim.run (.place r.key .executing)).apply ((Prim.run (.touch r.key fun y =>
        { openSeg b h y with startedOnce := true, suspended := false, stranded := false })).apply b2) →
      b3.runs.find r.key = some x →
      let rc := b3.runCtx h x
      let i := (x.point.map Point.stroke).getD 0
      let b4 := (modTrowel h fun t => { b3.located h t with
        lastPatch := some (patchKey r.key), bset := b3.boundSet r.key, missed := false }.start rc x).run
          ((captureSets h r.key (b3.boundSet r.key)).run b3)
      (rc.window i = [] → Does (.runStart h) s b4) ∧
      (∀ a l, rc.window i = a :: l →
        Does (.runStart h) s ((strokeFlags h r.key i (rc.strokeFlags a (b4.trowel h).pieces)).run b4))) ∧
    (∀ c : Fin 128, Does (.prefetchFill c) s ((modCtx c fun x => { x with held := fillWindow 2048 x.held }).run b)) ∧
    (∀ (h : Fin 32) rs, rs = s.blk.runs.runs.filter (fun r => match r.place with
        | .transit t k => t == (h : Nat) && decide (k + 1 ≤ s.blk.aux.clk.tick)
        | _ => false) →
      Does (.transitEnd h) s ((progEach rs fun r => .seq (touchRun r.key fun x => { x with owner := h })
        (if ((s.blk.coat r.key.coat).map Coat.cut).getD false then .seq (endRun r.key .cut) releaseRecords
        else .op (.run (.place r.key .queued)))).run b)) ∧
    (∀ (h : Fin 32) hp due, hp = s.blk.a Reg.OVL_PASS F.OVL_PASS_HOLD_PASS →
      due = (s.blk.mode h == .safe ||
        (s.blk.mode h == .hold && hp != 0 && decide (hp ≤ (s.blk.trowel h).holdTicks))) →
      ((∀ r, s.blk.engineRun h = some r → due = false ∨ r.place.isExec = false) → Does (.runSuspend h) s b) ∧
      (∀ r pt, s.blk.engineRun h = some r → due = true → r.place.isExec = true →
        pt = (s.blk.trowel h).resume.getD (.start (s.blk.trowel h).stroke) →
        Does (.runSuspend h) s ((modTrowel h fun t => { t with run := none, resume := none }).run
          ((Prim.run (.place r.key .queued)).apply ((Prim.run (.touch r.key fun x =>
            let y := { x with suspended := true, limited := false, point := some pt }
            if 16 ≤ x.segs.length then y
            else closeSeg s.blk.aux.clk.tick pt.stroke (pt.ofs / 65536).toNat y)).apply b))))) ∧
    (∀ (h : Fin 32) (go : Bool), go = ((s.blk.trowel h).st == .yield &&
        decide (s.blk.a Reg.OVL_EXCL F.OVL_EXCL_CLEAR_TICKS ≤ (s.blk.trowel h).probes)) →
      Does (.yieldClear h) s (if go then (modTrowel h fun x => { x with cleared := true }).run b else b)) ∧
    (∀ (h : Fin 32) t, t = s.blk.trowel h →
      ((s.blk.engineRun h = none ∨ t.resume = none) → Does (.runResume h) s b) ∧
      (∀ r pt go, s.blk.engineRun h = some r → t.resume = some pt →
        go = (t.atRest && (s.blk.mode h == .expose || s.blk.mode h == .drain) && !(s.blk.lane h).hold &&
          (t.cleared || t.st == .hold) && (s.blk.mode h == .expose || !t.missed ||
            decide (s.blk.a (Reg.SEQ_DOM_CFG h) F.SEQ_DOM_CFG_RESUME_TICKS ≤ t.cleanTicks))) →
        Does (.runResume h) s (if go then (modTrowel h fun x =>
          { x.resumeFrom (s.blk.runCtx h r) pt with cleared := false, probes := 0, missed := false }).run b else b))) ∧
    (∀ (h : Fin 32) (go : Bool), go = ((s.blk.lane h).hold &&
        decide (s.blk.a (Reg.HLK_LANE_CFG h) F.HLK_LANE_CFG_LINK_CLEAR ≤ (s.blk.lane h).okRun)) →
      Does (.linkHoldClear h) s (if go then (modTrowel h fun t => { t with cleared := t.cleared || t.st == .hold }).run
        ((modLane h fun y => { y with hold := false }).run b) else b))

/-- SYNCHRONISED takes a lane in SIGNAL, or a departed cascade lane, to SYNC with the fill of its elastic buffer. DFE_ADAPTATION_DONE in SYNC after the calibration writes the taps where DFE_FREEZE does not hold them, and a capability request goes out; on a cascade lane the measurement begins. LOL of a synchronised lane counts the code violations, sets LOL and returns the lane to SIGNAL; LOS does so at the onset of a lost signal, and on a cascade lane it also reports the member departed. ELASTIC sets its flag and marks the frame in flight lost. LINK_FAIL 10 ms after bring-up began sets its flag and begins it again. DFE_LIMIT puts the tap at its limit and sets the flag. Each has no effect otherwise. -/
def Obligations.LaneEvents : Prop :=
  ∀ (s : State) (l : Fin 40), Ready s →
    let b := fresh s.blk
    let x := s.blk.lane l
    (∀ fill (go : Bool), go = decide (s.blk.laneState l = 1 ∨ (s.blk.laneState l = 6 ∧ 36 ≤ l.val)) →
      Does (.synchronised l fill) s (if go then putF (Reg.HLK_LANE_STATE l) F.HLK_LANE_STATE_STATE 2
        (putF (Reg.HLK_LANE_STATE l) F.HLK_LANE_STATE_FILL (min 16 fill) (laneSet l (fun y => { y with signal := true }) b))
        else b)) ∧
    (∀ taps : Word, ¬ (s.blk.laneState l = 2 ∧ x.dfe = false ∧ x.cal = true) → Does (.dfeAdaptationDone l taps) s b) ∧
    (∀ taps : Word, s.blk.laneState l = 2 → x.dfe = false → x.cal = true →
      let b1 := laneSet l (fun y => { y with dfe := true }) b
      let b2 := if s.blk.f (Reg.HLK_LANE_CFG l) F.HLK_LANE_CFG_DFE_FREEZE = 0 then
        put (Reg.HLK_LANE_DFE l) (taps &&& 0x3FFFFFFF) b1 else b1
      (36 ≤ l.val → Does (.dfeAdaptationDone l taps) s (laneSet l (fun y => { y with
        meas := .bringUp, rtts := [], await := 64, flying := false, tries := 1, calOk := y.calOk && true }) b2)) ∧
      (l.val < 36 → Does (.dfeAdaptationDone l taps) s
        (if b2.laneState l = 2 ∧ (b2.lane l).dfe = true then
          shown (.lane l 1 [0x10000, BitVec.ofNat 32 (crcWords [0x10000])]) b2 else b2))) ∧
    (∀ cv, Does (.lol l cv) s (if s.blk.laneSynced l then laneDown l (flagged (flHlk l 1)
        (putF (Reg.HLK_LANE_LOSS l) F.HLK_LANE_LOSS_CV_COUNT
          (min 0xFFFF (s.blk.f (Reg.HLK_LANE_LOSS l) F.HLK_LANE_LOSS_CV_COUNT + cv)) b)) else b)) ∧
    (∀ go : Bool, go = (x.signal && s.blk.laneState l != 0) →
      let b1 := if go then laneDown l (flagged (flHlk l 0) (laneSet l (fun y => { y with signal := false }) b)) else b
      (l.val < 36 ∨ go = false → Does (.los l) s b1) ∧
      (36 ≤ l.val → go = true → Does (.los l) s
        (if b1.cascLane (l - 36) && !(b1.peer (l - 36)).departed then memberGone (l - 36) b1 else b1))) ∧
    Does (.elastic l) s (if s.blk.laneSynced l then laneSet l (fun y => { y with broken := true }) (flagged (flHlk l 6) b)
      else b) ∧
    (∀ go : Bool, go = decide (1 ≤ s.blk.laneState l ∧ s.blk.laneState l ≤ 4 ∧ x.start + 10000000 ≤ s.blk.ns2) →
      Does (.linkFail l) s (if go then laneBegun l (flagged (flHlk l 12) b) else b)) ∧
    (∀ (tap : Fin 5) (up : Bool), Does (.dfeLimit l tap up) s
      (if s.blk.laneSynced l && s.blk.f (Reg.HLK_LANE_CFG l) F.HLK_LANE_CFG_DFE_FREEZE == 0 then
        flagged (flHlk l 11) (putF (Reg.HLK_LANE_DFE l) ⟨6 * tap.val, 6⟩ (if up then 31 else 32) b) else b))

/-- PROBE_ECHO of a probe on its way adds its round trip: outside a measurement RTT, DN_LAT and UP_OFS_MAX follow at once and LAT_SHIFT is judged; in one, the 64th ends it: with a spread of at most 5 units the same registers follow and STATE becomes MEASURE at bring-up, or DN_LAT is kept as that of CALIBRATE; with more it is made again, and after three tries LINK_FAIL is set. LATENCY_PROBE sends a probe on an UP lane 4,096 ticks after the last, unless its echo would crowd the uplink frame. CAPABILITY_FRAME in the capability exchange, whole and valid, leaves ID and delays in their registers, STATE CAP and a measurement begun; with a wrong CRC it sets CRC; otherwise it changes no more than the counts of what was heard. -/
def Obligations.LatencyOfLanes : Prop :=
  ∀ (s : State), Ready s →
    let b := fresh s.blk
    (∀ (l : Fin 40) (rt : Nat),
      (((s.blk.lane l).flying = false ∨ s.blk.laneSynced l = false) → Does (.probeEcho l rt) s b) ∧
      ((s.blk.lane l).flying = true → s.blk.laneSynced l = true →
        let x := { s.blk.lane l with
          rtts := (rt :: (s.blk.lane l).rtts).take 64, await := (s.blk.lane l).await - 1, flying := false }
        let b1 := laneSet l (fun _ => x) b
        let spread := x.rtts.foldl max 0 - x.rtts.foldl min (x.rtts.headD 0)
        let b2 := latencyTaken l b1
        (x.meas = .none → Does (.probeEcho l rt) s (shiftChecked l b2)) ∧
        (x.meas ≠ .none → x.await ≠ 0 → Does (.probeEcho l rt) s b1) ∧
        (x.meas ≠ .none → x.await = 0 → l.val < s.blk.aux.lanes.length →
          (5 < spread → x.tries < 3 → Does (.probeEcho l rt) s (laneSet l (fun y => { y with
            meas := x.meas, rtts := [], await := 64, flying := false, tries := x.tries + 1
            calOk := y.calOk && x.meas != .calibrate }) b1)) ∧
          (5 < spread → 3 ≤ x.tries → Does (.probeEcho l rt) s
            (flagged (flHlk l 12) (laneSet l (fun y => { y with meas := .none, await := 0 }) b1))) ∧
          (spread ≤ 5 → x.meas = .bringUp → Does (.probeEcho l rt) s (shiftChecked l (laneSet l
            (fun y => { y with meas := .none }) (putF (Reg.HLK_LANE_STATE l) F.HLK_LANE_STATE_STATE 4 b2)))) ∧
          (spread ≤ 5 → x.meas = .calibrate → Does (.probeEcho l rt) s (shiftChecked l (laneSet l
            (fun y => { y with meas := .none }) (laneSet l (fun y => { y with calDone := true, calOk := true })
              (putF (Reg.HLK_LANE_LAT l + 4) ⟨0, 20⟩ (b2.dnLat l) b2)))))))) ∧
    (∀ (l : Fin 40) (go : Bool), go = (s.blk.laneUp l && (s.blk.lane l).meas == .none &&
        decide (4096 ≤ (s.blk.lane l).sinceProbe) && !(decide (32 ≤ l.val) && decide (l.val < 36))) →
      let b1 := laneSet l (fun y => { y with sinceProbe := 0, flying := y.flying || !s.blk.probeCrowds l }) b
      Does (.latencyProbe l) s
        (if go then (if !s.blk.probeCrowds l then shown (.lane l 3 []) b1 else b1) else b)) ∧
    (∀ (l : Fin 36) (ws : List Word) (cv fill : Nat),
      let b1 := laneHeard l cv fill b
      let w := fun i => (ws.getD i 0).toNat
      ((s.blk.laneState l ≠ 2 ∨ (s.blk.lane l).dfe = false ∨ 0 < cv ∨ ws.length ≠ 6 ∨ bits (w 0) 16 2 ≠ 1) →
        Does (.capabilityFrame l ws cv fill) s b1) ∧
      (s.blk.laneState l = 2 → (s.blk.lane l).dfe = true → cv = 0 → ws.length = 6 → bits (w 0) 16 2 = 1 →
        (crcOk ws = false → Does (.capabilityFrame l ws cv fill) s (flagged (flHlk l 3) b1)) ∧
        (crcOk ws = true → Does (.capabilityFrame l ws cv fill) s (laneSet l (fun y => { y with
            meas := .bringUp, rtts := [], await := 64, flying := false, tries := 1, calOk := y.calOk && Meas.bringUp != .calibrate })
          (putF (Reg.HLK_LANE_STATE l) F.HLK_LANE_STATE_STATE 3
            (putF (Reg.HLK_LANE_CAP l + 4) ⟨16, 16⟩ (bits (w 4) 0 16)
              (putF (Reg.HLK_LANE_CAP l + 4) ⟨0, 16⟩ (bits (w 3) 16 16)
                (putF (Reg.HLK_LANE_CAP l) ⟨16, 16⟩ (bits (w 3) 0 16)
                  (put (Reg.HLK_LANE_ID l + 4) (BitVec.ofNat 32 ((w 1 + 4294967296 * w 2) / 4294967296))
                    (put (Reg.HLK_LANE_ID l) (BitVec.ofNat 32 (w 1 + 4294967296 * w 2)) b1))))))))))

/-- A head's frame that reports a fault also puts the head into SAFE (R248): that form is outside the hypotheses of its clause. -/
def Obligations.FramesHeard : Prop :=
  ∀ (s : State), Ready s →
    (∀ (h : Fin 32) (ws : List Word) (ahead cv fill : Nat),
      let b0 := (diagCapture h true (crcOk ws && cv == 0) s.blk.nextTick ws).run (fresh s.blk)
      let b := laneHeard h cv fill b0
      let x := b0.lane h
      let w := fun i => (ws.getD i 0).toNat
      (x.sent = none ∨ b0.laneUp h = false → Does (.uplinkFrame h ws ahead cv fill) s b) ∧
      (∀ f, x.sent = some f → b0.laneUp h = true →
        let whole := cv = 0 ∧ ws.length = 9 + pdCount f.period ∧ bits (w 0) 16 2 = 0
        (x.broken = true → Does (.uplinkFrame h ws ahead cv fill) s (laneSet h (fun y => { y with broken := false }) b)) ∧
        (x.broken = false → ¬ whole → Does (.uplinkFrame h ws ahead cv fill) s b) ∧
        (x.broken = false → whole → crcOk ws = false →
          Does (.uplinkFrame h ws ahead cv fill) s (laneSet h (fun y => { y with why := Nat.lor y.why 8 }) b)) ∧
        (x.broken = false → whole → crcOk ws = true → x.rx.isSome = true →
          Does (.uplinkFrame h ws ahead cv fill) s
            (if w 0 % 65536 == f.seq % 65536 then flagged (flHlk h 4) b else b)) ∧
        (x.broken = false → whole → crcOk ws = true → x.rx = none → w 0 % 65536 ≠ f.seq % 65536 →
          Does (.uplinkFrame h ws ahead cv fill) s
            (if 0 < x.lost ∧ w 0 % 65536 = (f.seq + 65535) % 65536 then flagged (flHlk h 5) b
            else laneSet h (fun y => { y with why := Nat.lor y.why 16 }) b)) ∧
        (x.broken = false → whole → crcOk ws = true → x.rx = none → w 0 % 65536 = f.seq % 65536 →
          bits (w 7) 0 3 = 0 → (f.arm = bit (w 7) 3 ∨ x.enDiff = false) →
          let pos := (List.range 3).map fun i => sgn 32 (w (1 + i))
          let sst := fun i => bits (w 4) (8 * i) 8
          let good := (List.range 3).map fun i => b.sampleGood h i (s.blk.axis (3 * h + i)).loop (pos.getD i 0) (sst i)
          let temps := [bits (w 5) 0 16, bits (w 5) 16 16, bits (w 6) 0 16, bits (w 6) 16 16]
          let b1 := laneSet h (fun y => { y with
            temps := temps, tempsAt := some b.ns2
            rx := some ⟨pos, good, temps,
              (List.range (pdCount f.period)).map fun i => (bits (w (8 + i)) 0 16, bits (w (8 + i)) 16 16)⟩
            scnt := (List.range 3).map fun i => some (sst i % 16)
            lastPos := (List.range 3).map fun i =>
              if good.getD i false then some (pos.getD i 0, 0) else y.lastPos.getD i none }) b
          let b2 := if ahead < b.a (Reg.HLK_LANE_CFG h) F.HLK_LANE_CFG_UL_GUARD then flagged (flHlk h 13) b1 else b1
          let b3 := (good.filter fun g => !g).foldl (fun c _ => flagged (flHlk h 7) c) b2
          Does (.uplinkFrame h ws ahead cv fill) s (laneSet h (fun y => { y with enDiff := f.arm != bit (w 7) 3 }) b3)))) ∧
    (∀ (i : Fin 4) (ws : List Word) (cv fill : Nat),
      let lane := 32 + i.val
      let bar := i.val / 2
      let half := i.val % 2
      let b0 := (diagCapture lane true (crcOk ws && cv == 0) s.blk.nextTick ws).run (fresh s.blk)
      let b := laneHeard lane cv fill b0
      let x := (b0.bar bar).half half
      let w := fun k => (ws.getD k 0).toNat
      let type := bits (w 0) 16 2
      let whole := cv = 0 ∧ type ≠ 1 ∧ ws.length = (if type = 0 then 6 else if type = 2 then 8 else 25)
      let why := fun r => withAux (fun a => { a with bars := a.bars.modify bar fun y => { y with
        halves := y.halves.modify half fun z => { z with why := Nat.lor z.why r } } }) b
      (b0.laneUp lane = false → Does (.floatUplinkFrame i ws cv fill) s b) ∧
      (b0.laneUp lane = true → (b0.lane lane).broken = true →
        Does (.floatUplinkFrame i ws cv fill) s (laneSet lane (fun y => { y with broken := false }) b)) ∧
      (b0.laneUp lane = true → (b0.lane lane).broken = false →
        (¬ whole → Does (.floatUplinkFrame i ws cv fill) s b) ∧
        (whole → crcOk ws = false → Does (.floatUplinkFrame i ws cv fill) s (why 8)) ∧
        (whole → crcOk ws = true → x.rx = true → Does (.floatUplinkFrame i ws cv fill) s b) ∧
        (whole → crcOk ws = true → x.rx = false → x.sentSeq ≠ some (w 0 % 65536) →
          Does (.floatUplinkFrame i ws cv fill) s (why 16)) ∧
        (whole → crcOk ws = true → x.rx = false → x.sentSeq = some (w 0 % 65536) →
          Does (.floatUplinkFrame i ws cv fill) s ((acceptHalf bar half w).run b))))

/-- CASCADE_LAUNCH marks the heads whose proposals came too late, notes the tick and the coat it announces, and sends on each cascade lane the frame where the member is in use and the lane UP, DEP while periods of it are left, and SKP and IDL between. CASCADE_FRAME is captured and heard; a PRB after it is echoed; on a lane in use that is UP, a whole and valid frame that carries the tick count and the check value of this part gives the member's items, clusters and coat and shows it PRESENT; one of the time reference moves the loop; a wrong CRC sets CRC. CASC_MISS of a member in use that has not been heard in this tick counts the miss, refuses shared clusters until the persistence has passed and sets CASC_MISS, or at DEPART_MISSES in succession reports the member departed. DEPART reports it at once. ALIGN_LOST of a follower that has had no reference for HOLD_MS clears ALIGNED and sets the flag. -/
def Obligations.CascadeExchange : Prop :=
  ∀ (s : State), Ready s →
    let b := fresh s.blk
    (∀ missed : List (Fin 32),
      let late := (missed.map Fin.val).filter fun h => (s.blk.itemOf h).isSome && (List.range 4).any s.blk.cascLane
      let b1 := withAux (fun a => { a with lateLaunch := late }) b
      Does (.cascadeLaunch missed) s ((List.range 4).foldl (fun c j =>
          if 0 < (b1.lane (36 + j)).depLeft then shown (.lane (36 + j) 4 []) c
          else if b1.cascLane j && b1.laneUp (36 + j) then
            (gapFill (36 + j) (frameGroups b1.cascFrame.length)).run (shown (.lane (36 + j) 5 b1.cascFrame) c)
          else (gapFill (36 + j) 0).run c)
        (withAux (fun a => { a with build := { a.build with mine := some (b1.aux.clk.tick, b1.readySent) } }) b1))) ∧
    (∀ (j : Fin 4) (ws : List Word) (sof : Int) (reference : Bool) (cv fill : Nat) (prb : Bool),
      let l := 36 + j.val
      let b0 := (diagCapture l true (crcOk ws && cv == 0) s.blk.aux.clk.tick ws).run b
      let b1 := if prb && b0.laneSynced l then shown (.lane l 8 []) (laneHeard l cv fill b0) else laneHeard l cv fill b0
      let use := b0.cascLane j && b0.laneUp l
      (use = false → Does (.cascadeFrame j ws sof reference cv fill prb) s b1) ∧
      (use = true → (b0.lane l).broken = true →
        Does (.cascadeFrame j ws sof reference cv fill prb) s (laneSet l (fun x => { x with broken := false }) b1)) ∧
      (use = true → (b0.lane l).broken = false → 0 < cv → Does (.cascadeFrame j ws sof reference cv fill prb) s b1) ∧
      (use = true → (b0.lane l).broken = false → cv = 0 → crcOk ws = false →
        Does (.cascadeFrame j ws sof reference cv fill prb) s (flagged (flHlk l 3) b1)) ∧
      (use = true → (b0.lane l).broken = false → cv = 0 → crcOk ws = true → cascValid j ws = false →
        Does (.cascadeFrame j ws sof reference cv fill prb) s b1) ∧
      (use = true → (b0.lane l).broken = false → cv = 0 → crcOk ws = true → cascValid j ws = true →
        let b2 := if dw ws 1 == b0.aux.clk.tick % 4294967296 && dw ws 3 == b0.cascCheck then
            putF (actOff Reg.OVL_CASC_MEMBERS) ⟨4 + j.val, 1⟩ 1 (putF Reg.OVL_CASC_MEMBERS ⟨4 + j.val, 1⟩ 1
              (peerSet j (fun p => { p with
                present := true, departed := false, leaving := false, seen := true, tick := b1.aux.clk.tick
                check := dw ws 3, misses := 0, ready := bits (dw ws 2) 0 24
                items := (cascRecords ws).filterMap itemOfRecord
                clusters := (cascRecords ws).foldl (fun m r => Nat.lor m (2 ^ bits (dw r 2) 8 3)) 0 }) b1))
          else b1
        Does (.cascadeFrame j ws sof reference cv fill prb) s
          (if reference then (referenceFrame j (dw ws 1) sof (b0.rtt l)).run b2 else b2))) ∧
    (∀ (j : Fin 4) (go : Bool), go = (s.blk.cascLane j && !(s.blk.peer j).departed &&
        !((s.blk.peer j).seen && (s.blk.peer j).tick == s.blk.aux.clk.tick)) →
      let b1 := (referenceMissing j).run b
      (go = false → Does (.cascMiss j) s b) ∧
      (go = true → s.blk.a Reg.HLK_CASC_CFG F.HLK_CASC_CFG_DEPART_MISSES ≤ (s.blk.peer j).misses + 1 →
        Does (.cascMiss j) s (memberGone j b1)) ∧
      (go = true → (s.blk.peer j).misses + 1 < s.blk.a Reg.HLK_CASC_CFG F.HLK_CASC_CFG_DEPART_MISSES →
        Does (.cascMiss j) s (flagged { flOvl 0 with inst := j.val } (peerSet j (fun x => { x with
          misses := x.misses + 1
          until_ := s.blk.aux.clk.tick + 1 + s.blk.a Reg.OVL_EXCL F.OVL_EXCL_PERSIST
          clusters := if x.seen then x.clusters else 255 }) b1)))) ∧
    (∀ j : Fin 4, Does (.depart j) s
      (if s.blk.cascLane j && !(s.blk.peer j).departed then memberGone j b else b)) ∧
    (∀ go : Bool, go = (s.blk.follower && s.blk.f Reg.TIM_STAT F.TIM_STAT_ALIGNED == 1 &&
        decide (s.blk.aux.align.lastRef + s.blk.f Reg.TIM_TB3 F.TIM_TB3_HOLD_MS * 1000000 ≤ s.blk.ns2)) →
      Does .alignLost s (if go then flagged (flTim 4) (putF Reg.TIM_STAT F.TIM_STAT_ALIGNED 0 b) else b))

/-- FRAME_BOUNDARY with no boundary in the present tick does nothing; with two frames outstanding it sets OVERRUN and, for a scheduled one, moves the schedule on; otherwise it commits the camera's shadows, triggers a frame with the settings committed, numbers it, pulses CAM_TRIG, sets ROI_CLIP where the window was moved or cut, and makes the flashes of the frame due. FRAME_START, LONG_PACKET and FRAME_END of a camera that receives nothing do nothing; a bad header sets HDR_ERR; another virtual channel leaves no trace; a Frame Start ends a frame still open as SHORT and opens the oldest outstanding frame, or is discarded with EXTRA; a line is dropped with LINE_CRC, cut with TRUNC, or taken into image and statistics; a Frame End ends the frame, SHORT where lines are missing. FRAME_LOST ends a frame two periods after its boundary. STATS_COMPLETE takes the oldest ended frame. DARK_REFERENCE writes BLACK of each context with 16 dark frames and asks for SETUP when all have it. DEFECT_MAP writes the list of an admissible map once. -/
def Obligations.CamerasRun : Prop :=
  ∀ (s : State) (c : Fin 8), Ready s →
    let b := fresh s.blk
    (s.blk.boundaryOfs c = none → Does (.frameBoundary c) s b) ∧
    (∀ o, s.blk.boundaryOfs c = some o →
      let b1 := (progEach (List.range 4) fun g => progIf (s.blk.ledCam g == c.val) (ledRefill g (s.blk.now10 + o))).run b
      let now := b1.layerNow c
      let per := b1.a (Reg.CAM_TIMING c) F.CAM_TIMING_PERIOD
      let len := b1.a (Reg.CAM_TIMING c) F.CAM_TIMING_LEN
      (2 ≤ (b.camBook c).frames.length → Does (.frameBoundary c) s
        (if now then flagged (flCam c 5) b1
        else camSet c (fun y => { y with due := b1.now10 + o + per, pos := (y.pos + 1) % (len + 1) })
          (flagged (flCam c 5) b1))) ∧
      (s.blk.camBooks.length = 8 → (b.camBook c).frames.length < 2 →
        let restart := (b1.pendingOf (· == dCam c) .frame).any fun o =>
          o == Reg.CAM_TIMING c || o == Reg.CAM_SCHED c 0 || o == Reg.CAM_SCHED c 1
        let d := camSet c (fun y => { y with first := false, pos := if restart then 0 else y.pos })
          ((commitClasses (· == dCam c) (b1.camClasses c)).run b1)
        let y := d.cam c
        let n := d.a (Reg.CAM_TIMING c) F.CAM_TIMING_LEN + 1
        let ctx := if now then d.a (Reg.CAM_CFG c) F.CAM_CFG_LAYER_CTX
          else if d.mode (dCam c) = .calibrate then d.camSlot c 0 else d.camSlot c (y.pos % n)
        let f := d.newFrame c ctx o (if now then y.layerDue.map Prod.fst else none)
        let d1 := (Prim.cam c (.trigger f)).apply (put (Reg.CAM_FRAME c) (BitVec.ofNat 32 f.num) d)
        let d2 := if f.clip then flagged (flCam c 6) d1 else d1
        let d3 := camSet c (fun z => { z with
            next := (z.next + 1) % 4294967296
            lastBound := f.bound
            lastExp := f.expo
            layerDue := if now then none else z.layerDue
            rawBuf := if f.raw then 1 - z.rawBuf else z.rawBuf
            due := if now then z.due else b1.now10 + o + d.a (Reg.CAM_TIMING c) F.CAM_TIMING_PERIOD
            pos := if now then z.pos else (y.pos + 1) % n }) (shown (.pin "CAM_TRIG" c f.expo) d2)
        Does (.frameBoundary c) s ((ledArm c f.ctx f.expo f.bound).run d3))) ∧
    (∀ (bad : Bool) (vc : Fin 16),
      let open' := s.blk.camReceives c && !bad && vc == 0
      (s.blk.camReceives c = false ∨ (bad = false ∧ vc ≠ 0) →
        Does (.frameStart c bad vc) s b ∧ Does (.frameEnd c bad vc) s b) ∧
      (s.blk.camReceives c = true → bad = true →
        Does (.frameStart c bad vc) s (flagged (flCam c 8) b) ∧ Does (.frameEnd c bad vc) s (flagged (flCam c 8) b)) ∧
      (open' = true →
        (let d := match (b.camBook c).frames with
            | f :: _ => if f.started then (endFrame c fun g => { g with short := true }).run b else b
            | [] => b
          ((d.camBook c).frames = [] → Does (.frameStart c bad vc) s
            (flagged (flCam c 4) (camSet c (fun x => { x with discard := true }) d))) ∧
          ((d.camBook c).frames ≠ [] → Does (.frameStart c bad vc) s
            ((Prim.cam c (.touch fun f => { f with started := true })).apply
              (camSet c (fun x => { x with discard := false }) d)))) ∧
        ((b.cam c).discard = true → Does (.frameEnd c bad vc) s (camSet c (fun x => { x with discard := false }) b)) ∧
        ((b.cam c).discard = false → (b.camBook c).frames = [] → Does (.frameEnd c bad vc) s b) ∧
        (∀ f r, (b.cam c).discard = false → (b.camBook c).frames = f :: r → Does (.frameEnd c bad vc) s
          (if f.started then (endFrame c fun g => { g with
            short := g.short || decide (g.lines < capF g.size F.CAM_SIZE_HEIGHT) }).run b else b)))) ∧
    (∀ (px : List Nat) (crcBad bad : Bool) (vc : Fin 16) (ty : Fin 64),
      (s.blk.camReceives c = false → Does (.longPacket c px crcBad bad vc ty) s b) ∧
      (s.blk.camReceives c = true → bad = true → Does (.longPacket c px crcBad bad vc ty) s (flagged (flCam c 8) b)) ∧
      (s.blk.camReceives c = true → bad = false →
        (vc ≠ 0 ∨ (b.cam c).discard = true ∨ (b.camBook c).frames = [] → Does (.longPacket c px crcBad bad vc ty) s b) ∧
        (∀ f r, vc = 0 → (b.cam c).discard = false → (b.camBook c).frames = f :: r →
          let h := capF f.size F.CAM_SIZE_HEIGHT
          let w := capF f.size F.CAM_SIZE_WIDTH
          let dt := capF f.cfg F.CAM_CFG_DT
          (f.started = false ∨ ty.val ≠ 0x2A + dt → Does (.longPacket c px crcBad bad vc ty) s b) ∧
          (f.started = true → ty.val = 0x2A + dt →
            (crcBad = true → Does (.longPacket c px crcBad bad vc ty) s
              ((Prim.cam c (.touch fun g => { g with lineErr := true })).apply (flagged (flCam c 2) b))) ∧
            (crcBad = false → h ≤ f.lines → Does (.longPacket c px crcBad bad vc ty) s
              ((Prim.cam c (.touch fun g => { g with trunc := true })).apply b)) ∧
            (crcBad = false → f.lines < h →
              let n12 := (px.take w).map (norm12 dt)
              let faulty := s.blk.defectsIn c (capF f.defect F.CAM_DEFECT_DEF_COUNT) f.lines
              let v := (replaceRow (n12.map fun n => n - capF f.proc F.CAM_CTX_PROC_BLACK) faulty).map fun x =>
                min 4095 (x * capF f.proc F.CAM_CTX_PROC_GAIN / 32)
              let img := if f.raw then n12 else v
              let b1 := (Prim.cam c (.touch fun g =>
                let g1 := { g with
                  lines := g.lines + 1, trunc := g.trunc || decide (w < px.length)
                  short := g.short || decide (px.length < w) }
                if g.quiet && !g.whole then g1
                else processRow g1 f.lines v n12 (replaceRow n12 faulty))).apply b
              (f.buf = none → Does (.longPacket c px crcBad bad vc ty) s b1) ∧
              (∀ i, f.buf = some i → Does (.longPacket c px crcBad bad vc ty) s
                ((dramWrite 5 (f.base + 33554432 * i + 2 * w * f.lines)
                  ((img ++ List.replicate (w - img.length) 0).flatMap fun x => toBytes 2 x)).run b1))))))) ∧
    ((b.camBook c).frames = [] → Does (.frameLost c) s b) ∧
    (∀ f r, (b.camBook c).frames = f :: r →
      let b1 := (endFrame c fun g => if g.started then { g with short := true } else { g with lost := true }).run b
      Does (.frameLost c) s (if f.bound + 2 * f.period < s.blk.now10 + s.blk.tick10 then
        (if f.layer.isSome ∧ f.started = false then (layerFail (some c.val)).run b1 else b1) else b)) ∧
    ((b.cam c).ended = [] → Does (.statsComplete c) s b) ∧
    (∀ f r, (b.cam c).ended = f :: r →
      let hd := capF f.expw F.CAM_CTX_EXP_HEAD
      let en := capF f.expw F.CAM_CTX_EXP_HEAD_EN == 1
      let fed := en && f.layer.isNone && matrixO (s.blk.mode hd) (s.blk.mode (dCam c)) && !f.quiet && !f.dark
      let ws := statsWords c f fed
      let b1 := camSet c (fun x => { x with ended := x.ended.tail }) b
      let b2 := if f.overflow then flagged (flCam c 7) b1 else b1
      let b3 := if en && f.layer.isNone && !f.quiet && !f.dark then (outerFrame hd (f.geo b c)).run b2 else b2
      let b4 := if f.dark && !f.gated && !f.n12.isEmpty then
        camSet c (fun x => { x with dark := addDark x.dark f.ctx f.n12 }) b3 else b3
      let b5 := if f.whole && f.layer.isNone && !f.gated && !f.short && !f.lost then
        camSet c (fun x => if x.mapFrames < 16 then
            { x with mapFrames := x.mapFrames + 1, mapSum := addLists x.mapSum f.n12 } else x) b4 else b4
      let b6 := if !f.lost then (imageDone c f).run b5 else b5
      let b7 := if f.layer.isSome then (modBuild fun x => { x with p2Done := true }).run b6 else b6
      let b8 := if !f.quiet && capF f.cfg F.CAM_CFG_STATS_EN == 1 && f.num % 2 ^ capF f.cfg F.CAM_CFG_STATS_DIV == 0 then
        (deliver (80 + c) ws).run b7 else b7
      Does (.statsComplete c) s (if f.recorded.isSome && f.recorded == s.blk.aux.store.cur then
        (stageSection 0x0007 1 c (ws.flatMap wordBytes)).run b8 else b8)) ∧
    (s.blk.mode (dCam c) ≠ .home → Does (.darkReference c) s b) ∧
    (s.blk.mode (dCam c) = .home →
      let ctxs := s.blk.camContexts c
      let full := fun (d : DarkSum) => decide (16 ≤ d.frames)
      let b1 := (progEach ((b.cam c).dark.filter fun d => ctxs.contains d.ctx && full d && !d.written) fun d =>
          deviceWrite (Reg.CAM_CTX_PROC c d.ctx) F.CAM_CTX_PROC_BLACK (min 4095 (roundDiv d.sum d.count))).run b
      let b2 := camSet c (fun y => { y with
          dark := y.dark.map fun d => if ctxs.contains d.ctx && full d then { d with written := true } else d }) b1
      Does (.darkReference c) s
        (if ctxs.all fun k => (b.cam c).dark.any fun d => d.ctx == k && full d then
          awaiting (dCam c) .setup .done b2 else b2)) ∧
    (let x := b.cam c
      let total := x.mapSum.sum
      let n := x.mapSum.length
      let thr := s.blk.a (Reg.CAM_DEFECT c) F.CAM_DEFECT_DEF_THR
      let bad := (x.mapSum.zipIdx.filter fun (v, _) =>
        decide (thr * 16 * n < v * n - total) || decide (thr * 16 * n < total - v * n)).map fun (_, i) => i
      let due := s.blk.mode (dCam c) = .calibrate ∧ 16 ≤ x.mapFrames ∧ x.mapOk = none
      (¬ due → Does (.defectMap c) s b) ∧
      (due → 1024 < bad.length → Does (.defectMap c) s (camSet c (fun y => { y with mapOk := some false }) b)) ∧
      (due → bad.length ≤ 1024 → Does (.defectMap c) s
        (camSet c (fun y => { y with mapOk := some true })
          ((deviceWrite (Reg.CAM_DEFECT c) F.CAM_DEFECT_DEF_COUNT bad.length).run
            ((writeDefects c (s.blk.a (Reg.CAM_SIZE c) F.CAM_SIZE_WIDTH) bad).run b)))))

/-- The books of the rings in balance is an invariant of the model (StepKeepsRingBooks). -/
def Obligations.LightHeatAndSupply : Prop :=
  ∀ (s : State), Ready s →
    let b := fresh s.blk
    (∀ g : Fin 4,
      ((b.led g).due = [] ∨ (∃ x l, (b.led g).due = x :: l ∧ s.blk.now10 + s.blk.tick10 ≤ x.at') →
        Does (.flashStart g) s b) ∧
      (∀ x l, (b.led g).due = x :: l → x.at' < s.blk.now10 + s.blk.tick10 →
        let until' := match (b.led g).flash with | some (_, t) => max t (x.at' + x.width) | none => x.at' + x.width
        let b1 := (ledCorr g).run (grpSet g (fun y => { y with cur := x.set })
          (grpSet g (fun y => { y with due := l }) ((ledRefill g x.at').run b)))
        let chs := b1.ledReady g
        let e := b1.ledEnergy g chs x.width
        let level := (b1.led g).level
        (e ≤ level → Does (.flashStart g) s (grpSet g (fun y => { y with flash := some (x.at', until') })
          ((progEach (List.range 6) fun i => ledDrive (6 * g + i) (chs.contains (6 * g + i))).run
            (putF (Reg.LED_GRP_LEVEL g) F.LED_GRP_LEVEL_LEVEL ((level - e) / 100000000)
              (grpSet g (fun y => { y with level := y.level - e }) b1))))) ∧
        (level < e → Does (.flashStart g) s (flagged (flLedGrp g 0 (b1.ledDom g)) b1))) ∧
      ((b.led g).flash = none → Does (.flashEnd g) s b) ∧
      (∀ a t, (b.led g).flash = some (a, t) → Does (.flashEnd g) s (if t < s.blk.now10 + s.blk.tick10 then
        grpSet g (fun x => { x with flash := none }) ((ledOff g).run b) else b))) ∧
    (∀ (n : Fin 24) (v i : Nat),
      let x := b.ledCh n
      let sampled := x.on = true ∧ x.sampled = false ∧ ∃ a t, (b.led (n / 6)).flash = some (a, t) ∧ a + 200 ≤ t
      let b1 := chSet n (fun y => { y with measured := true, sampled := true })
        (putF (Reg.LED_CH_MEAS n) F.LED_CH_MEAS_ICUR (min 0xFFFF i)
          (putF (Reg.LED_CH_MEAS n) F.LED_CH_MEAS_V_ON (min 0xFFFF v) b))
      (¬ sampled → Does (.flashSample n v i) s b) ∧
      (sampled → s.blk.a Reg.LED_THR F.LED_THR_SHORT_VON < v →
        Does (.flashSample n v i) s ((ledDrive n false).run (chFault n 1 b1))) ∧
      (sampled → v ≤ s.blk.a Reg.LED_THR F.LED_THR_SHORT_VON →
        Does (.flashSample n v i) s (if i * 10 * ledDen < 900 * b.ledCurrent n then
          chFault n (if v < 10 * s.blk.a Reg.LED_THR F.LED_THR_OPEN_V then 0 else 2) b1 else b1))) ∧
    (∀ (n : Fin 24) (v vled : Nat),
      let x := b.ledCh n
      let probed := bit (s.blk.a (Reg.LED_GRP_DRIVE (n / 6)) F.LED_GRP_DRIVE_CH_EN) (n % 6) = true ∧ x.on = false
      (¬ probed → Does (.ledProbeSample n v vled) s b) ∧
      (probed →
        let op := decide (v < 10 * s.blk.a Reg.LED_THR F.LED_THR_OPEN_V)
        let sh := decide (vled ≤ v + 10 * s.blk.a Reg.LED_THR F.LED_THR_SHORT_DV)
        let o := if op then x.opens + 1 else 0
        let c := if sh then x.shorts + 1 else 0
        let gd := if op || sh || !(s.blk.f (Reg.LED_CH_STAT n) ⟨0, 2⟩ == 0) then 0 else x.good + 1
        let b1 := chSet n (fun y => { y with
          opens := if o = 3 then 0 else o, shorts := if c = 3 then 0 else c, good := min 3 gd,
          barred := y.barred && decide (gd < 3) }) b
        let b2 := if o = 3 then chFault n 0 b1 else b1
        Does (.ledProbeSample n v vled) s (if c = 3 then chFault n 1 b2 else b2))) ∧
    (∀ (n : Fin 192) (v : Option Int),
      Completes (.thermalSample n v) s ∧
      (s.blk.thmIdle n = true → Does (.thermalSample n v) s (tempSet n Temp.init (put (Reg.THM_READ n) 0x7FFF b))) ∧
      (s.blk.thmIdle n = false → s.blk.thermInput n v = none → Does (.thermalSample n v) s ((calDueCheck n).run b)) ∧
      (∀ inp, s.blk.thmIdle n = false → s.blk.thermInput n v = some inp →
        let x := b.therm n
        let since := if x.raw == inp && decide (0 < x.since) then x.since else b.ns2 + 1
        let stuck := decide (b.stuckS n ≠ 0 ∧ since + b.stuckS n * 1000000000 ≤ b.ns2 + 1)
        let good := inp.filter fun u => decide (-4096 ≤ u ∧ u ≤ 12800) && !stuck
        let value := match good with | some u => unsgn 16 u | none => 0x7FFF
        let t := sgn 16 value
        let soft := (b.thmLim n).1
        let atSoft := decide (soft ≤ t ∨ value = 0x7FFF)
        let atHard := decide ((b.thmLim n).2 ≤ t ∨ value = 0x7FFF)
        let fast := decide (n.val < 176 ∧ (soft - 320 ≤ t ∨ value = 0x7FFF))
        let old := (b.w (Reg.THM_READ n)).toNat
        let run := if atHard then min 2 (x.hardRun + 1) else 0
        ¬ (run = 2 ∧ x.hardRun ≠ 2) → ¬ (n.val < 24 ∧ b.tripAt ≤ t) →
        let b1 := tempSet n ⟨inp, since, run⟩ (put (Reg.THM_READ n) (BitVec.ofNat 32 (value + b2n good.isNone * 2 ^ 16 +
          b2n fast * 2 ^ 17 + b2n atSoft * 2 ^ 18 + b2n atHard * 2 ^ 19)) b)
        let b2 := if good.isNone && !bit old 16 then
          putF Reg.THM_LAST F.THM_LAST_BROKEN_IDX n (flagged (flThm 2 n (readingEvDom n)) b1) else b1
        let b3 := if atSoft && !bit old 18 then (limitReached n value 0).run b2 else b2
        let b4 := if 160 ≤ n.val ∧ n.val < 176 then
          (barSoft ((n.val - 160) / 8) ((List.range 8).filterMap fun i =>
            if (b3.therm (160 + 8 * ((n.val - 160) / 8) + i)).since = 0 then none
            else some (sgn 16 (b3.reading (160 + 8 * ((n.val - 160) / 8) + i))))).run b3 else b3
        Does (.thermalSample n v) s ((calDueCheck n).run (throttleScale.run b4)))) ∧
    Does .throttleStep s ((List.range 32).foldl (fun c h => putF (Reg.THM_HLEVEL (h / 8)) (headLevel h)
        (b.nextLevel (b.governs h) (c.f (Reg.THM_HLEVEL (h / 8)) (headLevel h))) c)
      (putF Reg.THM_STATE F.THM_STATE_DIE_LEVEL
        (b.nextLevel (b.governs dCore) (b.f Reg.THM_STATE F.THM_STATE_DIE_LEVEL)) b)) ∧
    (∀ mv : Nat,
      let p := b.aux.pmu
      let win := 1000 * s.blk.a Reg.PMU_CFG2 F.PMU_CFG2_WIN
      let target := s.blk.a Reg.PMU_CFG F.PMU_CFG_TARGET_PCT
      let free := p.hold = 0 ∧ p.loadPend = false ∧ ∀ t, p.loadAt = some t → t + win ≤ s.blk.aux.clk.tick
      let ended := s.blk.pmuOn = true ∧ win ≤ p.ticks
      let b1 := putF Reg.PMU_VID F.PMU_VID_VMEAS mv b
      (¬ ended → Does (.pmuWindow mv) s b1) ∧
      (ended →
        let b2 := if p.least < target ∧ s.blk.vid = s.blk.a Reg.PMU_CFG F.PMU_CFG_VMAX then flagged (flPmu 0) b1 else b1
        ∀ down : Bool, (down = true ↔ target + s.blk.a Reg.PMU_CFG F.PMU_CFG_BAND_PCT ≤ p.least ∧ free) →
        Does (.pmuWindow mv) s (withAux (fun a => { a with pmu := { a.pmu with least := 100, ticks := 0, hold := a.pmu.hold - 1 } })
          (vidSet (s.blk.clampVid (if p.least < target then s.blk.vid + 1 else if down then s.blk.vid - 1 else s.blk.vid))
            b2)))) ∧
    (∀ (rail : Fin 6) (pg : Bool),
      let b1 := flagged (flPmu (if pg then 2 else 1)) (putF Reg.PMU_STAT F.PMU_STAT_RAIL (if pg then 0 else rail) b)
      (∀ r ∈ s.blk.rings, RingBalances r) →
      (s.blk.mode dCore = .off ∨ s.blk.mode dCore = .safe → Does (.supplyLow rail pg) s
        (withAux (fun a => { a with trans := a.trans.map (Trans.aged dCore) }) b1)) ∧
      (s.blk.mode dCore ≠ .off → s.blk.mode dCore ≠ .safe →
        ∃ b2, exec (.supplyLow rail pg) s = .next ⟨s.pending, b2⟩ ∧ SafeAll s.blk b2 ∧ LasersOff b2))

/-- The books of the rings in balance is an invariant of the model (StepKeepsRingBooks). -/
def Obligations.AxesAndEncoders : Prop :=
  ∀ (s : State), Ready s → (∀ q ∈ s.blk.rings, RingBalances q) →
    let b := fresh s.blk
    (∀ a : Fin 12,
      let x := b.mot a
      (x.planned = [] → Does (.stepIssue a) s b) ∧
      (∀ t pos l, x.planned = (t, pos) :: l →
        (s.blk.now10 + s.blk.tick10 ≤ t ∨ s.blk.tests (58 + a.val / 3) = true → Does (.stepIssue a) s b) ∧
        (t < s.blk.now10 + s.blk.tick10 → s.blk.tests (58 + a.val / 3) = false →
          let old := s.blk.axisPos a
          let new := intW (wordI (old + if pos then 1 else -1))
          let dir := pos == (s.blk.a (Reg.MOT_AXIS_CFG a) F.MOT_AXIS_CFG_DIR_INV == 1)
          let b1 := shown (.pin "MSTEP" a t) (shown (.pin "MDIR" a (b2n dir))
            (put (Reg.MOT_AXIS_POS a) (wordI new) (motSet a (fun y => { y with planned := l }) b)))
          Does (.stepIssue a) s (safeTaken ((limitCheck a).run
            ((progEach ([0, 1].filter fun f => s.blk.barAxis f == a.val) fun f => floatStep f pos t).run
              ((compareStep a old new).run b1)))))) ∧
      (s.blk.nextMove a = none → Does (.moveBoundary a) s b) ∧
      (∀ m, s.blk.nextMove a = some m →
        let cal := s.blk.mode (axisDom a) == .calibrate
        Does (.moveBoundary a) s (safeTaken ((startMove a 1 cal m).run (motSet a (fun y =>
          if s.blk.mode (axisDom a) = .calibrate then { y with jog := y.jog.tail }
          else if y.resume.isSome then { y with resume := none }
          else { y with queue := y.queue.tail }) b)))) ∧
      (x.go = none → Does (.moveEnd a) s b) ∧
      (∀ g, x.go = some g →
        let now := if g.state = 5 then !x.queue.isEmpty else decide (g.endAt < s.blk.now10 + s.blk.tick10)
        (g.ended = true ∨ now = false → Does (.moveEnd a) s b) ∧
        (g.ended = false → now = true →
          let b1 := motSet a (fun y => { y with
            restAt := g.endAt
            go := if g.state ≠ 5 ∧ (profAt g.prof (profDur g.prof)).2.1 = 0 then none
              else some { g with ended := true, endAt := if g.state = 5 then s.blk.now10 else g.endAt } }) b
          let b2 := putF (Reg.MOT_AXIS_MSTAT a) F.MOT_AXIS_MSTAT_DONE_SEQ g.move.seq b1
          let b3 := if g.move.notify then (raiseEvent 0x2F0 a (axisDom a) g.move.seq 0 0).run b2 else b2
          let b4 := match g.move.prog with
            | some i => withAux (fun y => { y with
                carriage := { y.carriage with left := y.carriage.left.filter (· != i) } }) b3
            | none => b3
          let b5 := if g.quiet then b1 else b4
          Does (.moveEnd a) s (safeTaken (if b5.carriageGroup = a.val / 3 then carriageEnded.run b5 else b5)))) ∧
      (s.blk.mode (axisDom a) ≠ .home → Does (.homing a) s b) ∧
      (s.blk.mode (axisDom a) = .home →
        (s.blk.homingAxis (a.val / 3) = none → Does (.homing a) s (safeTaken ((groupHomed (a.val / 3)).run b))) ∧
        (∀ c, s.blk.homingAxis (a.val / 3) = some c →
          (c ≠ a.val → Does (.homing a) s b) ∧
          (c = a.val →
            let fwd := s.blk.a (Reg.MOT_AXIS_CFG a) F.MOT_AXIS_CFG_HOME_DIR == 1
            let sp := fun (f : Fld) (dir : Bool) =>
              let v := Int.ofNat (100 * s.blk.a (Reg.MOT_AXIS_HOMEV a) f)
              some (if dir then v else -v)
            let goes := fun (n : Nat) (v : Option Int) => (homeMove a v).run (motSet a (fun y => { y with home := n }) b)
            let set := (homeSet a).run b
            let last := if (set.homingAxis (a.val / 3)).isNone then (groupHomed (a.val / 3)).run set else set
            let rest := x.over s.blk.now10
            (x.home = 0 → Does (.homing a) s (safeTaken
              (if s.blk.a (Reg.MOT_AXIS_CFG a) F.MOT_AXIS_CFG_HOME_MODE = 3 then last
              else goes 1 (sp F.MOT_AXIS_HOMEV_HOME_V1 fwd)))) ∧
            (x.home = 1 → Does (.homing a) s (safeTaken (if s.blk.roleActive a 3 then goes 2 none else b))) ∧
            (x.home = 2 → Does (.homing a) s (safeTaken
              (if rest then goes 3 (sp F.MOT_AXIS_HOMEV_HOME_V2 (!fwd)) else b))) ∧
            (x.home = 3 → x.homeMark = none → Does (.homing a) s (safeTaken
              (if s.blk.roleActive a 3 then b else motSet a (fun y => { y with homeMark := some (s.blk.axisPos a) }) b))) ∧
            (∀ p, x.home = 3 → x.homeMark = some p → Does (.homing a) s (safeTaken
              (if Int.ofNat (s.blk.a (Reg.MOT_AXIS_HOMEBACK a) F.MOT_AXIS_HOMEBACK_BACK) ≤ absI (s.blk.axisPos a - p) then
                (homeMove a (sp F.MOT_AXIS_HOMEV_HOME_V2 fwd)).run
                  (motSet a (fun y => { y with home := 4, homeMark := none, latch := none }) b)
              else b))) ∧
            (x.home = 4 → Does (.homing a) s (safeTaken (if x.latch.isSome then goes 5 none else b))) ∧
            (4 < x.home → Does (.homing a) s (safeTaken (if rest then last else b))))))) ∧
    (∀ (e : Fin 16) (la lb lz : Bool),
      let x := b.enc e
      let d := (quadPhase la lb + 4 - quadPhase x.a x.b) % 4
      let inv := s.blk.a (Reg.ENC_CFG e) F.ENC_CFG_INV == 1
      let b1 := encSet e (fun y => { y with a := la, b := lb, z := lz }) b
      let b2 := if d = 2 then (encError e 0).run b1 else if d ≠ 0 then (countEnc e ((d == 1) != inv)).run b1 else b1
      Does (.encoderEdge e la lb lz) s (safeTaken (if s.blk.ssiMode e || s.blk.tests (58 + e.val / 4) then b1
        else if lz && !x.z && s.blk.a (Reg.ENC_CFG e) F.ENC_CFG_IDX_EN == 1 then (indexEdge e).run b2 else b2))) ∧
    (∀ (e : Fin 16) (data : Option Nat),
      let f := fun fl => s.blk.a (Reg.ENC_CFG e) fl
      let n := f F.ENC_CFG_SSI_BITS
      let due := s.blk.ssiMode e = true ∧ (b.enc e).ssiAt + f F.ENC_CFG_SSI_PAUSE * 100 ≤ s.blk.now10
      let b1 := encSet e (fun y => { y with ssiAt := s.blk.now10 + n * 1000 / f F.ENC_CFG_SSI_CLK }) b
      (¬ due → Does (.ssiRead e data) s b) ∧
      (due → data = none → Does (.ssiRead e data) s (safeTaken ((encError e 2).run b1))) ∧
      (∀ raw, due → data = some raw →
        let v := if f F.ENC_CFG_SSI_GRAY = 1 then grayBits 5 (raw % 2 ^ n) else raw % 2 ^ n
        ((b.enc e).ssi = none → Does (.ssiRead e data) s (safeTaken (encSet e (fun y => { y with ssi := some v }) b1))) ∧
        (∀ v0, (b.enc e).ssi = some v0 →
          let d := sgn n (v + 2 ^ n - v0)
          (Int.ofNat (2 ^ (n - 2)) < (if 0 ≤ d then d else -d) → Does (.ssiRead e data) s (safeTaken ((encError e 2).run b1))) ∧
          ((if 0 ≤ d then d else -d) ≤ Int.ofNat (2 ^ (n - 2)) → Does (.ssiRead e data) s (safeTaken ((filterH e).run
            (put (Reg.ENC_POS e) (wordI ((encSet e (fun y => { y with ssi := some v }) b1).encPos e + d))
              (encSet e (fun y => { y with ssi := some v }) b1)))))))) ∧
    (∀ e : Fin 16,
      let till := (b.enc e).spdFrom + 100 * s.blk.a (Reg.ENC_WIN e) F.ENC_WIN_WIN_US
      Does (.encSpeedWindow e) s (if till < s.blk.now10 + s.blk.tick10 then
        encSet e (fun y => { y with spdPos := s.blk.encPos e, spdFrom := till })
          (put (Reg.ENC_SPEED e) (wordI (s.blk.encPos e - (b.enc e).spdPos)) b) else b)) ∧
    (∀ (i : Fin 24) (level : Bool) (raw : Nat),
      let a := s.blk.a (Reg.MOT_LIMMAP i) F.MOT_LIMMAP_AXIS
      let role := s.blk.a (Reg.MOT_LIMMAP i) F.MOT_LIMMAP_ROLE
      let b1 := withAux (fun x => { x with limits := x.limits.set i level }) b
      let c := if role ≠ 3 ∧ raw ≠ 0 then (chatCount a (role == 1) raw).run b1 else b1
      let rise := c.roleActive a role && !s.blk.roleActive a role
      (role = 0 ∨ 12 ≤ a → Does (.limitInput i level raw) s b1) ∧
      (role = 3 → a < 12 → Does (.limitInput i level raw) s (safeTaken (if rise ∧ (c.mot a).home = 4 then
        motSet a (fun x => if c.a (Reg.MOT_AXIS_CFG a) F.MOT_AXIS_CFG_HOME_MODE = 2 then
            { x with homeMark := some (c.axisPos a) }
          else { x with latch := if x.latch.isNone then some (c.axisPos a) else x.latch }) c else c))) ∧
      (role ≠ 0 → role ≠ 3 → a < 12 → Does (.limitInput i level raw) s (safeTaken
        (if c.mode (axisDom a) = .home then (if rise then (homeLimit (a / 3)).run c else c)
        else (limitAt a rise).run c))))

/-- The books of the rings in balance is an invariant of the model (StepKeepsRingBooks). -/
def Obligations.MemoryEvents : Prop :=
  ∀ (s : State), Ready s → (∀ q ∈ s.blk.rings, RingBalances q) →
    let b := fresh s.blk
    (∀ (port : Fin 10) (line result ns who : Nat),
      let b1 := (noteLatency port ns).run b
      (s.blk.dramSize ≤ 64 * line → Does (.dramRead port line result ns who) s (safeTaken
        ((ueOutcome port line who).run (flagged (flPort port 1) (flagged (flEcc 2) ((setEccAddr line port).run b1)))))) ∧
      (64 * line < s.blk.dramSize →
        let b2 := if b1.f Reg.DMC_STATE F.DMC_STATE_STATE = 3 then putF Reg.DMC_STATE F.DMC_STATE_STATE 4 b1 else b1
        let b3 := (readQueue line).run b2
        Does (.dramRead port line result ns who) s (safeTaken
          (if s.blk.forwarded line then b3
          else if s.blk.aux.poison.contains line || result == 2 then (readLost port line who).run b3
          else if result = 1 then flagged (flEcc 0) b3 else b3)))) ∧
    (∀ (port : Fin 10) (who : Nat), Does (.latMiss port who) s
      (let b1 := flagged (flPort port 0) b
      if port = 2 then withAux (fun a => { a with pools := a.pools.modify who fun p => { p with miss := true } }) b1 else b1)) ∧
    (∀ hot, Does (.refresh hot) s (putF Reg.DMC_STATE F.DMC_STATE_DRAM_HOT (b2n hot) b)) ∧
    Does .driftCheck s b ∧
    Does .selfRefreshEntry s
      (if s.blk.a Reg.DMC_LP F.DMC_LP_SR_EN = 1 ∧ s.blk.f Reg.DMC_STATE F.DMC_STATE_STATE = 2 ∧ s.blk.idleModes = true then
        putF Reg.DMC_STATE F.DMC_STATE_STATE 3 b else b) ∧
    Does .selfRefreshExit s
      (if s.blk.f Reg.DMC_STATE F.DMC_STATE_STATE = 3 ∨ s.blk.f Reg.DMC_STATE F.DMC_STATE_STATE = 4 then
        putF Reg.DMC_STATE F.DMC_STATE_STATE 2 b else b) ∧
    (∀ line result : Nat,
      let on := s.blk.a Reg.DMC_SCRUB F.DMC_SCRUB_EN = 1 ∧ 64 * line < s.blk.dramSize
      let bad := s.blk.aux.poison.contains line || result == 2
      (¬ on → Does (.patrolScrub line result) s b) ∧
      (on → bad = true → Does (.patrolScrub line result) s (flagged (flEcc 1) ((setEccAddr line 15).run
        (withAux (fun a => { a with poison := if a.poison.contains line then a.poison else a.poison ++ [line] }) b)))) ∧
      (on → bad = false → Does (.patrolScrub line result) s (if result = 1 then flagged (flEcc 0) b else b))) ∧
    (∀ (row : Fin 11) (who : Nat), Does (.sramUe row who true) s (flagged (flSram 0) b)) ∧
    (∀ (row : Fin 11) (who : Nat),
      let b1 := flagged (flSram 1) (putF Reg.DMC_SRAM_STAT F.DMC_SRAM_STAT_REGION row b)
      (row = 0 → Does (.sramUe row who false) s (safeTaken (putF Reg.SYS_BOOT_STAT F.SYS_BOOT_STAT_FW_STATE 4
        (let c := (requestSafe dCore .domainFault none).run b1
        withAux (fun a => { a with fwLost := some c.ns2 }) c)))) ∧
      (row = 1 → Does (.sramUe row who false) s (safeTaken ((requestSafe (min 31 (who / 4)) .domainFault none).run b1))) ∧
      (row = 2 → Does (.sramUe row who false) s (safeTaken ((requestSafe (min 31 (who / 3)) .domainFault none).run b1))) ∧
      (row = 3 → Does (.sramUe row who false) s (safeTaken ((requestSafe dCore .domainFault none).run b1))) ∧
      (row = 4 → who < 32 → Does (.sramUe row who false) s (safeTaken
        (withAux (fun a => { a with pools := a.pools.modify who fun p => { p with miss := true } }) b1))) ∧
      (row = 4 → 32 ≤ who → Does (.sramUe row who false) s (safeTaken (withAux (fun a => { a with
        pools := a.pools.modify (who - 32) fun p => { p with trace := p.trace.map fun _ => lostRecord } }) b1))) ∧
      (row = 5 → Does (.sramUe row who false) s (safeTaken ((frameLineErr who).run b1))) ∧
      (row = 6 → Does (.sramUe row who false) s (safeTaken ((requestSafe (dFloat (min 1 who)) .domainFault none).run b1))) ∧
      (row = 7 → Does (.sramUe row who false) s (safeTaken (if who = 0 then outputLost.run b1 else (inputLost 2 who).run b1))) ∧
      (row = 8 → Does (.sramUe row who false) s (safeTaken
        (if who < 40 then (complete who 0x5D 0).run b1 else (dropEntry (min who 88) true).run b1))) ∧
      (row = 9 → Does (.sramUe row who false) s (safeTaken
        (if who = 0 then stampLost.run b1 else (eventsLost who).run b1))) ∧
      (row = 10 → Does (.sramUe row who false) s (safeTaken ((diagInvalid who).run b1))))

/-- The books of the rings in balance is an invariant of the model (StepKeepsRingBooks). -/
def Obligations.StorageAndRecorder : Prop :=
  ∀ (s : State), Ready s → (∀ q ∈ s.blk.rings, RingBalances q) →
    let b := fresh s.blk
    let usable := s.blk.storeUsable = true ∧ nandMode (s.blk.mode dStore) = true
    (∀ blocks, Does (.skimJob blocks) s (safeTaken ((recordJob blocks).run
      (if s.blk.mayAppend 0 then openCoat.run b else b)))) ∧
    (∀ (kind : Fin 3) (plane : Nat) (pass : Bool),
      let starts := s.blk.nandStarts (s.blk.mode dStore) kind
      let flew := s.blk.aux.store.flight.contains kind.val
      (starts = true → Does (.nandProgramDone kind plane pass) s (safeTaken ((nandDone kind plane pass).run b))) ∧
      (starts = false → flew = true → Does (.nandProgramDone kind plane pass) s (safeTaken ((nandDone kind plane pass).run
        (withAux (fun a => { a with store := { a.store with flight := [] } }) b)))) ∧
      (starts = false → flew = false → Does (.nandProgramDone kind plane pass) s b)) ∧
    (∀ (planes : List Nat) (lost : List (Nat × Nat)),
      (¬ usable → Does (.nandScrub planes lost) s b) ∧
      (usable → Does (.nandScrub planes lost) s (safeTaken (storeRegs.run (withAux (fun a => { a with store := { a.store with
          segs := a.store.segs.map fun x =>
            { x with lostCw := x.lostCw + ((lost.filter fun l => l.1 == x.seq).map Prod.snd).sum } } })
        (planes.foldl (fun c p => flagged (flNvs 5) ((planeFail p).run c)) b)))))) ∧
    (∀ (table : Fin 3) (bad : List Nat),
      let st := s.blk.aux.store
      let able := s.blk.mode dStore = .home ∧ st.enumerated = true ∧ st.configBad = false ∧ st.tableLost = false ∧
        ¬ ∃ t ∈ s.blk.aux.trans, t.dom = dStore
      (¬ able → Does (.storageRecovery table bad) s b) ∧
      (able → table = 2 → Does (.storageRecovery table bad) s (flagged (flNvs 7)
        (withAux (fun a => { a with store := { a.store with tableLost := true } }) b))) ∧
      (able → table ≠ 2 →
        let b1 := recoverOpen.run (if table = 1 then (formatStore bad).run b else b)
        let b2 := tableCommit.run (withAux (fun a => { a with store := { a.store with scanned := true, erasable := 0 } }) b1)
        Does (.storageRecovery table bad) s (safeTaken (awaiting dStore .setup .done ((Prim.evr (.loadNext
          ((s.blk.evr.pinned ++ s.blk.evr.circular).foldl (fun n r => max n (r.serial + 1)) 0))).apply b2))))) ∧
    (∀ ts : List Target, Does (.nandEnumeration ts) s (safeTaken ((nandEnumerationProg ts).run
      (if s.blk.mode dStore = .setup ∧ s.blk.aux.store.enumerated = false then
        withAux (fun a => { a with boot := { a.boot with stored := none } }) b else b)))) ∧
    (Does .wearLevellingMove s (safeTaken (if usable ∧ s.blk.pageReady = false then tableCommit.run b else b))) ∧
    Does .eventCompose s (safeTaken ((publishFrom s.blk.evr.next).run
      ((Prim.evr (.compose b.composeMark b.ms2)).apply b))) ∧
    (∀ erase : Nat,
      let go := s.blk.flushDue = true ∧ s.blk.evrProgrammable = true
      (¬ go → Does (.eventFlush erase) s b) ∧
      (go → Does (.eventFlush erase) s (safeTaken (withAux (fun a => { a with evrFlush := false })
        ((Prim.evr (.program 256 b.ms2)).apply (if erase = 0 then b else (eraseBlock erase).run b))))))

/-- PTP_RX on a port without link leaves no trace; with link an ordinary frame counts, a complete Sync of an instance's parent feeds its offset, an Announce sets the parent, and an event message stamps. ANNOUNCE_TIMEOUT takes a locking instance to its fallback and, without offsets, sets the parent. PTP_TX of an instance that does not use the port does nothing; a one-step message goes out where the port has link; a two-step one takes an ID, and goes out or is lost with STAMP_LOST. TX_TIMESTAMP queues a stamp or reads one; a full queue loses it with the flag. LINK_DOWN drops every stamp in flight with the flags; ETH_LINK_UP shows the link. -/
def Obligations.PtpMessages : Prop :=
  ∀ (s : State), Ready s →
    let b := fresh s.blk
    (∀ (p : Fin 2) (m : PtpMsg),
      let link := s.blk.f (Reg.PTP_PORT_STAT p) F.PTP_PORT_STAT_LINK = 1
      (¬ link → Does (.ptpRx p m) s b) ∧
      (link → m = .other → Does (.ptpRx p m) s (put (Reg.PTP_PORT_RX p) (s.blk.w (Reg.PTP_PORT_RX p) + 1) b)) ∧
      (link → ∀ domain sender off complete, m = .sync domain sender off complete →
        Does (.ptpRx p m) s ((s.blk.instOf p domain).foldl (fun c i =>
          if complete && (b.inst i).parent == some (p.val, sender) then (feedOffset i off).run c else c) b)) ∧
      (link → ∀ domain parent, m = .announce domain parent →
        Does (.ptpRx p m) s ((s.blk.instOf p domain).foldl (fun c i => (setParent i parent).run c) b)) ∧
      (link → m = .event → Does (.ptpRx p m) s b)) ∧
    (∀ (i : Fin 2) (offsets : Bool) (parent : Option (Nat × Nat)),
      let st := s.blk.instState i
      let b1 := if st = 2 ∨ st = 3 then (instTo i (s.blk.fallback i)).run b else b
      Does (.announceTimeout i offsets parent) s
        (if offsets = false ∧ 1 ≤ st ∧ st ≤ 4 then (setParent i parent).run b1 else b1)) ∧
    (∀ (p i : Fin 2) (mt : Fin 4) (seq : Nat),
      let on := s.blk.f (Reg.PTP_INST_CFG i) F.PTP_INST_CFG_EN = 1 ∧
        bit (s.blk.f (Reg.PTP_INST_CFG i) F.PTP_INST_CFG_PORTS) p = true
      let oneStep := (mt = 0 ∨ mt = 3) ∧ twoStepMode (s.blk.mode dCore) = false
      let link := s.blk.f (Reg.PTP_PORT_STAT p) F.PTP_PORT_STAT_LINK = 1
      (¬ on → Does (.ptpTx p i mt seq) s b) ∧
      (on → oneStep → Does (.ptpTx p i mt seq) s (if link then shown (.ptp p mt true) b else b)) ∧
      (on → ¬ oneStep → s.blk.freeId p = none → Does (.ptpTx p i mt seq) s b) ∧
      (∀ id, on → ¬ oneStep → s.blk.freeId p = some id →
        let b1 := (Prim.tsq p (.issue ⟨id, i, mt, seq⟩)).apply (withAux (fun a => { a with nextId := (id + 1) % 256 }) b)
        Does (.ptpTx p i mt seq) s (if link then shown (.ptp p mt false) b1
          else flagged (flPtpPort p 2) ((Prim.tsq p (.drop id)).apply b1)))) ∧
    (∀ (p : Fin 2) (id stamp : Nat),
      let full := 16 ≤ (b.tsq p).queue.length ∧ ∃ f ∈ (b.tsq p).flight, f.id = id
      Does (.txTimestamp p id stamp true) s ((Prim.tsq p (.read id)).apply b) ∧
      (full → Does (.txTimestamp p id stamp false) s ((Prim.tsq p (.depart id stamp)).apply (flagged (flPtpPort p 2) b))) ∧
      (¬ full → Does (.txTimestamp p id stamp false) s ((Prim.tsq p (.depart id stamp)).apply b))) ∧
    (∀ p : Fin 2,
      let b1 := flagged (flPtpPort p 1) (putF (Reg.PTP_PORT_STAT p) F.PTP_PORT_STAT_LINK 0 b)
      Does (.linkDown p) s (if s.blk.f (Reg.PTP_PORT_STAT p) F.PTP_PORT_STAT_LINK = 1 then
        (Prim.tsq p .dropAll).apply (if (b.tsq p).flight.isEmpty then b1 else flagged (flPtpPort p 2) b1) else b) ∧
      Does (.ethLinkUp p) s (putF (Reg.PTP_PORT_STAT p) F.PTP_PORT_STAT_LINK 1 b))

/-- The books of the rings in balance is an invariant of the model (StepKeepsRingBooks). -/
def Obligations.TicksAndPhases : Prop :=
  ∀ (s : State), Ready s → (∀ q ∈ s.blk.rings, RingBalances q) →
    let b := fresh s.blk
    (∀ (late : List (Nat × Nat)) (slack : List Nat),
      let after := (tickEdgeProg late slack).run b
      Does (.tickEdge late slack) s (safeTaken after) ∧
      (safeTaken after).aux.clk.tb3 = s.blk.aux.clk.tb3 + s.blk.tickPs / 1000 * 2 ^ 48 ∧
      (safeTaken after).aux.clk.tick = s.blk.aux.align.newTick.getD (s.blk.aux.clk.tick + 1) ∧
      (after.coatNo ≠ s.blk.coatNo → Does (.coatBoundary late slack) s (safeTaken after)) ∧
      (after.coatNo = s.blk.coatNo → Does (.coatBoundary late slack) s b)) ∧
    (s.blk.openCoatOf = none → Does .phase2Start s b ∧ Does .phase3Start s b ∧ Does .phase3End s b) ∧
    (∀ c, s.blk.openCoatOf = some c →
      let ready2 := c.stage = 1 ∧ c.image = true ∧ s.blk.phase1Over = true ∧
        (s.blk.mode dCore = .expose ∨ s.blk.mode dCore = .hold ∨ s.blk.mode dCore = .drain)
      (¬ ready2 → Does .phase2Start s b) ∧
      (ready2 → Does .phase2Start s (safeTaken ((phase2Image c.num).run
        (buildSet (fun x => { x with p2Done := false }) (phaseBegun c.num 2 b))))) ∧
      (s.blk.phase3Ready c = false → Does .phase3Start s b) ∧
      (s.blk.phase3Ready c = true →
        let b1 := (List.range 8).foldl (fun x k => if x.layerCam k then askedFrom (dCam k) .expose .drain x else x)
          (phaseBegun c.num 3 b)
        (c.cut = true →
          let b2 := (cutQueued c.num).run b1
          Does .phase3Start s (safeTaken (if b2.cutOver c then (phase3End c).run b2 else b2))) ∧
        (c.cut = false → Does .phase3Start s (safeTaken
          ((List.range 8).foldl (fun x k => if x.layerCam k then x else askedFrom (dCam k) .armed .expose x)
            ((List.range 32).foldl (fun x h => askedFrom h .armed .expose x) b1))))) ∧
      (c.stage ≠ 3 → Does .phase3End s b) ∧
      (c.stage = 3 →
        let b1 := if c.cut then (cutQueued c.num).run b else b
        Does .phase3End s (safeTaken (if b1.coatWorkDone c || b1.cutOver c then (phase3End c).run b1 else b1)))) ∧
    (∀ n, s.blk.build.foldFor = some n → s.blk.entriesDue n = false →
      Does .hmFold s (safeTaken (closeRecord.run (buildSet (fun x => { x with foldFor := none })
        (putF Reg.MPL_HM_STAT F.MPL_HM_STAT_FOLD_BUSY 0 (foldMap.run
          ((List.range 32).foldl (fun x h => (flushDeposits h).run x) b))))))) ∧
    (∀ n, s.blk.build.foldFor = some n → s.blk.entriesDue n = true → Does .hmFold s b) ∧
    (s.blk.build.foldFor = none → Does .hmFold s b) ∧
    ((s.blk.build.coats.find? fun c => c.stage == 4) = none → Does .segmentDurable s b) ∧
    (∀ c, (s.blk.build.coats.find? fun c => c.stage == 4) = some c →
      let done := s.blk.coatDurable c.num = true ∧ s.blk.build.foldFor = none
      (¬ done → Does .segmentDurable s b) ∧
      (done →
        let b1 := buildSet (fun x => { x with
          coats := x.coats.filter fun y => y.num != c.num, past := x.past ++ [c.num] }) (segmentKept.run b)
        let b2 := if s.blk.coatNo = c.num then putF Reg.SEQ_COAT F.SEQ_COAT_PHASE 0 b1 else b1
        let b3 := if b2.openCoatOf = none then askedFrom dCore .expose .drain b2 else b2
        Does .segmentDurable s (safeTaken (askedFrom dStore .expose .drain b3))))

/-- The books of the rings in balance is an invariant of the model (StepKeepsRingBooks). -/
def Obligations.AnswersTestsAndShutdown : Prop :=
  ∀ (s : State), Ready s → (∀ q ∈ s.blk.rings, RingBalances q) →
    let b := fresh s.blk
    (∀ (f : Fin 2) (msg : List Word),
      ((s.blk.bar f).auth = none → Does (.authResponse f msg) s b ∧ Does (.authTimeout f) s b) ∧
      (∀ a, (s.blk.bar f).auth = some a →
        (a.tosend = true → Does (.authResponse f msg) s b) ∧
        (a.tosend = false →
          let num := msg.take 3
          let sig := ((msg.drop 3).take 16).flatMap wordBytes
          let text := (a.nonce ++ toWords 2 (s.blk.w64 (Reg.HLK_LANE_ID (halfLane f 0))) ++ num).flatMap wordBytes
          let good := ecdsaVerify
              (beBytes (s.blk.winBytes (barTab f + 0x400) 32), beBytes (s.blk.winBytes (barTab f + 0x420) 32))
              (sha256 text) (beBytes (sig.take 32)) (beBytes (sig.drop 32)) = true ∧
            s.blk.w64 (Reg.FLT_BAR_ENERGY f) ≤ leWords (num.take 2) ∧
            (s.blk.w (Reg.FLT_BAR_HOURS f)).toNat ≤ leWords (num.drop 2)
          (good → Does (.authResponse f msg) s (safeTaken ((stageSection 0x000A 1 f (num.flatMap wordBytes)).run
            (put (Reg.FLT_BAR_HOURS f) (BitVec.ofNat 32 (leWords (num.drop 2)))
              (put (Reg.FLT_BAR_ENERGY f + 4) (BitVec.ofNat 32 (leWords (num.take 2) / 4294967296))
                (put (Reg.FLT_BAR_ENERGY f) (BitVec.ofNat 32 (leWords (num.take 2)))
                  (barSet f (fun x => { x with auth := none }) b))))))) ∧
          (¬ good → Does (.authResponse f msg) s (safeTaken (authFailed f b)))) ∧
        (a.deadline ≤ s.blk.ns2 → Does (.authTimeout f) s (safeTaken (authFailed f b))) ∧
        (s.blk.ns2 < a.deadline → Does (.authTimeout f) s b))) ∧
    (∀ f : Fin 2, Does (.measurementResult f) s (safeTaken
      ((s.blk.bar f).meas.foldl (fun c m => (jobReading f m).run c) b))) ∧
    (∀ which : Fin 2, Does (.nonceExpiry which) s (withAux (fun a =>
      let live := fun (n : Option Nonce) => n.filter fun x => decide (s.blk.ns2 < x.until_)
      if which = 0 then { a with evrNonce := live a.evrNonce } else { a with lcsNonce := live a.lcsNonce }) b)) ∧
    (∀ (ring : Fin 40) (ws : List Word) (results : List BistRes) (stored begun : Bool),
      Stands s.blk ring 0x2B begun ws →
      let rest := fun x : Blk =>
        if ((List.range 48).all fun d => d == dStore || x.mode d == .off) && x.appendsDone then
          (shutdownFinish ring results stored).run x else x
      (begun = true → Does (.shutdown ring results stored) s (safeTaken (rest b))) ∧
      (begun = false → ∀ e, fieldFail ws [] = some e →
        Does (.shutdown ring results stored) s ((complete ring e.status e.detail).run b)) ∧
      (begun = false → fieldFail ws [] = none → ∀ d, s.blk.shutdownBar = some d →
        Does (.shutdown ring results stored) s ((complete ring 0x65 d).run b)) ∧
      (begun = false → fieldFail ws [] = none → s.blk.shutdownBar = none →
        Does (.shutdown ring results stored) s (safeTaken (rest (putF Reg.BST_SUMMARY F.BST_SUMMARY_SHUT 1
          (((List.range 48).filter fun d => d != dStore && s.blk.mode d != .off).foldl
            (fun x d => awaiting d .off .command x) ((Prim.ring ring .start).apply b))))))) ∧
    (∀ (d : Fin 48) (results : List BistRes),
      let us := s.blk.unitsTested d
      let mine := us.filterMap fun u => results.find? fun r => r.unit == u
      let ends := s.blk.mode d = .selftest ∧ s.blk.aux.boot.tested.contains d.val = false ∧ mine.length = us.length
      (¬ ends → Does (.selftestEnd d results) s b) ∧
      (ends →
        let b1 := bootSet (fun x => { x with tested := x.tested ++ [d.val] })
          (mine.foldl (fun x r => (keepResult r).run x) (mine.foldl (fun x r => (unitReset r.unit).run x) b))
        let b2 := if d.val = dStore then
            putF Reg.BST_SUMMARY F.BST_SUMMARY_REC_SRC 1 (putF Reg.BST_SUMMARY F.BST_SUMMARY_REC_DONE 1 b1) else b1
        let b3 := if d.val = dCore then (List.range 4).foldl (fun x j => (framerFailed j).run x) b2 else b2
        let again := bootSet (fun x => { x with second := x.second ++ [d.val] }) b3
        (b3.rowFailed d = true → Does (.selftestEnd d results) s (safeTaken (awaiting d .off .bistFail b3))) ∧
        (b3.rowFailed d = false → d.val < 32 → Does (.selftestEnd d results) s (safeTaken (laneBegun d again))) ∧
        (b3.rowFailed d = false → 32 ≤ d.val → d.val < 34 → Does (.selftestEnd d results) s (safeTaken
          (laneBegun (33 + 2 * (d - 32)) (laneBegun (32 + 2 * (d - 32)) again)))) ∧
        (b3.rowFailed d = false → 34 ≤ d.val → Does (.selftestEnd d results) s (safeTaken
          (awaiting d .setup .done b3)))))

/-- The books of the rings in balance is an invariant of the model (StepKeepsRingBooks). -/
def Obligations.CalibrationRuns : Prop :=
  ∀ (s : State), Ready s → (∀ q ∈ s.blk.rings, RingBalances q) →
    let b := fresh s.blk
    (∀ (t : Fin 80) (ms : List CalMeas),
      let now := s.blk.reading (s.blk.calReading t)
      let fits := decide (absI (sgn 16 now - sgn 16 (s.blk.f (Reg.CAL_TEMP t) F.CAL_TEMP_TEMP)) ≤
        Int.ofNat (s.blk.a Reg.CAL_CFG F.CAL_CFG_CAL_DT))
      let old := s.blk.w (Reg.CAL_RES t)
      let restored := (s.blk.calTarget t).restored
      let fs := if s.blk.termOnly t then (trimFields t).take 1 else trimFields t
      let keep := if s.blk.termOnly t then old.toNat - old.toNat % 32 else 0
      let picked := calPick (trimsAgree fs (s.blk.a Reg.CAL_CFG F.CAL_CFG_CODE_TOL))
        (if restored && fits then some old else none) ms
      let counted := putF (Reg.CAL_TSTAT t) F.CAL_TSTAT_RUNS
        (satInc 16 (s.blk.f (Reg.CAL_TSTAT t) F.CAL_TSTAT_RUNS)) b
      let b1 := if restored && !fits then flagged (flCal 1) (putF Reg.CAL_LAST F.CAL_LAST_STALE_T t counted) else counted
      let failed := flagged (flCal 0) (putF Reg.CAL_LAST F.CAL_LAST_FAIL_T t
        (putF (Reg.CAL_TSTAT t) F.CAL_TSTAT_STATE 4 (calSet t (fun _ => ⟨false, some false⟩) b1)))
      (s.blk.calMayRun t = false ∨ picked = none → Does (.calRun t ms) s b) ∧
      (s.blk.calMayRun t = true → picked = some none →
        Does (.calRun t ms) s (safeTaken ((calAfter t false).run failed))) ∧
      (∀ x y, s.blk.calMayRun t = true → picked = some (some (x, y)) →
        let q := calQuality t x y
        (s.blk.calGood t q = false → Does (.calRun t ms) s (safeTaken ((calAfter t false).run failed))) ∧
        (s.blk.calGood t q = true → Does (.calRun t ms) s (safeTaken ((calAfter t true).run
          (putF (Reg.CAL_DUE (t / 32)) ⟨t % 32, 1⟩ 0
            (putF (Reg.CAL_TSTAT t) F.CAL_TSTAT_STATE 1
              (putF (Reg.CAL_TEMP t) F.CAL_TEMP_TEMP now
                (put (Reg.CAL_QUAL t) (BitVec.ofNat 32 (q.1 % 65536 + q.2 % 65536 * 65536))
                  (put (Reg.CAL_RES t) (BitVec.ofNat 32 ((trimsMean fs x.1 y.1).toNat + keep))
                    (calSet t (fun _ => ⟨false, some true⟩) b1)))))))))) ) ∧
    (∀ (d : Fin 48) (ok : Bool) (ramps : Fin 4),
      let out := s.blk.calOutcome d ok
      (s.blk.mode d ≠ .calibrate ∨ out = none → Does (.calibrateEnd d ok ramps) s b) ∧
      (s.blk.mode d = .calibrate → out = some false →
        Does (.calibrateEnd d ok ramps) s (awaiting d .setup .calFail b)) ∧
      (s.blk.mode d = .calibrate → out = some true → Does (.calibrateEnd d ok ramps) s (safeTaken
        (awaiting d (s.blk.prevMode d) .done (if d.val < 32 then (servoLag d ramps).run b else b)))))

/-- SYS_OCC_CLR of all blocks, or of one of the 25 blocks, clears block after block, and then every occurrence counter of a register of those blocks reads 0; one that names no block and not all is rejected whole. BAR2_WRITE writes the bytes into the window; where a byte of its range is in no region, or in a region that is busy, it writes nothing and sets the flag of a lost write. -/
def Obligations.OccurrenceClearsAndWindowWrites : Prop :=
  ∀ (s : State), Ready s →
    let b := fresh s.blk
    let cleared := fun ks : List Nat => ks.foldl (fun c k => (occClear k).run c) (unheld b)
    (∀ v : Word,
      let all := F.SYS_OCC_CLR_ALL.get v
      let k := F.SYS_OCC_CLR_BLOCK.get v
      (all = 1 → Does (.sysOccClr v) s (cleared (List.range 25))) ∧
      (all ≠ 1 → k < 25 → Does (.sysOccClr v) s (cleared [k])) ∧
      (all ≠ 1 → 25 ≤ k → Does (.sysOccClr v) s (refusedAt Reg.SYS_OCC_CLR (unheld b)))) ∧
    (∀ (ks : List Nat) (off : Nat) (h : Hit) (f : FieldDef), findReg off = some h → h.active = false →
      off / 65536 ∈ ks → f ∈ h.d.fields → f.ty = .occ → f.lo / 32 = h.idx →
      (cleared ks).f off ⟨f.lo % 32, f.w⟩ = 0) ∧
    (∀ (off : BitVec 26) (bytes : List Byte),
      let barred := unmappedRange off.toNat bytes.length || s.blk.busyRange off.toNat bytes.length
      (barred = true → Does (.bar2Write off bytes) s (flagged flWrDrop b)) ∧
      (barred = false → Does (.bar2Write off bytes) s ((winWrite off.toNat bytes).run b)))

/-- The books of the rings in balance is an invariant of the model (StepKeepsRingBooks). -/
def Obligations.ModeSetsOfOneBead : Prop :=
  ∀ (s : State), Ready s → (∀ q ∈ s.blk.rings, RingBalances q) →
    let rank := fun r => match s.blk.modeSetOf r with
      | some (_, .safe) => 0
      | some (_, .hold) => 1
      | some (_, .drain) => 2
      | some _ => 3
      | none => 4
    ∀ (ring : Fin 40) (others : List (Fin 40)), others ≠ [] →
      let order := s.blk.byRank ((ring :: others).map Fin.val)
      Does (.modeSet ring others) s (safeTaken ((modeSets order []).run (fresh s.blk))) ∧
      (∀ r, r ∈ order ↔ ∃ x ∈ ring :: others, x.val = r) ∧
      order.Pairwise fun r q => rank r < rank q ∨ rank r = rank q ∧ r < q
end

