-- ==== Sys2Proof/Laws/Map.lean ====
section
/-!
SUPPORT. Sparse maps: a write is read back, it leaves every other key alone, and it keeps the canonical form.
-/
namespace Sys2Proof.Machine

/-- Keys of a map lie above a bound. -/
def mapAbove {α : Type} (lo : Nat) (m : List (Nat × α)) : Prop := ∀ p ∈ m, lo < p.1

theorem mapWf_nil {α : Type} [DecidableEq α] (d : Nat → α) : mapWf d ([] : List (Nat × α)) = true := rfl

theorem mapWf_cons {α : Type} [DecidableEq α] (d : Nat → α) (k : Nat) (v : α) (m : List (Nat × α)) :
    mapWf d ((k, v) :: m) = true ↔ v ≠ d k ∧ mapWf d m = true ∧ mapAbove k m := by
  induction m generalizing k v with
  | nil => simp [mapWf, mapWfAux, mapAbove]
  | cons p m ih =>
    obtain ⟨j, w⟩ := p
    have h := ih j w
    simp only [mapWf, mapAbove] at h ⊢
    have e : mapWfAux d none ((k, v) :: (j, w) :: m) = true ↔
        v ≠ d k ∧ k < j ∧ mapWfAux d none ((j, w) :: m) = true := by
      simp [mapWfAux, and_comm, and_left_comm, and_assoc]
    rw [e, h]
    constructor
    · rintro ⟨a, b, c, x, y⟩
      refine ⟨a, ⟨c, x, y⟩, ?_⟩
      intro q hq
      rcases List.mem_cons.mp hq with rfl | hq
      · exact b
      · exact Nat.lt_trans b (y q hq)
    · rintro ⟨a, ⟨c, x, y⟩, z⟩
      exact ⟨a, z (j, w) (List.mem_cons_self ..), c, x, y⟩

/-- A key below every listed key is not listed. -/
theorem mapFind_below {α : Type} (m : List (Nat × α)) (j : Nat) (h : mapAbove j m) : mapFind m j = none := by
  cases m with
  | nil => rfl
  | cons p m =>
    obtain ⟨k, v⟩ := p
    have : j < k := h (k, v) (List.mem_cons_self ..)
    simp [mapFind, this, Nat.ne_of_lt this]

theorem mapFind_insert_same {α : Type} (m : List (Nat × α)) (j : Nat) (x : α) :
    mapFind (mapInsert m j x) j = some x := by
  induction m with
  | nil => simp [mapInsert, mapFind]
  | cons p m ih =>
    obtain ⟨k, v⟩ := p
    simp only [mapInsert]
    split
    · simp [mapFind]
    · split
      · simp [mapFind]
      · simp [mapFind, *]

theorem mapFind_insert_other {α : Type} (m : List (Nat × α)) (j i : Nat) (x : α) (h : i ≠ j) :
    mapFind (mapInsert m j x) i = mapFind m i := by
  induction m with
  | nil => simp [mapInsert, mapFind, h]
  | cons p m ih =>
    obtain ⟨k, v⟩ := p
    simp only [mapInsert]
    split
    · next e => subst e; simp [mapFind, h]
    · split
      · next e1 e2 =>
        simp only [mapFind, h, if_false]
        by_cases hi : i < j
        · have : i < k := Nat.lt_trans hi e2
          simp [hi, this, Nat.ne_of_lt this]
        · simp [hi]
      · simp only [mapFind, ih]

theorem mapFind_erase_same {α : Type} [DecidableEq α] (d : Nat → α) (m : List (Nat × α)) (j : Nat)
    (h : mapWf d m = true) : mapFind (mapErase m j) j = none := by
  induction m with
  | nil => rfl
  | cons p m ih =>
    obtain ⟨k, v⟩ := p
    obtain ⟨_, hm, ha⟩ := (mapWf_cons d k v m).mp h
    simp only [mapErase]
    split
    · next e => subst e; exact mapFind_below m _ ha
    · split
      · simp [mapFind, *]
      · simp [mapFind, *]

theorem mapFind_erase_other {α : Type} [DecidableEq α] (d : Nat → α) (m : List (Nat × α)) (j i : Nat)
    (h : mapWf d m = true) (e : i ≠ j) : mapFind (mapErase m j) i = mapFind m i := by
  induction m with
  | nil => rfl
  | cons p m ih =>
    obtain ⟨k, v⟩ := p
    obtain ⟨_, hm, ha⟩ := (mapWf_cons d k v m).mp h
    simp only [mapErase]
    split
    · next c =>
      subst c
      simp only [mapFind, e, if_false]
      split
      · next l => exact mapFind_below m i fun q hq => Nat.lt_trans l (ha q hq)
      · rfl
    · split
      · rfl
      · simp only [mapFind, ih hm]

theorem mapAbove_insert {α : Type} (m : List (Nat × α)) (lo j : Nat) (x : α) (h : mapAbove lo m) (l : lo < j) :
    mapAbove lo (mapInsert m j x) := by
  induction m with
  | nil => intro q hq; simp [mapInsert] at hq; subst hq; exact l
  | cons p m ih =>
    obtain ⟨k, v⟩ := p
    have h1 : lo < k := h (k, v) (List.mem_cons_self ..)
    have h2 : mapAbove lo m := fun q hq => h q (List.mem_cons_of_mem _ hq)
    intro q hq
    simp only [mapInsert] at hq
    split at hq
    · rcases List.mem_cons.mp hq with rfl | hq
      · exact l
      · exact h2 q hq
    · split at hq
      · rcases List.mem_cons.mp hq with rfl | hq
        · exact l
        · exact h q hq
      · rcases List.mem_cons.mp hq with rfl | hq
        · exact h1
        · exact ih h2 q hq

theorem mapAbove_erase {α : Type} (m : List (Nat × α)) (lo j : Nat) (h : mapAbove lo m) :
    mapAbove lo (mapErase m j) := by
  induction m with
  | nil => exact h
  | cons p m ih =>
    obtain ⟨k, v⟩ := p
    have h2 : mapAbove lo m := fun q hq => h q (List.mem_cons_of_mem _ hq)
    simp only [mapErase]
    split
    · exact h2
    · split
      · exact h
      · intro q hq
        rcases List.mem_cons.mp hq with rfl | hq
        · exact h (k, v) (List.mem_cons_self ..)
        · exact ih h2 q hq

theorem mapWf_insert {α : Type} [DecidableEq α] (d : Nat → α) (m : List (Nat × α)) (j : Nat) (x : α)
    (h : mapWf d m = true) (hx : x ≠ d j) : mapWf d (mapInsert m j x) = true := by
  induction m with
  | nil => exact (mapWf_cons d j x []).mpr ⟨hx, rfl, by simp [mapAbove]⟩
  | cons p m ih =>
    obtain ⟨k, v⟩ := p
    obtain ⟨hv, hm, ha⟩ := (mapWf_cons d k v m).mp h
    simp only [mapInsert]
    split
    · next e => subst e; exact (mapWf_cons d _ x m).mpr ⟨hx, hm, ha⟩
    · split
      · next e l =>
        refine (mapWf_cons d j x _).mpr ⟨hx, h, ?_⟩
        intro q hq
        rcases List.mem_cons.mp hq with rfl | hq
        · exact l
        · exact Nat.lt_trans l (ha q hq)
      · next e l =>
        exact (mapWf_cons d k v _).mpr ⟨hv, ih hm, mapAbove_insert m k j x ha (by omega)⟩

theorem mapWf_erase {α : Type} [DecidableEq α] (d : Nat → α) (m : List (Nat × α)) (j : Nat)
    (h : mapWf d m = true) : mapWf d (mapErase m j) = true := by
  induction m with
  | nil => rfl
  | cons p m ih =>
    obtain ⟨k, v⟩ := p
    obtain ⟨hv, hm, ha⟩ := (mapWf_cons d k v m).mp h
    simp only [mapErase]
    split
    · exact hm
    · split
      · exact h
      · exact (mapWf_cons d k v _).mpr ⟨hv, ih hm, mapAbove_erase m k j ha⟩

/-- A write keeps the canonical form. -/
theorem mapWf_set {α : Type} [DecidableEq α] (d : Nat → α) (m : List (Nat × α)) (j : Nat) (x : α)
    (h : mapWf d m = true) : mapWf d (mapSet d m j x) = true := by
  unfold mapSet
  split
  · exact mapWf_erase d m j h
  · exact mapWf_insert d m j x h ‹_›

/-- A read of the key written gives the value written. -/
theorem mapGet_set_same {α : Type} [DecidableEq α] (d : Nat → α) (m : List (Nat × α)) (j : Nat) (x : α)
    (h : mapWf d m = true) : mapGet d (mapSet d m j x) j = x := by
  unfold mapSet mapGet
  split
  · next e => rw [mapFind_erase_same d m j h]; exact e.symm
  · rw [mapFind_insert_same]; rfl

/-- A write leaves every other key alone. -/
theorem mapGet_set_other {α : Type} [DecidableEq α] (d : Nat → α) (m : List (Nat × α)) (j i : Nat) (x : α)
    (h : mapWf d m = true) (e : i ≠ j) : mapGet d (mapSet d m j x) i = mapGet d m i := by
  unfold mapSet mapGet
  split
  · rw [mapFind_erase_other d m j i h e]
  · rw [mapFind_insert_other m j i x e]

/-- Writing the value that stands changes nothing. -/
theorem mapInsert_find {α : Type} (m : List (Nat × α)) (j : Nat) (x : α) (h : mapFind m j = some x) :
    mapInsert m j x = m := by
  induction m with
  | nil => cases h
  | cons p m ih =>
    obtain ⟨k, v⟩ := p
    simp only [mapFind] at h
    simp only [mapInsert]
    split at h
    · rename_i e; subst e; simp_all
    · split at h
      · cases h
      · rename_i h1 h2; simp [h1, h2, ih h]

theorem mapErase_find {α : Type} (m : List (Nat × α)) (j : Nat) (h : mapFind m j = none) : mapErase m j = m := by
  induction m with
  | nil => rfl
  | cons p m ih =>
    obtain ⟨k, v⟩ := p
    simp only [mapFind] at h
    simp only [mapErase]
    split at h
    · cases h
    · split at h
      · rename_i h1 h2; simp [h1, h2]
      · rename_i h1 h2; simp [h1, h2, ih h]

theorem mapFind_ne {α : Type} [DecidableEq α] (d : Nat → α) (m : List (Nat × α)) (lo : Option Nat) (j : Nat) (x : α)
    (w : mapWfAux d lo m = true) (h : mapFind m j = some x) : x ≠ d j := by
  induction m generalizing lo with
  | nil => cases h
  | cons p m ih =>
    obtain ⟨k, v⟩ := p
    simp only [mapFind] at h
    simp only [mapWfAux, Bool.and_eq_true, Bool.not_eq_true', decide_eq_false_iff_not] at w
    split at h
    · rename_i e; subst e; cases h; exact w.1.2
    · split at h
      · cases h
      · exact ih (some k) w.2 h

theorem mapSet_get {α : Type} [DecidableEq α] (d : Nat → α) (m : List (Nat × α)) (j : Nat) (w : mapWf d m = true) :
    mapSet d m j (mapGet d m j) = m := by
  unfold mapSet mapGet
  cases h : mapFind m j with
  | none => simp [mapErase_find m j h]
  | some x =>
    have := mapFind_ne d m none j x w h
    simp [this, mapInsert_find m j x h]

end Sys2Proof.Machine
end

