-- ==== Sys2Proof/Laws/State.lean ====
section
/-!
SUPPORT. The block after each primitive, field by field, and what running each program combinator does.
-/
namespace Sys2Proof.Machine

/-! ### The primitives, field by field -/

@[simp] theorem Prim.word_regs (off : Nat) (v : Word) (b : Blk) :
    (Prim.apply (.word off v) b).regs = mapSet defaultWord b.regs off v := rfl
@[simp] theorem Prim.word_evr (off : Nat) (v : Word) (b : Blk) : (Prim.apply (.word off v) b).evr = b.evr := rfl
@[simp] theorem Prim.word_rings (off : Nat) (v : Word) (b : Blk) : (Prim.apply (.word off v) b).rings = b.rings := rfl
@[simp] theorem Prim.word_runs (off : Nat) (v : Word) (b : Blk) : (Prim.apply (.word off v) b).runs = b.runs := rfl
@[simp] theorem Prim.word_wqs (off : Nat) (v : Word) (b : Blk) : (Prim.apply (.word off v) b).wqs = b.wqs := rfl
@[simp] theorem Prim.word_camBooks (off : Nat) (v : Word) (b : Blk) : (Prim.apply (.word off v) b).camBooks = b.camBooks := rfl
@[simp] theorem Prim.word_toks (off : Nat) (v : Word) (b : Blk) : (Prim.apply (.word off v) b).toks = b.toks := rfl
@[simp] theorem Prim.word_tsqs (off : Nat) (v : Word) (b : Blk) : (Prim.apply (.word off v) b).tsqs = b.tsqs := rfl
@[simp] theorem Prim.word_dram (off : Nat) (v : Word) (b : Blk) : (Prim.apply (.word off v) b).dram = b.dram := rfl
@[simp] theorem Prim.word_win (off : Nat) (v : Word) (b : Blk) : (Prim.apply (.word off v) b).win = b.win := rfl
@[simp] theorem Prim.word_aux (off : Nat) (v : Word) (b : Blk) : (Prim.apply (.word off v) b).aux = b.aux := rfl

@[simp] theorem Prim.regsReset_regs (b : Blk) :
    (Prim.apply .regsReset b).regs = [] := rfl
@[simp] theorem Prim.regsReset_evr (b : Blk) : (Prim.apply .regsReset b).evr = b.evr := rfl
@[simp] theorem Prim.regsReset_rings (b : Blk) : (Prim.apply .regsReset b).rings = b.rings := rfl
@[simp] theorem Prim.regsReset_runs (b : Blk) : (Prim.apply .regsReset b).runs = b.runs := rfl
@[simp] theorem Prim.regsReset_wqs (b : Blk) : (Prim.apply .regsReset b).wqs = b.wqs := rfl
@[simp] theorem Prim.regsReset_camBooks (b : Blk) : (Prim.apply .regsReset b).camBooks = b.camBooks := rfl
@[simp] theorem Prim.regsReset_toks (b : Blk) : (Prim.apply .regsReset b).toks = b.toks := rfl
@[simp] theorem Prim.regsReset_tsqs (b : Blk) : (Prim.apply .regsReset b).tsqs = b.tsqs := rfl
@[simp] theorem Prim.regsReset_dram (b : Blk) : (Prim.apply .regsReset b).dram = b.dram := rfl
@[simp] theorem Prim.regsReset_win (b : Blk) : (Prim.apply .regsReset b).win = b.win := rfl
@[simp] theorem Prim.regsReset_aux (b : Blk) : (Prim.apply .regsReset b).aux = b.aux := rfl

@[simp] theorem Prim.evr_regs (op : EvrOp) (b : Blk) : (Prim.apply (.evr op) b).regs = b.regs := rfl
@[simp] theorem Prim.evr_evr (op : EvrOp) (b : Blk) :
    (Prim.apply (.evr op) b).evr = evrApply b.evr op := rfl
@[simp] theorem Prim.evr_rings (op : EvrOp) (b : Blk) : (Prim.apply (.evr op) b).rings = b.rings := rfl
@[simp] theorem Prim.evr_runs (op : EvrOp) (b : Blk) : (Prim.apply (.evr op) b).runs = b.runs := rfl
@[simp] theorem Prim.evr_wqs (op : EvrOp) (b : Blk) : (Prim.apply (.evr op) b).wqs = b.wqs := rfl
@[simp] theorem Prim.evr_camBooks (op : EvrOp) (b : Blk) : (Prim.apply (.evr op) b).camBooks = b.camBooks := rfl
@[simp] theorem Prim.evr_toks (op : EvrOp) (b : Blk) : (Prim.apply (.evr op) b).toks = b.toks := rfl
@[simp] theorem Prim.evr_tsqs (op : EvrOp) (b : Blk) : (Prim.apply (.evr op) b).tsqs = b.tsqs := rfl
@[simp] theorem Prim.evr_dram (op : EvrOp) (b : Blk) : (Prim.apply (.evr op) b).dram = b.dram := rfl
@[simp] theorem Prim.evr_win (op : EvrOp) (b : Blk) : (Prim.apply (.evr op) b).win = b.win := rfl
@[simp] theorem Prim.evr_aux (op : EvrOp) (b : Blk) : (Prim.apply (.evr op) b).aux = b.aux := rfl

@[simp] theorem Prim.ring_regs (n : Nat) (op : RingOp) (b : Blk) : (Prim.apply (.ring n op) b).regs = b.regs := rfl
@[simp] theorem Prim.ring_evr (n : Nat) (op : RingOp) (b : Blk) : (Prim.apply (.ring n op) b).evr = b.evr := rfl
@[simp] theorem Prim.ring_rings (n : Nat) (op : RingOp) (b : Blk) :
    (Prim.apply (.ring n op) b).rings = b.rings.modify n fun r => ringApply r op := rfl
@[simp] theorem Prim.ring_runs (n : Nat) (op : RingOp) (b : Blk) : (Prim.apply (.ring n op) b).runs = b.runs := rfl
@[simp] theorem Prim.ring_wqs (n : Nat) (op : RingOp) (b : Blk) : (Prim.apply (.ring n op) b).wqs = b.wqs := rfl
@[simp] theorem Prim.ring_camBooks (n : Nat) (op : RingOp) (b : Blk) : (Prim.apply (.ring n op) b).camBooks = b.camBooks := rfl
@[simp] theorem Prim.ring_toks (n : Nat) (op : RingOp) (b : Blk) : (Prim.apply (.ring n op) b).toks = b.toks := rfl
@[simp] theorem Prim.ring_tsqs (n : Nat) (op : RingOp) (b : Blk) : (Prim.apply (.ring n op) b).tsqs = b.tsqs := rfl
@[simp] theorem Prim.ring_dram (n : Nat) (op : RingOp) (b : Blk) : (Prim.apply (.ring n op) b).dram = b.dram := rfl
@[simp] theorem Prim.ring_win (n : Nat) (op : RingOp) (b : Blk) : (Prim.apply (.ring n op) b).win = b.win := rfl
@[simp] theorem Prim.ring_aux (n : Nat) (op : RingOp) (b : Blk) : (Prim.apply (.ring n op) b).aux = b.aux := rfl

@[simp] theorem Prim.run_regs (op : RunOp) (b : Blk) : (Prim.apply (.run op) b).regs = b.regs := rfl
@[simp] theorem Prim.run_evr (op : RunOp) (b : Blk) : (Prim.apply (.run op) b).evr = b.evr := rfl
@[simp] theorem Prim.run_rings (op : RunOp) (b : Blk) : (Prim.apply (.run op) b).rings = b.rings := rfl
@[simp] theorem Prim.run_runs (op : RunOp) (b : Blk) :
    (Prim.apply (.run op) b).runs = runApply b.runs op := rfl
@[simp] theorem Prim.run_wqs (op : RunOp) (b : Blk) : (Prim.apply (.run op) b).wqs = b.wqs := rfl
@[simp] theorem Prim.run_camBooks (op : RunOp) (b : Blk) : (Prim.apply (.run op) b).camBooks = b.camBooks := rfl
@[simp] theorem Prim.run_toks (op : RunOp) (b : Blk) : (Prim.apply (.run op) b).toks = b.toks := rfl
@[simp] theorem Prim.run_tsqs (op : RunOp) (b : Blk) : (Prim.apply (.run op) b).tsqs = b.tsqs := rfl
@[simp] theorem Prim.run_dram (op : RunOp) (b : Blk) : (Prim.apply (.run op) b).dram = b.dram := rfl
@[simp] theorem Prim.run_win (op : RunOp) (b : Blk) : (Prim.apply (.run op) b).win = b.win := rfl
@[simp] theorem Prim.run_aux (op : RunOp) (b : Blk) : (Prim.apply (.run op) b).aux = b.aux := rfl

@[simp] theorem Prim.wq_regs (c : Nat) (op : WqOp) (b : Blk) : (Prim.apply (.wq c op) b).regs = b.regs := rfl
@[simp] theorem Prim.wq_evr (c : Nat) (op : WqOp) (b : Blk) : (Prim.apply (.wq c op) b).evr = b.evr := rfl
@[simp] theorem Prim.wq_rings (c : Nat) (op : WqOp) (b : Blk) : (Prim.apply (.wq c op) b).rings = b.rings := rfl
@[simp] theorem Prim.wq_runs (c : Nat) (op : WqOp) (b : Blk) : (Prim.apply (.wq c op) b).runs = b.runs := rfl
@[simp] theorem Prim.wq_wqs (c : Nat) (op : WqOp) (b : Blk) :
    (Prim.apply (.wq c op) b).wqs = b.wqs.modify c fun q => wqApply q op := rfl
@[simp] theorem Prim.wq_camBooks (c : Nat) (op : WqOp) (b : Blk) : (Prim.apply (.wq c op) b).camBooks = b.camBooks := rfl
@[simp] theorem Prim.wq_toks (c : Nat) (op : WqOp) (b : Blk) : (Prim.apply (.wq c op) b).toks = b.toks := rfl
@[simp] theorem Prim.wq_tsqs (c : Nat) (op : WqOp) (b : Blk) : (Prim.apply (.wq c op) b).tsqs = b.tsqs := rfl
@[simp] theorem Prim.wq_dram (c : Nat) (op : WqOp) (b : Blk) : (Prim.apply (.wq c op) b).dram = b.dram := rfl
@[simp] theorem Prim.wq_win (c : Nat) (op : WqOp) (b : Blk) : (Prim.apply (.wq c op) b).win = b.win := rfl
@[simp] theorem Prim.wq_aux (c : Nat) (op : WqOp) (b : Blk) : (Prim.apply (.wq c op) b).aux = b.aux := rfl

@[simp] theorem Prim.cam_regs (c : Nat) (op : CamOp) (b : Blk) : (Prim.apply (.cam c op) b).regs = b.regs := rfl
@[simp] theorem Prim.cam_evr (c : Nat) (op : CamOp) (b : Blk) : (Prim.apply (.cam c op) b).evr = b.evr := rfl
@[simp] theorem Prim.cam_rings (c : Nat) (op : CamOp) (b : Blk) : (Prim.apply (.cam c op) b).rings = b.rings := rfl
@[simp] theorem Prim.cam_runs (c : Nat) (op : CamOp) (b : Blk) : (Prim.apply (.cam c op) b).runs = b.runs := rfl
@[simp] theorem Prim.cam_wqs (c : Nat) (op : CamOp) (b : Blk) : (Prim.apply (.cam c op) b).wqs = b.wqs := rfl
@[simp] theorem Prim.cam_camBooks (c : Nat) (op : CamOp) (b : Blk) :
    (Prim.apply (.cam c op) b).camBooks = b.camBooks.modify c fun q => camApply q op := rfl
@[simp] theorem Prim.cam_toks (c : Nat) (op : CamOp) (b : Blk) : (Prim.apply (.cam c op) b).toks = b.toks := rfl
@[simp] theorem Prim.cam_tsqs (c : Nat) (op : CamOp) (b : Blk) : (Prim.apply (.cam c op) b).tsqs = b.tsqs := rfl
@[simp] theorem Prim.cam_dram (c : Nat) (op : CamOp) (b : Blk) : (Prim.apply (.cam c op) b).dram = b.dram := rfl
@[simp] theorem Prim.cam_win (c : Nat) (op : CamOp) (b : Blk) : (Prim.apply (.cam c op) b).win = b.win := rfl
@[simp] theorem Prim.cam_aux (c : Nat) (op : CamOp) (b : Blk) : (Prim.apply (.cam c op) b).aux = b.aux := rfl

@[simp] theorem Prim.tok_regs (n : Nat) (op : TokOp) (b : Blk) : (Prim.apply (.tok n op) b).regs = b.regs := rfl
@[simp] theorem Prim.tok_evr (n : Nat) (op : TokOp) (b : Blk) : (Prim.apply (.tok n op) b).evr = b.evr := rfl
@[simp] theorem Prim.tok_rings (n : Nat) (op : TokOp) (b : Blk) : (Prim.apply (.tok n op) b).rings = b.rings := rfl
@[simp] theorem Prim.tok_runs (n : Nat) (op : TokOp) (b : Blk) : (Prim.apply (.tok n op) b).runs = b.runs := rfl
@[simp] theorem Prim.tok_wqs (n : Nat) (op : TokOp) (b : Blk) : (Prim.apply (.tok n op) b).wqs = b.wqs := rfl
@[simp] theorem Prim.tok_camBooks (n : Nat) (op : TokOp) (b : Blk) : (Prim.apply (.tok n op) b).camBooks = b.camBooks := rfl
@[simp] theorem Prim.tok_toks (n : Nat) (op : TokOp) (b : Blk) :
    (Prim.apply (.tok n op) b).toks = b.toks.modify n fun q => tokApply q op := rfl
@[simp] theorem Prim.tok_tsqs (n : Nat) (op : TokOp) (b : Blk) : (Prim.apply (.tok n op) b).tsqs = b.tsqs := rfl
@[simp] theorem Prim.tok_dram (n : Nat) (op : TokOp) (b : Blk) : (Prim.apply (.tok n op) b).dram = b.dram := rfl
@[simp] theorem Prim.tok_win (n : Nat) (op : TokOp) (b : Blk) : (Prim.apply (.tok n op) b).win = b.win := rfl
@[simp] theorem Prim.tok_aux (n : Nat) (op : TokOp) (b : Blk) : (Prim.apply (.tok n op) b).aux = b.aux := rfl

@[simp] theorem Prim.tsq_regs (n : Nat) (op : TsqOp) (b : Blk) : (Prim.apply (.tsq n op) b).regs = b.regs := rfl
@[simp] theorem Prim.tsq_evr (n : Nat) (op : TsqOp) (b : Blk) : (Prim.apply (.tsq n op) b).evr = b.evr := rfl
@[simp] theorem Prim.tsq_rings (n : Nat) (op : TsqOp) (b : Blk) : (Prim.apply (.tsq n op) b).rings = b.rings := rfl
@[simp] theorem Prim.tsq_runs (n : Nat) (op : TsqOp) (b : Blk) : (Prim.apply (.tsq n op) b).runs = b.runs := rfl
@[simp] theorem Prim.tsq_wqs (n : Nat) (op : TsqOp) (b : Blk) : (Prim.apply (.tsq n op) b).wqs = b.wqs := rfl
@[simp] theorem Prim.tsq_camBooks (n : Nat) (op : TsqOp) (b : Blk) : (Prim.apply (.tsq n op) b).camBooks = b.camBooks := rfl
@[simp] theorem Prim.tsq_toks (n : Nat) (op : TsqOp) (b : Blk) : (Prim.apply (.tsq n op) b).toks = b.toks := rfl
@[simp] theorem Prim.tsq_tsqs (n : Nat) (op : TsqOp) (b : Blk) :
    (Prim.apply (.tsq n op) b).tsqs = b.tsqs.modify n fun q => tsqApply q op := rfl
@[simp] theorem Prim.tsq_dram (n : Nat) (op : TsqOp) (b : Blk) : (Prim.apply (.tsq n op) b).dram = b.dram := rfl
@[simp] theorem Prim.tsq_win (n : Nat) (op : TsqOp) (b : Blk) : (Prim.apply (.tsq n op) b).win = b.win := rfl
@[simp] theorem Prim.tsq_aux (n : Nat) (op : TsqOp) (b : Blk) : (Prim.apply (.tsq n op) b).aux = b.aux := rfl

@[simp] theorem Prim.dram_regs (a : Nat) (v : Byte) (b : Blk) : (Prim.apply (.dram a v) b).regs = b.regs := rfl
@[simp] theorem Prim.dram_evr (a : Nat) (v : Byte) (b : Blk) : (Prim.apply (.dram a v) b).evr = b.evr := rfl
@[simp] theorem Prim.dram_rings (a : Nat) (v : Byte) (b : Blk) : (Prim.apply (.dram a v) b).rings = b.rings := rfl
@[simp] theorem Prim.dram_runs (a : Nat) (v : Byte) (b : Blk) : (Prim.apply (.dram a v) b).runs = b.runs := rfl
@[simp] theorem Prim.dram_wqs (a : Nat) (v : Byte) (b : Blk) : (Prim.apply (.dram a v) b).wqs = b.wqs := rfl
@[simp] theorem Prim.dram_camBooks (a : Nat) (v : Byte) (b : Blk) : (Prim.apply (.dram a v) b).camBooks = b.camBooks := rfl
@[simp] theorem Prim.dram_toks (a : Nat) (v : Byte) (b : Blk) : (Prim.apply (.dram a v) b).toks = b.toks := rfl
@[simp] theorem Prim.dram_tsqs (a : Nat) (v : Byte) (b : Blk) : (Prim.apply (.dram a v) b).tsqs = b.tsqs := rfl
@[simp] theorem Prim.dram_dram (a : Nat) (v : Byte) (b : Blk) :
    (Prim.apply (.dram a v) b).dram = mapSet (fun _ => 0) b.dram a v := rfl
@[simp] theorem Prim.dram_win (a : Nat) (v : Byte) (b : Blk) : (Prim.apply (.dram a v) b).win = b.win := rfl
@[simp] theorem Prim.dram_aux (a : Nat) (v : Byte) (b : Blk) : (Prim.apply (.dram a v) b).aux = b.aux := rfl

@[simp] theorem Prim.dramLost_regs (b : Blk) : (Prim.apply .dramLost b).regs = b.regs := rfl
@[simp] theorem Prim.dramLost_evr (b : Blk) : (Prim.apply .dramLost b).evr = b.evr := rfl
@[simp] theorem Prim.dramLost_rings (b : Blk) : (Prim.apply .dramLost b).rings = b.rings := rfl
@[simp] theorem Prim.dramLost_runs (b : Blk) : (Prim.apply .dramLost b).runs = b.runs := rfl
@[simp] theorem Prim.dramLost_wqs (b : Blk) : (Prim.apply .dramLost b).wqs = b.wqs := rfl
@[simp] theorem Prim.dramLost_camBooks (b : Blk) : (Prim.apply .dramLost b).camBooks = b.camBooks := rfl
@[simp] theorem Prim.dramLost_toks (b : Blk) : (Prim.apply .dramLost b).toks = b.toks := rfl
@[simp] theorem Prim.dramLost_tsqs (b : Blk) : (Prim.apply .dramLost b).tsqs = b.tsqs := rfl
@[simp] theorem Prim.dramLost_dram (b : Blk) :
    (Prim.apply .dramLost b).dram = [] := rfl
@[simp] theorem Prim.dramLost_win (b : Blk) : (Prim.apply .dramLost b).win = b.win := rfl
@[simp] theorem Prim.dramLost_aux (b : Blk) : (Prim.apply .dramLost b).aux = b.aux := rfl

@[simp] theorem Prim.win_regs (a : Nat) (v : Byte) (b : Blk) : (Prim.apply (.win a v) b).regs = b.regs := rfl
@[simp] theorem Prim.win_evr (a : Nat) (v : Byte) (b : Blk) : (Prim.apply (.win a v) b).evr = b.evr := rfl
@[simp] theorem Prim.win_rings (a : Nat) (v : Byte) (b : Blk) : (Prim.apply (.win a v) b).rings = b.rings := rfl
@[simp] theorem Prim.win_runs (a : Nat) (v : Byte) (b : Blk) : (Prim.apply (.win a v) b).runs = b.runs := rfl
@[simp] theorem Prim.win_wqs (a : Nat) (v : Byte) (b : Blk) : (Prim.apply (.win a v) b).wqs = b.wqs := rfl
@[simp] theorem Prim.win_camBooks (a : Nat) (v : Byte) (b : Blk) : (Prim.apply (.win a v) b).camBooks = b.camBooks := rfl
@[simp] theorem Prim.win_toks (a : Nat) (v : Byte) (b : Blk) : (Prim.apply (.win a v) b).toks = b.toks := rfl
@[simp] theorem Prim.win_tsqs (a : Nat) (v : Byte) (b : Blk) : (Prim.apply (.win a v) b).tsqs = b.tsqs := rfl
@[simp] theorem Prim.win_dram (a : Nat) (v : Byte) (b : Blk) : (Prim.apply (.win a v) b).dram = b.dram := rfl
@[simp] theorem Prim.win_win (a : Nat) (v : Byte) (b : Blk) :
    (Prim.apply (.win a v) b).win = mapSet (fun _ => 0) b.win a v := rfl
@[simp] theorem Prim.win_aux (a : Nat) (v : Byte) (b : Blk) : (Prim.apply (.win a v) b).aux = b.aux := rfl

@[simp] theorem Prim.winLost_regs (b : Blk) : (Prim.apply .winLost b).regs = b.regs := rfl
@[simp] theorem Prim.winLost_evr (b : Blk) : (Prim.apply .winLost b).evr = b.evr := rfl
@[simp] theorem Prim.winLost_rings (b : Blk) : (Prim.apply .winLost b).rings = b.rings := rfl
@[simp] theorem Prim.winLost_runs (b : Blk) : (Prim.apply .winLost b).runs = b.runs := rfl
@[simp] theorem Prim.winLost_wqs (b : Blk) : (Prim.apply .winLost b).wqs = b.wqs := rfl
@[simp] theorem Prim.winLost_camBooks (b : Blk) : (Prim.apply .winLost b).camBooks = b.camBooks := rfl
@[simp] theorem Prim.winLost_toks (b : Blk) : (Prim.apply .winLost b).toks = b.toks := rfl
@[simp] theorem Prim.winLost_tsqs (b : Blk) : (Prim.apply .winLost b).tsqs = b.tsqs := rfl
@[simp] theorem Prim.winLost_dram (b : Blk) : (Prim.apply .winLost b).dram = b.dram := rfl
@[simp] theorem Prim.winLost_win (b : Blk) :
    (Prim.apply .winLost b).win = [] := rfl
@[simp] theorem Prim.winLost_aux (b : Blk) : (Prim.apply .winLost b).aux = b.aux := rfl

@[simp] theorem Prim.aux_regs (f : Aux → Aux) (b : Blk) : (Prim.apply (.aux f) b).regs = b.regs := rfl
@[simp] theorem Prim.aux_evr (f : Aux → Aux) (b : Blk) : (Prim.apply (.aux f) b).evr = b.evr := rfl
@[simp] theorem Prim.aux_rings (f : Aux → Aux) (b : Blk) : (Prim.apply (.aux f) b).rings = b.rings := rfl
@[simp] theorem Prim.aux_runs (f : Aux → Aux) (b : Blk) : (Prim.apply (.aux f) b).runs = b.runs := rfl
@[simp] theorem Prim.aux_wqs (f : Aux → Aux) (b : Blk) : (Prim.apply (.aux f) b).wqs = b.wqs := rfl
@[simp] theorem Prim.aux_camBooks (f : Aux → Aux) (b : Blk) : (Prim.apply (.aux f) b).camBooks = b.camBooks := rfl
@[simp] theorem Prim.aux_toks (f : Aux → Aux) (b : Blk) : (Prim.apply (.aux f) b).toks = b.toks := rfl
@[simp] theorem Prim.aux_tsqs (f : Aux → Aux) (b : Blk) : (Prim.apply (.aux f) b).tsqs = b.tsqs := rfl
@[simp] theorem Prim.aux_dram (f : Aux → Aux) (b : Blk) : (Prim.apply (.aux f) b).dram = b.dram := rfl
@[simp] theorem Prim.aux_win (f : Aux → Aux) (b : Blk) : (Prim.apply (.aux f) b).win = b.win := rfl
@[simp] theorem Prim.aux_aux (f : Aux → Aux) (b : Blk) :
    (Prim.apply (.aux f) b).aux = f b.aux := rfl

/-! ### The combinators -/

@[simp] theorem Prog.run_skip (b : Blk) : Prog.skip.run b = b := rfl
@[simp] theorem Prog.run_op (p : Prim) (b : Blk) : (Prog.op p).run b = p.apply b := rfl
@[simp] theorem Prog.run_get (k : Blk → Prog) (b : Blk) : (Prog.get k).run b = (k b).run b := rfl
@[simp] theorem Prog.run_seq (p q : Prog) (b : Blk) : (Prog.seq p q).run b = q.run (p.run b) := rfl
@[simp] theorem progAll_nil_run (b : Blk) : (progAll []).run b = b := rfl
@[simp] theorem progAll_cons_run (p : Prog) (ps : List Prog) (b : Blk) :
    (progAll (p :: ps)).run b = (progAll ps).run (p.run b) := rfl
@[simp] theorem progEach_nil_run {α : Type} (f : α → Prog) (b : Blk) : (progEach [] f).run b = b := rfl
@[simp] theorem progEach_cons_run {α : Type} (x : α) (l : List α) (f : α → Prog) (b : Blk) :
    (progEach (x :: l) f).run b = (progEach l f).run ((f x).run b) := rfl
@[simp] theorem progIf_true_run (p : Prog) (b : Blk) : (progIf true p).run b = p.run b := rfl
@[simp] theorem progIf_false_run (p : Prog) (b : Blk) : (progIf false p).run b = b := rfl
theorem progIf_run (c : Bool) (p : Prog) (b : Blk) : (progIf c p).run b = if c then p.run b else b := by
  cases c <;> rfl
theorem progWhen_run (c : Blk → Bool) (p : Prog) (b : Blk) :
    (progWhen c p).run b = if c b then p.run b else b := by
  simp only [progWhen, Prog.run_get]; split <;> rfl
@[simp] theorem setW_run (off : Nat) (v : Word) (b : Blk) : (setW off v).run b = (Prim.word off v).apply b := rfl
@[simp] theorem setF_run (off : Nat) (f : Fld) (x : Nat) (b : Blk) :
    (setF off f x).run b = (Prim.word off (f.put x (b.w off))).apply b := rfl
@[simp] theorem modF_run (off : Nat) (f : Fld) (g : Nat → Nat) (b : Blk) :
    (modF off f g).run b = (Prim.word off (f.put (g (b.f off f)) (b.w off))).apply b := rfl
@[simp] theorem modAux_run (f : Aux → Aux) (b : Blk) : (modAux f).run b = { b with aux := f b.aux } := rfl
@[simp] theorem emit_run (o : Output) (b : Blk) :
    (emit o).run b = { b with aux := { b.aux with out := b.aux.out ++ [o] } } := rfl
@[simp] theorem withFree_run (k : Nat → Prog) (b : Blk) :
    (withFree k).run b = (k b.aux.free).run { b with aux := { b.aux with free := b.aux.free + 1 } } := rfl
@[simp] theorem withFrees_run (n : Nat) (k : Nat → Prog) (b : Blk) :
    (withFrees n k).run b = (k b.aux.free).run { b with aux := { b.aux with free := b.aux.free + n } } := rfl

end Sys2Proof.Machine
end

