-- ==== Sys2Proof/Laws/Prog.lean ====
section
/-!
SUPPORT. Two ways to say once what a program can do: a property of the block that it holds on to, and a part of the block
that it keeps as it is. Both follow the program's structure.
-/
namespace Sys2Proof.Machine

/-! ### Properties held -/

/-- A program keeps a property that every primitive keeps. -/
theorem Prog.run_inv (I : Blk → Prop) (h : ∀ (p : Prim) (b : Blk), I b → I (p.apply b)) (p : Prog) :
    ∀ b, I b → I (p.run b) := by
  induction p with
  | skip => exact fun _ hb => hb
  | op p => exact fun b hb => h p b hb
  | get k ih => exact fun b hb => ih b b hb
  | seq p q ihp ihq => exact fun b hb => ihq _ (ihp b hb)

/-- A program holds on to a property. -/
def Prog.Holds (I : Blk → Prop) (p : Prog) : Prop := ∀ b, I b → I (p.run b)

theorem holds_skip (I : Blk → Prop) : Prog.skip.Holds I := fun _ h => h
theorem holds_get {I : Blk → Prop} {k : Blk → Prog} (h : ∀ b, I b → (k b).Holds I) : (Prog.get k).Holds I :=
  fun b hb => h b hb b hb
theorem holds_seq {I : Blk → Prop} {p q : Prog} (hp : p.Holds I) (hq : q.Holds I) : (Prog.seq p q).Holds I :=
  fun b hb => hq _ (hp b hb)
theorem holds_all {I : Blk → Prop} {l : List Prog} (h : ∀ p ∈ l, p.Holds I) : (progAll l).Holds I := by
  induction l with
  | nil => exact holds_skip I
  | cons p l ih =>
    exact holds_seq (h p (List.mem_cons_self ..)) (ih fun q hq => h q (List.mem_cons_of_mem _ hq))
theorem holds_each {I : Blk → Prop} {α : Type} {l : List α} {f : α → Prog} (h : ∀ x ∈ l, (f x).Holds I) :
    (progEach l f).Holds I :=
  holds_all fun p hp => by obtain ⟨x, hx, rfl⟩ := List.mem_map.mp hp; exact h x hx
theorem holds_if {I : Blk → Prop} {c : Bool} {p : Prog} (h : c = true → p.Holds I) : (progIf c p).Holds I := by
  cases c
  · exact holds_skip I
  · exact h rfl
theorem holds_when {I : Blk → Prop} {c : Blk → Bool} {p : Prog} (h : p.Holds I) : (progWhen c p).Holds I :=
  holds_get fun b _ => by
    split
    · exact h
    · exact holds_skip I

/-! ### Parts kept -/

/-- A program keeps a part of the block as it is. -/
def Prog.Keeps {α : Type} (X : Blk → α) (p : Prog) : Prop := ∀ b, X (p.run b) = X b

section
variable {α : Type} {X : Blk → α}

theorem keeps_skip : Prog.skip.Keeps X := fun _ => rfl
theorem keeps_get {k : Blk → Prog} (h : ∀ b, (k b).Keeps X) : (Prog.get k).Keeps X := fun b => h b b
theorem keeps_seq {p q : Prog} (hp : p.Keeps X) (hq : q.Keeps X) : (Prog.seq p q).Keeps X :=
  fun b => (hq _).trans (hp b)
theorem keeps_all {l : List Prog} (h : ∀ p ∈ l, p.Keeps X) : (progAll l).Keeps X := by
  induction l with
  | nil => exact keeps_skip
  | cons p l ih =>
    exact keeps_seq (h p (List.mem_cons_self ..)) (ih fun q hq => h q (List.mem_cons_of_mem _ hq))
theorem keeps_nil : (progAll []).Keeps X := keeps_skip
theorem keeps_cons {p : Prog} {l : List Prog} (hp : p.Keeps X) (hl : (progAll l).Keeps X) :
    (progAll (p :: l)).Keeps X := keeps_seq hp hl
theorem keeps_each {β : Type} {l : List β} {f : β → Prog} (h : ∀ x, (f x).Keeps X) : (progEach l f).Keeps X :=
  keeps_all fun p hp => by obtain ⟨x, _, rfl⟩ := List.mem_map.mp hp; exact h x
theorem keeps_if {c : Bool} {p : Prog} (h : p.Keeps X) : (progIf c p).Keeps X := by
  cases c
  · exact keeps_skip
  · exact h
theorem keeps_when {c : Blk → Bool} {p : Prog} (h : p.Keeps X) : (progWhen c p).Keeps X :=
  keeps_get fun b => by
    split
    · exact h
    · exact keeps_skip
theorem keeps_ite {c : Prop} [Decidable c] {p q : Prog} (hp : p.Keeps X) (hq : q.Keeps X) :
    (if c then p else q).Keeps X := by
  split
  · exact hp
  · exact hq
/-- A change of the engines' state keeps a part that does not look there. -/
theorem keeps_aux {f : Aux → Aux} (h : ∀ b : Blk, X { b with aux := f b.aux } = X b) : (modAux f).Keeps X := h
theorem keeps_emit {o : Output} (h : ∀ b : Blk, X { b with aux := { b.aux with out := b.aux.out ++ [o] } } = X b) :
    (emit o).Keeps X := h
theorem keeps_op {p : Prim} (h : ∀ b : Blk, X (p.apply b) = X b) : (Prog.op p).Keeps X := h
theorem keeps_setW {off : Nat} {v : Word} (h : ∀ b : Blk, X ((Prim.word off v).apply b) = X b) :
    (setW off v).Keeps X := h
theorem keeps_setF {off : Nat} {f : Fld} {x : Nat} (h : ∀ (v : Word) (b : Blk), X ((Prim.word off v).apply b) = X b) :
    (setF off f x).Keeps X := fun b => h _ b
theorem keeps_modF {off : Nat} {f : Fld} {g : Nat → Nat}
    (h : ∀ (v : Word) (b : Blk), X ((Prim.word off v).apply b) = X b) : (modF off f g).Keeps X := fun b => h _ b

end

end Sys2Proof.Machine
end

