-- ==== Sys2Proof/Laws/Books.lean ====
section
/-!
SUPPORT. Every operation keeps its books in balance and every memory operation the canonical form; so does every
primitive, and with it every program.
-/
namespace Sys2Proof.Laws

open Sys2Proof.Machine Sys2Proof.Safety

/-! ### Memories -/

theorem memoryWf_set (m : List (Nat × Byte)) (a : Nat) (v : Byte) (h : memoryWf m = true) :
    memoryWf (mapSet (fun _ => 0) m a v) = true := mapWf_set _ m a v h

theorem regsWf_set (m : List (Nat × Word)) (o : Nat) (v : Word) (h : regsWf m = true) :
    regsWf (mapSet defaultWord m o v) = true := mapWf_set _ m o v h

/-- The canonical form of the memories is kept by every primitive. -/
theorem memories_apply (p : Prim) (b : Blk) (h : MemoriesWf b) : MemoriesWf (p.apply b) := by
  obtain ⟨h1, h2, h3⟩ := h
  cases p <;> first | exact ⟨h1, h2, h3⟩ | skip
  case word off v => exact ⟨regsWf_set _ _ _ h1, h2, h3⟩
  case regsReset => exact ⟨rfl, h2, h3⟩
  case dram a v => exact ⟨h1, memoryWf_set _ _ _ h2, h3⟩
  case dramLost => exact ⟨h1, rfl, h3⟩
  case win a v => exact ⟨h1, h2, memoryWf_set _ _ _ h3⟩
  case winLost => exact ⟨h1, h2, rfl⟩

/-! ### The recorder (R428, R430) -/

theorem enter_balance (v : Evr) (e : Event) (h : EventsBalance v) : EventsBalance (v.enter e) := by
  obtain ⟨h1, h2⟩ := h
  unfold Evr.enter
  split
  · exact ⟨by simp; omega, by simp; omega⟩
  · exact ⟨by simp; omega, by simpa using h2⟩

theorem evrApply_balance (v : Evr) (op : EvrOp) (h : EventsBalance v) : EventsBalance (evrApply v op) := by
  cases op with
  | raise e cap per ms =>
    simp only [evrApply, Evr.raise]
    split
    · obtain ⟨h1, h2⟩ := h
      exact ⟨by simp; omega, by simpa using h2⟩
    · exact enter_balance v e h
  | compose mk ms =>
    obtain ⟨h1, h2⟩ := h
    simp only [evrApply, Evr.compose]
    split
    · exact ⟨h1, h2⟩
    · split
      · exact ⟨by simp [Evr.stage]; omega, by simpa [Evr.stage] using h2⟩
      · split
        · exact ⟨h1, h2⟩
        · next e es he =>
          rw [he] at h1 h2
          simp only [List.length_cons] at h1 h2
          exact ⟨by simp [Evr.stage]; omega, by simp; omega⟩
  | composeClear mk o c ms =>
    obtain ⟨h1, h2⟩ := h
    exact ⟨by simp [evrApply, Evr.composeClear, Evr.stage]; omega, by simpa [evrApply, Evr.composeClear, Evr.stage] using h2⟩
  | program n ms => exact h
  | loseStaged n t =>
    obtain ⟨h1, h2⟩ := h
    refine ⟨?_, h2⟩
    simp only [evrApply, Evr.loseStaged]
    omega
  | clearBelow s => exact h
  | eraseOldest n => exact h
  | loadNext n => exact h
  | restart => exact ⟨rfl, by simp [evrApply, Evr.restart, Evr.init]⟩

/-! ### Rings (R95, R96) -/

theorem markAbortIn_length (l : List Fetched) : (markAbortIn l).length = l.length := by
  induction l with
  | nil => rfl
  | cons d l ih =>
    simp only [markAbortIn]
    split
    · rfl
    · simp [ih]

theorem markAbortIn_cq (l : List Fetched) (n : Nat) (h : ∀ d ∈ l, d.cq < n) : ∀ d ∈ markAbortIn l, d.cq < n := by
  induction l with
  | nil => exact h
  | cons x l ih =>
    simp only [markAbortIn]
    split
    · intro d hd
      rcases List.mem_cons.mp hd with rfl | hd
      · exact h x List.mem_cons_self
      · exact h d (List.mem_cons_of_mem _ hd)
    · intro d hd
      rcases List.mem_cons.mp hd with rfl | hd
      · exact h _ List.mem_cons_self
      · exact ih (fun e he => h e (List.mem_cons_of_mem _ he)) d hd

theorem ringApply_balance (r : Ring) (op : RingOp) (h : RingBalances r) : RingBalances (ringApply r op) := by
  obtain ⟨h1, h2, h3⟩ := h
  cases op with
  | fetch ws cq =>
    simp only [ringApply]
    split
    · refine ⟨h1, by simp; omega, fun d hd => ?_⟩
      rcases List.mem_append.mp hd with hd | hd
      · exact h3 d hd
      · rw [List.mem_singleton.mp hd]; exact Nat.mod_lt _ (by decide)
    · exact ⟨h1, h2, h3⟩
  | start =>
    simp only [ringApply]
    split
    · exact ⟨h1, h2, h3⟩
    · next x ds hd =>
      refine ⟨h1, by simpa [hd] using h2, fun d hm => ?_⟩
      rw [hd] at h3
      rcases List.mem_cons.mp hm with rfl | hm
      · exact h3 x List.mem_cons_self
      · exact h3 d (List.mem_cons_of_mem _ hm)
  | markAbort => exact ⟨h1, by simpa [ringApply, markAbortIn_length] using h2, markAbortIn_cq _ _ h3⟩
  | finish => exact ⟨h1, by simp [ringApply]; omega, fun d hd => h3 d (List.mem_of_mem_tail hd)⟩
  | entry ns => exact ⟨by simp [ringApply]; omega, h2, h3⟩
  | drop pend => exact ⟨by simp [ringApply]; omega, h2, h3⟩
  | enable idx => exact ⟨h1, h2, h3⟩
  | completion ns => exact ⟨h1, h2, h3⟩
  | signalled => exact ⟨h1, h2, h3⟩
  | clear => exact ⟨rfl, by simp [ringApply, Ring.init], by intro d hd; cases hd⟩

/-! ### Runs (R181) -/

/-- A place is exactly one of the four terms. -/
theorem place_one (p : Place) :
    (if p.isQueued then 1 else 0) + (if p.isTransit then 1 else 0) + (if p.isExec then 1 else 0) +
      (if p.isDone then 1 else 0) = 1 := by
  cases p <;> rfl

/-- The four terms of a list of runs add up to its length. -/
theorem terms_length (l : List Run) :
    l.countP (fun x => x.place.isQueued) + l.countP (fun x => x.place.isTransit) +
      l.countP (fun x => x.place.isExec) + l.countP (fun x => x.place.isDone) = l.length := by
  induction l with
  | nil => rfl
  | cons x l ih =>
    have h := place_one x.place
    simp only [List.countP_cons, List.length_cons]
    omega

theorem runsBalance_iff (r : RunBook) : RunsBalance r ↔ r.runs.length + r.gone = r.submitted := by
  have h := terms_length r.runs
  simp only [RunsBalance, RunBook.queued, RunBook.transit, RunBook.executing, RunBook.done]
  omega

theorem length_filter_not_add_countP {α : Type} (p : α → Bool) (l : List α) :
    (l.filter fun x => !p x).length + l.countP p = l.length := by
  induction l with
  | nil => rfl
  | cons x l ih =>
    cases h : p x <;> simp [h] <;> omega

theorem runApply_balance (r : RunBook) (op : RunOp) (h : RunsBalance r) : RunsBalance (runApply r op) := by
  rw [runsBalance_iff] at h ⊢
  cases op with
  | submit x => simp [runApply]; omega
  | place k p => simpa [runApply, RunBook.update] using h
  | touch k f => simpa [runApply, RunBook.update] using h
  | purge c =>
    have e := length_filter_not_add_countP (fun (x : Run) => x.key.coat == c && x.place.isDone) r.runs
    simp only [runApply]
    omega
  | clear => rfl

/-! ### Write queues (R379, R386) -/

theorem mergeIn_length (l : List (Nat × Nat)) (a m : Nat) : (mergeIn l a m).length = l.length := by
  induction l with
  | nil => rfl
  | cons p l ih =>
    simp only [mergeIn]
    split
    · rfl
    · simp [ih]

theorem issueOne_balance (q : Wq) (h : WritesBalance q) : WritesBalance q.issueOne := by
  obtain ⟨h1, h2⟩ := h
  unfold Wq.issueOne
  split
  · exact ⟨h1, h2⟩
  · next e es he =>
    rw [he] at h1 h2
    simp only [List.length_cons] at h1 h2
    exact ⟨by simp; omega, by simp; omega⟩

theorem issueOne_room (q : Wq) (h1 : q.queue.length ≤ 64) (h2 : 64 ≤ q.queue.length) :
    q.issueOne.queue.length < 64 := by
  unfold Wq.issueOne
  split
  · next he => rw [he] at h2; simp at h2
  · next e es he => rw [he] at h1; simp at h1 ⊢; omega

theorem wqApply_balance (q : Wq) (op : WqOp) (h : WritesBalance q) : WritesBalance (wqApply q op) := by
  cases op with
  | accept line mask =>
    simp only [wqApply]
    split
    · obtain ⟨h1, h2⟩ := h
      exact ⟨by simp [mergeIn_length]; omega, by simpa [mergeIn_length] using h2⟩
    · split
      · next hf =>
        obtain ⟨h1, h2⟩ := issueOne_balance q h
        have h3 := issueOne_room q h.2 hf
        exact ⟨by simp; omega, by simp; omega⟩
      · obtain ⟨h1, h2⟩ := h
        exact ⟨by simp; omega, by simp; omega⟩
  | issue => exact issueOne_balance q h
  | issueLine line =>
    obtain ⟨h1, h2⟩ := h
    have e := List.length_filter_le (fun e : Nat × Nat => e.1 != line) q.queue
    exact ⟨by simp only [wqApply, Wq.issueOf]; omega, by simp only [wqApply, Wq.issueOf]; omega⟩
  | retire => obtain ⟨h1, h2⟩ := h; exact ⟨by simp [wqApply]; omega, h2⟩
  | forward => exact h
  | clear => exact ⟨rfl, by simp [wqApply, Wq.init]⟩

/-! ### Cameras (R289) -/

theorem onFirst_length (f : CamFrame → CamFrame) (l : List CamFrame) : (onFirst f l).length = l.length := by
  cases l <;> rfl

theorem camApply_balance (c : CamBook) (op : CamOp) (h : FramesBalance c) : FramesBalance (camApply c op) := by
  unfold FramesBalance at h ⊢
  cases op with
  | trigger f => simp [camApply]; omega
  | touch f => simpa [camApply, onFirst_length] using h
  | touchAll f => simpa [camApply] using h
  | finish => simp [camApply]; omega
  | clear => rfl

/-! ### Token buckets (R313) -/

theorem refill_balance (t : Tok) (amt cap : Nat) (h : BucketBalances t) : BucketBalances (t.refill amt cap) := by
  simp only [BucketBalances, Tok.refill] at h ⊢; omega

theorem commit_balance (t : Tok) (amt : Nat) (h : BucketBalances t) : BucketBalances (t.commit amt) := by
  simp only [BucketBalances, Tok.commit] at h ⊢; omega

theorem settle_balance (t : Tok) (amt back : Nat) (h : BucketBalances t) : BucketBalances (t.settle amt back) := by
  simp only [BucketBalances, Tok.settle] at h ⊢; omega

theorem tokZip_balance (f : Tok → Nat → Tok) (hf : ∀ t x, BucketBalances t → BucketBalances (f t x)) (l : List Tok)
    (xs : List Nat) (h : ∀ t ∈ l, BucketBalances t) : ∀ t ∈ tokZip f l xs, BucketBalances t := by
  induction l generalizing xs with
  | nil => simp [tokZip]
  | cons t l ih =>
    have h1 := h t (List.mem_cons_self ..)
    have h2 : ∀ t ∈ l, BucketBalances t := fun u hu => h u (List.mem_cons_of_mem _ hu)
    cases xs with
    | nil =>
      intro u hu
      rcases List.mem_cons.mp hu with rfl | hu
      · exact hf t 0 h1
      · exact ih [] h2 u hu
    | cons x xs =>
      intro u hu
      rcases List.mem_cons.mp hu with rfl | hu
      · exact hf t x h1
      · exact ih xs h2 u hu

theorem tokZip2_balance (f : Tok → Nat → Nat → Tok) (hf : ∀ t x y, BucketBalances t → BucketBalances (f t x y))
    (l : List Tok) (xs ys : List Nat) (h : ∀ t ∈ l, BucketBalances t) :
    ∀ t ∈ tokZip2 f l xs ys, BucketBalances t := by
  induction l generalizing xs ys with
  | nil => simp [tokZip2]
  | cons t l ih =>
    intro u hu
    rcases List.mem_cons.mp hu with rfl | hu
    · exact hf t _ _ (h t (List.mem_cons_self ..))
    · exact ih xs.tail ys.tail (fun v hv => h v (List.mem_cons_of_mem _ hv)) u hu

theorem full_balance (cap : Nat) : BucketBalances (Tok.full cap) := by simp [BucketBalances, Tok.full]

theorem tokApply_balance (t : TokBar) (op : TokOp) (h : TokensBalance t) : TokensBalance (tokApply t op) := by
  obtain ⟨h1, h2⟩ := h
  cases op with
  | start n ec bc =>
    refine ⟨full_balance bc, fun x hx => ?_⟩
    rw [List.eq_of_mem_replicate hx]
    exact full_balance ec
  | refill ea ec ba bc =>
    refine ⟨refill_balance _ _ _ h1, fun x hx => ?_⟩
    obtain ⟨y, hy, rfl⟩ := List.mem_map.mp hx
    exact refill_balance _ _ _ (h2 y hy)
  | commit amts => exact ⟨commit_balance _ _ h1, tokZip_balance _ commit_balance _ _ h2⟩
  | settle amts backs => exact ⟨settle_balance _ _ _ h1, tokZip2_balance _ settle_balance _ _ _ h2⟩
  | clear => exact ⟨rfl, by simp [tokApply, TokBar.init]⟩

/-! ### Transmit time stamps (R448 to R450) -/

theorem takeFrame_length (l : List TsqFrame) (id : Nat) (f : TsqFrame) (r : List TsqFrame)
    (h : takeFrame l id = (some f, r)) : l.length = r.length + 1 := by
  induction l generalizing r with
  | nil => simp [takeFrame] at h
  | cons x l ih =>
    simp only [takeFrame] at h
    split at h
    · simp at h; simp [h.2]
    · simp only [Prod.mk.injEq] at h
      obtain ⟨h1, h2⟩ := h
      subst h2
      have := ih (takeFrame l id).2 (by rw [← h1])
      simp; omega

theorem takeEntry_length (l : List (TsqFrame × Nat)) (id : Nat) (r : List (TsqFrame × Nat))
    (h : takeEntry l id = (true, r)) : l.length = r.length + 1 := by
  induction l generalizing r with
  | nil => simp [takeEntry] at h
  | cons x l ih =>
    simp only [takeEntry] at h
    split at h
    · simp at h; simp [h]
    · simp only [Prod.mk.injEq] at h
      obtain ⟨h1, h2⟩ := h
      subst h2
      have := ih (takeEntry l id).2 (by rw [← h1])
      simp; omega

theorem tsqApply_balance (q : Tsq) (op : TsqOp) (h : StampsBalance q) : StampsBalance (tsqApply q op) := by
  obtain ⟨h1, h2⟩ := h
  cases op with
  | issue f => exact ⟨by simp [tsqApply]; omega, h2⟩
  | depart id stamp =>
    simp only [tsqApply]
    split
    · exact ⟨h1, h2⟩
    · next f r he =>
      have := takeFrame_length _ _ _ _ he
      split
      · exact ⟨by simp; omega, h2⟩
      · exact ⟨by simp; omega, by simp; omega⟩
  | drop id =>
    simp only [tsqApply]
    split
    · exact ⟨h1, h2⟩
    · next f r he =>
      have := takeFrame_length _ _ _ _ he
      exact ⟨by simp; omega, h2⟩
  | dropAll => exact ⟨by simp [tsqApply]; omega, h2⟩
  | spoil =>
    simp only [tsqApply]
    split
    · exact ⟨h1, h2⟩
    · next e r he =>
      rw [he] at h1 h2
      simp only [List.length_cons] at h1 h2
      exact ⟨by simp; omega, by simp; omega⟩
  | read id =>
    simp only [tsqApply]
    split
    · exact ⟨h1, h2⟩
    · next r he =>
      have := takeEntry_length _ _ _ he
      exact ⟨by simp; omega, by simp; omega⟩
  | clear => exact ⟨rfl, by simp [tsqApply, Tsq.init]⟩

/-! ### Every primitive -/

/-- A property of every element is kept when one element is changed by a function that keeps it. -/
theorem all_modify {α : Type} (P : α → Prop) (f : α → α) (hf : ∀ x, P x → P (f x)) (l : List α) (n : Nat)
    (h : ∀ x ∈ l, P x) : ∀ x ∈ l.modify n f, P x := by
  induction l generalizing n with
  | nil => cases n <;> simp
  | cons y l ih =>
    have h1 := h y (List.mem_cons_self ..)
    have h2 : ∀ x ∈ l, P x := fun x hx => h x (List.mem_cons_of_mem _ hx)
    intro x hx
    cases n with
    | zero =>
      rcases List.mem_cons.mp (by simpa using hx) with rfl | hx
      · exact hf y h1
      · exact h2 x hx
    | succ n =>
      rcases List.mem_cons.mp (by simpa using hx) with rfl | hx
      · exact h1
      · exact ih n h2 x hx

/-- What every command keeps is kept by every primitive. -/
theorem inv_apply (p : Prim) (b : Blk) (h : Inv b) : Inv (p.apply b) := by
  obtain ⟨h1, h2, h3, h4, h5, h6, h7, h8, h9⟩ := h
  have m := memories_apply p b h1
  cases p <;> first | exact ⟨m, h2, h3, h4, h5, h6, h7, h8, h9⟩ | skip
  case evr op => exact ⟨m, evrApply_balance _ _ h2, h3, h4, h5, h6, h7, h8, h9⟩
  case ring n op =>
    exact ⟨m, h2, all_modify _ _ (fun r => ringApply_balance r op) _ _ h3, h4, h5, h6, h7, h8, by
      simpa [Counts] using h9⟩
  case run op => exact ⟨m, h2, h3, runApply_balance _ _ h4, h5, h6, h7, h8, h9⟩
  case wq n op =>
    exact ⟨m, h2, h3, h4, all_modify _ _ (fun q => wqApply_balance q op) _ _ h5, h6, h7, h8, by
      simpa [Counts] using h9⟩
  case cam n op =>
    exact ⟨m, h2, h3, h4, h5, all_modify _ _ (fun q => camApply_balance q op) _ _ h6, h7, h8, by
      simpa [Counts] using h9⟩
  case tok n op =>
    exact ⟨m, h2, h3, h4, h5, h6, all_modify _ _ (fun q => tokApply_balance q op) _ _ h7, h8, by
      simpa [Counts] using h9⟩
  case tsq n op =>
    exact ⟨m, h2, h3, h4, h5, h6, h7, all_modify _ _ (fun q => tsqApply_balance q op) _ _ h8, by
      simpa [Counts] using h9⟩

/-- What every command keeps is kept by every program. -/
theorem inv_run (p : Prog) (b : Blk) (h : Inv b) : Inv (p.run b) := p.run_inv Inv inv_apply b h

/-! ### Every command and every step -/

/-- Every meaning acts with a program. -/
theorem exec_program (c : Instr) (s : State) : ∃ p, exec c s = s.always p := by
  cases c <;> exact ⟨_, rfl⟩

/-- The block of a state that a program answers. -/
theorem always_blk {s t : State} {p : Prog} (e : s.always p = .next t) : t.blk = s.blk.after p := by
  cases e; rfl

/-- A property of the block that every primitive keeps, and that does not look at outputs, is kept by every step. -/
theorem step_keeps {I : Blk → Prop} (h : ∀ p b, I b → I (Prim.apply p b)) (f : ∀ b, I b → I (fresh b)) (s t : State)
    (hs : I s.blk) (e : step s = .next t) : I t.blk := by
  unfold step at e
  split at e
  · cases e; exact hs
  · next c cs hc =>
    have ⟨p, hp⟩ := exec_program c { s with pending := cs }
    rw [always_blk (hp.symm.trans e)]
    exact Prog.run_inv I h _ _ (f _ hs)

end Sys2Proof.Laws
end

