-- ==== Sys2Proof/Laws/Finish.lean ====
section
/-!
SUPPORT. What the end of a command may change, so that the block after a command is the block after its program but
for messages, events, pins and diagnostic capture.
-/
namespace Sys2Proof.Laws

open Sys2Proof.Machine Sys2Proof.Safety

/-! ### Registers read back -/

theorem w_put_same (b : Blk) (o : Nat) (v : Word) (h : regsWf b.regs = true) : (put o v b).w o = v :=
  mapGet_set_same _ _ _ _ h

theorem w_put_other (b : Blk) (o i : Nat) (v : Word) (h : regsWf b.regs = true) (e : i ≠ o) :
    (put o v b).w i = b.w i :=
  mapGet_set_other _ _ _ _ _ h e

theorem put_regsWf (b : Blk) (o : Nat) (v : Word) (h : regsWf b.regs = true) : regsWf (put o v b).regs = true :=
  mapWf_set _ _ _ _ h

theorem setW_run_put (o : Nat) (v : Word) (b : Blk) : (setW o v).run b = put o v b := rfl
theorem setF_run_put (o : Nat) (f : Fld) (x : Nat) (b : Blk) : (setF o f x).run b = putF o f x b := rfl

/-- A register holds a value, in a map that reads back what is written. -/
def RegIs (o : Nat) (v : Word) (b : Blk) : Prop := regsWf b.regs = true ∧ b.w o = v

theorem regIs_setW (o i : Nat) (v x : Word) (e : i ≠ o) : (setW o x).Holds (RegIs i v) :=
  fun b h => ⟨put_regsWf b o x h.1, (w_put_other b o i x h.1 e).trans h.2⟩

theorem regIs_setF (o i : Nat) (v : Word) (f : Fld) (x : Nat) (e : i ≠ o) : (setF o f x).Holds (RegIs i v) :=
  fun b h => regIs_setW o i v _ e b h

theorem regIs_modF (o i : Nat) (v : Word) (f : Fld) (g : Nat → Nat) (e : i ≠ o) : (modF o f g).Holds (RegIs i v) :=
  fun b h => regIs_setW o i v _ e b h

theorem regIs_op (p : Prim) (i : Nat) (v : Word) (h : ∀ b, (p.apply b).regs = b.regs) : (Prog.op p).Holds (RegIs i v) := by
  intro b hb
  refine ⟨by rw [Prog.run_op, h]; exact hb.1, ?_⟩
  have : ((Prog.op p).run b).w i = b.w i := by simp only [Prog.run_op, Blk.w, h]
  exact this.trans hb.2

theorem regIs_aux (f : Aux → Aux) (i : Nat) (v : Word) : (modAux f).Holds (RegIs i v) := fun _ h => h

/-! ### The parts of the end of a command -/

theorem limitEvent_regs (i : Nat) (v : Word) (e : Event) (h : i ≠ Reg.EVR_STAT) : (limitEvent e).Holds (RegIs i v) := by
  refine holds_get fun b _ => holds_seq (regIs_op _ i v fun _ => rfl) (holds_get fun c _ => holds_if fun _ => ?_)
  exact holds_seq (regIs_setF _ i v _ _ h) (holds_seq (regIs_modF _ i v _ _ h) (holds_skip _))

theorem drainEvents_regs (i : Nat) (v : Word) (h : i ≠ Reg.EVR_STAT) : drainEvents.Holds (RegIs i v) :=
  holds_get fun _ _ => holds_seq (regIs_aux _ i v) (holds_each fun e _ => limitEvent_regs i v e h)

theorem sendMsix_regs (i : Nat) (v : Word) (k : Nat) (l : k < 256) (h : ∀ n, n < 8 → i ≠ Reg.MSIX_PBA n) : (sendMsix k).Holds (RegIs i v) := by
  refine holds_get fun b _ => ?_
  split
  · exact regIs_setF _ i v _ _ (h _ (by omega))
  · exact regIs_aux _ i v

theorem sendDue_regs (i : Nat) (v : Word) (h : ∀ n, n < 8 → i ≠ Reg.MSIX_PBA n) : sendDue.Holds (RegIs i v) :=
  holds_get fun _ _ => holds_seq (regIs_aux _ i v) (holds_each fun k _ => sendMsix_regs i v _ (Nat.mod_lt _ (by decide)) h)

theorem drivePins_regs (i : Nat) (v : Word) (b0 : Blk) : (drivePins b0).Holds (RegIs i v) :=
  holds_get fun _ _ => holds_each fun _ _ => regIs_aux _ i v

theorem winWrite_regs (i : Nat) (v : Word) (a : Nat) (bs : List Byte) : (winWrite a bs).Holds (RegIs i v) :=
  holds_each fun _ _ => regIs_op _ i v fun _ => rfl

theorem captureSent_regs (i : Nat) (v : Word) (h : i ≠ Reg.DMC_DIAG) : captureSent.Holds (RegIs i v) := by
  refine holds_get fun b _ => holds_each fun o _ => ?_
  split
  · exact holds_if fun _ => holds_get fun c _ => holds_if fun _ =>
      holds_seq (winWrite_regs i v _ _) (regIs_setF _ i v _ _ h)
  · exact holds_skip _

theorem drainSafe_quiet (n : Nat) (b : Blk) (h : NoTrigger b) : (drainSafe n).run b = b := by
  cases n with
  | zero => rfl
  | succ n =>
    unfold NoTrigger at h
    simp [drainSafe, h]

/-- A register that the end of a command does not write. -/
theorem finish_regs (b0 b : Blk) (o : Nat) (q : NoTrigger b) (w : regsWf b.regs = true) (h : ¬ EndReg o) :
    ((finishProg b0).run b).w o = b.w o := by
  have h1 : o ≠ Reg.EVR_STAT := fun e => h (.inl e)
  have h2 : o ≠ Reg.DMC_DIAG := fun e => h (.inr (.inl e))
  have h3 : ∀ n, n < 8 → o ≠ Reg.MSIX_PBA n := fun n l e => h (.inr (.inr ⟨n, l, e⟩))
  simp only [finishProg, progAll_cons_run, drainSafe_quiet 4 b q]
  have r : RegIs o (b.w o) b := ⟨w, rfl⟩
  exact (captureSent_regs o _ h2 _ (drivePins_regs o _ b0 _ (sendDue_regs o _ h3 _ (drainEvents_regs o _ h1 _ r)))).2

section
variable {α : Type} {X : Blk → α}

/-- A part of the block that looks neither at registers and recorder nor at outputs, messages and events due. -/
structure Aside (X : Blk → α) : Prop where
  word : ∀ o v b, X ((Prim.word o v).apply b) = X b
  evr : ∀ op b, X ((Prim.evr op).apply b) = X b
  aux : ∀ (f : Aux → Aux), (∀ a, engines (f a) = engines a) → ∀ b : Blk, X { b with aux := f b.aux } = X b

/-- A part that does not look at the window either. -/
structure Apart (X : Blk → α) : Prop where
  aside : Aside X
  win : ∀ a v b, X ((Prim.win a v).apply b) = X b

theorem Aside.emit (hX : Aside X) (o : Output) : (emit o).Keeps X :=
  hX.aux (fun a => { a with out := a.out ++ [o] }) fun _ => rfl

theorem Aside.setFlagBit (hX : Aside X) (fl : Flag) : (setFlagBit fl).Keeps X := by
  refine keeps_cons (keeps_setF fun v b => hX.word _ v b) (keeps_cons ?_ keeps_nil)
  split
  · exact keeps_modF fun v b => hX.word _ v b
  · exact keeps_skip

theorem Aside.drainEvents (hX : Aside X) : drainEvents.Keeps X :=
  keeps_get fun _ => keeps_seq (hX.aux (fun a => { a with evq := [] }) fun _ => rfl) (keeps_each fun _ =>
    keeps_get fun _ => keeps_seq (hX.evr _) (keeps_get fun _ => keeps_if (hX.setFlagBit _)))

theorem Aside.sendDue (hX : Aside X) : sendDue.Keeps X :=
  keeps_get fun _ => keeps_seq (hX.aux (fun a => { a with irq := [] }) fun _ => rfl) (keeps_each fun _ =>
    keeps_get fun _ => keeps_ite (keeps_setF fun v b => hX.word _ v b) (hX.emit _))

theorem Aside.drivePins (hX : Aside X) (b0 : Blk) : (drivePins b0).Keeps X :=
  keeps_get fun _ => keeps_each fun _ => hX.emit _

theorem Apart.captureSent (hX : Apart X) : captureSent.Keeps X := by
  refine keeps_get fun b1 => keeps_each fun o => ?_
  split
  · exact keeps_if (keeps_get fun c => keeps_if (keeps_seq (keeps_each fun p => hX.win _ _)
      (keeps_setF fun v b => hX.aside.word _ v b)))
  · exact keeps_skip

theorem Apart.finish (hX : Apart X) (b0 b : Blk) (q : NoTrigger b) : X ((finishProg b0).run b) = X b := by
  simp only [finishProg, progAll_cons_run, drainSafe_quiet 4 b q]
  exact (hX.captureSent _).trans ((hX.aside.drivePins b0 _).trans ((hX.aside.sendDue _).trans (hX.aside.drainEvents b)))

end

theorem apart_rings : Apart Blk.rings := ⟨⟨fun _ _ _ => rfl, fun _ _ => rfl, fun _ _ _ => rfl⟩, fun _ _ _ => rfl⟩
theorem apart_runs : Apart Blk.runs := ⟨⟨fun _ _ _ => rfl, fun _ _ => rfl, fun _ _ _ => rfl⟩, fun _ _ _ => rfl⟩
theorem apart_wqs : Apart Blk.wqs := ⟨⟨fun _ _ _ => rfl, fun _ _ => rfl, fun _ _ _ => rfl⟩, fun _ _ _ => rfl⟩
theorem apart_camBooks : Apart Blk.camBooks := ⟨⟨fun _ _ _ => rfl, fun _ _ => rfl, fun _ _ _ => rfl⟩, fun _ _ _ => rfl⟩
theorem apart_toks : Apart Blk.toks := ⟨⟨fun _ _ _ => rfl, fun _ _ => rfl, fun _ _ _ => rfl⟩, fun _ _ _ => rfl⟩
theorem apart_tsqs : Apart Blk.tsqs := ⟨⟨fun _ _ _ => rfl, fun _ _ => rfl, fun _ _ _ => rfl⟩, fun _ _ _ => rfl⟩
theorem apart_dram : Apart Blk.dram := ⟨⟨fun _ _ _ => rfl, fun _ _ => rfl, fun _ _ _ => rfl⟩, fun _ _ _ => rfl⟩
theorem apart_engines : Apart (fun b => engines b.aux) :=
  ⟨⟨fun _ _ _ => rfl, fun _ _ => rfl, fun _ h _ => h _⟩, fun _ _ _ => rfl⟩

theorem aside_win : Aside Blk.win := ⟨fun _ _ _ => rfl, fun _ _ => rfl, fun _ _ _ => rfl⟩

/-- The window is kept while the diagnostic capture is off. -/
theorem finish_win (b0 b : Blk) (q : NoTrigger b) (w : regsWf b.regs = true) (h : b.f Reg.DMC_DIAG F.DMC_DIAG_EN = 0) :
    ((finishProg b0).run b).win = b.win := by
  let I : Blk → Prop := fun c => RegIs Reg.DMC_DIAG (b.w Reg.DMC_DIAG) c ∧ c.win = b.win
  have e1 : Reg.DMC_DIAG ≠ Reg.EVR_STAT := by decide
  have e2 : ∀ n, n < 8 → Reg.DMC_DIAG ≠ Reg.MSIX_PBA n := fun n _ => by
    show (_ : Nat) ≠ _
    simp only [Reg.DMC_DIAG, Reg.MSIX_PBA]; omega
  have both : ∀ p : Prog, p.Holds (RegIs Reg.DMC_DIAG (b.w Reg.DMC_DIAG)) → p.Keeps Blk.win → p.Holds I :=
    fun p h1 h2 c hc => ⟨h1 c hc.1, (h2 c).trans hc.2⟩
  have k1 : drainEvents.Holds I := both _ (drainEvents_regs _ _ e1) aside_win.drainEvents
  have k2 : sendDue.Holds I := both _ (sendDue_regs _ _ e2) aside_win.sendDue
  have k3 : (drivePins b0).Holds I := both _ (drivePins_regs _ _ b0) (aside_win.drivePins b0)
  have k4 : captureSent.Holds I := by
    refine holds_get fun b1 _ => holds_each fun o _ => ?_
    split
    · refine holds_if fun _ => holds_get fun c hc => ?_
      have : c.f Reg.DMC_DIAG F.DMC_DIAG_EN = 0 := by unfold Blk.f at h ⊢; rw [hc.1.2]; exact h
      simp only [this]
      exact holds_skip I
    · exact holds_skip I
  simp only [finishProg, progAll_cons_run, drainSafe_quiet 4 b q]
  exact (k4 _ (k3 _ (k2 _ (k1 b ⟨⟨w, rfl⟩, rfl⟩)))).2

/-- Outputs are only added at the end of a command. -/
theorem finish_out (b0 b : Blk) (q : NoTrigger b) (o : Output) (h : o ∈ b.aux.out) :
    o ∈ ((finishProg b0).run b).aux.out := by
  let I : Blk → Prop := fun c => o ∈ c.aux.out
  have em : ∀ x : Output, (emit x).Holds I := fun x c hc => List.mem_append_left _ hc
  have fb : ∀ fl : Flag, (setFlagBit fl).Holds I := fun fl => holds_all fun p hp => by
    simp only [List.mem_cons, List.not_mem_nil, or_false] at hp
    rcases hp with rfl | rfl
    · exact fun _ hc => hc
    · split
      · exact fun _ hc => hc
      · exact holds_skip I
  have k1 : drainEvents.Holds I := holds_get fun c _ => holds_seq (fun _ hc => hc) (holds_each fun e _ =>
    holds_get fun _ _ => holds_seq (fun _ hc => hc) (holds_get fun _ _ => holds_if fun _ => fb _))
  have k2 : sendDue.Holds I := holds_get fun c _ => holds_seq (fun _ hc => hc) (holds_each fun v _ =>
    holds_get fun _ _ => by
      split
      · exact fun _ hc => hc
      · exact em _)
  have k3 : (drivePins b0).Holds I := holds_get fun _ _ => holds_each fun _ _ => em _
  have k4 : captureSent.Holds I := by
    refine holds_get fun b1 _ => holds_each fun x _ => ?_
    split
    · exact holds_if fun _ => holds_get fun c _ => holds_if fun _ =>
        holds_seq (holds_each fun _ _ => fun _ hc => hc) (fun _ hc => hc)
    · exact holds_skip I
  simp only [finishProg, progAll_cons_run, drainSafe_quiet 4 b q]
  exact k4 _ (k3 _ (k2 _ (k1 b h)))

/-- The message of each vector that is due and not masked is sent. -/
theorem finish_messages (b0 b : Blk) (q : NoTrigger b) (w : regsWf b.regs = true) (v : Nat) (h : v ∈ b.aux.irq)
    (l : v < 256) (m : b.f (Reg.MSIX_TABLE v 3) ⟨0, 1⟩ ≠ 1) : msixOf b v ∈ ((finishProg b0).run b).aux.out := by
  let T : Blk → Prop := fun c => ∀ k, k < 4 → RegIs (Reg.MSIX_TABLE v k) (b.w (Reg.MSIX_TABLE v k)) c
  let O : Blk → Prop := fun c => msixOf b v ∈ c.aux.out
  have lift : ∀ p : Prog, (∀ k, k < 4 → p.Holds (RegIs (Reg.MSIX_TABLE v k) (b.w (Reg.MSIX_TABLE v k)))) → p.Holds T :=
    fun p hp c hc k hk => hp k hk c (hc k hk)
  have tb : T b := fun k _ => ⟨w, rfl⟩
  have e1 : ∀ k, k < 4 → Reg.MSIX_TABLE v k ≠ Reg.EVR_STAT := fun k hk => by
    show (_ : Nat) ≠ _
    simp only [Reg.MSIX_TABLE, Reg.EVR_STAT]; omega
  have e2 : ∀ k, k < 4 → ∀ n, n < 8 → Reg.MSIX_TABLE v k ≠ Reg.MSIX_PBA n := fun k hk n _ => by
    show (_ : Nat) ≠ _
    simp only [Reg.MSIX_TABLE, Reg.MSIX_PBA]; omega
  have t1 : T (drainEvents.run b) := lift _ (fun k hk => drainEvents_regs _ _ (e1 k hk)) b tb
  have em : ∀ x : Output, (emit x).Holds O := fun x c hc => List.mem_append_left _ hc
  have so : ∀ k, (sendMsix k).Holds O := fun k => holds_get fun c _ => by
    split
    · exact fun _ hc => hc
    · exact em _
  have st : ∀ k, k < 256 → (sendMsix k).Holds T := fun k hk => lift _ fun j hj => sendMsix_regs _ _ k hk (e2 j hj)
  have sv : ∀ c, T c → O ((sendMsix v).run c) := fun c hc => by
    have e : ∀ k, k < 4 → c.w (Reg.MSIX_TABLE v k) = b.w (Reg.MSIX_TABLE v k) := fun k hk => (hc k hk).2
    have mc : c.f (Reg.MSIX_TABLE v 3) ⟨0, 1⟩ ≠ 1 := by unfold Blk.f at m ⊢; rw [e 3 (by omega)]; exact m
    simp only [sendMsix, Prog.run_get, mc, if_false]
    show msixOf b v ∈ c.aux.out ++ [msixOf c v]
    have : msixOf c v = msixOf b v := by
      unfold msixOf; rw [e 0 (by omega), e 1 (by omega), e 2 (by omega)]
    rw [this]
    exact List.mem_append_right _ (List.mem_singleton.mpr rfl)
  have each : ∀ (l : List Nat) c, v ∈ l → T c → O ((progEach l fun k => sendMsix (k % 256)).run c) := by
    intro l
    induction l with
    | nil => intro c hv; cases hv
    | cons x l ih =>
      intro c hv hc
      rw [progEach_cons_run]
      rcases List.mem_cons.mp hv with rfl | hv
      · exact (holds_each fun k _ => so (k % 256)) _ (by rw [Nat.mod_eq_of_lt ‹v < 256›]; exact sv c hc)
      · exact ih _ hv (st _ (Nat.mod_lt _ (by decide)) c hc)
  have irqs : drainEvents.Keeps fun c => c.aux.irq := keeps_get fun _ => keeps_seq (fun _ => rfl) (keeps_each fun _ =>
    keeps_get fun _ => keeps_seq (fun _ => rfl) (keeps_get fun _ => keeps_if fun _ => rfl))
  have k2 : O (sendDue.run (drainEvents.run b)) := by
    simp only [sendDue, Prog.run_get, Prog.run_seq]
    refine each _ _ (List.mem_eraseDups.mpr ?_) t1
    rw [show (drainEvents.run b).aux.irq = b.aux.irq from irqs b]
    exact h
  have k3 : (drivePins b0).Holds O := holds_get fun _ _ => holds_each fun _ _ => em _
  have k4 : captureSent.Holds O := by
    refine holds_get fun b1 _ => holds_each fun x _ => ?_
    split
    · exact holds_if fun _ => holds_get fun c _ => holds_if fun _ =>
        holds_seq (holds_each fun _ _ => fun _ hc => hc) (fun _ hc => hc)
    · exact holds_skip O
  simp only [finishProg, progAll_cons_run, drainSafe_quiet 4 b q]
  exact k4 _ (k3 _ k2)

theorem raise_raised (v : Evr) (e : Event) (cap per ms : Nat) : (v.raise e cap per ms).raised = v.raised + 1 := by
  unfold Evr.raise
  dsimp only
  split
  · rfl
  · unfold Evr.enter
    split <;> rfl

theorem limitEvents_raised (l : List Event) (b : Blk) :
    ((progEach l limitEvent).run b).evr.raised = b.evr.raised + l.length := by
  induction l generalizing b with
  | nil => rfl
  | cons e l ih =>
    have h : ((limitEvent e).run b).evr.raised = b.evr.raised + 1 := by
      simp only [limitEvent, Prog.run_get, Prog.run_seq, Prog.run_op, progIf_run]
      have : ∀ c : Blk, ((setFlagBit (flEvr 0)).run c).evr = c.evr := fun _ => rfl
      split <;> simp only [this, Prim.evr_evr, evrApply, raise_raised]
    rw [progEach_cons_run, ih, h, List.length_cons]
    omega

theorem insertEvent_length (e : Event) (l : List Event) : (insertEvent e l).length = l.length + 1 := by
  induction l with
  | nil => rfl
  | cons x l ih =>
    simp only [insertEvent]
    split
    · rfl
    · simp [ih]

theorem sortEvents_length (l m : List Event) : (l.foldl (fun l e => insertEvent e l) m).length = m.length + l.length := by
  induction l generalizing m with
  | nil => rfl
  | cons e l ih => rw [List.foldl_cons, ih, insertEvent_length, List.length_cons]; omega

/-- Every event due is raised at the end of a command. -/
theorem finish_raised (b0 b : Blk) (q : NoTrigger b) :
    ((finishProg b0).run b).evr.raised = b.evr.raised + b.aux.evq.length := by
  have k1 : (drainEvents.run b).evr.raised = b.evr.raised + b.aux.evq.length := by
    simp only [drainEvents, Prog.run_get, Prog.run_seq, modAux_run, limitEvents_raised, sortEvents_length,
      List.length_nil, Nat.zero_add]
  have k2 : sendDue.Keeps Blk.evr := keeps_get fun _ => keeps_seq (fun _ => rfl) (keeps_each fun _ =>
    keeps_get fun _ => keeps_ite (fun _ => rfl) (fun _ => rfl))
  have k3 : (drivePins b0).Keeps Blk.evr := keeps_get fun _ => keeps_each fun _ _ => rfl
  have k4 : captureSent.Keeps Blk.evr := by
    refine keeps_get fun b1 => keeps_each fun o => ?_
    split
    · exact keeps_if (keeps_get fun c => keeps_if (keeps_seq (keeps_each fun p _ => rfl) fun _ => rfl))
    · exact keeps_skip
  simp only [finishProg, progAll_cons_run, drainSafe_quiet 4 b q, progAll_nil_run]
  rw [k4, k3, k2, k1]

/-- A program keeps the canonical form of the register map. -/
theorem regsWf_run (p : Prog) (b : Blk) (h : regsWf b.regs = true) : regsWf (p.run b).regs = true :=
  p.run_inv (fun c => regsWf c.regs = true) (fun q c hc => by
    cases q <;> first | exact hc | rfl | exact mapWf_set _ _ _ _ hc) b h

/-- After a command the block agrees with the block after its program. -/
theorem after_agrees (b : Blk) (p : Prog) (b1 : Blk) (h : p.run (fresh b) = b1) (q : NoTrigger b1)
    (w : regsWf b.regs = true) : Agrees b1 (b.after p) := by
  have e : b.after p = (finishProg b).run b1 := by rw [← h]; rfl
  have w1 : regsWf b1.regs = true := by rw [← h]; exact regsWf_run p _ w
  rw [e]
  exact ⟨fun o ho => finish_regs b b1 o q w1 ho, apart_rings.finish b b1 q, apart_runs.finish b b1 q,
    apart_wqs.finish b b1 q, apart_camBooks.finish b b1 q, apart_toks.finish b b1 q, apart_tsqs.finish b b1 q,
    apart_dram.finish b b1 q, finish_win b b1 q w1, apart_engines.finish b b1 q, fun o ho => finish_out b b1 q o ho,
    fun v hv l m => finish_messages b b1 q w1 v hv l m,
    finish_raised b b1 q⟩

/-- A command whose meaning acts with a program answers a next state with the queue as it was. -/
theorem always_next (s : State) (p : Prog) : s.always p = .next ⟨s.pending, s.blk.after p⟩ := rfl

theorem act_next (s : State) (p : Prog) (h : Awake s) : s.act p = .next ⟨s.pending, s.blk.after p⟩ := by
  unfold Awake at h
  simp [State.act, State.always, h]

/-- A command completes in the state its program describes. -/
theorem act_agrees (s : State) (p : Prog) (b1 : Blk) (r : Ready s) (h : p.run (fresh s.blk) = b1) (q : NoTrigger b1) :
    ∃ b2, s.act p = .next ⟨s.pending, b2⟩ ∧ Agrees b1 b2 :=
  ⟨s.blk.after p, act_next s p r.awake, after_agrees s.blk p b1 h q r.regs⟩

/-- A command that acts also in reset. -/
theorem always_agrees (s : State) (p : Prog) (b1 : Blk) (w : regsWf s.blk.regs = true) (h : p.run (fresh s.blk) = b1)
    (q : NoTrigger b1) : ∃ b2, s.always p = .next ⟨s.pending, b2⟩ ∧ Agrees b1 b2 :=
  ⟨s.blk.after p, always_next s p, after_agrees s.blk p b1 h q w⟩

/-! ### Flags, and descriptors in execution -/

theorem setFlag_run (fl : Flag) (b : Blk) : (setFlag fl).run b = flagged fl b := by
  obtain ⟨off, bit, cnt, code, inst, dom⟩ := fl
  cases cnt <;> cases code <;> rfl

theorem emit_shown (o : Output) (b : Blk) : (emit o).run b = shown o b := rfl

theorem requestMode_run (d : Nat) (m : Mode) (c : Cause) (b : Blk) : (requestMode d m c).run b = awaiting d m c b := rfl

theorem modAux_withAux (f : Aux → Aux) (b : Blk) : (modAux f).run b = withAux f b := rfl

/-- A descriptor that stands is executed by its own meaning. -/
theorem descr_run (b : Blk) (ring op : Nat) (begun : Bool) (ws : List Word) (k : List Word → Prog)
    (h : Stands b ring op begun ws) : (descr ring op begun k).run b = (k ws).run b := by
  obtain ⟨⟨d, hf, hw, hb⟩, ho, he, ⟨m, hm, ht⟩⟩ := h
  subst hw
  simp [descr, hf, ho, he, hb, hm, ht]

/-- A stage of a descriptor that stands is executed by its own meaning. -/
theorem descrStage_run (b : Blk) (ring op : Nat) (begun : Bool) (ws : List Word) (k : Bool → List Word → Prog)
    (h : Stands b ring op begun ws) : (descrStage ring op k).run b = (k begun ws).run b := by
  obtain ⟨d, hf, hw, hb⟩ := h.front
  simp only [descrStage, Prog.run_get, hf, hb]
  exact descr_run b ring op begun ws (k begun) h

end Sys2Proof.Laws
end

