-- ==== Sys2Proof/Laws/Effects.lean ====
section
/-!
SUPPORT. Operations that take no SAFE trigger, and what the shared operations do.
-/
namespace Sys2Proof.Laws

open Sys2Proof.Machine Sys2Proof.Safety

/-! ### Operations that take no trigger -/

/-- A program takes no trigger of SAFE entry. -/
def Quiet (p : Prog) : Prop := p.Keeps fun b => b.aux.safeReq

theorem Quiet.noTrigger {p : Prog} (h : Quiet p) {b : Blk} (q : NoTrigger b) : NoTrigger (p.run b) := (h b).trans q

theorem quiet_skip : Quiet .skip := keeps_skip
theorem quiet_setW (o : Nat) (v : Word) : Quiet (setW o v) := fun _ => rfl
theorem quiet_setF (o : Nat) (f : Fld) (x : Nat) : Quiet (setF o f x) := fun _ => rfl
theorem quiet_modF (o : Nat) (f : Fld) (g : Nat → Nat) : Quiet (modF o f g) := fun _ => rfl
theorem quiet_setW64 (o x : Nat) : Quiet (setW64 o x) := fun _ => rfl
theorem quiet_emit (o : Output) : Quiet (emit o) := fun _ => rfl
theorem quiet_ring (n : Nat) (op : RingOp) : Quiet (.op (.ring n op)) := fun _ => rfl
theorem quiet_run (op : RunOp) : Quiet (.op (.run op)) := fun _ => rfl
theorem quiet_evr (op : EvrOp) : Quiet (.op (.evr op)) := fun _ => rfl
theorem quiet_aux (f : Aux → Aux) (h : ∀ a, (f a).safeReq = a.safeReq) : Quiet (modAux f) := fun _ => h _

theorem put_quiet {b : Blk} (o : Nat) (v : Word) (q : NoTrigger b) : NoTrigger (put o v b) := q
theorem putF_quiet {b : Blk} (o : Nat) (f : Fld) (x : Nat) (q : NoTrigger b) : NoTrigger (putF o f x b) := q
theorem shown_quiet {b : Blk} (o : Output) (q : NoTrigger b) : NoTrigger (shown o b) := q
theorem awaiting_quiet {b : Blk} (d : Nat) (m : Mode) (c : Cause) (q : NoTrigger b) : NoTrigger (awaiting d m c b) := q
theorem withAux_quiet {b : Blk} (f : Aux → Aux) (h : (f b.aux).safeReq = b.aux.safeReq) (q : NoTrigger b) :
    NoTrigger (withAux f b) := h.trans q
theorem unheld_quiet {b : Blk} (q : NoTrigger b) : NoTrigger (unheld b) := q
theorem holding_quiet {b : Blk} (o m : Nat) (q : NoTrigger b) : NoTrigger (holding o m b) := q
theorem ringOp_quiet {b : Blk} (n : Nat) (op : RingOp) (q : NoTrigger b) : NoTrigger ((Prim.ring n op).apply b) := q
theorem run_quiet {p : Prog} {b : Blk} (h : Quiet p) (q : NoTrigger b) : NoTrigger (p.run b) := h.noTrigger q

theorem quiet_winWrite (a : Nat) (bs : List Byte) : Quiet (winWrite a bs) := keeps_each fun _ _ => rfl
theorem quiet_dramBytes (a : Nat) (bs : List Byte) : Quiet (dramBytes a bs) := keeps_each fun _ _ => rfl

theorem quiet_setFlagBit (fl : Flag) : Quiet (setFlagBit fl) := by
  refine keeps_cons (quiet_setF _ _ _) (keeps_cons ?_ keeps_nil)
  split
  · exact quiet_modF _ _ _
  · exact quiet_skip

/-- The flag and its counter are registers: the engines' state stays. -/
theorem setFlagBit_aux (fl : Flag) (b : Blk) : ((setFlagBit fl).run b).aux = b.aux := by
  have k : (setFlagBit fl).Keeps Blk.aux := by
    refine keeps_cons (fun _ => rfl) (keeps_cons ?_ keeps_nil)
    split
    · exact fun _ => rfl
    · exact fun _ => rfl
  exact k b

theorem put_aux (o : Nat) (v : Word) (b : Blk) : (put o v b).aux = b.aux := rfl
theorem putF_aux (o : Nat) (f : Fld) (x : Nat) (b : Blk) : (putF o f x b).aux = b.aux := rfl
theorem raiseEvent_w (c i d x y z : Nat) (b : Blk) (o : Nat) : ((raiseEvent c i d x y z).run b).w o = b.w o := rfl

theorem quiet_raiseEvent (c i d x y z : Nat) : Quiet (raiseEvent c i d x y z) := fun _ => rfl

theorem quiet_setFlag (fl : Flag) : Quiet (setFlag fl) :=
  keeps_seq (quiet_setFlagBit fl) (keeps_get fun b => by
    split
    · exact quiet_raiseEvent _ _ _ _ _ _
    · exact quiet_skip)

theorem flagged_quiet (fl : Flag) {b : Blk} (q : NoTrigger b) : NoTrigger (flagged fl b) := by
  rw [← setFlag_run]
  exact (quiet_setFlag fl).noTrigger q

theorem quiet_wantIrq (v : Nat) : Quiet (wantIrq v) := fun _ => rfl

theorem quiet_dropEntry (n : Nat) (pend : Bool) : Quiet (dropEntry n pend) :=
  keeps_seq (quiet_ring _ _) (quiet_setFlag _)

theorem quiet_ringModerate (n : Nat) (now : Bool) : Quiet (ringModerate n now) :=
  keeps_get fun _ => keeps_if (keeps_get fun _ => keeps_seq (quiet_ring _ _) (quiet_wantIrq _))

theorem quiet_putSlot (n : Nat) (ws : List Word) : Quiet (putSlot n ws) :=
  keeps_get fun _ => keeps_seq (quiet_emit _) (quiet_setW _ _)

theorem quiet_complete (n s d : Nat) : Quiet (complete n s d) := by
  refine keeps_get fun b => ?_
  split
  · exact quiet_skip
  · refine keeps_cons (quiet_setW _ _) (keeps_cons (quiet_ring _ _) (keeps_cons ?_ keeps_nil))
    split
    · exact quiet_dropEntry _ _
    · exact keeps_cons (quiet_putSlot _ _) (keeps_cons (quiet_ring _ _) (keeps_cons (quiet_ringModerate _ _) keeps_nil))

theorem quiet_deliver (n : Nat) (ws : List Word) : Quiet (deliver n ws) := by
  refine keeps_get fun b => ?_
  dsimp only
  split
  · exact quiet_dropEntry _ _
  · split
    · exact quiet_dropEntry _ _
    · exact keeps_ite (quiet_dropEntry _ _) (keeps_cons (keeps_if (quiet_putSlot _ _)) (keeps_cons (quiet_putSlot _ _)
          (keeps_cons (quiet_ring _ _) (keeps_cons (quiet_ringModerate _ _) keeps_nil))))

/-- A descriptor's command completes in the state its completion describes. -/
theorem act_completes (s : State) (p : Prog) (ring status detail : Nat) (x : Blk) (r : Ready s)
    (h : p.run (fresh s.blk) = (complete ring status detail).run x) (q : NoTrigger x) :
    ∃ b2, s.act p = .next ⟨s.pending, b2⟩ ∧ Agrees ((complete ring status detail).run x) b2 :=
  act_agrees s p _ r h ((quiet_complete ring status detail).noTrigger q)

/-! ### Rings -/

theorem ring_op_other (n m : Nat) (op : RingOp) (b : Blk) (h : m ≠ n) : ((Prim.ring n op).apply b).ring m = b.ring m := by
  show (b.rings.modify n _).getD m Ring.init = _
  simp [Blk.ring, List.getD_eq_getElem?_getD, Ne.symm h]

theorem ring_op_same (n : Nat) (op : RingOp) (b : Blk) (h : n < b.rings.length) :
    ((Prim.ring n op).apply b).ring n = ringApply (b.ring n) op := by
  show (b.rings.modify n _).getD n Ring.init = _
  simp [Blk.ring, List.getD_eq_getElem?_getD, h]

theorem ringModerate_keeps (n : Nat) (now : Bool) (x : Blk) :
    ((ringModerate n now).run x).regs = x.regs ∧ ((ringModerate n now).run x).aux.out = x.aux.out ∧
      ∀ m, m ≠ n → ((ringModerate n now).run x).ring m = x.ring m := by
  simp only [ringModerate, Prog.run_get, progIf_run]
  split
  · exact ⟨rfl, rfl, fun m h => ring_op_other n m _ _ h⟩
  · exact ⟨rfl, rfl, fun _ _ => rfl⟩

/-- A descriptor that stands in a state stands when its command begins. -/
theorem stands_fresh {b : Blk} {ring op : Nat} {begun : Bool} {ws : List Word} (h : Stands b ring op begun ws) :
    Stands (Safety.fresh b) ring op begun ws := ⟨h.front, h.opcode, h.executing, h.taken⟩

/-- A descriptor that stands completes in the state its meaning describes. -/
theorem descr_does {s : State} {ring op : Nat} {begun : Bool} {ws : List Word} {k : List Word → Prog}
    {status detail : Nat} {x : Blk} (r : Ready s) (h : Stands s.blk ring op begun ws)
    (e : (k ws).run (fresh s.blk) = (complete ring status detail).run x) (q : NoTrigger x) :
    ∃ b2, s.act (descr ring op begun k) = .next ⟨s.pending, b2⟩ ∧ Agrees ((complete ring status detail).run x) b2 :=
  act_completes s _ ring status detail x r ((descr_run _ _ _ _ _ _ (stands_fresh h)).trans e) q

/-- A stage of a descriptor that stands completes in the state its meaning describes. -/
theorem stage_does {s : State} {ring op : Nat} {begun : Bool} {ws : List Word} {k : Bool → List Word → Prog}
    {status detail : Nat} {x : Blk} (r : Ready s) (h : Stands s.blk ring op begun ws)
    (e : (k begun ws).run (fresh s.blk) = (complete ring status detail).run x) (q : NoTrigger x) :
    ∃ b2, s.act (descrStage ring op k) = .next ⟨s.pending, b2⟩ ∧ Agrees ((complete ring status detail).run x) b2 :=
  act_completes s _ ring status detail x r ((descrStage_run _ _ _ _ _ _ (stands_fresh h)).trans e) q

/-- A stage of a descriptor that stands, and that stays in execution. -/
theorem stage_stays {s : State} {ring op : Nat} {begun : Bool} {ws : List Word} {k : Bool → List Word → Prog} {x : Blk}
    (r : Ready s) (h : Stands s.blk ring op begun ws) (e : (k begun ws).run (fresh s.blk) = x) (q : NoTrigger x) :
    ∃ b2, s.act (descrStage ring op k) = .next ⟨s.pending, b2⟩ ∧ Agrees x b2 :=
  act_agrees s _ _ r ((descrStage_run _ _ _ _ _ _ (stands_fresh h)).trans e) q

/-- A command whose program takes no trigger completes in the state its program describes. -/
theorem act_does {s : State} {p : Prog} {b1 : Blk} (r : Ready s) (qp : Quiet p) (h : p.run (Safety.fresh s.blk) = b1) :
    ∃ b2, s.act p = .next ⟨s.pending, b2⟩ ∧ Agrees b1 b2 := act_agrees s p b1 r h (h ▸ qp.noTrigger r.quiet)

theorem fresh_quiet {s : State} (r : Ready s) : NoTrigger (fresh s.blk) := r.quiet

end Sys2Proof.Laws
end

