-- ==== Sys2Proof/Laws/Find.lean ====
section
/-!
SUPPORT. Where the registers of commands with a row of their own stand in the register table.
-/
namespace Sys2Proof.Laws

open Sys2Proof.Machine

theorem find_SYS_SLACK_REARM : findReg Reg.SYS_SLACK_REARM = some ⟨⟨"SYS_SLACK_REARM", 0x500, [], 1, 0x0, none, none,
    [⟨0, 25, .wo, 0, 0x1ffffff⟩]⟩, Reg.SYS_SLACK_REARM, 0, false⟩ := rfl

theorem find_OVL_SNAP : findReg Reg.OVL_SNAP = some ⟨⟨"OVL_SNAP", 0x50020, [], 1, 0x0, none, none,
    [⟨0, 1, .wo, 0, 1⟩]⟩, Reg.OVL_SNAP, 0, false⟩ := rfl

theorem find_SRV_SNAP : findReg Reg.SRV_SNAP = some ⟨⟨"SRV_SNAP", 0x60000, [], 1, 0x0, none, none,
    [⟨0, 8, .wo, 0, 255⟩]⟩, Reg.SRV_SNAP, 0, false⟩ := rfl

theorem find_DMC_WQ_SNAP : findReg Reg.DMC_WQ_SNAP = some ⟨⟨"DMC_WQ_SNAP", 0xE0050, [], 1, 0x0, none, none,
    [⟨0, 2, .wo, 0, 3⟩]⟩, Reg.DMC_WQ_SNAP, 0, false⟩ := rfl

theorem find_EVR_SNAP : findReg Reg.EVR_SNAP = some ⟨⟨"EVR_SNAP", 0x110004, [], 1, 0x0, none, none,
    [⟨0, 1, .wo, 0, 1⟩]⟩, Reg.EVR_SNAP, 0, false⟩ := rfl

theorem find_PTP_TSQ_SNAP : findReg Reg.PTP_TSQ_SNAP = some ⟨⟨"PTP_TSQ_SNAP", 0x130000, [], 1, 0x0, none, none,
    [⟨0, 2, .wo, 0, 3⟩]⟩, Reg.PTP_TSQ_SNAP, 0, false⟩ := rfl

theorem find_SYS_ABORT : findReg Reg.SYS_ABORT = some ⟨⟨"SYS_ABORT", 0x600, [], 1, 0x0, none, none,
    [⟨0, 1, .wo, 0, 1⟩, ⟨1, 1, .wo, 0, 1⟩]⟩, Reg.SYS_ABORT, 0, false⟩ := rfl

theorem find_RING_NUDGE : findReg Reg.RING_NUDGE = some ⟨⟨"RING_NUDGE", 0x20000, [], 1, 0x0, none, none,
    [⟨0, 32, .wo, 0, 0xffffffff⟩]⟩, Reg.RING_NUDGE, 0, false⟩ := rfl

theorem find_TIM_LATCH : findReg Reg.TIM_LATCH = some ⟨⟨"TIM_LATCH", 0x120000, [], 1, 0x0, none, none,
    [⟨0, 1, .wo, 0, 1⟩]⟩, Reg.TIM_LATCH, 0, false⟩ := rfl

theorem find_TIM_SETCTL : findReg Reg.TIM_SETCTL = some ⟨⟨"TIM_SETCTL", 0x120070, [], 1, 0x0, none, none,
    [⟨0, 1, .rw, 0, 1⟩, ⟨1, 1, .wo, 0, 1⟩]⟩, Reg.TIM_SETCTL, 0, false⟩ := rfl

theorem find_MPL_HM_FOLD : findReg Reg.MPL_HM_FOLD = some ⟨⟨"MPL_HM_FOLD", 0x80018, [], 1, 0x100, some .coat, some 0x8000,
    [⟨0, 9, .rws, 0, 256⟩, ⟨16, 5, .rws, 0, 31⟩, ⟨31, 1, .wo, 0, 1⟩]⟩, Reg.MPL_HM_FOLD, 0, false⟩ := rfl

theorem find_SYS_OCC_CLR : findReg Reg.SYS_OCC_CLR = some ⟨⟨"SYS_OCC_CLR", 0x800, [], 1, 0x0, none, none,
    [⟨0, 5, .wo, 0, 31⟩, ⟨8, 1, .wo, 0, 1⟩]⟩, Reg.SYS_OCC_CLR, 0, false⟩ := rfl

theorem find_SYS_RESET : findReg Reg.SYS_RESET = some ⟨⟨"SYS_RESET", 0x710, [], 1, 0x0, none, none,
    [⟨0, 16, .wo, 0, 65535⟩]⟩, Reg.SYS_RESET, 0, false⟩ := rfl

theorem find_SYS_BOOT_CTRL : findReg Reg.SYS_BOOT_CTRL = some ⟨⟨"SYS_BOOT_CTRL", 0x708, [], 1, 0x640000, none, none,
    [⟨0, 1, .wo, 0, 1⟩, ⟨1, 1, .wo, 0, 1⟩, ⟨16, 16, .rw, 1, 65534⟩]⟩, Reg.SYS_BOOT_CTRL, 0, false⟩ := rfl

theorem find_BST_RUN : findReg Reg.BST_RUN = some ⟨⟨"BST_RUN", 0x170008, [], 1, 0x0, none, none,
    [⟨0, 8, .wo, 0, 255⟩]⟩, Reg.BST_RUN, 0, false⟩ := rfl

theorem find_BST_RPR_CFG : findReg Reg.BST_RPR_CFG = some ⟨⟨"BST_RPR_CFG", 0x178000, [], 1, 0x0, none, none,
    [⟨1, 1, .wo, 0, 1⟩]⟩, Reg.BST_RPR_CFG, 0, false⟩ := rfl

theorem find_LCS_CTRL : findReg Reg.LCS_CTRL = some ⟨⟨"LCS_CTRL", 0x180010, [], 1, 0x0, none, none,
    [⟨0, 1, .wo, 0, 1⟩, ⟨1, 1, .wo, 0, 1⟩]⟩, Reg.LCS_CTRL, 0, false⟩ := rfl

theorem find_RING_CTRL (n : Fin 89) : findReg (Reg.RING_CTRL n) = some ⟨⟨"RING_CTRL", 0x21000, [(256, 0x20)], 1, 0x28000000, none, none,
    [⟨0, 1, .rw, 0, 1⟩, ⟨4, 5, .rw, 0, 31⟩, ⟨16, 8, .rw, 0, 255⟩, ⟨24, 8, .rw, 0, 255⟩]⟩, Reg.RING_CTRL n, 0, false⟩ := by
  revert n; decide +kernel

theorem find_CAL_RES (n : Fin 80) : findReg (Reg.CAL_RES n) = some ⟨⟨"CAL_RES", 0x161000, [(80, 0x10)], 1, 0x0, none, none,
    [⟨0, 32, .rw, 0, 0xffffffff⟩]⟩, Reg.CAL_RES n, 0, false⟩ := by
  revert n; decide +kernel

end Sys2Proof.Laws
end

