-- ==== Sys2Proof/Laws/Writes.lean ====
section
/-!
SUPPORT. Register writes: what a whole write does when it lands, when it is rejected and when it meets no register.
-/
namespace Sys2Proof.Laws

open Sys2Proof.Machine Sys2Proof.Safety

/-! ### A field of a number -/

theorem putN_eq (lo w x v : Nat) :
    putN lo w x v = v / 2 ^ lo / 2 ^ w * 2 ^ w * 2 ^ lo + x % 2 ^ w * 2 ^ lo + v % 2 ^ lo := by
  unfold putN
  have h1 := Nat.div_add_mod v (2 ^ lo)
  have h2 := Nat.div_add_mod (v / 2 ^ lo) (2 ^ w)
  have h3 : v = v / 2 ^ lo / 2 ^ w * 2 ^ w * 2 ^ lo + v / 2 ^ lo % 2 ^ w * 2 ^ lo + v % 2 ^ lo := by
    rw [← Nat.add_mul, Nat.mul_comm _ (2 ^ w), h2, Nat.mul_comm _ (2 ^ lo), h1]
  omega
theorem putN_low (lo w x v : Nat) : putN lo w x v % 2 ^ lo = v % 2 ^ lo := by
  rw [putN_eq, ← Nat.add_mul, Nat.mul_comm, Nat.mul_add_mod]
  exact Nat.mod_mod _ _
theorem putN_div (lo w x v : Nat) : putN lo w x v / 2 ^ lo = v / 2 ^ lo / 2 ^ w * 2 ^ w + x % 2 ^ w := by
  rw [putN_eq, ← Nat.add_mul, Nat.mul_comm, Nat.mul_add_div (Nat.two_pow_pos lo), Nat.div_eq_of_lt (Nat.mod_lt _ (Nat.two_pow_pos lo))]
  rfl
theorem bits_putN_same (lo w x v : Nat) : bits (putN lo w x v) lo w = x % 2 ^ w := by
  unfold bits
  rw [putN_div, Nat.mul_comm, Nat.mul_add_mod, Nat.mod_mod]
theorem bits_putN_apart (lo w x v l k : Nat) (h : lo + w ≤ l ∨ l + k ≤ lo) : bits (putN lo w x v) l k = bits v l k := by
  unfold bits
  rcases h with h | h
  · have e : putN lo w x v / 2 ^ lo / 2 ^ w = v / 2 ^ lo / 2 ^ w := by
      rw [putN_div, Nat.mul_comm, Nat.mul_add_div (Nat.two_pow_pos w), Nat.div_eq_of_lt (Nat.mod_lt _ (Nat.two_pow_pos w))]
      rfl
    have p : 2 ^ l = 2 ^ lo * 2 ^ w * 2 ^ (l - lo - w) := by rw [← Nat.pow_add, ← Nat.pow_add]; congr 1; omega
    rw [p, ← Nat.div_div_eq_div_mul, ← Nat.div_div_eq_div_mul, ← Nat.div_div_eq_div_mul, ← Nat.div_div_eq_div_mul, e]
  · have p : 2 ^ lo = 2 ^ l * 2 ^ k * 2 ^ (lo - l - k) := by rw [← Nat.pow_add, ← Nat.pow_add]; congr 1; omega
    have e : ∀ y : Nat, y / 2 ^ l % 2 ^ k = y % 2 ^ lo % (2 ^ l * 2 ^ k) / 2 ^ l := fun y => by
      rw [p, Nat.mod_mul_right_mod, Nat.mod_mul_right_div_self]
    rw [e, e v, putN_low]
theorem bits_idem (x lo w : Nat) : bits x lo w % 2 ^ w = bits x lo w := Nat.mod_mod _ _


theorem putN_lt (lo w x v : Nat) (hl : lo + w ≤ 32) (hv : v < 2 ^ 32) : putN lo w x v < 2 ^ 32 := by
  have e : putN lo w x v / 2 ^ (lo + w) = v / 2 ^ (lo + w) := by
    rw [Nat.pow_add, ← Nat.div_div_eq_div_mul, ← Nat.div_div_eq_div_mul, putN_div, Nat.mul_comm,
      Nat.mul_add_div (Nat.two_pow_pos w), Nat.div_eq_of_lt (Nat.mod_lt _ (Nat.two_pow_pos w))]
    rfl
  have p : 2 ^ 32 = 2 ^ (lo + w) * 2 ^ (32 - (lo + w)) := by rw [← Nat.pow_add]; congr 1; omega
  have q : 0 < 2 ^ (lo + w) := Nat.two_pow_pos _
  rw [p, Nat.mul_comm] at hv ⊢
  rw [← Nat.div_lt_iff_lt_mul q, e]
  exact (Nat.div_lt_iff_lt_mul q).mpr hv

/-- A field of a word reads what was put into it. -/
theorem get_put (f : Fld) (x : Nat) (v : Word) (h : f.lo + f.w ≤ 32) : f.get (f.put x v) = x % 2 ^ f.w := by
  have l := putN_lt f.lo f.w x v.toNat h v.isLt
  have e : (f.put x v).toNat = putN f.lo f.w x v.toNat := by
    show (BitVec.ofNat 32 (putN f.lo f.w x v.toNat)).toNat = _
    rw [BitVec.toNat_ofNat, Nat.mod_eq_of_lt l]
  show (f.put x v).toNat / 2 ^ f.lo % 2 ^ f.w = _
  rw [e]
  exact bits_putN_same f.lo f.w x v.toNat

/-- A field of a word keeps its value when another field is put. -/
theorem get_put_other (f g : Fld) (x : Nat) (v : Word) (h : g.lo + g.w ≤ 32)
    (d : g.lo + g.w ≤ f.lo ∨ f.lo + f.w ≤ g.lo) : f.get (g.put x v) = f.get v := by
  have l := putN_lt g.lo g.w x v.toNat h v.isLt
  have e : (g.put x v).toNat = putN g.lo g.w x v.toNat := by
    show (BitVec.ofNat 32 (putN g.lo g.w x v.toNat)).toNat = _
    rw [BitVec.toNat_ofNat, Nat.mod_eq_of_lt l]
  show (g.put x v).toNat / 2 ^ f.lo % 2 ^ f.w = _
  rw [e]
  exact bits_putN_apart g.lo g.w x v.toNat f.lo f.w d

theorem ofNat_toNat (v : Word) : BitVec.ofNat 32 v.toNat = v := by simp

/-! ### Writes -/

theorem quiet_each {α : Type} {l : List α} {f : α → Prog} (h : ∀ x, Quiet (f x)) : Quiet (progEach l f) :=
  keeps_each fun x => h x

theorem quiet_landProg (h : Hit) (v : Nat) : Quiet (landProg h v) :=
  keeps_get fun _ => keeps_seq (quiet_each fun _ => quiet_setW _ _) (keeps_if (quiet_each fun _ => quiet_aux _ fun _ => rfl))

theorem landed_quiet {h : Hit} {v : Nat} {b : Blk} (q : NoTrigger b) : NoTrigger (landed h v b) :=
  (quiet_landProg h v).noTrigger q

/-- A register of a plain block only lands what is written. -/
theorem writeAct_plain (b : Blk) (base v : Nat) (h : plainBlock base = true) :
    writeAct b base v = .skip ∧ loadReg base = false := by
  simp only [plainBlock, List.contains_eq_mem, List.mem_cons, List.not_mem_nil, or_false, decide_eq_true_eq] at h
  have ht : tickReqs.contains base = false := by
    rw [List.contains_eq_mem, decide_eq_false_iff_not]
    simp only [tickReqs, List.mem_cons, List.not_mem_nil, or_false]
    simp only [Reg.SYS_SLACK_REARM, Reg.OVL_SNAP, Reg.SRV_SNAP, Reg.DMC_WQ_SNAP, Reg.EVR_SNAP, Reg.PTP_TSQ_SNAP]
    omega
  simp only [writeAct, ht, loadReg]
  rcases h with h | h | h | h | h | h | h | h | h | h <;> simp [h]

theorem wholeWrite_plain (h : Hit) (off v : Nat) (b : Blk) (ro : h.readOnly = false)
    (pl : plainBlock h.base = true) (rj : b.rejects h v = false) :
    (wholeWrite h off v).run b = landed h v b := by
  obtain ⟨e1, e2⟩ := writeAct_plain b h.base v pl
  simp [wholeWrite, rj, acceptWrite, ro, progIf, raisedLoad, e1, e2, landed]

theorem acceptWrite_plain (h : Hit) (v : Nat) (b : Blk) (ro : h.readOnly = false) (pl : plainBlock h.base = true) :
    (acceptWrite h v).run b = landed h v b := by
  obtain ⟨e1, e2⟩ := writeAct_plain b h.base v pl
  simp [acceptWrite, ro, progIf, raisedLoad, e1, e2, landed]

theorem firstFail_none {l : List (Option Fail)} (h : ∀ x ∈ l, x = none) : firstFail l = none := by
  induction l with
  | nil => rfl
  | cons x l ih =>
    rw [h x List.mem_cons_self]
    exact ih fun y hy => h y (List.mem_cons_of_mem _ hy)

/-- A write of a one-word register without a commit class puts the landed value. -/
theorem landed_one (h : Hit) (v : Nat) (b : Blk) (one : h.d.words = 1) (cls : h.d.cls = none) :
    landed h v b = put h.base (BitVec.ofNat 32 (landValue h.d (b.w h.base).toNat v)) b := by
  have hw : b.value h.base 1 = (b.w h.base).toNat := by simp [Blk.value, leWords]
  simp only [landed, landProg, Prog.run_get, Prog.run_seq, one, cls, hw]
  rfl

/-- A write of a register that holds what it is given back: every field of it is write-only or counts. -/
theorem landed_wo (h : Hit) (v : Nat) (b : Blk) (w : regsWf b.regs = true) (one : h.d.words = 1)
    (cls : h.d.cls = none) (wo : (h.d.fields.all fun f => f.ty == .wo || f.ty == .rc || f.ty == .occ) = true) :
    landed h v b = b := by
  have e : ∀ old, landValue h.d old v = old := by
    intro old
    unfold landValue
    generalize h.d.fields = l at wo
    induction l with
    | nil => rfl
    | cons f l ih =>
      simp only [List.all_cons, Bool.and_eq_true] at wo
      rw [List.foldl_cons]
      have hf := wo.1
      revert hf
      cases f.ty <;> simp <;> exact ih wo.2
  have hw : b.value h.base 1 = (b.w h.base).toNat := by simp [Blk.value, leWords]
  simp only [landed, landProg, Prog.run_get, Prog.run_seq, one, cls, e, hw]
  have : toWords 1 (b.w h.base).toNat = [b.w h.base] := by simp [toWords]
  rw [this]
  show (⟨mapSet defaultWord b.regs (h.base + 4 * 0) (b.w h.base), _, _, _, _, _, _, _, _, _, _⟩ : Blk) = b
  rw [show mapSet defaultWord b.regs (h.base + 4 * 0) (b.w h.base) = b.regs from mapSet_get _ _ _ w]

theorem wholeWrite_lands (h : Hit) (off v : Nat) (b : Blk) (ro : h.readOnly = false)
    (ld : loadReg h.base = false) (rj : b.rejects h v = false) :
    (wholeWrite h off v).run b = (writeAct b h.base v).run (landed h v b) := by
  simp [wholeWrite, rj, acceptWrite, ro, progIf, raisedLoad, ld, landed]

theorem regWriteProg_run (off v : Nat) (h : Hit) (b : Blk) (hf : findReg off = some h) :
    (regWriteProg off v).run b = (wholeWrite h off v).run (unheld b) := by
  simp only [regWriteProg, hf, Prog.run_seq]; rfl

/-- A write that leaves the regions being loaded as they are is not rejected for a TABLE_LOAD (R398). -/
theorem busiesLoad_none (b after : Blk) (h : b.aux.loads = []) : b.busiesLoad after = false := by
  simp [Blk.busiesLoad, h]
theorem busiesLoad_same (b : Blk) : b.busiesLoad b = false := by simp [Blk.busiesLoad]

/-- Which bytes of the window are busy hangs on registers of the SEQ, OVL, SRV and FLT blocks only. -/
theorem busyByte_put (b : Blk) (off : Nat) (w : Word) (wf : regsWf b.regs = true)
    (h : off / 65536 ≠ 3 ∧ off / 65536 ≠ 5 ∧ off / 65536 ≠ 6 ∧ off / 65536 ≠ 10) (o : Nat) :
    (put off w b).busyByte o = b.busyByte o := by
  have g : ∀ a, (a / 65536 = 3 ∨ a / 65536 = 5 ∨ a / 65536 = 6 ∨ a / 65536 = 10) → (put off w b).w a = b.w a :=
    fun a ha => w_put_other b off a w wf (by rintro rfl; omega)
  have st : ∀ d, d < 48 → (put off w b).mode d = b.mode d := fun d hd => by
    unfold Blk.mode Blk.f
    rw [g (Reg.SEQ_DOM_STAT d) (by simp only [Reg.SEQ_DOM_STAT]; omega)]
  have ax : ∀ n, n < 96 → (put off w b).w (Reg.SRV_AXIS_CFG n) = b.w (Reg.SRV_AXIS_CFG n) ∧
      (put off w b).w (actOff (Reg.SRV_AXIS_CFG n)) = b.w (actOff (Reg.SRV_AXIS_CFG n)) := fun n hn => by
    have e : Reg.SRV_AXIS_CFG n / 65536 = 6 := by simp only [Reg.SRV_AXIS_CFG]; omega
    have e2 : actOff (Reg.SRV_AXIS_CFG n) = Reg.SRV_AXIS_CFG n + 0x8000 := by
      unfold actOff
      rw [if_neg (by omega), e]
      rfl
    refine ⟨g _ (by omega), g _ ?_⟩
    rw [e2]; simp only [Reg.SRV_AXIS_CFG] at *; omega
  have fb : ∀ f, f < 2 → ∀ x, x = Reg.FLT_BAR_LEVSEL f ∨ x = Reg.FLT_BAR_CFG f → (put off w b).w x = b.w x ∧
      (put off w b).w (actOff x) = b.w (actOff x) := fun f hf x hx => by
    have e : x / 65536 = 10 ∧ (x + 0x200) / 65536 = 10 := by
      simp only [Reg.FLT_BAR_LEVSEL, Reg.FLT_BAR_CFG] at hx; omega
    have e2 : actOff x = x + 0x200 := by
      unfold actOff
      rw [if_neg (by omega), e.1]
      rfl
    refine ⟨g _ (by omega), g _ ?_⟩
    rw [e2]; omega
  have zc : ∀ x, x = Reg.OVL_ZONE_CFG ∨ x = actOff Reg.OVL_ZONE_CFG ∨ x = Reg.SEQ_COAT → (put off w b).w x = b.w x := fun x hx =>
    g _ (by rcases hx with rfl | rfl | rfl <;> decide)
  unfold Blk.busyByte
  split
  · rfl
  · rename_i n e
    by_cases hn : n < 96
    · unfold Blk.f Blk.a; rw [(ax n hn).1, (ax n hn).2]
    · simp [hn]
  · rename_i n e
    by_cases hn : n < 96
    · unfold Blk.f Blk.a; rw [(ax n hn).1, (ax n hn).2]
    · simp [hn]
  · rename_i n e
    have hn : n < 32 := by
      unfold regionOf at e
      repeat (split at e; first | (cases e; omega) | cases e)
      cases e
    rw [st n (by omega)]
  · rename_i k e
    unfold Blk.a Blk.f
    rw [zc _ (.inl rfl), zc _ (.inr (.inl rfl))]
    rfl
  · rename_i e
    have hn : (o - 0x600000) / 0x1000 < 8 := by
      unfold regionOf at e
      repeat (split at e; first | (cases e; omega) | cases e)
      cases e
    rw [st _ (by simp only [dCam]; omega)]
  · rename_i f x e
    have hf : f < 2 := by
      unfold regionOf at e
      repeat (split at e; first | (cases e; omega) | cases e)
      cases e
    unfold Blk.floatBusy Blk.f Blk.a
    dsimp only
    rw [(fb f hf _ (.inl rfl)).1, (fb f hf _ (.inl rfl)).2, (fb f hf _ (.inr rfl)).1, (fb f hf _ (.inr rfl)).2]
    rfl
  · unfold Blk.phaseNo Blk.coatNo Blk.f
    rw [zc _ (.inr (.inr rfl))]
    rfl
  · rfl
/-- A write to any other block leaves the regions being loaded as they are (R398). -/
theorem busiesLoad_put (b : Blk) (off : Nat) (w : Word) (wf : regsWf b.regs = true)
    (h : off / 65536 ≠ 3 ∧ off / 65536 ≠ 5 ∧ off / 65536 ≠ 6 ∧ off / 65536 ≠ 10) : b.busiesLoad (put off w b) = false := by
  have e : ∀ o n, (put off w b).busyRange o n = b.busyRange o n := fun o n => by
    unfold Blk.busyRange; simp only [busyByte_put b off w wf h]
  simp [Blk.busiesLoad, e]

/-- Marking a register of another kind as written leaves the busy bytes as they are. -/
theorem busyByte_dirty (b : Blk) (off : Nat) (h : off ≠ Reg.OVL_ZONE_CFG) (o : Nat) :
    ((markDirty off).run b).busyByte o = b.busyByte o := by
  have e : ((markDirty off).run b).aux.dirty.contains Reg.OVL_ZONE_CFG = b.aux.dirty.contains Reg.OVL_ZONE_CFG := by
    simp only [markDirty, modAux, Prog.run, Prim.apply]
    split
    · rfl
    · simp [List.mem_append, Ne.symm h]
  unfold Blk.busyByte
  rw [e]
  rfl

/-- A write to a one-word register of any other block leaves the regions being loaded as they are (R398). -/
theorem busiesLoad_landed (h : Hit) (v : Nat) (b : Blk) (w : regsWf b.regs = true) (one : h.d.words = 1)
    (k : h.base / 65536 ≠ 3 ∧ h.base / 65536 ≠ 5 ∧ h.base / 65536 ≠ 6 ∧ h.base / 65536 ≠ 10) :
    b.busiesLoad (landed h v b) = false := by
  have hw : b.value h.base 1 = (b.w h.base).toNat := by simp [Blk.value, leWords]
  have e : ∀ o, (landed h v b).busyByte o = b.busyByte o := fun o => by
    simp only [landed, landProg, Prog.run_get, Prog.run_seq, one, hw]
    show ((progIf h.d.cls.isSome (progEach _ _)).run (put h.base _ b)).busyByte o = _
    cases h.d.cls.isSome
    · exact busyByte_put _ _ _ w k o
    · refine (busyByte_dirty _ _ ?_ o).trans (busyByte_put _ _ _ w k o)
      show h.base + 4 * 0 ≠ _
      intro e
      have e2 : h.base = Reg.OVL_ZONE_CFG := e
      rw [e2] at k
      exact k.2.1 (by decide)
  simp [Blk.busiesLoad, Blk.busyRange, e]

/-- What rejects a write that is no load's: the fields' ranges and the register's own rules. -/
theorem rejects_eq (b : Blk) (h : Hit) (v : Nat) (x : Bool) (ro : h.readOnly = false)
    (k : ∀ c : Blk, b.ruleRejects c h.base v = x) (l : b.busiesLoad (landed h v b) = false) :
    b.rejects h v = (!fieldsOk h.d v || x) := by
  simp only [landed] at l
  simp [Blk.rejects, ro, k, l]

theorem rejects_rule (b : Blk) (h : Hit) (v : Nat) (ro : h.readOnly = false)
    (k : ∀ c : Blk, b.ruleRejects c h.base v = true) : b.rejects h v = true := by
  simp [Blk.rejects, ro, k]

theorem rejects_not (b : Blk) (h : Hit) (v : Nat) (f : fieldsOk h.d v = true)
    (r : ∀ c : Blk, b.ruleRejects c h.base v = false) (l : b.busiesLoad (landed h v b) = false) :
    b.rejects h v = false := by
  simp only [landed] at l
  simp [Blk.rejects, f, r, l]

theorem zip_same (l m : List Nat) (f : Nat × Nat × Nat → Bool) (h : ∀ n a, f (n, n, a) = false) :
    (l.zip (l.zip m)).any f = false := by
  induction l generalizing m with
  | nil => rfl
  | cons x l ih =>
    cases m with
    | nil => simp
    | cons y m => simp [h, ih]

theorem busiesLoad_wo (h : Hit) (v : Nat) (b : Blk) (w : regsWf b.regs = true) (one : h.d.words = 1)
    (cls : h.d.cls = none) (wo : (h.d.fields.all fun f => f.ty == .wo || f.ty == .rc || f.ty == .occ) = true) :
    b.busiesLoad (landed h v b) = false := by rw [landed_wo h v b w one cls wo]; exact busiesLoad_same b

theorem raisedLoad_same (b c : Blk) (base : Nat) (h : c.loads true = b.loads true) : (raisedLoad b base).run c = c := by
  simp only [raisedLoad, progIf]
  split
  · have e := zip_same (b.loads true) (c.loads false) (fun x => decide (x.2.1 < x.1 ∧ x.2.2 < x.1)) fun n a => by simp
    simp only [Prog.run_get, h]
    rw [if_neg (by rw [e]; decide)]
    rfl
  · rfl

/-- A write of a register with write-only fields only acts. -/
theorem write_acts (off v : Nat) (h : Hit) (b : Blk) (w : regsWf b.regs = true) (hf : findReg off = some h)
    (one : h.d.words = 1) (cls : h.d.cls = none)
    (wo : (h.d.fields.all fun f => f.ty == .wo || f.ty == .rc || f.ty == .occ) = true) (base : h.base = off)
    (ro : h.readOnly = false) (ld : loadReg off = false) (rj : (unheld b).rejects h v = false) :
    (regWriteProg off v).run b = (writeAct (unheld b) off v).run (unheld b) := by
  subst base
  rw [regWriteProg_run _ _ _ _ hf, wholeWrite_lands _ _ _ _ ro ld rj,
    landed_wo _ _ (unheld b) w one cls wo]

theorem write_acts_loads (off v : Nat) (h : Hit) (b : Blk) (w : regsWf b.regs = true) (hf : findReg off = some h)
    (one : h.d.words = 1) (cls : h.d.cls = none)
    (wo : (h.d.fields.all fun f => f.ty == .wo || f.ty == .rc || f.ty == .occ) = true) (base : h.base = off)
    (ro : h.readOnly = false) (rj : (unheld b).rejects h v = false)
    (ld : ((writeAct (unheld b) off v).run (unheld b)).loads true = (unheld b).loads true) :
    (regWriteProg off v).run b = (writeAct (unheld b) off v).run (unheld b) := by
  subst base
  have e : (landProg h v).run (unheld b) = unheld b := landed_wo h v (unheld b) w one cls wo
  rw [regWriteProg_run _ _ _ _ hf, wholeWrite, Prog.run_get, rj]
  simp only [acceptWrite, ro, Bool.false_eq_true, if_false, Bool.not_false, progIf, if_true, Prog.run_get,
    progAll_cons_run, progAll_nil_run, e]
  exact raisedLoad_same _ _ _ ld

theorem rejectedWrite_run (off : Nat) (b : Blk) : (rejectedWrite off).run b =
    flagged flReject (put Reg.SYS_MAP_LAST (withF 0
      [(F.SYS_MAP_LAST_OFFSET, off), (F.SYS_MAP_LAST_SRC, 0), (F.SYS_MAP_LAST_KIND, 0)]) b) := by
  rw [rejectedWrite, Prog.run_seq, setFlag_run]; rfl

theorem unmappedWrite_run (off : Nat) (b : Blk) : (unmappedWrite off).run b =
    flagged flUnmapped (put Reg.SYS_MAP_LAST (withF 0
      [(F.SYS_MAP_LAST_OFFSET, off), (F.SYS_MAP_LAST_SRC, 0), (F.SYS_MAP_LAST_KIND, 1)]) b) := by
  rw [unmappedWrite, Prog.run_seq, setFlag_run]; rfl

theorem word_of_mod (x : Nat) : (BitVec.ofNat 32 x).toNat = x % 4294967296 := by simp [BitVec.toNat_ofNat]

/-- A 4-byte write at a word of one-word registers, or at none. -/
theorem mmioWrite_word (off x : Nat) (b : Blk) (ha : off % 4 = 0) :
    (∀ h, findReg off = some h → h.d.words = 1 → h.idx = 0 →
      (mmioWriteProg off 4 x).run b = (wholeWrite h off (x % 2 ^ 32)).run (unheld b)) ∧
    (findReg off = none → (mmioWriteProg off 4 x).run b = (unmappedWrite off).run (unheld b)) := by
  have h8 : ¬ ((4 = 0) ∨ 8 < 4 ∨ 8 < off % 8 + 4) := by omega
  have e0 : (mmioWriteProg off 4 x).run b = (wordWrite off (BitVec.ofNat 32 x)).run b := by
    simp only [mmioWriteProg, ha]
    rw [if_neg h8, if_pos ⟨trivial, trivial⟩]
  refine ⟨fun h hf hw hi => ?_, fun hf => ?_⟩
  · rw [e0]
    simp only [wordWrite, Prog.run_get, Prog.run_seq, hf, hw, hi]
    have : ∀ ws : List Word, ws = [] → leWords (ws ++ [BitVec.ofNat 32 x]) = x % 2 ^ 32 := fun ws e => by
      subst e; simp [leWords]
    rw [if_pos trivial, this]
    · rfl
    · split
      · split
        · rename_i h1; exact List.length_eq_zero_iff.mp h1.2
        · rfl
      · rfl
  · rw [e0]
    simp only [wordWrite, Prog.run_get, Prog.run_seq, hf]
    rfl

end Sys2Proof.Laws
end

