-- ==== Sys2Proof/Laws/Safe.lean ====
section
/-!
SUPPORT. SAFE entry: programs that leave modes and triggers alone, and what the triggers of a command do to the modes
of the domains (R43, R54).
-/
namespace Sys2Proof.Laws

open Sys2Proof.Machine Sys2Proof.Safety

/-! ### Properties of every primitive of a program -/

/-- Every primitive a program may come to has a property. -/
def Every (P : Prim → Prop) : Prog → Prop
  | .skip => True
  | .op p => P p
  | .get k => ∀ b, Every P (k b)
  | .seq p q => Every P p ∧ Every P q

section
variable {P : Prim → Prop}

theorem every_nil : Every P (progAll []) := trivial
theorem every_cons {p : Prog} {l : List Prog} (hp : Every P p) (hl : Every P (progAll l)) : Every P (progAll (p :: l)) :=
  ⟨hp, hl⟩
theorem every_all {l : List Prog} (h : ∀ p ∈ l, Every P p) : Every P (progAll l) := by
  induction l with
  | nil => trivial
  | cons p l ih => exact ⟨h p List.mem_cons_self, ih fun q hq => h q (List.mem_cons_of_mem _ hq)⟩
theorem every_each {α : Type} {l : List α} {f : α → Prog} (h : ∀ x ∈ l, Every P (f x)) : Every P (progEach l f) :=
  every_all fun p hp => by obtain ⟨x, hx, rfl⟩ := List.mem_map.mp hp; exact h x hx
theorem every_if {c : Bool} {p : Prog} (h : Every P p) : Every P (progIf c p) := by
  cases c
  · trivial
  · exact h
theorem every_ite {c : Prop} [Decidable c] {p q : Prog} (hp : Every P p) (hq : Every P q) :
    Every P (if c then p else q) := by
  split
  · exact hp
  · exact hq
theorem every_when {c : Blk → Bool} {p : Prog} (h : Every P p) : Every P (progWhen c p) :=
  fun _ => every_ite h trivial

/-- A property of the block that every primitive with `P` keeps. -/
theorem every_holds {I : Blk → Prop} (h : ∀ p b, P p → I b → I (p.apply b)) {p : Prog} (e : Every P p) : p.Holds I := by
  induction p with
  | skip => exact holds_skip I
  | op p => exact fun b hb => h p b e hb
  | get k ih => exact fun b hb => ih b (e b) b hb
  | seq p q ihp ihq => exact fun b hb => ihq e.2 _ (ihp e.1 b hb)

end

/-! ### Programs that leave modes and triggers alone -/

/-- An offset outside the SYS and SEQ blocks. -/
def Outside (o : Nat) : Prop := 65536 ≤ o ∧ (o < 0x30000 ∨ 0x40000 ≤ o)

/-- A primitive that writes no register of the SYS and SEQ blocks and takes no trigger. -/
def Mild : Prim → Prop
  | .word o _ => Outside o
  | .regsReset => False
  | .aux f => ∀ a, (f a).safeReq = a.safeReq
  | _ => True

theorem mild_setW {o : Nat} {v : Word} (h : Outside o) : Every Mild (setW o v) := h
theorem mild_setF {o x : Nat} {f : Fld} (h : Outside o) : Every Mild (setF o f x) := fun _ => h
theorem mild_modF {o : Nat} {f : Fld} {g : Nat → Nat} (h : Outside o) : Every Mild (modF o f g) := fun _ => h
theorem mild_aux {f : Aux → Aux} (h : ∀ a, (f a).safeReq = a.safeReq) : Every Mild (modAux f) := h
theorem mild_emit (o : Output) : Every Mild (emit o) := fun _ => rfl

/-- A flag outside the SYS and SEQ blocks. -/
def FlagOut (fl : Flag) : Prop := Outside fl.off ∧ ∀ o f, fl.cnt = some (o, f) → Outside o

theorem mild_setFlagBit {fl : Flag} (h : FlagOut fl) : Every Mild (setFlagBit fl) := by
  refine every_cons (mild_setF h.1) (every_cons ?_ every_nil)
  split
  · rename_i o f e; exact mild_modF (h.2 o f e)
  · trivial

theorem mild_raiseEvent (c i d x y z : Nat) : Every Mild (raiseEvent c i d x y z) := fun _ _ => rfl

theorem mild_setFlag {fl : Flag} (h : FlagOut fl) : Every Mild (setFlag fl) :=
  ⟨mild_setFlagBit h, fun b => by
    split
    · exact mild_raiseEvent _ _ _ _ _ _
    · trivial⟩

theorem flagOut_ecc (i : Nat) : FlagOut (flEcc i) :=
  ⟨⟨by simp only [flEcc, Reg.DMC_ECC_STAT]; omega, .inr (by simp only [flEcc, Reg.DMC_ECC_STAT]; omega)⟩,
    fun o f e => by cases e; exact ⟨by decide, .inr (by decide)⟩⟩
theorem flagOut_hm : FlagOut flHmSat :=
  ⟨⟨by decide, .inr (by decide)⟩, fun o f e => by cases e; exact ⟨by decide, .inr (by decide)⟩⟩
theorem flagOut_flt (b i : Nat) : FlagOut (flFlt b i) :=
  ⟨⟨by simp only [flFlt, Reg.FLT_BAR_STAT]; omega, .inr (by simp only [flFlt, Reg.FLT_BAR_STAT]; omega)⟩, fun o f e => by
    cases e; exact ⟨by simp only [Reg.FLT_BAR_OCC]; omega, .inr (by simp only [Reg.FLT_BAR_OCC]; omega)⟩⟩
theorem flagOut_drop (n : Nat) (h : n < 0x700) : FlagOut (flDrop n) :=
  ⟨⟨by simp only [flDrop, Reg.RING_ERR]; omega, .inl (by simp only [flDrop, Reg.RING_ERR]; omega)⟩, fun o f e => by
    cases e; exact ⟨by simp only [Reg.RING_ERR]; omega, .inl (by simp only [Reg.RING_ERR]; omega)⟩⟩

theorem mild_modLane (l : Nat) (f : Lane → Lane) : Every Mild (modLane l f) := fun _ => rfl
theorem mild_modTrowel (h : Nat) (f : Trowel → Trowel) : Every Mild (modTrowel h f) := fun _ => rfl
theorem mild_modPool (h : Nat) (f : Pool → Pool) : Every Mild (modPool h f) := fun _ => rfl
theorem mild_modBar (f : Nat) (g : Bar → Bar) : Every Mild (modBar f g) := fun _ => rfl
theorem mild_modMot (a : Nat) (f : Mot → Mot) : Every Mild (modMot a f) := fun _ => rfl
theorem mild_modLed (g : Nat) (f : LedGrp → LedGrp) : Every Mild (modLed g f) := fun _ => rfl
theorem mild_modCh (n : Nat) (f : LedCh → LedCh) : Every Mild (modCh n f) := fun _ => rfl

theorem mild_dramBytes (a : Nat) (bs : List Byte) : Every Mild (dramBytes a bs) := every_each fun _ _ => trivial
theorem mild_wq (c : Nat) (op : WqOp) : Every Mild (.op (.wq c op)) := trivial
theorem mild_ring (c : Nat) (op : RingOp) : Every Mild (.op (.ring c op)) := trivial
theorem mild_tok (c : Nat) (op : TokOp) : Every Mild (.op (.tok c op)) := trivial
theorem mild_skip : Every Mild .skip := trivial
theorem every_get {P : Prim → Prop} {k : Blk → Prog} (h : ∀ b, Every P (k b)) : Every P (.get k) := h
theorem every_seq {P : Prim → Prop} {p q : Prog} (hp : Every P p) (hq : Every P q) : Every P (.seq p q) := ⟨hp, hq⟩

theorem mild_issueAll (n c : Nat) : Every Mild (issueAll n c) := by
  induction n with
  | zero => exact mild_skip
  | succ n ih => exact every_seq (mild_wq _ _) ih

theorem mild_drainWq (c : Nat) : Every Mild (drainWq c) := every_get fun _ => every_if (mild_issueAll _ _)

theorem mild_wakeDram : Every Mild wakeDram := every_when (mild_setF ⟨by decide, .inr (by decide)⟩)

theorem mild_passLine (port line lo n : Nat) {p : Prog} (h : Every Mild p) : Every Mild (passLine port line lo n p) := by
  refine every_get fun b => every_ite (every_seq ?_ (mild_setFlag (flagOut_ecc 2)))
    (every_cons mild_wakeDram (every_cons (mild_wq _ _) (every_cons (mild_drainWq _)
      (every_cons (every_if (mild_aux fun _ => rfl)) (every_cons h every_nil)))))
  exact every_cons (mild_setW ⟨by decide, .inr (by decide)⟩)
    (every_cons (mild_setW ⟨by decide, .inr (by decide)⟩) every_nil)

theorem mild_writeLine (port line lo : Nat) (bs : List Byte) : Every Mild (writeLine port line lo bs) :=
  mild_passLine _ _ _ _ (mild_dramBytes _ _)

theorem mild_writeLines (n port a : Nat) (bs : List Byte) : Every Mild (writeLines n port a bs) := by
  induction n generalizing a bs with
  | zero => exact mild_skip
  | succ n ih =>
    simp only [writeLines]
    exact every_ite mild_skip (every_seq (mild_writeLine _ _ _ _) (ih _ _))

theorem mild_flushCell (scale esh : Nat) (cell : Nat × Nat) : Every Mild (flushCell scale esh cell) :=
  every_get fun _ => every_if (every_cons (mild_writeLines _ _ _ _)
    (every_cons (mild_aux fun _ => rfl) (every_cons (every_if (mild_setFlag flagOut_hm)) every_nil)))

theorem mild_flushDeposits (h : Nat) : Every Mild (flushDeposits h) :=
  every_get fun _ => every_seq (mild_modPool _ _) (every_each fun _ _ => mild_flushCell _ _ _)

theorem mild_headSafe (h : Nat) : Every Mild (headSafe h) := by
  refine every_get fun b => every_cons (mild_emit _) (every_cons (mild_modLane _ _) (every_cons ?_
    (every_cons (mild_modTrowel _ _) (every_cons (mild_flushDeposits h) every_nil))))
  split <;> exact mild_modTrowel _ _

theorem mild_dropEntry (n : Nat) (p : Bool) (h : n < 0x700) : Every Mild (dropEntry n p) :=
  every_seq (mild_ring _ _) (mild_setFlag (flagOut_drop n h))

theorem mild_wantIrq (v : Nat) : Every Mild (wantIrq v) := fun _ => rfl

theorem mild_ringModerate (n : Nat) (now : Bool) : Every Mild (ringModerate n now) :=
  every_get fun _ => every_if (every_get fun _ => every_seq (mild_ring _ _) (mild_wantIrq _))

theorem outside_idx (n : Nat) (h : n < 0x700) : Outside (Reg.RING_IDX n) := by
  simp only [Outside, Reg.RING_IDX]; omega

theorem mild_putSlot (n : Nat) (ws : List Word) (h : n < 0x700) : Every Mild (putSlot n ws) :=
  every_get fun _ => every_seq (mild_emit _) (mild_setW (outside_idx n h))

theorem mild_complete (ring st d : Nat) (b : Blk) (hr : ring < 0x700) (h : ∀ x, b.front ring = some x → x.cq < 0x700) :
    ∃ p, Every Mild p ∧ (complete ring st d).run b = p.run b := by
  simp only [complete, Prog.run_get]
  cases hf : b.front ring with
  | none => exact ⟨.skip, mild_skip, rfl⟩
  | some x =>
    have hq := h x hf
    refine ⟨_, ?_, rfl⟩
    exact every_cons (mild_setW (outside_idx ring hr)) (every_cons (mild_ring _ _) (every_cons
      (every_ite (mild_dropEntry _ _ hq) (every_cons (mild_putSlot _ _ hq) (every_cons (mild_ring _ _)
        (every_cons (mild_ringModerate _ _) every_nil)))) every_nil))

/-! ### A block that stands still but for what mild programs change -/

/-- Every fetched descriptor names its completion ring in eight bits. -/
def Named (b : Blk) : Prop := ∀ r ∈ b.rings, ∀ d ∈ r.fetched, d.cq < 256

theorem named_ring (r : Ring) (op : RingOp) (h : ∀ d ∈ r.fetched, d.cq < 256) : ∀ d ∈ (ringApply r op).fetched, d.cq < 256 := by
  cases op with
  | fetch ws cq =>
    simp only [ringApply]
    split
    · intro d hd
      rcases List.mem_append.mp hd with hd | hd
      · exact h d hd
      · rw [List.mem_singleton.mp hd]; exact Nat.mod_lt _ (by decide)
    · exact h
  | start =>
    simp only [ringApply]
    split
    · exact h
    · next x ds hd =>
      intro d hm
      rw [hd] at h
      rcases List.mem_cons.mp hm with rfl | hm
      · exact h x List.mem_cons_self
      · exact h d (List.mem_cons_of_mem _ hm)
  | markAbort => exact markAbortIn_cq _ _ h
  | finish => exact fun d hd => h d (List.mem_of_mem_tail hd)
  | clear => intro d hd; cases hd
  | _ => exact h

theorem named_apply (p : Prim) (b : Blk) (h : Named b) : Named (p.apply b) := by
  cases p <;> first | exact h | exact all_modify _ _ (fun r hr => named_ring r _ hr) _ _ h

theorem named_front {b : Blk} (h : Named b) (n : Nat) (x : Fetched) (e : b.front n = some x) : x.cq < 256 := by
  unfold Blk.front Blk.ring at e
  rw [List.getD_eq_getElem?_getD] at e
  cases hr : b.rings[n]? with
  | none => rw [hr] at e; cases e
  | some r =>
    rw [hr] at e
    exact h r (List.mem_of_getElem? hr) x (List.mem_of_mem_head? e)

/-- A block whose SYS and SEQ registers and triggers are those of another. -/
structure Still (b0 b : Blk) : Prop where
  named : Named b
  regs : regsWf b.regs = true
  triggers : b.aux.safeReq = b0.aux.safeReq
  word : ∀ o, ¬ Outside o → b.w o = b0.w o

theorem still_self {b : Blk} (h : Named b) (w : regsWf b.regs = true) : Still b b := ⟨h, w, rfl, fun _ _ => rfl⟩

theorem still_trans {a b c : Blk} (h : Still a b) (k : Still b c) : Still a c :=
  ⟨k.named, k.regs, k.triggers.trans h.triggers, fun o ho => (k.word o ho).trans (h.word o ho)⟩

theorem mild_still {b0 : Blk} {p : Prog} (e : Every Mild p) : p.Holds (Still b0) :=
  every_holds (I := Still b0) (fun q b hq h => by
    cases q with
    | word o v =>
      exact ⟨h.named, mapWf_set _ _ _ _ h.regs, h.triggers, fun i hi =>
        (w_put_other b o i v h.regs fun e => hi (e ▸ hq)).trans (h.word i hi)⟩
    | regsReset => exact absurd hq id
    | aux f => exact ⟨h.named, h.regs, (hq b.aux).trans h.triggers, h.word⟩
    | ring n op => exact ⟨named_apply (.ring n op) b h.named, h.regs, h.triggers, h.word⟩
    | _ => exact ⟨h.named, h.regs, h.triggers, h.word⟩) e

theorem complete_still {b0 : Blk} (ring st d : Nat) (hr : ring < 0x700) : (complete ring st d).Holds (Still b0) :=
  fun b h => by
    obtain ⟨p, hp, e⟩ := mild_complete ring st d b hr fun x hx =>
      Nat.lt_trans (named_front h.named ring x hx) (by decide)
    rw [e]
    exact mild_still hp b h

section
variable {b0 : Blk}

theorem still_nil : (progAll []).Holds (Still b0) := holds_skip _
theorem still_cons {p : Prog} {l : List Prog} (hp : p.Holds (Still b0)) (hl : (progAll l).Holds (Still b0)) :
    (progAll (p :: l)).Holds (Still b0) := holds_seq hp hl

theorem abandonMeas_still (f : Nat) : (abandonMeas f).Holds (Still b0) := by
  refine holds_get fun b _ => still_cons (holds_each fun m _ => ?_) (still_cons (mild_still (mild_modBar _ _)) still_nil)
  split
  · exact complete_still _ _ _ (by omega)
  · exact holds_skip _

theorem mild_endLine (f : Nat) (cut : Bool) : Every Mild (endLine f cut) := by
  refine every_get fun b => ?_
  cases (b.bar f).cur with
  | none => exact mild_skip
  | some x => exact every_cons (mild_tok _ _) (every_cons (every_if (mild_setFlag (flagOut_flt _ _)))
      (every_cons (every_if (mild_setFlag (flagOut_flt _ _))) (every_cons (mild_modBar _ _)
        (every_cons (every_get fun _ => mild_modBar _ _) every_nil))))

theorem abandonFire_still (f : Nat) : (abandonFire f).Holds (Still b0) := by
  refine holds_get fun b _ => ?_
  split
  · exact holds_skip _
  · refine holds_seq (mild_still (mild_modBar _ _)) ?_
    split
    · exact complete_still _ _ _ (by omega)
    · exact holds_seq (mild_still (mild_tok _ _)) (complete_still _ _ _ (by omega))

theorem barSafe_still (f : Nat) : (barSafe f).Holds (Still b0) :=
  still_cons (mild_still (mild_emit _)) (still_cons (mild_still (mild_emit _)) (still_cons (mild_still (mild_endLine _ _))
    (still_cons (abandonMeas_still f) (still_cons (abandonFire_still f)
      (still_cons (mild_still (mild_modBar _ _)) still_nil)))))

theorem mild_haltAxis (a st : Nat) (l q : Bool) : Every Mild (haltAxis a st l q) := by
  refine every_get fun b => ?_
  cases (b.mot a).go with
  | none => exact mild_skip
  | some g => exact mild_modMot _ _

theorem mild_groupSafe (g : Nat) : Every Mild (groupSafe g) :=
  every_each fun _ _ => every_seq (mild_modMot _ _) (mild_haltAxis _ _ _ _)

theorem mild_barGroupSafe (f : Nat) : Every Mild (barGroupSafe f) := every_when (mild_modBar _ _)

theorem mild_ledCamSafe (c : Nat) : Every Mild (ledCamSafe c) :=
  every_each fun _ _ => every_when (every_seq (every_each fun _ _ => every_when (every_seq (mild_modCh _ _) (mild_emit _)))
    (mild_modLed _ _))

end

/-! ### Modes -/

theorem mode_of_word (b : Blk) (d : Nat) : b.mode d = modeOf (F.SEQ_DOM_STAT_MODE.get (b.w (Reg.SEQ_DOM_STAT d))) := rfl

theorem transWord_mode (w : Word) (m : Mode) (c : Cause) : modeOf (F.SEQ_DOM_STAT_MODE.get (transWord w m c)) = m := by
  unfold transWord
  rw [get_put_other _ _ _ _ (by decide) (by decide), get_put_other _ _ _ _ (by decide) (by decide),
    get_put_other _ _ _ _ (by decide) (by decide), get_put _ _ _ (by decide)]
  cases m <;> rfl

theorem setMode_mode (d e : Nat) (m : Mode) (c : Cause) (b : Blk) (w : regsWf b.regs = true) :
    ((setMode d m c).run b).mode e = if e = d then m else b.mode e := by
  simp only [mode_of_word]
  show modeOf (F.SEQ_DOM_STAT_MODE.get ((put (Reg.SEQ_DOM_STAT d) _ b).w (Reg.SEQ_DOM_STAT e))) = _
  split
  · rename_i h
    subst h
    rw [w_put_same _ _ _ w, transWord_mode]
  · rename_i h
    rw [w_put_other _ _ _ _ w (by simp only [Reg.SEQ_DOM_STAT]; omega)]

theorem still_mode {b0 b : Blk} (h : Still b0 b) (d : Nat) (l : d < 0x700) : b.mode d = b0.mode d := by
  rw [mode_of_word, h.word _ (by simp only [Outside, Reg.SEQ_DOM_STAT]; omega)]; rfl

/-! ### SAFE entry -/

theorem mild_keep (d : Nat) (fl : Option (Nat × Nat)) : Every Mild (modAux (keepFlag d fl)) := fun _ => rfl

/-- What SAFE entries do to the modes: the domains of `D` that were neither in OFF nor in SAFE are in SAFE, the others
as they were; the SYS registers and the triggers are untouched. -/
structure Entered (D : Nat → Prop) (b0 b : Blk) : Prop where
  named : Named b
  regs : regsWf b.regs = true
  triggers : b.aux.safeReq = b0.aux.safeReq
  sys : ∀ o, o < 65536 → b.w o = b0.w o
  yes : ∀ d, d < 48 → D d → b0.mode d ≠ .off → b.mode d = .safe
  no : ∀ d, d < 48 → ¬ D d ∨ b0.mode d = .off → b.mode d = b0.mode d

theorem entered_self {b : Blk} (h : Named b) (w : regsWf b.regs = true) : Entered (fun _ => False) b b :=
  ⟨h, w, rfl, fun _ _ => rfl, fun _ _ h => h.elim, fun _ _ _ => rfl⟩

theorem entered_still {D : Nat → Prop} {a b c : Blk} (h : Entered D a b) (k : Still b c) : Entered D a c :=
  ⟨k.named, k.regs, k.triggers.trans h.triggers, fun o ho => (k.word o fun x => by unfold Outside at x; omega).trans (h.sys o ho),
    fun d l x y => (still_mode k d (by omega)).trans (h.yes d l x y),
    fun d l x => (still_mode k d (by omega)).trans (h.no d l x)⟩

theorem enterSafe_skip (r : SafeReq) (b : Blk) (hm : b.mode r.dom = .off ∨ b.mode r.dom = .safe) :
    (enterSafe r).run b = b := by
  simp only [enterSafe, Prog.run_get, if_pos hm, Prog.run_skip]

theorem enterSafe_run (r : SafeReq) (b : Blk) (hm : ¬ (b.mode r.dom = .off ∨ b.mode r.dom = .safe)) :
    (enterSafe r).run b = (safeEffects r).run ((setMode r.dom .safe r.cause).run b) := by
  rw [enterSafe, Prog.run_get, if_neg hm, Prog.run_seq]

theorem safeEffects_still {b0 : Blk} (r : SafeReq) (l : r.dom < 47) : (safeEffects r).Holds (Still b0) := by
  have hk : kindOf r.dom ≠ .core := by
    unfold kindOf
    repeat' split
    all_goals first | decide | omega
  refine holds_seq (mild_still (mild_keep _ _)) ?_
  split
  · exact mild_still (mild_headSafe _)
  · exact barSafe_still _
  · exact mild_still (every_seq (mild_groupSafe _) (every_each fun _ _ => every_when (mild_barGroupSafe _)))
  · exact mild_still (mild_ledCamSafe _)
  · exact mild_still (every_get fun _ => every_get fun _ => mild_aux fun _ => rfl)
  · rename_i hc; exact absurd hc hk

theorem setMode_put (d : Nat) (m : Mode) (c : Cause) (b : Blk) : (setMode d m c).run b =
    put (Reg.SEQ_DOM_STAT d) (transWord (b.w (Reg.SEQ_DOM_STAT d)) m c) b := rfl

theorem named_put (o : Nat) (v : Word) (b : Blk) (h : Named b) : Named (put o v b) := h
theorem named_withAux (f : Aux → Aux) (b : Blk) (h : Named b) : Named (withAux f b) := h
theorem triggers_put (o : Nat) (v : Word) (b : Blk) : (put o v b).aux = b.aux := rfl
theorem withAux_aux (f : Aux → Aux) (b : Blk) : (withAux f b).aux = f b.aux := rfl
theorem withAux_w (f : Aux → Aux) (b : Blk) (o : Nat) : (withAux f b).w o = b.w o := rfl
theorem withAux_mode (f : Aux → Aux) (b : Blk) (d : Nat) : (withAux f b).mode d = b.mode d := rfl
theorem withAux_regs (f : Aux → Aux) (b : Blk) : (withAux f b).regs = b.regs := rfl

theorem setMode_word (d : Nat) (m : Mode) (c : Cause) (b : Blk) (o : Nat) (w : regsWf b.regs = true) (l : o < 65536) :
    ((setMode d m c).run b).w o = b.w o := by
  rw [setMode_put]
  exact w_put_other _ _ _ _ w (by simp only [Reg.SEQ_DOM_STAT]; omega)

theorem setMode_entered (d : Nat) (c : Cause) (b : Blk) (h : Named b) (w : regsWf b.regs = true)
    (hm : ¬ (b.mode d = .off ∨ b.mode d = .safe)) :
    Entered (fun e => e = d) b ((setMode d .safe c).run b) := by
  have m1 : ∀ e, ((setMode d .safe c).run b).mode e = if e = d then .safe else b.mode e :=
    fun e => setMode_mode _ _ _ _ _ w
  refine ⟨?_, regsWf_run _ _ w, ?_, fun o ho => setMode_word _ _ _ _ _ w ho, fun e _ he _ => ?_, fun e _ he => ?_⟩
  · rw [setMode_put]; exact named_put _ _ _ h
  · rw [setMode_put, triggers_put]
  · rw [m1, if_pos he]
  · rw [m1]
    rcases he with he | he
    · rw [if_neg he]
    · by_cases k : e = d
      · exact absurd (.inl (k ▸ he)) hm
      · rw [if_neg k]

/-- One domain other than the core. -/
theorem enterSafe_entered (r : SafeReq) (b : Blk) (h : Named b) (w : regsWf b.regs = true) (l : r.dom < 47) :
    Entered (fun d => d = r.dom) b ((enterSafe r).run b) := by
  by_cases hm : b.mode r.dom = .off ∨ b.mode r.dom = .safe
  · rw [enterSafe_skip r b hm]
    refine ⟨h, w, rfl, fun _ _ => rfl, fun d _ hd ho => ?_, fun _ _ _ => rfl⟩
    subst hd
    exact hm.resolve_left ho
  · rw [enterSafe_run r b hm]
    have base := setMode_entered r.dom r.cause b h w hm
    exact entered_still base (safeEffects_still r l _ (still_self base.named base.regs))

/-- Several domains other than the core. -/
theorem enterSafes_entered (l : List SafeReq) (b : Blk) (h : Named b) (w : regsWf b.regs = true)
    (hl : ∀ r ∈ l, r.dom < 47) : Entered (fun d => ∃ r ∈ l, r.dom = d) b ((progEach l enterSafe).run b) := by
  induction l generalizing b with
  | nil => exact ⟨h, w, rfl, fun _ _ => rfl, fun _ _ ⟨_, h, _⟩ => (by cases h), fun _ _ _ => rfl⟩
  | cons r l ih =>
    rw [progEach_cons_run]
    have e1 := enterSafe_entered r b h w (hl r List.mem_cons_self)
    have e2 := ih _ e1.named e1.regs fun x hx => hl x (List.mem_cons_of_mem _ hx)
    refine ⟨e2.named, e2.regs, e2.triggers.trans e1.triggers, fun o ho => (e2.sys o ho).trans (e1.sys o ho),
      fun d ld hd ho => ?_, fun d ld hd => ?_⟩
    · obtain ⟨x, hx, rfl⟩ := hd
      by_cases e : x.dom = r.dom
      · have s1 : ((enterSafe r).run b).mode x.dom = .safe := e1.yes _ ld e ho
        by_cases k : ∃ y ∈ l, y.dom = x.dom
        · exact e2.yes _ ld k (by rw [s1]; decide)
        · rw [e2.no _ ld (.inl k), s1]
      · have s1 := e1.no x.dom ld (.inl e)
        rcases List.mem_cons.mp hx with rfl | hx
        · exact absurd rfl e
        · exact e2.yes _ ld ⟨x, hx, rfl⟩ (by rw [s1]; exact ho)
    · rcases hd with hd | hd
      · have n1 : ¬ d = r.dom := fun e => hd ⟨r, List.mem_cons_self, e.symm⟩
        have n2 : ¬ ∃ y ∈ l, y.dom = d := fun ⟨y, hy, e⟩ => hd ⟨y, List.mem_cons_of_mem _ hy, e⟩
        rw [e2.no d ld (.inl n2), e1.no d ld (.inl n1)]
      · have s1 := e1.no d ld (.inr hd)
        rw [e2.no d ld (.inr (s1.trans hd)), s1]

/-- Triggers are added, and the transitions that wait for their domains are aged. -/
def addSafe (l : List SafeReq) (a : Aux) : Aux :=
  { a with safeReq := a.safeReq ++ l, trans := a.trans.map fun t => l.foldl (fun t r => Trans.aged r.dom t) t }

theorem addSafe_req (l : List SafeReq) (a : Aux) : (addSafe l a).safeReq = a.safeReq ++ l := rfl
theorem addSafe_nil (a : Aux) : addSafe [] a = a := by simp [addSafe]
theorem addSafe_add (l m : List SafeReq) (a : Aux) : addSafe m (addSafe l a) = addSafe (l ++ m) a := by
  simp [addSafe, List.foldl_append, Function.comp_def]
theorem addSafe_one (r : SafeReq) (a : Aux) :
    addSafe [r] a = { a with safeReq := a.safeReq ++ [r], trans := a.trans.map (Trans.aged r.dom) } := rfl

theorem coreEffect_run (d : Nat) (b : Blk) : (coreEffect d).run b =
    withAux (addSafe (if coreStops (b.mode dCore) d (b.mode d) then [⟨d, .core, none⟩] else [])) b := by
  simp only [coreEffect, Prog.run_get, progIf]
  split
  · rfl
  · show b = _; simp [withAux, addSafe_nil]

theorem coreEffects_run (l : List Nat) (b : Blk) : (progEach l coreEffect).run b =
    withAux (addSafe ((l.filter fun d => coreStops (b.mode dCore) d (b.mode d)).map fun d => ⟨d, .core, none⟩)) b := by
  induction l generalizing b with
  | nil => show b = _; simp [withAux, addSafe_nil]
  | cons d l ih =>
    rw [progEach_cons_run, ih, coreEffect_run]
    have hm : ∀ f : Aux → Aux, ∀ e, (withAux f b).mode e = b.mode e := fun _ _ => rfl
    have hw : ∀ f g : Aux → Aux, withAux f (withAux g b) = withAux (fun a => f (g a)) b := fun _ _ => rfl
    simp only [hm, hw, addSafe_add, List.filter_cons]
    split <;> rfl

theorem drainSafe_cons (n : Nat) (r : SafeReq) (rs : List SafeReq) (b : Blk) (t : b.aux.safeReq = r :: rs) :
    (drainSafe (n + 1)).run b =
      (drainSafe n).run ((progEach (r :: rs) enterSafe).run (withAux noSafe b)) := by
  simp only [drainSafe, Prog.run_get, t]
  rfl

theorem clear_self (b : Blk) (t : b.aux.safeReq = []) : withAux noSafe b = b := by
  show (⟨_, _, _, _, _, _, _, _, _, _, { b.aux with safeReq := [] }⟩ : Blk) = b
  rw [← t]

/-- Triggers of domains other than the core. -/
theorem drain_columns (n : Nat) (l : List SafeReq) (b : Blk) (h : Named b) (w : regsWf b.regs = true)
    (t : b.aux.safeReq = l) (hl : ∀ r ∈ l, r.dom < 47) :
    Entered (fun d => ∃ r ∈ l, r.dom = d) (withAux noSafe b) ((drainSafe (n + 1)).run b) := by
  have e := enterSafes_entered l (withAux noSafe b) h w hl
  cases l with
  | nil =>
    rw [drainSafe_quiet _ _ t]
    rw [clear_self b t] at e ⊢
    exact e
  | cons r rs =>
    rw [drainSafe_cons n r rs b t, drainSafe_quiet n _ e.triggers]
    exact e

/-- The domains that the core takes into SAFE, as triggers. -/
def taken (b : Blk) : List SafeReq :=
  ((List.range 46).filter fun d => coreStops .safe d (b.mode d)).map fun d => ⟨d, .core, none⟩

theorem keepFlag_req (d : Nat) (fl : Option (Nat × Nat)) (a : Aux) : (keepFlag d fl a).safeReq = a.safeReq := rfl

/-- What the core's entry notes beside its triggers (R434). -/
def coreNote (r : SafeReq) (a : Aux) : Aux := { keepFlag r.dom r.flag a with evrFlush := true }

theorem coreNote_req (r : SafeReq) (a : Aux) : (coreNote r a).safeReq = a.safeReq := rfl

theorem safeEffects_core (r : SafeReq) (h : r.dom = dCore) (x : Blk) :
    (safeEffects r).run x = (progEach (List.range 46) coreEffect).run (withAux (coreNote r) x) := by
  have k : kindOf r.dom = .core := by rw [h]; decide
  rw [safeEffects, Prog.run_seq, modAux_withAux]
  simp only [k]
  rw [Prog.run_seq, modAux_withAux]
  rfl

theorem taken_congr (l : List Nat) (f g : Nat → Bool) (h : ∀ d ∈ l, f d = g d) :
    (l.filter f).map (fun d => (⟨d, .core, none⟩ : SafeReq)) = (l.filter g).map fun d => ⟨d, .core, none⟩ := by
  rw [List.filter_congr h]

/-- The core enters SAFE: its own mode, and the domains it takes along as triggers. -/
theorem enterCore_run (r : SafeReq) (b : Blk) (h : r.dom = dCore) (m : b.mode r.dom ≠ .off) (m2 : b.mode r.dom ≠ .safe)
    (w : regsWf b.regs = true) : (enterSafe r).run b =
      withAux (addSafe (taken b)) (withAux (coreNote r) ((setMode r.dom .safe r.cause).run b)) := by
  rw [enterSafe_run _ b fun x => x.elim m m2, safeEffects_core r h, coreEffects_run]
  have m1 : ∀ e, (withAux (coreNote r) ((setMode r.dom .safe r.cause).run b)).mode e =
      if e = r.dom then .safe else b.mode e := fun e => by
    rw [withAux_mode]; exact setMode_mode _ _ _ _ b w
  have e : taken b = ((List.range 46).filter fun d =>
      coreStops ((withAux (coreNote r) ((setMode r.dom .safe r.cause).run b)).mode dCore) d
        ((withAux (coreNote r) ((setMode r.dom .safe r.cause).run b)).mode d)).map
        fun d => (⟨d, .core, none⟩ : SafeReq) := by
    refine taken_congr _ _ _ fun d hd => ?_
    have ne : d ≠ r.dom := by have := List.mem_range.mp hd; rw [h]; show d ≠ 47; omega
    rw [m1 dCore, if_pos h.symm, m1 d, if_neg ne]
  rw [e]

theorem coreStops_off (d : Nat) : coreStops .safe d .off = false := by
  simp [coreStops]

theorem taken_noSafe (b : Blk) : taken (withAux noSafe b) = taken b :=
  taken_congr _ _ _ fun d _ => by rw [withAux_mode]

theorem taken_dom (b : Blk) (d : Nat) : (∃ r ∈ taken b, r.dom = d) ↔ d < 46 ∧ coreStops .safe d (b.mode d) = true := by
  unfold taken
  constructor
  · rintro ⟨r, hr, rfl⟩
    obtain ⟨e, he, rfl⟩ := List.mem_map.mp hr
    exact ⟨List.mem_range.mp (List.mem_filter.mp he).1, (List.mem_filter.mp he).2⟩
  · intro hd
    exact ⟨_, List.mem_map.mpr ⟨d, List.mem_filter.mpr ⟨List.mem_range.mpr hd.1, hd.2⟩, rfl⟩, rfl⟩

/-- The block once the core has entered SAFE, its triggers not yet taken. -/
structure CoreIn (b0 b : Blk) : Prop where
  named : Named b
  regs : regsWf b.regs = true
  triggers : b.aux.safeReq = taken b0
  sys : ∀ o, o < 65536 → b.w o = b0.w o
  modes : ∀ d, b.mode d = if d = dCore then .safe else b0.mode d

theorem core_in (b : Blk) (r : SafeReq) (hr : r.dom = dCore) (h : Named b) (w : regsWf b.regs = true)
    (t : b.aux.safeReq = [r]) (m : b.mode dCore ≠ .off) (m2 : b.mode dCore ≠ .safe) :
    ∃ b3, (drainSafe 4).run b = (drainSafe 3).run b3 ∧ CoreIn b b3 := by
  have w' : regsWf (withAux noSafe b).regs = true := w
  have r1 := drainSafe_cons 3 _ _ b t
  have e1 := enterCore_run r (withAux noSafe b) hr (by rw [withAux_mode, hr]; exact m) (by rw [withAux_mode, hr]; exact m2) w'
  rw [progEach_cons_run, progEach_nil_run, e1, taken_noSafe] at r1
  refine ⟨_, r1, ?_, ?_, ?_, fun o ho => ?_, fun d => ?_⟩
  · rw [setMode_put]; exact named_withAux _ _ (named_withAux _ _ (named_put _ _ _ (named_withAux _ _ h)))
  · rw [withAux_regs, withAux_regs]; exact regsWf_run _ _ w'
  · rw [withAux_aux, addSafe_req, withAux_aux, coreNote_req, setMode_put, triggers_put, withAux_aux]
    exact List.nil_append _
  · rw [withAux_w, withAux_w, setMode_word _ _ _ _ _ w' ho, withAux_w]
  · rw [withAux_mode, withAux_mode, setMode_mode _ _ _ _ _ w', withAux_mode, hr]

/-- The triggers of a command in which the core enters SAFE. -/
theorem drain_core (b : Blk) (r : SafeReq) (hr : r.dom = dCore) (h : Named b) (w : regsWf b.regs = true)
    (t : b.aux.safeReq = [r]) (m : b.mode dCore ≠ .off) (m2 : b.mode dCore ≠ .safe) :
    Named ((drainSafe 4).run b) ∧ regsWf ((drainSafe 4).run b).regs = true ∧ NoTrigger ((drainSafe 4).run b) ∧
      (∀ o, o < 65536 → ((drainSafe 4).run b).w o = b.w o) ∧ ((drainSafe 4).run b).mode dCore = .safe ∧
      ∀ d, d < 46 → ((drainSafe 4).run b).mode d = if coreStops .safe d (b.mode d) then .safe else b.mode d := by
  obtain ⟨b3, r1, c⟩ := core_in b r hr h w t m m2
  have e5 := drain_columns 2 _ b3 c.named c.regs c.triggers fun x hx =>
    Nat.lt_trans ((taken_dom b _).mp ⟨x, hx, rfl⟩).1 (by decide)
  have mode4 : ∀ d, (withAux noSafe b3).mode d = if d = dCore then .safe else b.mode d := fun d => by
    rw [withAux_mode, c.modes]
  rw [r1]
  refine ⟨e5.named, e5.regs, e5.triggers, fun o ho => (e5.sys o ho).trans (by rw [withAux_w, c.sys o ho]), ?_, fun d hd => ?_⟩
  · rw [e5.no dCore (by decide) (.inl fun x => absurd ((taken_dom b _).mp x).1 (by decide)), mode4, if_pos rfl]
  · have ne : d ≠ dCore := by show d ≠ 47; omega
    split
    · rename_i hs
      refine e5.yes d (by omega) ((taken_dom b d).mpr ⟨hd, hs⟩) ?_
      rw [mode4, if_neg ne]
      intro x
      rw [x, coreStops_off] at hs
      cases hs
    · rename_i hs
      rw [e5.no d (by omega) (.inl fun x => hs ((taken_dom b d).mp x).2), mode4, if_neg ne]

end Sys2Proof.Laws
end

