-- ==== Sys2Proof/Laws/Abort.lean ====
section
/-!
SUPPORT. Commands that take the core into SAFE: what stands after them, and what an abort request leaves (R55, R101).
-/
namespace Sys2Proof.Laws

open Sys2Proof.Machine Sys2Proof.Safety

/-- The end of a command whose triggers were taken is the end of it on the block they leave. -/
theorem finish_drained (b0 b : Blk) (q : NoTrigger ((drainSafe 4).run b)) :
    (finishProg b0).run b = (finishProg b0).run ((drainSafe 4).run b) := by
  simp only [finishProg, progAll_cons_run]
  rw [drainSafe_quiet 4 _ q]

theorem engines_req (a : Aux) : (engines a).safeReq = a.safeReq := rfl
theorem engines_low (a : Aux) : (engines a).safeInLow = a.safeInLow := rfl

/-- A part of the block that the end of a command keeps. -/
theorem finish_mode (b0 b : Blk) (q : NoTrigger b) (w : regsWf b.regs = true) (d : Nat) (l : d < 0x700) :
    ((finishProg b0).run b).mode d = b.mode d := by
  rw [mode_of_word, mode_of_word, finish_regs b0 b _ q w]
  rintro (h | h | ⟨k, hk, h⟩) <;>
    simp only [Reg.SEQ_DOM_STAT, Reg.EVR_STAT, Reg.DMC_DIAG, Reg.MSIX_PBA] at h <;> omega

theorem finish_sys (b0 b : Blk) (q : NoTrigger b) (w : regsWf b.regs = true) (o : Nat) (l : o < 65536) :
    ((finishProg b0).run b).w o = b.w o := by
  refine finish_regs b0 b o q w ?_
  rintro (h | h | ⟨k, hk, h⟩) <;> simp only [Reg.EVR_STAT, Reg.DMC_DIAG, Reg.MSIX_PBA] at h <;> omega

theorem finish_quiet (b0 b : Blk) (q : NoTrigger b) : NoTrigger ((finishProg b0).run b) := by
  have e := apart_engines.finish b0 b q
  unfold NoTrigger at q ⊢
  rw [← engines_req, e, engines_req, q]

/-- A command after whose program the core's entry into SAFE is the one trigger. -/
theorem finish_core (bf b : Blk) (r : SafeReq) (hr : r.dom = dCore) (h : Named b) (w : regsWf b.regs = true)
    (t : b.aux.safeReq = [r]) (m : b.mode dCore ≠ .off) (m2 : b.mode dCore ≠ .safe) :
    SafeAll b ((finishProg bf).run b) := by
  obtain ⟨_, h2, h3, h4, h5, h6⟩ := drain_core b r hr h w t m m2
  rw [finish_drained bf b h3]
  refine ⟨?_, fun d hd => ?_, fun o ho => ?_, finish_quiet _ _ h3⟩
  · rw [finish_mode _ _ h3 h2 _ (by decide), h5]
  · rw [finish_mode _ _ h3 h2 _ (by omega), h6 d hd]
  · rw [finish_sys _ _ h3 h2 _ ho, h4 o ho]

/-- No head has its laser enabled once the core's entry into SAFE has taken the heads along. -/
theorem safeAll_lasers {b0 b : Blk} (h : SafeAll b0 b) : LasersOff b := by
  intro d hd
  have k : kindOf d = .head := by unfold kindOf; rw [if_pos hd]
  have m := h.others d (by omega)
  have : (b.mode d == .armed || b.mode d == .expose || b.mode d == .hold || b.mode d == .drain) = false := by
    rw [m]
    cases b0.mode d <;> simp [coreStops, k]
  simp [Blk.laserEn, this]

/-! ### Commands with any triggers -/

/-- What one pass over the triggers keeps: those it leaves are of domains that the core took along. -/
def Columns (b : Blk) : Prop := Named b ∧ regsWf b.regs = true ∧ ∀ x ∈ b.aux.safeReq, x.dom < 47

theorem columns_effects (r : SafeReq) : (safeEffects r).Holds Columns := by
  intro b ⟨h, w, t⟩
  by_cases l : r.dom < 47
  · have k := safeEffects_still r l b (still_self h w)
    exact ⟨k.named, k.regs, by rw [k.triggers]; exact t⟩
  · have k : kindOf r.dom = .core := by
      unfold kindOf
      rw [if_neg (by omega), if_neg (by omega), if_neg (by omega), if_neg (by omega), if_neg (by omega)]
    rw [safeEffects, Prog.run_seq, modAux_withAux]
    simp only [k]
    rw [Prog.run_seq, modAux_withAux, coreEffects_run]
    refine ⟨named_withAux _ _ (named_withAux _ _ (named_withAux _ _ h)), by rw [withAux_regs, withAux_regs, withAux_regs]; exact w,
      fun x hx => ?_⟩
    rw [withAux_aux, addSafe_req] at hx
    rcases List.mem_append.mp hx with hx | hx
    · exact t x hx
    · obtain ⟨d, hd, rfl⟩ := List.mem_map.mp hx
      have := List.mem_range.mp (List.mem_filter.mp hd).1
      show d < 47
      omega

theorem columns_enter (r : SafeReq) : (enterSafe r).Holds Columns := by
  intro b h
  by_cases m : b.mode r.dom = .off ∨ b.mode r.dom = .safe
  · rw [enterSafe_skip r b m]; exact h
  · rw [enterSafe_run r b m]
    have e := setMode_put r.dom .safe r.cause b
    refine columns_effects r _ ⟨?_, regsWf_run _ _ h.2.1, ?_⟩
    · rw [e]; exact named_put _ _ _ h.1
    · rw [e, triggers_put]; exact h.2.2

/-- Whatever triggers a command took, none is left once they are acted upon. -/
theorem safeTaken_quiet (b : Blk) (h : Named b) (w : regsWf b.regs = true) : NoTrigger (safeTaken b) := by
  unfold safeTaken
  cases t : b.aux.safeReq with
  | nil => rw [drainSafe_quiet _ _ t]; exact t
  | cons r rs =>
    have c : Columns ((progEach (r :: rs) enterSafe).run (withAux noSafe b)) :=
      holds_each (fun x _ => columns_enter x) _ ⟨h, w, fun x hx => by cases hx⟩
    rw [drainSafe_cons 3 r rs b t]
    exact (drain_columns 2 _ _ c.1 c.2.1 rfl c.2.2).triggers

/-- The block as a command finds it names completion rings in eight bits where the books of its rings are in balance. -/
theorem named_of_books {b : Blk} (h : ∀ r ∈ b.rings, RingBalances r) : Named b := fun r hr d hd => (h r hr).2.2 d hd

/-- A program keeps the completion rings named in eight bits. -/
theorem named_run (p : Prog) (b : Blk) (h : Named b) : Named (p.run b) := p.run_inv Named named_apply b h

/-- A command completes in the state that its program describes, once the triggers it took are acted upon. -/
theorem act_taken {s : State} {p : Prog} {x : Blk} (r : Ready s) (hr : ∀ q ∈ s.blk.rings, RingBalances q)
    (h : p.run (Safety.fresh s.blk) = x) : ∃ b, s.act p = .next ⟨s.pending, b⟩ ∧ Agrees (safeTaken x) b := by
  have n : Named x := h ▸ named_run p _ (named_of_books hr)
  have w : regsWf x.regs = true := h ▸ regsWf_run p _ r.regs
  have q := safeTaken_quiet x n w
  have w1 : regsWf (safeTaken x).regs = true := regsWf_run _ _ w
  have e : s.blk.after p = (finishProg s.blk).run (safeTaken x) := by
    rw [← h]
    exact finish_drained s.blk _ (h ▸ q)
  refine ⟨_, act_next s p r.awake, ?_⟩
  rw [e]
  exact ⟨fun o ho => finish_regs s.blk _ o q w1 ho, apart_rings.finish s.blk _ q, apart_runs.finish s.blk _ q,
    apart_wqs.finish s.blk _ q, apart_camBooks.finish s.blk _ q, apart_toks.finish s.blk _ q,
    apart_tsqs.finish s.blk _ q, apart_dram.finish s.blk _ q, finish_win s.blk _ q w1, apart_engines.finish s.blk _ q,
    fun o ho => finish_out s.blk _ q o ho, fun v hv l m => finish_messages s.blk _ q w1 v hv l m,
    finish_raised s.blk _ q⟩

/-! ### Abort requests -/

theorem abortRing_still {b0 : Blk} (ring : Nat) (hr : ring < 0x700) (n : Nat) : (abortRing ring n).Holds (Still b0) := by
  induction n with
  | zero => exact holds_skip _
  | succ n ih =>
    refine holds_get fun b _ => ?_
    cases b.front ring with
    | none => exact holds_skip _
    | some d =>
      refine holds_seq ?_ ih
      split
      · exact complete_still _ _ _ hr
      · exact complete_still _ _ _ hr

theorem f_putF_same (o : Nat) (f : Fld) (x : Nat) (b : Blk) (w : regsWf b.regs = true) (h : f.lo + f.w ≤ 32) :
    (putF o f x b).f o f = x % 2 ^ f.w := by
  unfold Blk.f putF
  rw [w_put_same _ _ _ w, get_put _ _ _ h]

theorem f_putF_other (o : Nat) (f g : Fld) (x : Nat) (b : Blk) (w : regsWf b.regs = true) (h : g.lo + g.w ≤ 32)
    (d : g.lo + g.w ≤ f.lo ∨ f.lo + f.w ≤ g.lo) : (putF o g x b).f o f = b.f o f := by
  unfold Blk.f putF
  rw [w_put_same _ _ _ w, get_put_other _ _ _ _ h d]

theorem putF_regsWf (o : Nat) (f : Fld) (x : Nat) (b : Blk) (w : regsWf b.regs = true) :
    regsWf (putF o f x b).regs = true := put_regsWf _ _ _ w

/-- The block after the writes of a request to SYS_ABORT. -/
def abortMarked (src : Nat) (b : Blk) : Blk :=
  let b4 := putF Reg.SYS_ABORT F.SYS_ABORT_SRC src (putF Reg.SYS_ABORT F.SYS_ABORT_AXES_REST 0
    (putF Reg.SYS_ABORT F.SYS_ABORT_QUIESCENT 0 (putF Reg.SYS_ABORT F.SYS_ABORT_ACTIVE 1 b)))
  putF Reg.SYS_ABORT F.SYS_ABORT_COUNT (satInc 16 (b4.f Reg.SYS_ABORT F.SYS_ABORT_COUNT)) b4

theorem abortMarked_shown (src : Nat) (b : Blk) (w : regsWf b.regs = true) (hs : src < 16) :
    AbortShown b src 0 (abortMarked src b) := by
  have w1 := putF_regsWf Reg.SYS_ABORT F.SYS_ABORT_ACTIVE 1 b w
  have w2 := putF_regsWf Reg.SYS_ABORT F.SYS_ABORT_QUIESCENT 0 _ w1
  have w3 := putF_regsWf Reg.SYS_ABORT F.SYS_ABORT_AXES_REST 0 _ w2
  have w4 := putF_regsWf Reg.SYS_ABORT F.SYS_ABORT_SRC src _ w3
  have c4 : (putF Reg.SYS_ABORT F.SYS_ABORT_SRC src (putF Reg.SYS_ABORT F.SYS_ABORT_AXES_REST 0
    (putF Reg.SYS_ABORT F.SYS_ABORT_QUIESCENT 0 (putF Reg.SYS_ABORT F.SYS_ABORT_ACTIVE 1 b)))).f Reg.SYS_ABORT
      F.SYS_ABORT_COUNT = b.f Reg.SYS_ABORT F.SYS_ABORT_COUNT := by
    rw [f_putF_other _ _ _ _ _ w3 (by decide) (by decide), f_putF_other _ _ _ _ _ w2 (by decide) (by decide),
      f_putF_other _ _ _ _ _ w1 (by decide) (by decide), f_putF_other _ _ _ _ _ w (by decide) (by decide)]
  refine ⟨?_, ?_, ?_, ?_⟩ <;> unfold abortMarked <;> dsimp only
  · rw [f_putF_other _ _ _ _ _ w4 (by decide) (by decide), f_putF_other _ _ _ _ _ w3 (by decide) (by decide),
      f_putF_other _ _ _ _ _ w2 (by decide) (by decide), f_putF_other _ _ _ _ _ w1 (by decide) (by decide),
      f_putF_same _ _ _ _ w (by decide)]
    rfl
  · rw [f_putF_other _ _ _ _ _ w4 (by decide) (by decide), f_putF_other _ _ _ _ _ w3 (by decide) (by decide),
      f_putF_other _ _ _ _ _ w2 (by decide) (by decide), f_putF_same _ _ _ _ w1 (by decide)]
    rfl
  · rw [f_putF_other _ _ _ _ _ w4 (by decide) (by decide), f_putF_same _ _ _ _ w3 (by decide)]
    exact Nat.mod_eq_of_lt hs
  · rw [f_putF_same _ _ _ _ w4 (by decide), c4]
    refine Nat.mod_eq_of_lt ?_
    have hc : b.f Reg.SYS_ABORT F.SYS_ABORT_COUNT < 65536 := Nat.mod_lt _ (by decide)
    show satInc 16 _ < 65536
    unfold satInc
    split <;> omega

theorem shown_of_still {b0 b c : Blk} {src q : Nat} (h : AbortShown b0 src q b) (k : Still b c) : AbortShown b0 src q c := by
  have e : ∀ f, c.f Reg.SYS_ABORT f = b.f Reg.SYS_ABORT f := fun f => by
    unfold Blk.f; rw [k.word _ (by unfold Outside; simp only [Reg.SYS_ABORT]; omega)]
  exact ⟨(e _).trans h.active, (e _).trans h.quiescent, (e _).trans h.source, (e _).trans h.count⟩

/-- The block after an abort request with the core neither in OFF nor already aborting. -/
structure Requested (b0 : Blk) (src : Nat) (b : Blk) : Prop where
  named : Named b
  regs : regsWf b.regs = true
  triggers : b.aux.safeReq = b0.aux.safeReq ++ [⟨dCore, .abort, none⟩]
  modes : ∀ d, d < 0x700 → b.mode d = b0.mode d
  shown : AbortShown b0 src (b2n b0.aux.linkUp) b

/-- QUIESCENT becomes 1. -/
theorem quiescent_effect (c : Blk) (f g : Aux → Aux) (hf : ∀ a, (f a).safeReq = a.safeReq)
    (hg : ∀ a, (g a).safeReq = a.safeReq) (h : Named c) (w : regsWf c.regs = true) (b0 : Blk) (src : Nat)
    (s : AbortShown b0 src 0 c) :
    let x := withAux g (putF Reg.SYS_ABORT F.SYS_ABORT_QUIESCENT 1 (withAux f c))
    Named x ∧ regsWf x.regs = true ∧ x.aux.safeReq = c.aux.safeReq ∧ (∀ d, d < 0x700 → x.mode d = c.mode d) ∧
      AbortShown b0 src 1 x := by
  intro x
  have wf : regsWf (withAux f c).regs = true := w
  have other : ∀ k : Fld, (F.SYS_ABORT_QUIESCENT.lo + F.SYS_ABORT_QUIESCENT.w ≤ k.lo ∨ k.lo + k.w ≤ F.SYS_ABORT_QUIESCENT.lo) →
      x.f Reg.SYS_ABORT k = c.f Reg.SYS_ABORT k := fun k hk => by
    show (putF Reg.SYS_ABORT F.SYS_ABORT_QUIESCENT 1 (withAux f c)).f Reg.SYS_ABORT k = _
    rw [f_putF_other _ _ _ _ _ wf (by decide) hk]; rfl
  refine ⟨named_withAux _ _ (named_put _ _ _ (named_withAux _ _ h)), put_regsWf _ _ _ wf, ?_, fun d hd => ?_, ?_, ?_, ?_, ?_⟩
  · rw [withAux_aux, hg]
    unfold putF
    rw [triggers_put, withAux_aux, hf]
  · rw [withAux_mode, mode_of_word]
    unfold putF
    rw [w_put_other _ _ _ _ wf (by simp only [Reg.SEQ_DOM_STAT, Reg.SYS_ABORT]; omega), withAux_w]
    rfl
  · rw [other _ (by decide), s.active]
  · show (putF Reg.SYS_ABORT F.SYS_ABORT_QUIESCENT 1 (withAux f c)).f Reg.SYS_ABORT _ = _
    rw [f_putF_same _ _ _ _ wf (by decide)]; rfl
  · rw [other _ (by decide), s.source]
  · rw [other _ (by decide), s.count]

/-- What an abort gives up: runs waiting to be cut, table loads and releases under way (R101). -/
def abortDropped (a : Aux) : Aux :=
  { a with build := { a.build with cutRings := [] }, loads := [], store := { a.store with releases := [] } }

/-- What an abort request notes for its steps 7 and 9 with the core not in OFF. -/
def abortNoted (a : Aux) : Aux := { a with ring0Wait := true, restDue := true }

theorem abortNoted_req (a : Aux) : (abortNoted a).safeReq = a.safeReq := rfl

theorem abortFinish_run (b c : Blk)
    (h : (progEach (List.range 40) fun r => .get fun b => abortRing r (b.ring r).fetched.length).run b = c) :
    abortFinish.run b = withAux (fun a => { a with irq := a.irq ++ [c.f Reg.HIF_IRQ_VEC F.HIF_IRQ_VEC_ABORT_VEC] })
      (putF Reg.SYS_ABORT F.SYS_ABORT_QUIESCENT 1 (withAux abortDropped c)) := by
  rw [abortFinish, Prog.run_seq, h]
  rfl

theorem abortFinish_effect (b : Blk) (h : Named b) (w : regsWf b.regs = true) (b0 : Blk) (src : Nat)
    (s : AbortShown b0 src 0 b) :
    Named (abortFinish.run b) ∧ regsWf (abortFinish.run b).regs = true ∧
      (abortFinish.run b).aux.safeReq = b.aux.safeReq ∧ (∀ d, d < 0x700 → (abortFinish.run b).mode d = b.mode d) ∧
      AbortShown b0 src 1 (abortFinish.run b) := by
  have k1 : (progEach (List.range 40) fun r => .get fun b => abortRing r (b.ring r).fetched.length).Holds (Still b) :=
    holds_each fun r hr => holds_get fun c _ => abortRing_still r (by have := List.mem_range.mp hr; omega) _
  have s1 := k1 b (still_self h w)
  rw [abortFinish_run b _ rfl]
  generalize (progEach (List.range 40) fun r => .get fun b => abortRing r (b.ring r).fetched.length).run b = c at s1
  obtain ⟨h1, h2, h3, h4, h5⟩ := quiescent_effect c abortDropped
    (fun a => { a with irq := a.irq ++ [c.f Reg.HIF_IRQ_VEC F.HIF_IRQ_VEC_ABORT_VEC] }) (fun _ => rfl) (fun _ => rfl)
    s1.named s1.regs b0 src (shown_of_still s s1)
  exact ⟨h1, h2, h3.trans s1.triggers, fun d hd => (h4 d hd).trans (still_mode s1 d hd), h5⟩

theorem abortMarked_keeps (src : Nat) (b : Blk) (h : Named b) (w : regsWf b.regs = true) :
    Named (abortMarked src b) ∧ regsWf (abortMarked src b).regs = true ∧ (abortMarked src b).aux = b.aux ∧
      ∀ d, d < 0x700 → (abortMarked src b).mode d = b.mode d := by
  have step : ∀ f x (c : Blk), (Named c ∧ regsWf c.regs = true ∧ c.aux = b.aux ∧ ∀ d, d < 0x700 → c.mode d = b.mode d) →
      (Named (putF Reg.SYS_ABORT f x c) ∧ regsWf (putF Reg.SYS_ABORT f x c).regs = true ∧
        (putF Reg.SYS_ABORT f x c).aux = b.aux ∧ ∀ d, d < 0x700 → (putF Reg.SYS_ABORT f x c).mode d = b.mode d) := by
    intro f x c ⟨c1, c2, c3, c4⟩
    refine ⟨named_put _ _ _ c1, put_regsWf _ _ _ c2, c3, fun d hd => ?_⟩
    rw [← c4 d hd, mode_of_word, mode_of_word]
    unfold putF
    rw [w_put_other _ _ _ _ c2 (by simp only [Reg.SEQ_DOM_STAT, Reg.SYS_ABORT]; omega)]
  exact step _ _ _ (step _ _ _ (step _ _ _ (step _ _ _ (step _ _ _ ⟨h, w, rfl, fun _ _ => rfl⟩))))

theorem abortRequest_effect (src : Nat) (b : Blk) (hs : src < 16) (h : Named b) (w : regsWf b.regs = true)
    (na : b.abortActive = false) (mo : b.mode dCore ≠ .off) : Requested b src ((abortRequest src).run b) := by
  have e : (abortRequest src).run b = (if b.aux.linkUp then abortFinish else .skip).run
      (withAux (addSafe [⟨dCore, .abort, none⟩]) (withAux abortNoted (abortMarked src b))) := by
    have mo' : (b.mode dCore == Mode.off) = false := by
      cases h : b.mode dCore <;> first | rfl | exact absurd h mo
    simp only [abortRequest, Prog.run_get, na, mo', Bool.false_eq_true, if_false, progAll_cons_run, progAll_nil_run,
      Bool.not_false, progIf, if_true]
    rfl
  obtain ⟨k1, k2, k3, k4⟩ := abortMarked_keeps src b h w
  have k5 := abortMarked_shown src b w hs
  rw [e]
  generalize abortMarked src b = c0 at *
  have j1 : Named (withAux abortNoted c0) := named_withAux _ _ k1
  have j2 : regsWf (withAux abortNoted c0).regs = true := by rw [withAux_regs]; exact k2
  have j3 : (withAux abortNoted c0).aux.safeReq = b.aux.safeReq := by rw [withAux_aux, abortNoted_req, k3]
  have j4 : ∀ d, d < 0x700 → (withAux abortNoted c0).mode d = b.mode d := fun d hd => by rw [withAux_mode, k4 d hd]
  have j5 : AbortShown b src 0 (withAux abortNoted c0) := ⟨k5.active, k5.quiescent, k5.source, k5.count⟩
  clear k1 k2 k3 k4 k5 e
  generalize withAux abortNoted c0 = c at *
  have n2 : Named (withAux (addSafe [⟨dCore, .abort, none⟩]) c) := named_withAux _ _ j1
  have s2 : AbortShown b src 0 (withAux (addSafe [⟨dCore, .abort, none⟩]) c) :=
    ⟨j5.active, j5.quiescent, j5.source, j5.count⟩
  have t2 : (withAux (addSafe [⟨dCore, .abort, none⟩]) c).aux.safeReq = b.aux.safeReq ++ [⟨dCore, .abort, none⟩] := by
    rw [withAux_aux, addSafe_req, j3]
  have m2 : ∀ d, d < 0x700 → (withAux (addSafe [⟨dCore, .abort, none⟩]) c).mode d = b.mode d := fun d hd => by
    rw [withAux_mode, j4 d hd]
  have wx : regsWf (withAux (addSafe [⟨dCore, .abort, none⟩]) c).regs = true := by rw [withAux_regs]; exact j2
  generalize withAux (addSafe [⟨dCore, .abort, none⟩]) c = x at *
  cases hl : b.aux.linkUp with
  | true =>
    obtain ⟨a1, a2, a3, a4, a5⟩ := abortFinish_effect x n2 wx b src s2
    refine ⟨a1, a2, a3.trans t2, fun d hd => (a4 d hd).trans (m2 d hd), ?_⟩
    rw [hl]; exact a5
  | false => exact ⟨n2, wx, t2, m2, by rw [hl]; exact s2⟩

/-! ### Registers back at their reset values -/

theorem mapFind_mem {α : Type} (m : List (Nat × α)) (j : Nat) (x : α) (h : mapFind m j = some x) : (j, x) ∈ m := by
  induction m with
  | nil => cases h
  | cons e m ih =>
    obtain ⟨k, v⟩ := e
    rw [mapFind] at h
    split at h
    · rename_i e; subst e; cases h; exact List.mem_cons_self
    · split at h
      · cases h
      · exact List.mem_cons_of_mem _ (ih h)

theorem setDefaults_word (l : List (Nat × Word)) (b : Blk) (w : regsWf b.regs = true) (i : Nat) :
    ((progEach l fun (o, _) => setW o (defaultWord o)).run b).w i =
      if i ∈ l.map (·.1) then defaultWord i else b.w i := by
  induction l generalizing b with
  | nil => simp
  | cons x l ih =>
    have e : (setW x.1 (defaultWord x.1)).run b = put x.1 (defaultWord x.1) b := rfl
    rw [progEach_cons_run, e, ih _ (put_regsWf b _ _ w)]
    show (if i ∈ l.map (·.1) then defaultWord i else (put x.1 (defaultWord x.1) b).w i) = _
    by_cases h : i ∈ l.map (·.1)
    · simp [h]
    · by_cases e : i = x.1
      · subst e
        rw [w_put_same _ _ _ w]; simp
      · rw [w_put_other _ _ _ _ w e]
        simp [h, e]

/-- Registers of a range are back at their reset values; the others stay. -/
theorem regsToReset_word (lo hi i : Nat) (b : Blk) (w : regsWf b.regs = true) :
    ((regsToReset lo hi).run b).w i = if lo ≤ i ∧ i < hi then defaultWord i else b.w i := by
  rw [regsToReset, Prog.run_get, setDefaults_word _ _ w]
  by_cases h : lo ≤ i ∧ i < hi
  · rw [if_pos h]
    cases e : mapFind b.regs i with
    | none =>
      have : b.w i = defaultWord i := by unfold Blk.w mapGet; rw [e]; rfl
      rw [this]; split <;> rfl
    | some v =>
      rw [if_pos]
      exact List.mem_map.mpr ⟨(i, v), List.mem_filter.mpr ⟨mapFind_mem _ _ _ e, by simpa using h⟩, rfl⟩
  · rw [if_neg h, if_neg]
    intro hm
    obtain ⟨x, hx, e⟩ := List.mem_map.mp hm
    have := (List.mem_filter.mp hx).2
    simp only [decide_eq_true_eq] at this
    rw [e] at this
    exact h this

theorem quiet_regsToReset (lo hi : Nat) : Quiet (regsToReset lo hi) :=
  keeps_get fun _ => keeps_each fun _ => quiet_setW _ _

theorem clearRings_rings (l : List Nat) (b : Blk) (i : Nat) :
    ((progEach l fun r => .op (.ring r .clear)).run b).rings[i]? =
      if i ∈ l then b.rings[i]?.map fun _ => Ring.init else b.rings[i]? := by
  induction l generalizing b with
  | nil => simp
  | cons x l ih =>
    rw [progEach_cons_run, ih]
    show (if i ∈ l then ((b.rings.modify x fun r => ringApply r .clear)[i]?).map _ else
      (b.rings.modify x fun r => ringApply r .clear)[i]?) = _
    rw [List.getElem?_modify]
    by_cases e : x = i
    · subst e
      cases b.rings[x]? <;> simp [ringApply]
    · simp [e, Ne.symm e]

end Sys2Proof.Laws
end

