-- ==== Sys2Proof/Laws/Lanes.lean ====
section
/-!
SUPPORT. What the operations of the lanes and of the cascade do, and conditional programs.
-/
namespace Sys2Proof.Laws

open Sys2Proof.Machine Sys2Proof.Safety

/-- A conditional program, by the value of its condition. -/
theorem progIf_go {c go : Bool} {p : Prog} {b x : Blk} (e : go = c) (h : p.run b = x) :
    (progIf c p).run b = if go then x else b := by
  subst e; cases go <;> simp [progIf, h]

theorem progWhen_go {c : Blk → Bool} {go : Bool} {p : Prog} {b x : Blk} (e : go = c b) (h : p.run b = x) :
    (progWhen c p).run b = if go then x else b := by
  subst e; cases hc : c b <;> simp [progWhen, h, hc]

theorem ite_quiet {c : Bool} {x y : Blk} (h : NoTrigger x) (k : NoTrigger y) : NoTrigger (if c then x else y) := by
  cases c <;> assumption

theorem modF_run_put (o : Nat) (f : Fld) (g : Nat → Nat) (b : Blk) : (modF o f g).run b = putF o f (g (b.f o f)) b := rfl

theorem ns2_flagged (fl : Flag) (b : Blk) : (flagged fl b).ns2 = b.ns2 := by
  unfold flagged
  dsimp only
  split <;> (split <;> rfl)

theorem modLane_run (l : Nat) (f : Lane → Lane) (b : Blk) : (modLane l f).run b = laneSet l f b := rfl
theorem modPeer_run (j : Nat) (f : Peer → Peer) (b : Blk) : (modPeer j f).run b = peerSet j f b := rfl
theorem setLaneState_run (l s : Nat) (b : Blk) :
    (setLaneState l s).run b = putF (Reg.HLK_LANE_STATE l) F.HLK_LANE_STATE_STATE s b := rfl
theorem laneSet_quiet (l : Nat) (f : Lane → Lane) {b : Blk} (q : NoTrigger b) : NoTrigger (laneSet l f b) := q
theorem peerSet_quiet (l : Nat) (f : Peer → Peer) {b : Blk} (q : NoTrigger b) : NoTrigger (peerSet l f b) := q
theorem laneDown_quiet (l : Nat) {b : Blk} (q : NoTrigger b) : NoTrigger (laneDown l b) := by
  unfold laneDown
  split
  · exact q
  · exact q
theorem laneHeard_quiet (l cv fill : Nat) {b : Blk} (q : NoTrigger b) : NoTrigger (laneHeard l cv fill b) := by
  unfold laneHeard
  dsimp only
  split
  · exact q
  · exact q
theorem shiftChecked_quiet (l : Nat) {b : Blk} (q : NoTrigger b) : NoTrigger (shiftChecked l b) := by
  unfold shiftChecked
  split
  · exact flagged_quiet _ q
  · exact q
theorem latencyTaken_quiet (l : Nat) {b : Blk} (q : NoTrigger b) : NoTrigger (latencyTaken l b) :=
  putF_quiet _ _ _ (putF_quiet _ _ _ (putF_quiet _ _ _ q))
theorem memberGone_quiet (l : Nat) {b : Blk} (q : NoTrigger b) : NoTrigger (memberGone l b) :=
  peerSet_quiet _ _ (putF_quiet _ _ _ (flagged_quiet _ q))

theorem laneLose_run (l : Nat) (b : Blk) : (laneLose l).run b = laneDown l b := by
  rw [laneLose, Prog.run_get, laneDown]
  generalize b.laneSynced l = c
  refine progIf_go rfl ?_
  generalize b.laneUp l = u
  generalize b.ns2 = n
  rw [Prog.run_seq, setLaneState_run]
  generalize putF _ _ 1 b = z
  rfl

theorem laneStart_run (l : Nat) (b : Blk) : (laneStart l).run b = laneBegun l b := by
  rw [laneStart, Prog.run_get, Prog.run_seq, setLaneState_run, modLane_run, laneBegun]

theorem laneBegun_quiet (l : Nat) {b : Blk} (q : NoTrigger b) : NoTrigger (laneBegun l b) :=
  laneSet_quiet _ _ (putF_quiet _ _ _ q)

theorem laneSkp_run (l cv fill : Nat) (b : Blk) :
    (laneSkp l fill).run ((countViolations l cv).run b) = laneHeard l cv fill b := by
  rw [countViolations, modF_run_put, laneSkp, progWhen_run]
  rfl

theorem checkShift_run (l : Nat) (b : Blk) : (checkShift l).run b = shiftChecked l b := by
  rw [checkShift, progWhen_run, setFlag_run]
  rfl

theorem setLatency_run (l : Nat) (b : Blk) : (setLatency l).run b = latencyTaken l b := by
  rw [setLatency, Prog.run_get, progAll_cons_run, progAll_cons_run, progAll_cons_run, progAll_nil_run, setF_run_put,
    setF_run_put, setF_run_put]
  rfl

theorem departMember_run (j : Nat) (b : Blk) : (departMember j).run b = memberGone j b := by
  rw [departMember, progAll_cons_run, progAll_cons_run, progAll_cons_run, progAll_nil_run, setFlag_run, setLaneState_run,
    modPeer_run, memberGone]

end Sys2Proof.Laws
end

