-- ==== Sys2Proof/WellFormed.lean ====
section
/-!
DEFINITION. Which commands the outside can send: bounds on operands that their types do not give. A meaning is total on
every command, well-formed or not.
-/
namespace Sys2Proof

/-- An access of 1 to 8 bytes that lies in BAR0. -/
def spanOk (off n : Nat) : Bool := decide (1 ≤ n ∧ n ≤ 8 ∧ off + n ≤ 2 ^ 21)

/-- The words of a host read of fixed length, or a read error. -/
def dataOk (n : Nat) (data : Option (List Word)) : Bool :=
  match data with
  | some ws => ws.length == n
  | none => true

/-- A result of a tested unit: pass, fail or pass with repair, of a unit that is numbered. -/
def resultOk (r : Machine.BistRes) : Bool := decide (r.unit < 256 ∧ 1 ≤ r.result ∧ r.result ≤ 3)

/-- A command the outside can send. -/
def Instr.wf : Instr → Bool
  | .nop _ => true
  | .modeSet _ _ => true
  | .regWrite _ _ => true
  | .regRead _ => true
  | .tableLoad _ _ _ => true
  | .ringRelease _ => true
  | .abort _ => true
  | .buildOpen _ => true
  | .buildClose _ => true
  | .coatDefine _ => true
  | .coatStart _ => true
  | .coatCut _ => true
  | .partLoad _ _ => true
  | .patchLoad _ _ => true
  | .psetWrite _ _ => true
  | .streamReset _ => true
  | .streamAppend _ => true
  | .appendBufferRead _ _ => true
  | .mpBurstArm _ => true
  | .mpBurstRead _ => true
  | .camImageRead _ => true
  | .fltMeasure _ => true
  | .fltFire _ => true
  | .motMove _ => true
  | .nvsRead _ _ => true
  | .nvsRelease _ => true
  | .evrRead _ _ => true
  | .evrNonce _ => true
  | .evrClear _ data => dataOk 32 data
  | .shutdown _ results _ => results.all resultOk
  | .lcsNonce _ => true
  | .lcsToken _ data => dataOk 43 data
  | .nvsExport _ data _ => dataOk 32 data
  | .registerWrite off bytes _ _ => spanOk off.toNat bytes
  | .w1cClear off _ _ => off.toNat % 4 == 0
  | .rcRead off bytes _ => spanOk off.toNat bytes
  | .ringNudge _ => true
  | .ringEnable _ _ => true
  | .ringDisable _ _ => true
  | .msixUnmask _ => true
  | .sysAbortReq => true
  | .axesRest => true
  | .sysAbortRelease => true
  | .functionLevelReset => true
  | .dlDown => true
  | .hostWatchdog => true
  | .sysSlackRearm _ => true
  | .ovlSnap _ => true
  | .srvSnap _ => true
  | .dmcWqSnap _ => true
  | .evrSnap _ => true
  | .ptpTsqSnap _ => true
  | .timLatch _ => true
  | .timSetctlGo _ => true
  | .hmFoldClear _ => true
  | .sysOccClr _ => true
  | .sysResetKey _ => true
  | .bootLoad _ => true
  | .fwLoadDone _ => true
  | .bootRelease _ => true
  | .bootDone => true
  | .laneAbsent _ => true
  | .bstRun _ => true
  | .runDone result _ _ => decide (1 ≤ result ∧ result ≤ 3)
  | .bstRprFuse _ => true
  | .exitSvc => true
  | .rbCommit => true
  | .calRestore _ _ => true
  | .bar2Write off bytes => decide (bytes ≠ [] ∧ off.toNat + bytes.length ≤ 2 ^ 26)
  | .doorbellPoll words => match words with | some l => l.all fun w => decide (w.1 < 89) | none => true
  | .descriptorFetch _ data => dataOk 16 data
  | .msixTimer _ => true
  | .tickEdge late slack => (late.all fun x => decide (x.1 < 25 ∧ x.2 < 32)) && slack.length == 25
  | .autoResume _ => true
  | .runStart _ => true
  | .prefetchFill _ => true
  | .transitEnd _ => true
  | .runSuspend _ => true
  | .yieldClear _ => true
  | .runResume _ => true
  | .linkHoldClear _ => true
  | .drainComplete _ => true
  | .coatBoundary late slack => (late.all fun x => decide (x.1 < 25 ∧ x.2 < 32)) && slack.length == 25
  | .authResponse _ _ => true
  | .authTimeout _ => true
  | .phase2Start => true
  | .phase3Start => true
  | .phase3End => true
  | .hmFold => true
  | .segmentDurable => true
  | .uplinkFrame _ _ _ _ _ => true
  | .capabilityFrame _ _ _ _ => true
  | .probeEcho _ _ => true
  | .latencyProbe _ => true
  | .lol _ _ => true
  | .los _ => true
  | .elastic _ => true
  | .linkFail _ => true
  | .dfeLimit _ _ _ => true
  | .floatUplinkFrame _ _ _ _ => true
  | .cascadeLaunch _ => true
  | .cascadeFrame _ _ _ _ _ _ _ => true
  | .cascMiss _ => true
  | .depart _ => true
  | .alignLost => true
  | .safeIn _ => true
  | .frameBoundary _ => true
  | .frameStart _ _ _ => true
  | .longPacket _ pixels _ _ _ _ => pixels.all fun x => decide (x < 4096)
  | .frameEnd _ _ _ => true
  | .frameLost _ => true
  | .statsComplete _ => true
  | .darkReference _ => true
  | .defectMap _ => true
  | .flashStart _ => true
  | .flashSample _ _ _ => true
  | .flashEnd _ => true
  | .ledProbeSample _ _ _ => true
  | .stepIssue _ => true
  | .moveBoundary _ => true
  | .moveEnd _ => true
  | .homing _ => true
  | .encoderEdge _ _ _ _ => true
  | .ssiRead _ _ => true
  | .encSpeedWindow _ => true
  | .limitInput _ _ _ => true
  | .measurementResult _ => true
  | .dramRead _ line result _ _ => decide (result ≤ 2 ∧ line < 2 ^ 31)
  | .latMiss _ _ => true
  | .refresh _ => true
  | .driftCheck => true
  | .selfRefreshEntry => true
  | .selfRefreshExit => true
  | .patrolScrub line result => decide (result ≤ 2 ∧ line < 2 ^ 31)
  | .sramUe _ _ _ => true
  | .skimJob blocks => blocks.all fun x => decide (x.raw ≤ 65536)
  | .nandProgramDone _ _ _ => true
  | .nandScrub _ _ => true
  | .storageRecovery _ _ => true
  | .nandEnumeration _ => true
  | .unexpectedLossOfPower => true
  | .eventCompose => true
  | .eventFlush _ => true
  | .ptpRx _ _ => true
  | .announceTimeout _ _ _ => true
  | .ptpTx _ _ _ seq => decide (seq < 65536)
  | .txTimestamp _ id stamp _ => decide (id < 65536) && Machine.stampValid stamp
  | .linkDown _ => true
  | .acqTimeout => true
  | .coreHomeEnd => true
  | .thermalSample _ value => match value with | some v => decide (-32768 ≤ v ∧ v ≤ 32767) | none => true
  | .throttleStep => true
  | .pmuWindow _ => true
  | .supplyLow _ _ => true
  | .calRun _ _ => true
  | .calibrateEnd _ _ _ => true
  | .selftestEnd _ results => results.all resultOk
  | .coldReset => true
  | .linkReset => true
  | .badOpcode _ => true
  | .synchronised _ _ => true
  | .dfeAdaptationDone _ _ => true
  | .hostLinkUp => true
  | .resetRelease => true
  | .ethLinkUp _ => true
  | .nonceExpiry _ => true
  | .wearLevellingMove => true
  | .warmResetAfterFwLoss => true

end Sys2Proof
end

