-- ==== Sys2Proof/Tests/Slice0.lean ====
section
/-!
SUPPORT. Small tests: what WellFormed refuses, single steps, and states and operands that meet the hypotheses of the
statements together, at the values where clauses meet. A clause whose hypothesis is that a signature is right (of a
firmware image, a token or an export) has none here: keys and device number are free values of Config.
-/
namespace Sys2Proof.Tests

open Sys2Proof Sys2Proof.Machine Sys2Proof.Safety

/-! ### Ill-formed commands, one for each check of WellFormed, beside the largest command it lets pass -/

theorem test_wf_access_too_long : (Instr.registerWrite 0 9 0 0).wf = false := by decide
theorem test_wf_access_empty : (Instr.rcRead 0 0 0).wf = false := by decide
theorem test_wf_access_past_bar : (Instr.registerWrite 0x1FFFFC 8 0 0).wf = false := by decide
theorem test_wf_access_last : (Instr.registerWrite 0x1FFFF8 8 0 0).wf = true := by decide
theorem test_wf_window_write_empty : (Instr.bar2Write 0 []).wf = false := by decide
theorem test_wf_window_write_past_end : (Instr.bar2Write 0x3FFFFFF [0, 0]).wf = false := by decide
theorem test_wf_window_write_last : (Instr.bar2Write 0x3FFFFFF [0]).wf = true := by decide
theorem test_wf_w1c_unaligned : (Instr.w1cClear 2 0 0).wf = false := by decide
theorem test_wf_doorbell_ring : (Instr.doorbellPoll (some [(89, 0, 0)])).wf = false := by decide
theorem test_wf_doorbell_last_ring : (Instr.doorbellPoll (some [(88, 0, 0)])).wf = true := by decide
theorem test_wf_fetch_length : (Instr.descriptorFetch 0 (some [0])).wf = false := by decide
theorem test_wf_clear_length : (Instr.evrClear 0 (some [0])).wf = false := by decide
theorem test_wf_token_length : (Instr.lcsToken 0 (some [0])).wf = false := by decide
theorem test_wf_export_length : (Instr.nvsExport 0 (some [0]) []).wf = false := by decide
theorem test_wf_shutdown_unit : (Instr.shutdown 0 [⟨256, 1, 0, 0⟩] true).wf = false := by decide
theorem test_wf_selftest_result : (Instr.selftestEnd 0 [⟨0, 0, 0, 0⟩]).wf = false := by decide
theorem test_wf_selftest_last : (Instr.selftestEnd 0 [⟨255, 3, 0, 0⟩]).wf = true := by decide
theorem test_wf_run_result : (Instr.runDone 4 0 0).wf = false := by decide
theorem test_wf_boundary_slack : (Instr.coatBoundary [] []).wf = false := by decide
theorem test_wf_tick_engine : (Instr.tickEdge [(25, 0)] (List.replicate 25 0)).wf = false := by decide
theorem test_wf_tick_head : (Instr.tickEdge [(0, 32)] (List.replicate 25 0)).wf = false := by decide
theorem test_wf_tick_last : (Instr.tickEdge [(24, 31)] (List.replicate 25 0)).wf = true := by decide
theorem test_wf_pixel_wide : (Instr.longPacket 0 [4096] false false 0 0x2C).wf = false := by decide
theorem test_wf_dram_result : (Instr.dramRead 0 0 3 0 0).wf = false := by decide
theorem test_wf_dram_line : (Instr.dramRead 0 0x80000000 0 0 0).wf = false := by decide
theorem test_wf_scrub_result : (Instr.patrolScrub 0 3).wf = false := by decide
theorem test_wf_skim_block : (Instr.skimJob [⟨65537, 0, []⟩]).wf = false := by decide
theorem test_wf_stamp_id : (Instr.txTimestamp 0 65536 0 false).wf = false := by decide
theorem test_wf_ptp_sequence : (Instr.ptpTx 0 0 0 65536).wf = false := by decide
theorem test_wf_temperature : (Instr.thermalSample 0 (some 32768)).wf = false := by decide
theorem test_wf_temperature_last : (Instr.thermalSample 0 (some (-32768))).wf = true := by decide

/-! ### States -/

/-- The state after reset with its block changed. -/
def changed (f : Blk → Blk) : State := ⟨[], f Blk.init⟩

/-- A domain holds a mode. -/
def held (d : Nat) (m : Mode) : Blk → Blk := putF (Reg.SEQ_DOM_STAT d) F.SEQ_DOM_STAT_MODE (modeCode m)

/-- Sixteen words. -/
def words (l : List Nat) : List Word := (l ++ List.replicate (16 - l.length) 0).map (BitVec.ofNat 32)

/-- A descriptor stands in front of a ring, and the firmware runs. -/
def standing (ring : Nat) (begun : Bool) (l : List Nat) : Blk → Blk := fun b =>
  putF Reg.SYS_BOOT_STAT F.SYS_BOOT_STAT_FW_STATE 2
    { b with rings := b.rings.set ring { b.ring ring with fetched := [⟨words l, 40, begun⟩] } }

/-- The life cycle is FIELD, in which builds may be opened. -/
def fielded : Blk → Blk := putF Reg.LCS_STATE F.LCS_STATE_STATE 3

/-- The check of Ready. -/
def isReady (s : State) : Bool := !s.blk.aux.inReset && s.blk.aux.safeReq.isEmpty && regsWf s.blk.regs

theorem ready_of {s : State} (h : isReady s = true) : Ready s := by
  simp only [isReady, Bool.and_eq_true, Bool.not_eq_true', List.isEmpty_iff] at h
  exact ⟨h.1.1, h.1.2, h.2⟩

/-- The check of the rings' books. -/
def isBalanced (b : Blk) : Bool := b.rings.all fun r =>
  r.generated == r.written + r.dropped && decide (r.fetched.length ≤ 64) && r.fetched.all fun d => decide (d.cq < 256)

theorem balanced_of {b : Blk} (h : isBalanced b = true) : ∀ r ∈ b.rings, RingBalances r := fun r hr => by
  have k := List.all_eq_true.mp h r hr
  simp only [Bool.and_eq_true, beq_iff_eq, decide_eq_true_eq, List.all_eq_true] at k
  exact ⟨k.1.1, k.1.2, k.2⟩

/-- The check of Stands. -/
def isStanding (b : Blk) (ring op : Nat) (begun : Bool) (ws : List Word) : Bool :=
  (b.front ring).any (fun d => d.ws == ws && d.begun == begun) && opcodeOf ws == op && b.executing &&
    (opcodeRings op).any fun m => bit m (ringBit ring)

theorem stands_of {b : Blk} {ring op : Nat} {begun : Bool} {ws : List Word} (h : isStanding b ring op begun ws = true) :
    Stands b ring op begun ws := by
  simp only [isStanding, Bool.and_eq_true, beq_iff_eq, Option.any_eq_true_iff_get] at h
  obtain ⟨⟨⟨⟨hf, h1, h2⟩, h3⟩, h4⟩, hm, h5⟩ := h
  exact ⟨⟨_, (Option.some_get hf).symm, h1, h2⟩, h3, h4, _, (Option.some_get hm).symm, h5⟩

/-! ### States and operands that meet the hypotheses of the statements -/

/-- A ready state with a descriptor in front of a ring. -/
def Meets (b : Blk) (ring op : Nat) (begun : Bool) (ws : List Word) : Prop :=
  Ready ⟨[], b⟩ ∧ Stands b ring op begun ws

theorem meets_of {b : Blk} {ring op : Nat} {begun : Bool} {ws : List Word}
    (h : (isReady ⟨[], b⟩ && isStanding b ring op begun ws) = true) : Meets b ring op begun ws := by
  rw [Bool.and_eq_true] at h
  exact ⟨ready_of h.1, stands_of h.2⟩

/-- An empty queue: the block idles. -/
theorem test_idle : step State.reset = .next State.reset := rfl

/-- R96: DEV_IDX counts the descriptor completed. -/
theorem test_nop_completes :
    (match exec (.nop 7) ⟨[], standing 7 false [1] Blk.init⟩ with | .next t => t.blk.devIdx 7 == 1 && t.blk.front 7 == none | _ => false) = true := by decide +kernel

/-- SEQ_DOM_CFG (R542): the shadow takes RESUME_TICKS 255. -/
theorem test_write_lands :
    (match exec (.registerWrite 0x32004 4 0xFF00 0) ⟨[], Blk.init⟩ with | .next t => (t.blk.w 0x32004).toNat == 0xFF00 && (t.blk.w (actOff 0x32004)).toNat == 0x4000 | _ => false) = true := by decide +kernel

/-- R539: RESUME_TICKS 0 is out of range, so the write is rejected whole. -/
theorem test_write_rejected :
    (match exec (.registerWrite 0x32004 4 0 0) ⟨[], Blk.init⟩ with | .next t => (t.blk.w 0x32004).toNat == 0x4000 && t.blk.f Reg.SYS_MAP_LAST F.SYS_MAP_LAST_OFFSET == 0x32004 | _ => false) = true := by decide +kernel

/-- R11: a read-clear field returns to 0. -/
theorem test_read_clears :
    (match exec (.rcRead 0xE0104 4 0) ⟨[], put (Reg.DMC_PORT_MAX 0) 77 Blk.init⟩ with | .next t => (t.blk.w (Reg.DMC_PORT_MAX 0)).toNat == 0 | _ => false) = true := by decide +kernel

/-- R11: what the hardware sets in the same bead interval stays. -/
theorem test_read_meets_set :
    (match exec (.rcRead 0xE0104 4 9) ⟨[], put (Reg.DMC_PORT_MAX 0) 77 Blk.init⟩ with | .next t => (t.blk.w (Reg.DMC_PORT_MAX 0)).toNat == 9 | _ => false) = true := by decide +kernel

/-- R229: a lane in SIGNAL comes to SYNC. -/
theorem test_synchronised :
    (match exec (.synchronised 31 8) ⟨[], putF (Reg.HLK_LANE_STATE 31) F.HLK_LANE_STATE_STATE 1 Blk.init⟩ with | .next t => t.blk.laneState 31 == 2 | _ => false) = true := by decide +kernel

/-- Leaving service: the life cycle is FIELD again. -/
theorem test_life_cycle_exit :
    (match exec (.exitSvc) ⟨[], putF Reg.LCS_STATE F.LCS_STATE_STATE 4 Blk.init⟩ with | .next t => t.blk.lifeCycle == 3 | _ => false) = true := by decide +kernel

/-- R54: a supply fault takes the core into SAFE. -/
theorem test_supply_low_stops :
    (match exec (.supplyLow 0 false) ⟨[], held dCore .expose Blk.init⟩ with | .next t => t.blk.mode dCore == .safe | _ => false) = true := by decide +kernel

theorem test_meets_StepKeepsMemories :
    MemoriesWf Blk.init ∧
    (∃ t, step ⟨[.rcRead 0 4 0], Blk.init⟩ = .next t) :=
  ⟨⟨by decide, by decide, by decide⟩, ⟨_, rfl⟩⟩

theorem test_meets_StepKeepsEventBooks :
    EventsBalance Blk.init.evr ∧
    (∃ t, step ⟨[.eventCompose], Blk.init⟩ = .next t) :=
  ⟨⟨by decide, by decide⟩, ⟨_, rfl⟩⟩

theorem test_meets_StepKeepsRingBooks :
    (∀ r ∈ (standing 1 false [1] Blk.init).rings, RingBalances r) ∧
    (∃ t, step ⟨[.nop 1], (standing 1 false [1] Blk.init)⟩ = .next t) :=
  ⟨balanced_of (by decide), ⟨_, rfl⟩⟩

theorem test_meets_StepKeepsRunBooks :
    RunsBalance Blk.init.runs ∧
    (∃ t, step ⟨[.runStart 0], Blk.init⟩ = .next t) :=
  ⟨rfl, ⟨_, rfl⟩⟩

theorem test_meets_StepKeepsWriteBooks :
    (∀ q ∈ Blk.init.wqs, WritesBalance q) ∧
    (∃ t, step ⟨[.selfRefreshExit], Blk.init⟩ = .next t) :=
  ⟨by simp only [WritesBalance]; decide, ⟨_, rfl⟩⟩

theorem test_meets_StepKeepsFrameBooks :
    (∀ c ∈ Blk.init.camBooks, FramesBalance c) ∧
    (∃ t, step ⟨[.frameBoundary 0], Blk.init⟩ = .next t) :=
  ⟨by simp only [FramesBalance]; decide, ⟨_, rfl⟩⟩

theorem test_meets_StepKeepsTokenBooks :
    (∀ q ∈ Blk.init.toks, TokensBalance q) ∧
    (∃ t, step ⟨[.measurementResult 0], Blk.init⟩ = .next t) :=
  ⟨by simp only [TokensBalance, BucketBalances]; decide, ⟨_, rfl⟩⟩

theorem test_meets_StepKeepsStampBooks :
    (∀ q ∈ Blk.init.tsqs, StampsBalance q) ∧
    (∃ t, step ⟨[.txTimestamp 0 0 0 true], Blk.init⟩ = .next t) :=
  ⟨by simp only [StampsBalance]; decide, ⟨_, rfl⟩⟩

theorem test_meets_NopCompletes :
    ∃ (b : Blk) (ws : List Word),
    Meets b 7 0x01 false ws ∧
    fieldFail ws [] = none :=
  ⟨standing 7 false [1] Blk.init,
    words [1],
    meets_of (by decide), by decide⟩

theorem test_meets_BadOpcodeCompletes :
    Ready ⟨[], standing 0 false [0xFF] Blk.init⟩ ∧
    (standing 0 false [0xFF] Blk.init).front 0 = some ⟨words [0xFF], 40, false⟩ ∧
    (standing 0 false [0xFF] Blk.init).executing = true ∧
    opcodeRings (opcodeOf (words [0xFF])) = none :=
  ⟨ready_of (by decide), by decide, by decide, by decide⟩

theorem test_meets_ModeSetOutsideTable :
    ∃ (b : Blk) (ws : List Word),
    Meets b 1 0x02 false ws ∧
    modeSetFail b ws = none ∧
    b.mode 0 ≠ modeOf 5 ∧
    (([Mode.off, .reset, .selftest, .safe, .home, .setup, .service, .calibrate, .armed, .expose, .drain,
      .hold]).all fun k => !row36 k (b.mode 0) (modeOf 5)) = true :=
  ⟨standing 1 false [2, 1280] Blk.init,
    words [2, 1280],
    meets_of (by decide), by decide, by decide, by decide⟩

theorem test_meets_ModeSetHeldMode :
    ∃ (b : Blk) (ws : List Word),
    Meets b 1 0x02 false ws ∧
    modeSetFail b ws = none ∧
    b.mode 0 = modeOf 0 :=
  ⟨standing 1 false [2, 0] Blk.init,
    words [2, 0],
    meets_of (by decide), by decide, by decide⟩

theorem test_meets_ModeSetAccepted :
    ∃ (b : Blk) (ws : List Word),
    Meets b 1 0x02 false ws ∧
    modeSetFail b ws = none ∧
    b.mode 0 ≠ modeOf 5 ∧
    b.modeRefused 0 (b.mode 0) (modeOf 5) = false ∧
    modeOf 5 ≠ .safe :=
  ⟨standing 1 false [2, 1280] (held 0 .setup (Blk.init)),
    words [2, 1280],
    meets_of (by decide), by decide, by decide, by decide, by decide⟩

theorem test_meets_RingReleaseAndAbort_quiescent :
    ∃ (b : Blk) (ws : List Word),
    Meets b 0 0x0E false ws ∧
    fieldFail ws [] = none ∧
    b.f Reg.SYS_ABORT F.SYS_ABORT_QUIESCENT = 1 :=
  ⟨standing 0 false [14] (putF Reg.SYS_ABORT F.SYS_ABORT_QUIESCENT 1 Blk.init),
    words [14],
    meets_of (by decide), by decide, by decide⟩

theorem test_meets_RingReleaseAndAbort_active :
    ∃ (b : Blk) (ws : List Word),
    Meets b 0 0x0E false ws ∧
    fieldFail ws [] = none ∧
    b.f Reg.SYS_ABORT F.SYS_ABORT_QUIESCENT ≠ 1 :=
  ⟨standing 0 false [14] Blk.init,
    words [14],
    meets_of (by decide), by decide, by decide⟩

theorem test_meets_RingReleaseAndAbort_abort :
    ∃ (b : Blk) (ws : List Word),
    Meets b 0 0x0F false ws ∧
    fieldFail ws [] = none ∧
    b.abortActive = true :=
  ⟨standing 0 false [15] (putF Reg.SYS_ABORT F.SYS_ABORT_QUIESCENT 1 (putF Reg.SYS_ABORT F.SYS_ABORT_ACTIVE 1 Blk.init)),
    words [15],
    meets_of (by decide), by decide, by decide⟩

theorem test_meets_CompletionEntry_40 :
    regsWf (putF (Reg.RING_CTRL 40) F.RING_CTRL_ENABLE 1 { Blk.init with rings := Blk.init.rings.set 39 { Blk.init.ring 39 with fetched := [⟨words [1], 40, false⟩] } }).regs = true ∧
    (putF (Reg.RING_CTRL 40) F.RING_CTRL_ENABLE 1 { Blk.init with rings := Blk.init.rings.set 39 { Blk.init.ring 39 with fetched := [⟨words [1], 40, false⟩] } }).rings.length = 89 ∧
    (putF (Reg.RING_CTRL 40) F.RING_CTRL_ENABLE 1 { Blk.init with rings := Blk.init.rings.set 39 { Blk.init.ring 39 with fetched := [⟨words [1], 40, false⟩] } }).front 39 = some ⟨words [1], 40, false⟩ ∧
    (putF (Reg.RING_CTRL 40) F.RING_CTRL_ENABLE 1 { Blk.init with rings := Blk.init.rings.set 39 { Blk.init.ring 39 with fetched := [⟨words [1], 40, false⟩] } }).ringEnabled 40 = true ∧
    (putF (Reg.RING_CTRL 40) F.RING_CTRL_ENABLE 1 { Blk.init with rings := Blk.init.rings.set 39 { Blk.init.ring 39 with fetched := [⟨words [1], 40, false⟩] } }).ringStopped 40 = false :=
  ⟨by decide, by decide, by decide, by decide, by decide⟩

theorem test_meets_CompletionEntry_88 :
    regsWf (putF (Reg.RING_CTRL 88) F.RING_CTRL_ENABLE 1 { Blk.init with rings := Blk.init.rings.set 39 { Blk.init.ring 39 with fetched := [⟨words [1], 88, false⟩] } }).regs = true ∧
    (putF (Reg.RING_CTRL 88) F.RING_CTRL_ENABLE 1 { Blk.init with rings := Blk.init.rings.set 39 { Blk.init.ring 39 with fetched := [⟨words [1], 88, false⟩] } }).rings.length = 89 ∧
    (putF (Reg.RING_CTRL 88) F.RING_CTRL_ENABLE 1 { Blk.init with rings := Blk.init.rings.set 39 { Blk.init.ring 39 with fetched := [⟨words [1], 88, false⟩] } }).front 39 = some ⟨words [1], 88, false⟩ ∧
    (putF (Reg.RING_CTRL 88) F.RING_CTRL_ENABLE 1 { Blk.init with rings := Blk.init.rings.set 39 { Blk.init.ring 39 with fetched := [⟨words [1], 88, false⟩] } }).ringEnabled 88 = true ∧
    (putF (Reg.RING_CTRL 88) F.RING_CTRL_ENABLE 1 { Blk.init with rings := Blk.init.rings.set 39 { Blk.init.ring 39 with fetched := [⟨words [1], 88, false⟩] } }).ringStopped 88 = false :=
  ⟨by decide, by decide, by decide, by decide, by decide⟩

/-- A hit of a one-word register that only holds what is written to it, which a test of writes takes or rejects. -/
def plainHit (off : Nat) (p : Hit → Bool) : Bool :=
  (findReg off).any fun h => h.d.words == 1 && h.idx == 0 && !h.readOnly && plainBlock h.base && p h

theorem test_meets_RegisterWriteLands_taken_256 :
    Ready ⟨[], Blk.init⟩ ∧
    plainHit 0x32004 (fun h => !(unheld (fresh Blk.init)).rejects h 256) = true ∧
    plainHit 0x32004 (fun h => !(unheld (withAux (fun a => { a with dirty := [] }) (fresh Blk.init))).rejects h 256) = true ∧
    plainHit 0x32004 (fun h => !(fresh Blk.init).rejects h 256
      && !(unheld (fresh Blk.init)).rejects h ((unheld (fresh Blk.init)).beneath 0x32004 256).toNat) = true :=
  ⟨ready_of (by decide), by decide, by decide, by decide⟩

theorem test_meets_RegisterWriteLands_taken_65280 :
    Ready ⟨[], Blk.init⟩ ∧
    plainHit 0x32004 (fun h => !(unheld (fresh Blk.init)).rejects h 65280) = true ∧
    plainHit 0x32004 (fun h => !(unheld (withAux (fun a => { a with dirty := [] }) (fresh Blk.init))).rejects h 65280) = true ∧
    plainHit 0x32004 (fun h => !(fresh Blk.init).rejects h 65280
      && !(unheld (fresh Blk.init)).rejects h ((unheld (fresh Blk.init)).beneath 0x32004 65280).toNat) = true :=
  ⟨ready_of (by decide), by decide, by decide, by decide⟩

theorem test_meets_RegisterWriteLands_rejected :
    plainHit 0x32004 (fun h => (unheld (fresh Blk.init)).rejects h 0) = true :=
  by decide

theorem test_meets_RegisterWriteLands_unmapped :
    findReg 0x1FFFFC = none ∧
    0x1FFFFC % 4 = 0 :=
  ⟨by decide, by decide⟩

theorem test_meets_FieldsByType :
    (((findReg 0x32004).any fun h => decide (h.d.fields.Pairwise fun f g => f.lo + f.w ≤ g.lo ∨ g.lo + g.w ≤ f.lo)) = true) :=
  by decide

theorem test_meets_RegisterReads_plain :
    Ready ⟨[], Blk.init⟩ ∧
    ((findReg 0x32004).any fun h => h.d.words == 1 && !h.d.fields.any (fun f => f.ty == .rc)) = true :=
  ⟨ready_of (by decide), by decide⟩

theorem test_meets_RegisterReads_cleared :
    ((findReg (Reg.DMC_PORT_MAX 0)).any fun h => h.d.words == 1 && h.d.fields.any (fun f => f.ty == .rc)) = true :=
  by decide

theorem test_meets_RegWriteDescriptor_1 :
    ∃ (b : Blk) (ws : List Word),
    Meets b 1 0x03 false ws ∧
    fieldFail ws (⟨1, 0xF, fun w => w % 16 != 0⟩ :: (List.range 1).flatMap fun i => [⟨2 + 2 * i, 0x1FFFFF,
      fun _ => true⟩, anyW (3 + 2 * i)]) = none ∧
    (match groupPairs 6 0 (pairsOf ws) with | .ok l => l.all (fun p => !p.h.readOnly && plainBlock p.h.base) | .error _ => false) = true ∧
    firstRejected (fresh b) (pairsOf ws) = none ∧
    (∀ i, i < 1 → dw ws (2 + 2 * i) % 4 = 0) :=
  ⟨standing 1 false [3, 1, 204804, 256] Blk.init,
    words [3, 1, 204804, 256],
    meets_of (by decide), by decide, by decide, by decide, by decide⟩

theorem test_meets_RegWriteDescriptor_6 :
    ∃ (b : Blk) (ws : List Word),
    Meets b 1 0x03 false ws ∧
    fieldFail ws (⟨1, 0xF, fun w => w % 16 != 0⟩ :: (List.range 6).flatMap fun i => [⟨2 + 2 * i, 0x1FFFFF,
      fun _ => true⟩, anyW (3 + 2 * i)]) = none ∧
    (match groupPairs 6 0 (pairsOf ws) with | .ok l => l.all (fun p => !p.h.readOnly && plainBlock p.h.base) | .error _ => false) = true ∧
    firstRejected (fresh b) (pairsOf ws) = none ∧
    (∀ i, i < 6 → dw ws (2 + 2 * i) % 4 = 0) :=
  ⟨standing 1 false [3, 6, 204804, 256, 204836, 256, 204868, 256, 204900, 256, 204932, 256, 204964, 256] Blk.init,
    words [3, 6, 204804, 256, 204836, 256, 204868, 256, 204900, 256, 204932, 256, 204964, 256],
    meets_of (by decide), by decide, by decide, by decide, by decide⟩

theorem test_meets_RegWriteDescriptor_rejected :
    ∃ (b : Blk) (ws : List Word),
    Meets b 1 0x03 false ws ∧
    fieldFail ws (⟨1, 0xF, fun w => w % 16 != 0⟩ :: (List.range 2).flatMap fun i => [⟨2 + 2 * i, 0x1FFFFF,
      fun _ => true⟩, anyW (3 + 2 * i)]) = none ∧
    firstRejected (fresh b) (pairsOf ws) = some 1 :=
  ⟨standing 1 false [3, 2, 204804, 256, 204836, 0] Blk.init,
    words [3, 2, 204804, 256, 204836, 0],
    meets_of (by decide), by decide, by decide⟩

theorem test_meets_RegWriteDescriptor_unmapped :
    ∃ (b : Blk) (ws : List Word),
    Meets b 1 0x03 false ws ∧
    fieldFail ws (⟨1, 0xF, fun w => w % 16 != 0⟩ :: (List.range 1).flatMap fun i => [⟨2 + 2 * i, 0x1FFFFF,
      fun _ => true⟩, anyW (3 + 2 * i)]) = none ∧
    firstRejected (fresh b) (pairsOf ws) = some 0 :=
  ⟨standing 1 false [3, 1, 2097148, 0] Blk.init,
    words [3, 1, 2097148, 0],
    meets_of (by decide), by decide, by decide⟩

theorem test_meets_RegReadAndTableLoad_read_1 :
    ∃ (b : Blk) (ws : List Word),
    Meets b 1 0x04 false ws ∧
    fieldFail ws [⟨1, 0xFFFF, fun w => w != 0⟩, ⟨2, 0x1FFFFF, fun _ => true⟩, anyW 4, anyW 5, anyW 6] = none ∧
    (dw ws 1 = 1 ∧ dw ws 1 * 4 ≤ dw ws 6) ∧
    ((List.range 1).all fun i => (findReg (dw ws 2 + 4 * i)).all fun h => !h.d.fields.any (fun f => f.ty == .rc)) = true :=
  ⟨standing 1 false [4, 1, 204800, 0, 4096, 0, 4] Blk.init,
    words [4, 1, 204800, 0, 4096, 0, 4],
    meets_of (by decide), by decide, by decide, by decide⟩

theorem test_meets_RegReadAndTableLoad_read_32 :
    ∃ (b : Blk) (ws : List Word),
    Meets b 1 0x04 false ws ∧
    fieldFail ws [⟨1, 0xFFFF, fun w => w != 0⟩, ⟨2, 0x1FFFFF, fun _ => true⟩, anyW 4, anyW 5, anyW 6] = none ∧
    (dw ws 1 = 32 ∧ dw ws 1 * 4 ≤ dw ws 6) ∧
    ((List.range 32).all fun i => (findReg (dw ws 2 + 4 * i)).all fun h => !h.d.fields.any (fun f => f.ty == .rc)) = true :=
  ⟨standing 1 false [4, 32, 204800, 0, 4096, 0, 128] Blk.init,
    words [4, 32, 204800, 0, 4096, 0, 128],
    meets_of (by decide), by decide, by decide, by decide⟩

theorem test_meets_RegReadAndTableLoad_table :
    ∃ (b : Blk) (ws : List Word),
    Meets b 1 0x05 false ws ∧
    (dw ws 4 % 64 = 0 ∧ dw ws 5 % 64 = 0 ∧ dw ws 5 + dw ws 4 ≤ 0x4000000) ∧
    unmappedRange (dw ws 5) (dw ws 4) = false ∧
    (fresh b).busyRange (dw ws 5) (dw ws 4) = false ∧
    fieldFail ws [anyW 2, anyW 3, ⟨4, 0xFFFFFFFF, fun w => w == 0xFFFFFFFF || (w != 0 && w % 64 == 0)⟩, ⟨5,
      0x3FFFFFF, fun _ => true⟩] = none :=
  ⟨standing 1 false [5, 0, 4096, 0, 64, 2097152] Blk.init,
    words [5, 0, 4096, 0, 64, 2097152],
    meets_of (by decide), by decide, by decide, by decide, by decide⟩

theorem test_meets_RegReadAndTableLoad_table_last :
    ∃ (b : Blk) (ws : List Word),
    Meets b 1 0x05 false ws ∧
    (dw ws 4 % 64 = 0 ∧ dw ws 5 % 64 = 0 ∧ dw ws 5 + dw ws 4 ≤ 0x4000000) ∧
    unmappedRange (dw ws 5) (dw ws 4) = false ∧
    (fresh b).busyRange (dw ws 5) (dw ws 4) = false ∧
    fieldFail ws [anyW 2, anyW 3, ⟨4, 0xFFFFFFFF, fun w => w == 0xFFFFFFFF || (w != 0 && w % 64 == 0)⟩, ⟨5,
      0x3FFFFFF, fun _ => true⟩] = none :=
  ⟨standing 1 false [5, 0, 4096, 0, 64, 10489792] Blk.init,
    words [5, 0, 4096, 0, 64, 10489792],
    meets_of (by decide), by decide, by decide, by decide, by decide⟩

theorem test_meets_RegReadAndTableLoad_next_read :
    ∃ (b : Blk) (ws : List Word),
    Meets b 1 0x05 true ws ∧
    ((b.aux.loads.find? fun l => l.ring == 1).map TableWrite.done).getD 0 = 64 :=
  ⟨standing 1 true [5, 0, 4096, 0, 128,
    2097152] (withAux (fun a => { a with loads := [⟨1, 0x200000, 128, 64⟩] }) Blk.init),
    words [5, 0, 4096, 0, 128, 2097152],
    meets_of (by decide), by decide⟩

theorem test_meets_TickRequestsWait :
    Ready ⟨[], Blk.init⟩ ∧
    (1 : Word) ≠ 0 :=
  ⟨ready_of (by decide), by decide⟩

theorem test_meets_RingControl_enable_0 :
    Ready ⟨[], Blk.init⟩ ∧
    Blk.init.ringEnabled 0 = false ∧
    F.RING_CTRL_SIZE_LOG2.get (671088704 : Word) = 4 ∧
    F.RING_CTRL_CQ.get (671088704 : Word) = 40 :=
  ⟨ready_of (by decide), by decide, by decide, by decide⟩

theorem test_meets_RingControl_enable_88 :
    Ready ⟨[], Blk.init⟩ ∧
    Blk.init.ringEnabled 88 = false ∧
    F.RING_CTRL_SIZE_LOG2.get (788529408 : Word) = 16 ∧
    F.RING_CTRL_CQ.get (788529408 : Word) = 47 :=
  ⟨ready_of (by decide), by decide, by decide, by decide⟩

theorem test_meets_RingControl_disable :
    ∃ (b : Blk),
    Ready ⟨[], b⟩ ∧
    b.ringEnabled 0 = true ∧
    F.RING_CTRL_SIZE_LOG2.get (671088704 : Word) = b.f (Reg.RING_CTRL 0) F.RING_CTRL_SIZE_LOG2 ∧
    F.RING_CTRL_SIZE_LOG2.get (671088704 : Word) ≠ 31 ∧
    F.RING_CTRL_CQ.get (671088704 : Word) = b.f (Reg.RING_CTRL 0) F.RING_CTRL_CQ :=
  ⟨put (Reg.RING_CTRL 0) 671088705 Blk.init,
    ready_of (by decide), by decide, by decide, by decide, by decide⟩

theorem test_meets_SafeInStopsTheMachine :
    ∃ (b : Blk),
    Ready ⟨[], b⟩ ∧
    (∀ r ∈ b.rings, RingBalances r) ∧
    b.mode dCore ≠ .off ∧
    b.mode dCore ≠ .safe :=
  ⟨held dCore .expose Blk.init,
    ready_of (by decide), balanced_of (by decide), by decide, by decide⟩

theorem test_meets_AbortStopsTheMachine_by_register_or_link :
    ∃ (b : Blk),
    Ready ⟨[], b⟩ ∧
    (∀ r ∈ b.rings, RingBalances r) ∧
    b.abortActive = false ∧
    b.mode dCore ≠ .off ∧
    b.mode dCore ≠ .safe :=
  ⟨held dCore .expose Blk.init,
    ready_of (by decide), balanced_of (by decide), by decide, by decide, by decide⟩

theorem test_meets_AbortStopsTheMachine_by_descriptor :
    ∃ (b : Blk),
    Ready ⟨[], b⟩ ∧
    (∀ r ∈ b.rings, RingBalances r) ∧
    b.abortActive = false ∧
    b.mode dCore ≠ .off ∧
    b.mode dCore ≠ .safe ∧
    (b.ring 7).fetched.find? (fun d => opcodeOf d.ws == 0x0F && !d.begun) = some ⟨words [0x0F], 40, false⟩ ∧
    fieldFail (words [0x0F]) [] = none :=
  ⟨standing 7 false [0x0F] (held dCore .expose Blk.init),
    ready_of (by decide), balanced_of (by decide), by decide, by decide, by decide, by decide, by decide⟩

theorem test_meets_AbortStopsTheMachine_by_watchdog :
    ∃ (b : Blk),
    Ready ⟨[], b⟩ ∧
    (∀ r ∈ b.rings, RingBalances r) ∧
    b.abortActive = false ∧
    b.mode dCore ≠ .off ∧
    b.mode dCore ≠ .safe ∧
    b.f Reg.HIF_WD F.HIF_WD_WD_MS ≠ 0 ∧
    b.aux.wdFrom + b.f Reg.HIF_WD F.HIF_WD_WD_MS * 1000000 ≤ b.ns2 :=
  ⟨putF Reg.HIF_WD F.HIF_WD_WD_MS 1 (withAux (fun a => { a with clk := { a.clk with tb2 := 1000000 * 2 ^ 48 } }) (held dCore .expose Blk.init)),
    ready_of (by decide), balanced_of (by decide), by decide, by decide, by decide, by decide, by decide⟩

theorem test_meets_MsixMessages_pending :
    ∃ (b : Blk),
    Ready ⟨[], b⟩ ∧
    b.f (Reg.MSIX_PBA 7) ⟨31, 1⟩ = 1 ∧
    b.f (Reg.MSIX_PBA 0) ⟨0, 1⟩ ≠ 1 :=
  ⟨putF (Reg.MSIX_PBA 7) ⟨31, 1⟩ 1 Blk.init,
    ready_of (by decide), by decide, by decide⟩

theorem test_meets_MsixMessages_timer :
    ∃ (b : Blk),
    Ready ⟨[], b⟩ ∧
    b.ringEnabled 40 = true ∧
    0 < (b.ring 40).since ∧
    b.f (Reg.RING_MOD 40) F.RING_MOD_TIME_US ≠ 0 ∧
    (b.ring 40).firstNs + b.f (Reg.RING_MOD 40) F.RING_MOD_TIME_US * 1000 ≤ b.ns2 :=
  ⟨put (Reg.RING_MOD 40) (1 * 65536) (putF (Reg.RING_CTRL 40) F.RING_CTRL_ENABLE 1 { withAux (fun a => { a with clk := { a.clk with tb2 := 1000000 * 2 ^ 48 } }) Blk.init with rings := Blk.init.rings.set 40 { Ring.init with since := 1 } }),
    ready_of (by decide), by decide, by decide, by decide, by decide⟩

theorem test_meets_DoorbellAndFetch_doorbell_0 :
    ∃ (b : Blk),
    Ready ⟨[], b⟩ ∧
    b.ringEnabled 0 = true ∧
    b.aux.linkUp = true ∧
    b.ringStopped 0 = false ∧
    b.hostSeen 0 = 0 ∧
    b.dbOutOfRange 0 16 = false ∧
    b.dbOutOfRange 0 17 = true :=
  ⟨put (Reg.RING_CTRL 0) 671088705 (withAux (fun a => { a with linkUp := true }) Blk.init),
    ready_of (by decide), by decide, by decide, by decide, by decide, by decide, by decide⟩

theorem test_meets_DoorbellAndFetch_doorbell_88 :
    ∃ (b : Blk),
    Ready ⟨[], b⟩ ∧
    b.ringEnabled 88 = true ∧
    b.aux.linkUp = true ∧
    b.ringStopped 88 = false ∧
    b.hostSeen 88 = 0 ∧
    b.dbOutOfRange 88 0 = false ∧
    b.dbOutOfRange 88 17 = true :=
  ⟨put (Reg.RING_CTRL 88) 671088705 (withAux (fun a => { a with linkUp := true }) Blk.init),
    ready_of (by decide), by decide, by decide, by decide, by decide, by decide, by decide⟩

theorem test_meets_DoorbellAndFetch_fetch :
    ∃ (b : Blk),
    Ready ⟨[], b⟩ ∧
    b.mayFetch 0 = true ∧
    (words [1]).length = 16 :=
  ⟨withAux (fun a => { a with linkUp := true, ring0Wait := false }) (putF Reg.SYS_BOOT_STAT F.SYS_BOOT_STAT_FW_STATE 2 (put (Reg.RING_IDX 0 + 4) 1 (put (Reg.RING_CTRL 0) 671088705 (put (Reg.RING_CTRL 40) 671088705 Blk.init)))),
    ready_of (by decide), by decide, by decide⟩

theorem test_meets_HostSideResets_function :
    ∃ (b : Blk),
    Ready ⟨[], b⟩ ∧
    b.rings.length = 89 ∧
    b.abortActive = true :=
  ⟨putF Reg.SYS_ABORT F.SYS_ABORT_ACTIVE 1 Blk.init,
    ready_of (by decide), by decide, by decide⟩

theorem test_meets_HostSideResets_link :
    Ready ⟨[], Blk.init⟩ ∧
    Blk.init.rings.length = 89 ∧
    Blk.init.mode dCore = .off :=
  ⟨ready_of (by decide), by decide, by decide⟩

theorem test_meets_AbortAftermath_link_up :
    ∃ (b : Blk),
    Ready ⟨[], b⟩ ∧
    (∀ r ∈ b.rings, RingBalances r) ∧
    b.abortActive = true ∧
    b.f Reg.SYS_ABORT F.SYS_ABORT_QUIESCENT = 0 :=
  ⟨putF Reg.SYS_ABORT F.SYS_ABORT_ACTIVE 1 Blk.init,
    ready_of (by decide), balanced_of (by decide), by decide, by decide⟩

theorem test_meets_AbortAftermath_rest :
    ∃ (b : Blk),
    Ready ⟨[], b⟩ ∧
    b.aux.restDue = true ∧
    b.aux.fwLost = none ∧
    b.axesAtRest = true :=
  ⟨withAux (fun a => { a with restDue := true }) Blk.init,
    ready_of (by decide), by decide, by decide, by decide⟩

theorem test_meets_AbortAftermath_release :
    ∃ (b : Blk),
    Ready ⟨[], b⟩ ∧
    b.f Reg.SYS_ABORT F.SYS_ABORT_QUIESCENT = 1 :=
  ⟨putF Reg.SYS_ABORT F.SYS_ABORT_QUIESCENT 1 Blk.init,
    ready_of (by decide), by decide⟩

theorem test_meets_Resets_cold :
    NoTrigger Blk.init ∧
    Blk.init.rings.length = 89 ∧
    regsWf Blk.init.regs = true :=
  ⟨rfl, by decide, by decide⟩

theorem test_meets_Resets_lost_firmware :
    ∃ (b : Blk),
    Ready ⟨[], b⟩ ∧
    b.aux.fwLost = some 0 ∧
    (b.f Reg.SYS_ABORT F.SYS_ABORT_AXES_REST = 1 ∨ 0 + 5000000000 ≤ b.ns2) :=
  ⟨withAux (fun a => { a with fwLost := some 0, clk := { a.clk with tb2 := 5000000000 * 2 ^ 48 } }) Blk.init,
    ready_of (by decide), by decide, by decide⟩

theorem test_meets_Resets_key :
    Ready ⟨[], Blk.init⟩ ∧
    F.SYS_RESET_KEY.get (0x5741 : Word) = 0x5741 ∧
    Blk.init.keyPermitted = true :=
  ⟨ready_of (by decide), by decide, by decide⟩

theorem test_meets_TimeAndTrimsByRegister_latch :
    Ready ⟨[], Blk.init⟩ ∧
    (1 : Word).toNat % 2 = 1 ∧
    (0 : Word).toNat % 2 = 0 :=
  ⟨ready_of (by decide), by decide, by decide⟩

theorem test_meets_TimeAndTrimsByRegister_set :
    Ready ⟨[], Blk.init⟩ ∧
    Blk.init.goRejected (F.TIM_SETCTL_TB.get (1 : Word)) = false :=
  ⟨ready_of (by decide), by decide⟩

theorem test_meets_TimeAndTrimsByRegister_set_rejected :
    ∃ (b : Blk),
    Ready ⟨[], b⟩ ∧
    b.goRejected (F.TIM_SETCTL_TB.get (0 : Word)) = true :=
  ⟨putF (Reg.PTP_INST_CFG 0) F.PTP_INST_CFG_EN 1 Blk.init,
    ready_of (by decide), by decide⟩

theorem test_meets_TimeAndTrimsByRegister_fold :
    bits (F.MPL_HM_FOLD_CLEAR.put 1 (256 : Word)).toNat 0 9 ≤ 256 ∧
    256 < bits (F.MPL_HM_FOLD_CLEAR.put 1 (257 : Word)).toNat 0 9 :=
  ⟨by decide, by decide⟩

theorem test_meets_TimeAndTrimsByRegister_trim :
    Ready ⟨[], Blk.init⟩ ∧
    Blk.init.calRejected (77 : Fin 80) = false ∧
    Blk.init.calRejected (78 : Fin 80) = true :=
  ⟨ready_of (by decide), by decide, by decide⟩

theorem test_meets_TestAndLifeCycleByRegister_run :
    ∃ (b : Blk),
    Ready ⟨[], b⟩ ∧
    b.bstRejected ((167 : Word).toNat % 256) = false ∧
    b.bstRejected ((168 : Word).toNat % 256) = true ∧
    b.lifeCycle = 1 :=
  ⟨putF Reg.LCS_STATE F.LCS_STATE_STATE 1 Blk.init,
    ready_of (by decide), by decide, by decide, by decide⟩

theorem test_meets_TestAndLifeCycleByRegister_done :
    ∃ (b : Blk),
    Ready ⟨[], b⟩ ∧
    b.aux.boot.testing = some 0 ∧
    Blk.init.aux.boot.testing = none :=
  ⟨bootSet (fun x => { x with testing := some 0 }) Blk.init,
    ready_of (by decide), by decide, by decide⟩

theorem test_meets_TestAndLifeCycleByRegister_exit :
    ∃ (b : Blk),
    Ready ⟨[], b⟩ ∧
    b.lifeCycle = 4 ∧
    b.lifeCycle ≠ 1 :=
  ⟨putF Reg.LCS_STATE F.LCS_STATE_STATE 4 Blk.init,
    ready_of (by decide), by decide, by decide⟩

theorem test_meets_TestAndLifeCycleByRegister_rollback :
    ∃ (b : Blk),
    Ready ⟨[], b⟩ ∧
    b.aux.boot.fw = some (1, 1) ∧
    b.lifeCycle = 3 ∧
    b.f Reg.LCS_STATE F.LCS_STATE_RB < 1 ∧
    Blk.init.aux.boot.fw = none :=
  ⟨bootSet (fun x => { x with fw := some (1, 1) }) (putF Reg.LCS_STATE F.LCS_STATE_STATE 3 Blk.init),
    ready_of (by decide), by decide, by decide, by decide, by decide⟩

/-- A value of SYS_BOOT_CTRL with its LINK_MS. -/
def lw (ms : Nat) : Word := F.SYS_BOOT_CTRL_LINK_MS.put ms 0

theorem test_meets_BootSteps_load_1 :
    Ready ⟨[], Blk.init⟩ ∧
    F.SYS_BOOT_CTRL_RELEASE.get (lw 1) = 0 ∧
    F.SYS_BOOT_CTRL_LINK_MS.get (lw 1) = 1 ∧
    Blk.init.f Reg.SYS_BOOT_STAT F.SYS_BOOT_STAT_FW_STATE ≠ 1 ∧
    Blk.init.f Reg.SYS_BOOT_STAT F.SYS_BOOT_STAT_FW_STATE ≠ 2 :=
  ⟨ready_of (by decide), by decide, by decide, by decide, by decide⟩

theorem test_meets_BootSteps_load_65534 :
    Ready ⟨[], Blk.init⟩ ∧
    F.SYS_BOOT_CTRL_RELEASE.get (lw 65534) = 0 ∧
    F.SYS_BOOT_CTRL_LINK_MS.get (lw 65534) = 65534 ∧
    Blk.init.f Reg.SYS_BOOT_STAT F.SYS_BOOT_STAT_FW_STATE ≠ 1 ∧
    Blk.init.f Reg.SYS_BOOT_STAT F.SYS_BOOT_STAT_FW_STATE ≠ 2 :=
  ⟨ready_of (by decide), by decide, by decide, by decide, by decide⟩

theorem test_meets_BootSteps_loaded :
    ∃ (b : Blk),
    Ready ⟨[], b⟩ ∧
    b.f Reg.SYS_BOOT_STAT F.SYS_BOOT_STAT_FW_STATE = 1 ∧
    b.imageOk [] = none :=
  ⟨putF Reg.SYS_BOOT_STAT F.SYS_BOOT_STAT_FW_STATE 1 Blk.init,
    ready_of (by decide), by decide, by decide⟩

theorem test_meets_BootSteps_release :
    ∃ (b : Blk),
    Ready ⟨[], b⟩ ∧
    F.SYS_BOOT_CTRL_LOAD.get (lw 1) = 0 ∧
    b.releaseRejected = false ∧
    Blk.init.releaseRejected = true :=
  ⟨putF Reg.DMC_STATE F.DMC_STATE_STATE 2 (putF Reg.SYS_BOOT_STAT F.SYS_BOOT_STAT_FW_STATE 2 Blk.init),
    ready_of (by decide), by decide, by decide, by decide⟩

theorem test_meets_BootSteps_absent_0 :
    ∃ (b : Blk),
    Ready ⟨[], b⟩ ∧
    b.aux.boot.upFrom = some 0 ∧
    b.mode 0 = .reset ∧
    b.lanesUp 0 = false ∧
    0 + 1000000 * b.f Reg.SYS_BOOT_CTRL F.SYS_BOOT_CTRL_LINK_MS ≤ b.ns2 :=
  ⟨bootSet (fun x => { x with upFrom := some 0 }) (withAux (fun a => { a with clk := { a.clk with tb2 := 100000000000 * 2 ^ 48 } }) (held 0 .reset Blk.init)),
    ready_of (by decide), by decide, by decide, by decide, by decide⟩

theorem test_meets_BootSteps_absent_33 :
    ∃ (b : Blk),
    Ready ⟨[], b⟩ ∧
    b.aux.boot.upFrom = some 0 ∧
    b.mode 33 = .reset ∧
    b.lanesUp 33 = false ∧
    0 + 1000000 * b.f Reg.SYS_BOOT_CTRL F.SYS_BOOT_CTRL_LINK_MS ≤ b.ns2 :=
  ⟨bootSet (fun x => { x with upFrom := some 0 }) (withAux (fun a => { a with clk := { a.clk with tb2 := 100000000000 * 2 ^ 48 } }) (held 33 .reset Blk.init)),
    ready_of (by decide), by decide, by decide, by decide, by decide⟩

theorem test_meets_BootSteps_done :
    ∃ (b : Blk),
    Ready ⟨[], b⟩ ∧
    b.f Reg.SYS_BOOT_STAT F.SYS_BOOT_STAT_RELEASED = 1 ∧
    b.f Reg.SYS_BOOT_STAT F.SYS_BOOT_STAT_DONE = 0 ∧
    b.aux.boot.upFrom.isSome = true ∧
    (∀ d, d < 48 → (b.mode d = .reset ∨ b.mode d = .selftest → b.absent d = true) ∧ ∀ t ∈ b.aux.trans,
      t.dom = d → t.mode ≠ .reset) :=
  ⟨bootSet (fun x => { x with upFrom := some 0 }) (putF Reg.SYS_BOOT_STAT F.SYS_BOOT_STAT_RELEASED 1 (putF Reg.SYS_BOOT_ABSENT ⟨0, 1⟩ 1 (held 0 .reset Blk.init))),
    ready_of (by decide), by decide, by decide, by decide, by decide⟩

theorem test_meets_BuildControl_open_passes :
    ∃ (b : Blk) (ws : List Word),
    Meets b 1 0x10 false ws ∧
    (firstFail [fieldFail ws [anyW 1, anyW 2], stateFail (fresh b) [.setup], need (!((fresh b).lifeCycle == 0
      || (fresh b).lifeCycle == 5)) 0x67 0]) = none :=
  ⟨standing 1 false [16, 1] (held dCore .setup (fielded (Blk.init))),
    words [16, 1],
    meets_of (by decide), by decide⟩

theorem test_meets_BuildControl_open_fails :
    ∃ (b : Blk) (ws : List Word),
    Meets b 1 0x10 false ws ∧
    (firstFail [fieldFail ws [anyW 1, anyW 2], stateFail (fresh b) [.setup], need (!((fresh b).lifeCycle == 0
      || (fresh b).lifeCycle == 5)) 0x67 0]).isSome = true :=
  ⟨standing 1 false [16, 1] Blk.init,
    words [16, 1],
    meets_of (by decide), by decide⟩

theorem test_meets_BuildControl_close_passes :
    ∃ (b : Blk) (ws : List Word),
    Meets b 1 0x11 false ws ∧
    (firstFail [fieldFail ws [], stateFail (fresh b) inBuild]) = none :=
  ⟨standing 1 false [17] (held dCore .armed (fielded (Blk.init))),
    words [17],
    meets_of (by decide), by decide⟩

theorem test_meets_BuildControl_close_fails :
    ∃ (b : Blk) (ws : List Word),
    Meets b 1 0x11 false ws ∧
    (firstFail [fieldFail ws [], stateFail (fresh b) inBuild]).isSome = true :=
  ⟨standing 1 false [17] Blk.init,
    words [17],
    meets_of (by decide), by decide⟩

theorem test_meets_BuildControl_define_1_passes :
    ∃ (b : Blk) (ws : List Word),
    Meets b 1 0x12 false ws ∧
    (firstFail [fieldFail ws coatDefineRules, lenFail ws 2 0xFFFFFFFF (decide (4095 < dw ws 2)),
      stateFail (fresh b) inBuild, need (!(fresh b).build.closed) 0x6A 0,
      need (decide ((fresh b).build.last < (dw ws 1))) 0x4F 0,
      need (decide (((fresh b).build.coats.filter fun c => !c.ended3).length < 4)) 0x4E 0]) = none :=
  ⟨standing 1 false [18, 1, 1, 1] (held dCore .armed (fielded (Blk.init))),
    words [18, 1, 1, 1],
    meets_of (by decide), by decide⟩

theorem test_meets_BuildControl_define_1_fails :
    ∃ (b : Blk) (ws : List Word),
    Meets b 1 0x12 false ws ∧
    (firstFail [fieldFail ws coatDefineRules, lenFail ws 2 0xFFFFFFFF (decide (4095 < dw ws 2)),
      stateFail (fresh b) inBuild, need (!(fresh b).build.closed) 0x6A 0,
      need (decide ((fresh b).build.last < (dw ws 1))) 0x4F 0,
      need (decide (((fresh b).build.coats.filter fun c => !c.ended3).length < 4)) 0x4E 0]).isSome = true :=
  ⟨standing 1 false [18, 0, 1, 1] (held dCore .armed (fielded (Blk.init))),
    words [18, 0, 1, 1],
    meets_of (by decide), by decide⟩

theorem test_meets_BuildControl_define_16777214_passes :
    ∃ (b : Blk) (ws : List Word),
    Meets b 1 0x12 false ws ∧
    (firstFail [fieldFail ws coatDefineRules, lenFail ws 2 0xFFFFFFFF (decide (4095 < dw ws 2)),
      stateFail (fresh b) inBuild, need (!(fresh b).build.closed) 0x6A 0,
      need (decide ((fresh b).build.last < (dw ws 1))) 0x4F 0,
      need (decide (((fresh b).build.coats.filter fun c => !c.ended3).length < 4)) 0x4E 0]) = none :=
  ⟨standing 1 false [18, 16777214, 1, 1] (held dCore .armed (fielded (Blk.init))),
    words [18, 16777214, 1, 1],
    meets_of (by decide), by decide⟩

theorem test_meets_BuildControl_define_16777214_fails :
    ∃ (b : Blk) (ws : List Word),
    Meets b 1 0x12 false ws ∧
    (firstFail [fieldFail ws coatDefineRules, lenFail ws 2 0xFFFFFFFF (decide (4095 < dw ws 2)),
      stateFail (fresh b) inBuild, need (!(fresh b).build.closed) 0x6A 0,
      need (decide ((fresh b).build.last < (dw ws 1))) 0x4F 0,
      need (decide (((fresh b).build.coats.filter fun c => !c.ended3).length < 4)) 0x4E 0]).isSome = true :=
  ⟨standing 1 false [18, 0, 1, 1] (held dCore .armed (fielded (Blk.init))),
    words [18, 0, 1, 1],
    meets_of (by decide), by decide⟩

theorem test_meets_BuildControl_start_passes :
    ∃ (b : Blk) (ws : List Word),
    Meets b 1 0x13 false ws ∧
    (firstFail [fieldFail ws [⟨1, 0xFFFFFF, fun _ => true⟩], stateFail (fresh b) inBuild,
      need ((((fresh b).coat (dw ws 1)).map fun c => c.stage == 0).getD false) 0x40 0]) = none :=
  ⟨standing 1 false [19,
    1] (buildSet (fun x => { x with isOpen := true, coats := [⟨1, 2, 1, 0, 0, 0, false, false, 0, false, 0, false, false, []⟩] }) (held dCore .armed (fielded (Blk.init)))),
    words [19, 1],
    meets_of (by decide), by decide⟩

theorem test_meets_BuildControl_start_fails :
    ∃ (b : Blk) (ws : List Word),
    Meets b 1 0x13 false ws ∧
    (firstFail [fieldFail ws [⟨1, 0xFFFFFF, fun _ => true⟩], stateFail (fresh b) inBuild,
      need ((((fresh b).coat (dw ws 1)).map fun c => c.stage == 0).getD false) 0x40 0]).isSome = true :=
  ⟨standing 1 false [19, 1] Blk.init,
    words [19, 1],
    meets_of (by decide), by decide⟩

theorem test_meets_BuildControl_cut_passes :
    ∃ (b : Blk) (ws : List Word),
    Meets b 1 0x14 false ws ∧
    (firstFail [fieldFail ws [], stateFail (fresh b) [.expose, .hold], need ((fresh b).phaseNo == 1
      || (fresh b).phaseNo == 2 || (fresh b).phaseNo == 3) 0x40 0]) = none ∧
    (fresh b).phaseNo ≠ 3 :=
  ⟨standing 1 false [20] (putF Reg.SEQ_COAT F.SEQ_COAT_PHASE 2 (held dCore .expose (fielded (Blk.init)))),
    words [20],
    meets_of (by decide), by decide, by decide⟩

theorem test_meets_BuildControl_cut_fails :
    ∃ (b : Blk) (ws : List Word),
    Meets b 1 0x14 false ws ∧
    (firstFail [fieldFail ws [], stateFail (fresh b) [.expose, .hold], need ((fresh b).phaseNo == 1
      || (fresh b).phaseNo == 2 || (fresh b).phaseNo == 3) 0x40 0]).isSome = true :=
  ⟨standing 1 false [20] Blk.init,
    words [20],
    meets_of (by decide), by decide⟩

theorem test_meets_LoadsOfBuildData_parts :
    ∃ (b : Blk) (ws : List Word),
    Meets b 1 0x15 false ws ∧
    loadFail (fresh b) ws false = none ∧
    (b.coat (dw ws 1)).isSome = true ∧
    ((b.coat (dw ws 1)).any fun c => (partEntries c 0 (words [1, 0, 0, 0, 65535]) 2 0).toOption.isSome) = true ∧
    ((b.coat (dw ws 1)).any fun c => (partEntries c 0 (words [1, 0, 0, 0, 65536]) 2 0).toOption.isNone) = true :=
  ⟨standing 1 false [21, 1, 0, 0, 2, 0, 0,
    32] (buildSet (fun x => { x with isOpen := true, coats := [⟨1, 2, 1, 0, 0, 0, false, false, 0, false, 0, false, false, []⟩] }) (held dCore .armed (fielded (Blk.init)))),
    words [21, 1, 0, 0, 2, 0, 0, 32],
    meets_of (by decide), by decide, by decide, by decide, by decide⟩

theorem test_meets_LoadsOfBuildData_parts_fail :
    ∃ (b : Blk) (ws : List Word),
    Meets b 1 0x15 false ws ∧
    (loadFail (fresh b) ws false).isSome = true :=
  ⟨standing 1 false [21, 1, 0, 0, 3, 0, 0,
    48] (buildSet (fun x => { x with isOpen := true, coats := [⟨1, 2, 1, 0, 0, 0, false, false, 0, false, 0, false, false, []⟩] }) (held dCore .armed (fielded (Blk.init)))),
    words [21, 1, 0, 0, 3, 0, 0, 48],
    meets_of (by decide), by decide⟩

theorem test_meets_LoadsOfBuildData_patches :
    ∃ (b : Blk) (ws : List Word),
    Meets b 1 0x16 false ws ∧
    loadFail (fresh b) ws true = none ∧
    ((b.coat (dw ws 1)).bind fun c => c.findPart (dw ws 2)).isSome = true ∧
    (((b.coat (dw ws 1)).bind fun c => c.findPart (dw ws 2)).any fun p => (match patchEntries p 0 (words [1]) 1 0 with | .ok qs => decide (b.patchCount + qs.length ≤ 1048576) | .error _ => false)) = true ∧
    (((b.coat (dw ws 1)).bind fun c => c.findPart (dw ws 2)).any fun p => (patchEntries p 0 (words [1,
      768]) 1 0).toOption.isNone) = true :=
  ⟨standing 1 false [22, 1, 0, 0, 1, 0, 0,
    16] (buildSet (fun x => { x with isOpen := true, coats := [⟨1, 2, 1, 0, 0, 0, false, false, 0, false, 0, false, false, [⟨0, 1, 0, []⟩]⟩] }) (held dCore .armed (fielded (Blk.init)))),
    words [22, 1, 0, 0, 1, 0, 0, 16],
    meets_of (by decide), by decide, by decide, by decide, by decide⟩

theorem test_meets_LoadsOfBuildData_patches_fail :
    ∃ (b : Blk) (ws : List Word),
    Meets b 1 0x16 false ws ∧
    (loadFail (fresh b) ws true).isSome = true :=
  ⟨standing 1 false [22, 1, 0, 1, 1, 0, 0,
    16] (buildSet (fun x => { x with isOpen := true, coats := [⟨1, 2, 1, 0, 0, 0, false, false, 0, false, 0, false, false, [⟨0, 1, 0, []⟩]⟩] }) (held dCore .armed (fielded (Blk.init)))),
    words [22, 1, 0, 1, 1, 0, 0, 16],
    meets_of (by decide), by decide⟩

theorem test_meets_LoadsOfBuildData_sets :
    ∃ (b : Blk) (ws : List Word),
    Meets b 1 0x17 false ws ∧
    (firstFail [ fieldFail ws psetRules, lenFail ws 2 0xFFFF (decide (256 < (dw ws 2))
      || decide (256 < (dw ws 1) + (dw ws 2)) || decide (dw ws 6 < (dw ws 2) * 64)), lenFail ws 6 0xFFFFFFFF false,
      alignFail ws 4 64, stateFail (fresh b) (.setup :: inBuild)]) = none ∧
    (psetEntries (fresh b) 255 (words [65536, 1, 1, 1, 1]) 1 0).toOption.isSome = true ∧
    (psetEntries (fresh b) 255 (words []) 1 0).toOption.isNone = true ∧
    b.setBusy 255 = false :=
  ⟨standing 1 false [23, 255, 1, 0, 0, 0, 64] (held dCore .armed (fielded (Blk.init))),
    words [23, 255, 1, 0, 0, 0, 64],
    meets_of (by decide), by decide, by decide, by decide, by decide⟩

theorem test_meets_LoadsOfBuildData_sets_busy :
    ∃ (b : Blk) (ws : List Word),
    Meets b 1 0x17 false ws ∧
    (firstFail [ fieldFail ws psetRules, lenFail ws 2 0xFFFF (decide (256 < (dw ws 2))
      || decide (256 < (dw ws 1) + (dw ws 2)) || decide (dw ws 6 < (dw ws 2) * 64)), lenFail ws 6 0xFFFFFFFF false,
      alignFail ws 4 64, stateFail (fresh b) (.setup :: inBuild)]) = none ∧
    (List.range 1).find? (fun i => (fresh b).setBusy (255 + i)) = some 0 :=
  ⟨standing 1 false [23, 255, 1, 0, 0, 0,
    64] (withAux (fun a => { a with psets := a.psets.set 255 { Pset.init with active := some ⟨4, []⟩ } }) (buildSet (fun x => { x with coats := [⟨1, 1, 1, 0, 0, 0, false, false, 0, false, 0, false, false, [⟨0, 4, 0, [⟨0, 1, 255, 0, false, 0, some 1, []⟩, ⟨1, 1, 255, 0, false, 0, some 2, []⟩, ⟨2, 1, 255, 0, false, 0, some 3, []⟩, ⟨3, 1, 255, 0, false, 0, some 4, []⟩]⟩]⟩] }) (held dCore .armed (fielded (Blk.init))))),
    words [23, 255, 1, 0, 0, 0, 64],
    meets_of (by decide), by decide, by decide⟩

theorem test_meets_LoadsOfBuildData_sets_fail :
    ∃ (b : Blk) (ws : List Word),
    Meets b 1 0x17 false ws ∧
    (firstFail [ fieldFail ws psetRules, lenFail ws 2 0xFFFF (decide (256 < (dw ws 2))
      || decide (256 < (dw ws 1) + (dw ws 2)) || decide (dw ws 6 < (dw ws 2) * 64)), lenFail ws 6 0xFFFFFFFF false,
      alignFail ws 4 64, stateFail (fresh b) (.setup :: inBuild)]).isSome = true :=
  ⟨standing 1 false [23, 255, 2, 0, 0, 0, 128] (held dCore .armed (fielded (Blk.init))),
    words [23, 255, 2, 0, 0, 0, 128],
    meets_of (by decide), by decide⟩

theorem test_meets_MeasureAndMoveCommands_arm_passes :
    ∃ (b : Blk) (ws : List Word),
    Meets b 1 0x20 false ws ∧
    ((firstFail [ fieldFail ws [⟨1, 0x1F, fun _ => true⟩, ⟨2, 0xFFFFFFFF,
      fun w => decide (w = 0xFFFFFFFF ∨ (1 ≤ w ∧ w ≤ 65536))⟩, ⟨3, 0xFFFFFFFF,
      fun w => decide (w = 0xFFFFFFFF ∨ w < (dw ws 2))⟩, ⟨4, 1, fun _ => true⟩], lenFail ws 2 0xFFFFFFFF false,
      lenFail ws 3 0xFFFFFFFF false, need (!((fresh b).burstState (bits (dw ws 1) 0 5) == 1
      || (fresh b).burstState (bits (dw ws 1) 0 5) == 2)) 0x53 0]) = none) :=
  ⟨standing 1 false [32, 31, 65536, 65535] Blk.init,
    words [32, 31, 65536, 65535],
    meets_of (by decide), by decide⟩

theorem test_meets_MeasureAndMoveCommands_arm_fails :
    ∃ (b : Blk) (ws : List Word),
    Meets b 1 0x20 false ws ∧
    ((firstFail [ fieldFail ws [⟨1, 0x1F, fun _ => true⟩, ⟨2, 0xFFFFFFFF,
      fun w => decide (w = 0xFFFFFFFF ∨ (1 ≤ w ∧ w ≤ 65536))⟩, ⟨3, 0xFFFFFFFF,
      fun w => decide (w = 0xFFFFFFFF ∨ w < (dw ws 2))⟩, ⟨4, 1, fun _ => true⟩], lenFail ws 2 0xFFFFFFFF false,
      lenFail ws 3 0xFFFFFFFF false, need (!((fresh b).burstState (bits (dw ws 1) 0 5) == 1
      || (fresh b).burstState (bits (dw ws 1) 0 5) == 2)) 0x53 0]).isSome = true) :=
  ⟨standing 1 false [32, 0, 65537, 0] Blk.init,
    words [32, 0, 65537, 0],
    meets_of (by decide), by decide⟩

theorem test_meets_MeasureAndMoveCommands_read_passes :
    ∃ (b : Blk) (ws : List Word),
    Meets b 1 0x21 false ws ∧
    (firstFail [ fieldFail ws [⟨1, 0x1F, fun _ => true⟩, anyW 2, ⟨3, 0xFFFFFFFF, fun w => w != 0⟩, anyW 4, anyW 5,
      anyW 6], lenFail ws 3 0xFFFFFFFF (((fresh b).burstState (bits (dw ws 1) 0 5) != 0
      && decide (((fresh b).pool (bits (dw ws 1) 0 5)).burst.len < dw ws 2 + (dw ws 3)))
      || decide (dw ws 6 < (dw ws 3) * 4)), lenFail ws 6 0xFFFFFFFF false, alignFail ws 4 4,
      need ((fresh b).burstState (bits (dw ws 1) 0 5) != 2) 0x53 0,
      need ((fresh b).burstState (bits (dw ws 1) 0 5) == 3) 0x54 0]) = none :=
  ⟨standing 1 false [33, 31, 0, 4, 0, 0,
    16] (withAux (fun a => { a with pools := a.pools.modify 31 fun p => { p with burst := ⟨4, 0, false, 0⟩ } }) (putF (Reg.MPL_HEAD_BURST 31) F.MPL_HEAD_BURST_STATE 3 Blk.init)),
    words [33, 31, 0, 4, 0, 0, 16],
    meets_of (by decide), by decide⟩

theorem test_meets_MeasureAndMoveCommands_read_fails :
    ∃ (b : Blk) (ws : List Word),
    Meets b 1 0x21 false ws ∧
    (firstFail [ fieldFail ws [⟨1, 0x1F, fun _ => true⟩, anyW 2, ⟨3, 0xFFFFFFFF, fun w => w != 0⟩, anyW 4, anyW 5,
      anyW 6], lenFail ws 3 0xFFFFFFFF (((fresh b).burstState (bits (dw ws 1) 0 5) != 0
      && decide (((fresh b).pool (bits (dw ws 1) 0 5)).burst.len < dw ws 2 + (dw ws 3)))
      || decide (dw ws 6 < (dw ws 3) * 4)), lenFail ws 6 0xFFFFFFFF false, alignFail ws 4 4,
      need ((fresh b).burstState (bits (dw ws 1) 0 5) != 2) 0x53 0,
      need ((fresh b).burstState (bits (dw ws 1) 0 5) == 3) 0x54 0]).isSome = true :=
  ⟨standing 1 false [33, 31, 0, 4, 0, 0, 16] Blk.init,
    words [33, 31, 0, 4, 0, 0, 16],
    meets_of (by decide), by decide⟩

theorem test_meets_MeasureAndMoveCommands_image_passes :
    ∃ (b : Blk) (ws : List Word),
    Meets b 1 0x22 false ws ∧
    (firstFail [ fieldFail ws [⟨1, 0xF, fun _ => true⟩, anyW 2, anyW 3, anyW 4], lenFail ws 4 0xFFFFFFFF false,
      need (decide ((bits (b.w (Reg.CAM_IMG 7 1 + 4)).toNat 0 13) * (bits (b.w (Reg.CAM_IMG 7 1 + 4)).toNat 16 13) * 2 ≤ dw ws 4)) 0x06 4, alignFail ws 2 64, need (!((b.camBook 7).frames.any (fun f => f.buf == some 1) || (b.cam 7).ended.any (fun f => f.buf == some 1))) 0x55 0, need (b.f (Reg.CAM_IMG 7 1) F.CAM_IMG_VALID == 1) 0x56 0]) = none ∧
    b.badLine (b.imageBase 7 + 33554432) 2 = some 524288 :=
  ⟨standing 1 false [34, 15, 0, 0,
    16384] (putF (Reg.CAM_IMG 7 1) F.CAM_IMG_VALID 1 (put (Reg.CAM_IMG 7 1 + 4) 65537 (Blk.init))),
    words [34, 15, 0, 0, 16384],
    meets_of (by decide), by decide, by decide⟩

theorem test_meets_MeasureAndMoveCommands_image_fails :
    ∃ (b : Blk) (ws : List Word),
    Meets b 1 0x22 false ws ∧
    (firstFail [ fieldFail ws [⟨1, 0xF, fun _ => true⟩, anyW 2, anyW 3, anyW 4], lenFail ws 4 0xFFFFFFFF false,
      need (decide ((bits (b.w (Reg.CAM_IMG 7 1 + 4)).toNat 0 13) * (bits (b.w (Reg.CAM_IMG 7 1 + 4)).toNat 16 13) * 2 ≤ dw ws 4)) 0x06 4, alignFail ws 2 64, need (!((b.camBook 7).frames.any (fun f => f.buf == some 1) || (b.cam 7).ended.any (fun f => f.buf == some 1))) 0x55 0, need (b.f (Reg.CAM_IMG 7 1) F.CAM_IMG_VALID == 1) 0x56 0]).isSome = true :=
  ⟨standing 1 false [34, 15, 0, 0, 16384] Blk.init,
    words [34, 15, 0, 0, 16384],
    meets_of (by decide), by decide⟩

theorem test_meets_MeasureAndMoveCommands_image_read_passes :
    ∃ (b : Blk) (ws : List Word),
    Meets b 1 0x22 false ws ∧
    (firstFail [ fieldFail ws [⟨1, 0xF, fun _ => true⟩, anyW 2, anyW 3, anyW 4], lenFail ws 4 0xFFFFFFFF false,
      need (decide ((bits (b.w (Reg.CAM_IMG 7 1 + 4)).toNat 0 13) * (bits (b.w (Reg.CAM_IMG 7 1 + 4)).toNat 16 13) * 2 ≤ dw ws 4)) 0x06 4, alignFail ws 2 64, need (!((b.camBook 7).frames.any (fun f => f.buf == some 1) || (b.cam 7).ended.any (fun f => f.buf == some 1))) 0x55 0, need (b.f (Reg.CAM_IMG 7 1) F.CAM_IMG_VALID == 1) 0x56 0]) = none ∧
    b.badLine (b.imageBase 7 + 33554432) 2 = none :=
  ⟨standing 1 false [34, 15, 0, 0,
    16384] (putF (Reg.CAM_IMG 7 1) F.CAM_IMG_VALID 1 (put (Reg.CAM_IMG 7 1 + 4) 65537 (putF Reg.DMC_STATE F.DMC_STATE_SIZE 1 Blk.init))),
    words [34, 15, 0, 0, 16384],
    meets_of (by decide), by decide, by decide⟩

theorem test_meets_MeasureAndMoveCommands_image_read_fails :
    ∃ (b : Blk) (ws : List Word),
    Meets b 1 0x22 false ws ∧
    (firstFail [ fieldFail ws [⟨1, 0xF, fun _ => true⟩, anyW 2, anyW 3, anyW 4], lenFail ws 4 0xFFFFFFFF false,
      need (decide ((bits (b.w (Reg.CAM_IMG 7 1 + 4)).toNat 0 13) * (bits (b.w (Reg.CAM_IMG 7 1 + 4)).toNat 16 13) * 2 ≤ dw ws 4)) 0x06 4, alignFail ws 2 64, need (!((b.camBook 7).frames.any (fun f => f.buf == some 1) || (b.cam 7).ended.any (fun f => f.buf == some 1))) 0x55 0, need (b.f (Reg.CAM_IMG 7 1) F.CAM_IMG_VALID == 1) 0x56 0]).isSome = true :=
  ⟨standing 1 false [34, 15, 0, 0, 16384] Blk.init,
    words [34, 15, 0, 0, 16384],
    meets_of (by decide), by decide⟩

theorem test_meets_MeasureAndMoveCommands_measure_passes :
    ∃ (b : Blk) (ws : List Word),
    Meets b 1 0x23 false ws ∧
    (fltFail (fresh b) ws false) = none :=
  ⟨standing 1 false [35, 1, 0, 1] (held (dFloat 1) .setup Blk.init),
    words [35, 1, 0, 1],
    meets_of (by decide), by decide⟩

theorem test_meets_MeasureAndMoveCommands_measure_fails :
    ∃ (b : Blk) (ws : List Word),
    Meets b 1 0x23 false ws ∧
    (fltFail (fresh b) ws false).isSome = true :=
  ⟨standing 1 false [35, 1, 0, 1] Blk.init,
    words [35, 1, 0, 1],
    meets_of (by decide), by decide⟩

theorem test_meets_MeasureAndMoveCommands_fire_passes :
    ∃ (b : Blk) (ws : List Word),
    Meets b 1 0x24 false ws ∧
    (fltFail (fresh b) ws true) = none :=
  ⟨standing 1 false [36, 1, 0, 15] (held (dFloat 1) .service Blk.init),
    words [36, 1, 0, 15],
    meets_of (by decide), by decide⟩

theorem test_meets_MeasureAndMoveCommands_fire_fails :
    ∃ (b : Blk) (ws : List Word),
    Meets b 1 0x24 false ws ∧
    (fltFail (fresh b) ws true).isSome = true :=
  ⟨standing 1 false [36, 1, 0, 15] Blk.init,
    words [36, 1, 0, 15],
    meets_of (by decide), by decide⟩

theorem test_meets_MeasureAndMoveCommands_move_passes :
    ∃ (b : Blk) (ws : List Word),
    Meets b 1 0x25 false ws ∧
    (motMoveFail (fresh b) ws) = none :=
  ⟨standing 1 false [37, 75] (held (axisDom 11) .service Blk.init),
    words [37, 75],
    meets_of (by decide), by decide⟩

theorem test_meets_MeasureAndMoveCommands_move_fails :
    ∃ (b : Blk) (ws : List Word),
    Meets b 1 0x25 false ws ∧
    (motMoveFail (fresh b) ws).isSome = true :=
  ⟨standing 1 false [37, 75] Blk.init,
    words [37, 75],
    meets_of (by decide), by decide⟩

theorem test_meets_StreamCommands_reset_passes :
    ∃ (b : Blk) (ws : List Word),
    Meets b 1 0x18 false ws ∧
    (firstFail [ fieldFail ws [⟨1, 0x7F, fun _ => true⟩], need (([Mode.setup, .armed, .safe,
      .service].contains (b.mode (((dw ws 1)) / 4)))
      && !(((b.runs.runs.filter (fun r => r.ctx == dw ws 1))).any fun r => r.place.isExec || r.place.isTransit)
      && !(((b.front (8 + dw ws 1 / 4)).map fun d => d.begun
      && ctxOf (8 + dw ws 1 / 4) d.ws == dw ws 1).getD false)) 0x4D 0]) = none :=
  ⟨standing 1 false [24, 127] (held 31 .setup (Blk.init)),
    words [24, 127],
    meets_of (by decide), by decide⟩

theorem test_meets_StreamCommands_reset_fails :
    ∃ (b : Blk) (ws : List Word),
    Meets b 1 0x18 false ws ∧
    (firstFail [ fieldFail ws [⟨1, 0x7F, fun _ => true⟩], need (([Mode.setup, .armed, .safe,
      .service].contains (b.mode (((dw ws 1)) / 4)))
      && !(((b.runs.runs.filter (fun r => r.ctx == dw ws 1))).any fun r => r.place.isExec || r.place.isTransit)
      && !(((b.front (8 + dw ws 1 / 4)).map fun d => d.begun
      && ctxOf (8 + dw ws 1 / 4) d.ws == dw ws 1).getD false)) 0x4D 0]).isSome = true :=
  ⟨standing 1 false [24, 127] Blk.init,
    words [24, 127],
    meets_of (by decide), by decide⟩

theorem test_meets_StreamCommands_append_passes :
    ∃ (b : Blk) (ws : List Word),
    Meets b 39 0x40 false ws ∧
    (appendFail (fresh b) 39 ws) = none :=
  ⟨standing 39 false [64, 0, 0, 0,
    32] (putF (Reg.TRW_CTX_CFG 124) F.TRW_CTX_CFG_SIZE_LOG2 10 (held 31 .setup (Blk.init))),
    words [64, 0, 0, 0, 32],
    meets_of (by decide), by decide⟩

theorem test_meets_StreamCommands_append_fails :
    ∃ (b : Blk) (ws : List Word),
    Meets b 39 0x40 false ws ∧
    (appendFail (fresh b) 39 ws).isSome = true :=
  ⟨standing 39 false [64, 0, 0, 0, 32] Blk.init,
    words [64, 0, 0, 0, 32],
    meets_of (by decide), by decide⟩

theorem test_meets_StreamCommands_read :
    ∃ (b : Blk) (ws : List Word),
    Meets b 39 0x40 true ws ∧
    ctxOf 39 ws = 124 ∧
    (recordBytes ws / 32) ≤ b.credits (ctxOf 39 ws) ∧
    bit (dw ws 1) 2 = false ∧
    (parseAll (fresh b) 31 (ctxOf 39 ws) (b.capacity (ctxOf 39 ws)) 1 0 (words []) ⟨none, none, [],
      []⟩).toOption.isNone = true :=
  ⟨standing 39 true [64, 0, 0, 0,
    32] (putF (Reg.TRW_CTX_CFG 124) F.TRW_CTX_CFG_SIZE_LOG2 10 (held 31 .setup (Blk.init))),
    words [64, 0, 0, 0, 32],
    meets_of (by decide), by decide, by decide, by decide, by decide⟩

theorem test_meets_StreamCommands_no_credit :
    ∃ (b : Blk) (ws : List Word),
    Meets b 39 0x40 true ws ∧
    b.credits (ctxOf 39 ws) < (recordBytes ws / 32) :=
  ⟨standing 39 true [64, 0, 0, 0,
    64] (putF (Reg.TRW_CTX_CFG 124) F.TRW_CTX_CFG_SIZE_LOG2 5 (held 31 .setup (Blk.init))),
    words [64, 0, 0, 0, 64],
    meets_of (by decide), by decide⟩

/-- A compressed stream of one stored block that holds a PAD record. -/
def padStream : List Word :=
  [0x4D494B53, 1, 262175, 32,
    BitVec.ofNat 32 (crc32 ((words [15]).take 8 |>.flatMap wordBytes))] ++ (words [15]).take 8

theorem test_meets_StreamCommands_corrupt :
    ∃ (b : Blk) (ws : List Word),
    Meets b 39 0x40 true ws ∧
    bit (dw ws 1) 2 = true ∧
    (recordBytes ws / 32) ≤ b.credits (ctxOf 39 ws) ∧
    (match skimExpand (dw ws 5) ((([] : List Word).flatMap wordBytes).take (dw ws 4)) with | .error .corrupt => true | _ => false) = true :=
  ⟨standing 39 true [64, 4, 0, 0, 52,
    32] (putF (Reg.TRW_CTX_CFG 124) F.TRW_CTX_CFG_SIZE_LOG2 10 (held 31 .setup (Blk.init))),
    words [64, 4, 0, 0, 52, 32],
    meets_of (by decide), by decide, by decide, by decide⟩

theorem test_meets_StreamCommands_excess :
    ∃ (b : Blk) (ws : List Word),
    Meets b 39 0x40 true ws ∧
    (match skimExpand (dw ws 5) ((padStream.flatMap wordBytes).take (dw ws 4)) with | .error .corrupt => false | .error _ => true | _ => false) = true :=
  ⟨standing 39 true [64, 4, 0, 0, 52,
    0] (putF (Reg.TRW_CTX_CFG 124) F.TRW_CTX_CFG_SIZE_LOG2 10 (held 31 .setup (Blk.init))),
    words [64, 4, 0, 0, 52, 0],
    meets_of (by decide), by decide⟩

theorem test_meets_StreamCommands_short :
    ∃ (b : Blk) (ws : List Word),
    Meets b 39 0x40 true ws ∧
    ((skimExpand (dw ws 5) ((padStream.flatMap wordBytes).take (dw ws 4))).toOption.any fun out => decide (out.length < dw ws 5)) = true :=
  ⟨standing 39 true [64, 4, 0, 0, 52,
    64] (putF (Reg.TRW_CTX_CFG 124) F.TRW_CTX_CFG_SIZE_LOG2 10 (held 31 .setup (Blk.init))),
    words [64, 4, 0, 0, 52, 64],
    meets_of (by decide), by decide +kernel⟩

theorem test_meets_StreamCommands_expanded :
    ∃ (b : Blk) (ws : List Word),
    Meets b 39 0x40 true ws ∧
    ((skimExpand (dw ws 5) ((padStream.flatMap wordBytes).take (dw ws 4))).toOption.any fun out => decide (dw ws 5 ≤ out.length) && (parseAll (fresh b) 31 124 (b.capacity 124) 1 0 (bytesToWords out) ⟨none, none, [], []⟩).toOption.isSome) = true :=
  ⟨standing 39 true [64, 4, 0, 0, 52,
    32] (putF (Reg.TRW_CTX_CFG 124) F.TRW_CTX_CFG_SIZE_LOG2 10 (held 31 .setup (Blk.init))),
    words [64, 4, 0, 0, 52, 32],
    meets_of (by decide), by decide +kernel⟩

theorem test_meets_StreamCommands_pad :
    ∃ (b : Blk) (ws : List Word),
    Meets b 39 0x40 true ws ∧
    (parseAll (fresh b) 31 (ctxOf 39 ws) (b.capacity (ctxOf 39 ws)) 1 0 (words [15]) ⟨none, none, [],
      []⟩).toOption.isSome = true :=
  ⟨standing 39 true [64, 0, 0, 0,
    32] (putF (Reg.TRW_CTX_CFG 124) F.TRW_CTX_CFG_SIZE_LOG2 10 (held 31 .setup (Blk.init))),
    words [64, 0, 0, 0, 32],
    meets_of (by decide), by decide⟩

theorem test_meets_RecordStoreCommands_segment :
    ∃ (b : Blk) (ws : List Word),
    Meets b 1 0x26 false ws ∧
    nvsReadFail (fresh b) ws = none ∧
    dw ws 1 = 0 ∧
    (b.aux.store.readable (dw ws 2)).isSome = true ∧
    metBy [] (addr64 ws 3) (dw ws 5) = [] ∧
    metBy [(0, 1)] (addr64 ws 3) (dw ws 5) ≠ [] :=
  ⟨standing 1 false [38, 0, 5, 0, 0, 64, 0, 0,
    64] (withAux (fun a => { a with store := { a.store with segs := [⟨5, 0, 1, 0, List.replicate 64 0, [], [], 0, 0, false, false, false, false, 0, 0⟩] } }) (held dStore .setup (Blk.init))),
    words [38, 0, 5, 0, 0, 64, 0, 0, 64],
    meets_of (by decide), by decide, by decide, by decide, by decide, by decide⟩

theorem test_meets_RecordStoreCommands_index :
    ∃ (b : Blk) (ws : List Word),
    Meets b 1 0x26 false ws ∧
    nvsReadFail (fresh b) ws = none ∧
    dw ws 1 = 1 :=
  ⟨standing 1 false [38, 1, 5, 0, 0, 32, 0, 0,
    32] (put Reg.NVS_SEQ 5 (put (Reg.NVS_SEQ + 4) 5 (withAux (fun a => { a with store := { a.store with segs := [⟨5, 0, 1, 0, List.replicate 64 0, [], [], 0, 0, false, false, false, false, 0, 0⟩] } }) (held dStore .setup (Blk.init))))),
    words [38, 1, 5, 0, 0, 32, 0, 0, 32],
    meets_of (by decide), by decide, by decide⟩

theorem test_meets_RecordStoreCommands_identity :
    ∃ (b : Blk) (ws : List Word),
    Meets b 1 0x26 false ws ∧
    nvsReadFail (fresh b) ws = none ∧
    dw ws 1 = 2 :=
  ⟨standing 1 false [38, 2, 4294967040, 0, 0, 18304, 0, 0,
    18304] (withAux (fun a => { a with store := { a.store with segs := [⟨5, 0, 1, 0, List.replicate 64 0, [], [], 0, 0, false, false, false, false, 0, 0⟩] } }) (held dStore .setup (Blk.init))),
    words [38, 2, 4294967040, 0, 0, 18304, 0, 0, 18304],
    meets_of (by decide), by decide, by decide⟩

theorem test_meets_RecordStoreCommands_area :
    ∃ (b : Blk) (ws : List Word),
    Meets b 1 0x26 false ws ∧
    nvsReadFail (fresh b) ws = none ∧
    dw ws 1 = 2 ∧
    dw ws 2 ≠ 0xFFFFFF00 :=
  ⟨standing 1 false [38, 2, 0, 0, 0, 18304, 0, 0,
    18304] (withAux (fun a => { a with store := { a.store with segs := [⟨5, 0, 1, 0, List.replicate 64 0, [], [], 0, 0, false, false, false, false, 0, 0⟩] } }) (held dStore .service (Blk.init))),
    words [38, 2, 0, 0, 0, 18304, 0, 0, 18304],
    meets_of (by decide), by decide, by decide, by decide⟩

theorem test_meets_RecordStoreCommands_read_fails :
    ∃ (b : Blk) (ws : List Word),
    Meets b 1 0x26 false ws ∧
    (nvsReadFail (fresh b) ws).isSome = true :=
  ⟨standing 1 false [38, 0, 6, 0, 0, 64, 0, 0,
    64] (withAux (fun a => { a with store := { a.store with segs := [⟨5, 0, 1, 0, List.replicate 64 0, [], [], 0, 0, false, false, false, false, 0, 0⟩] } }) (held dStore .setup (Blk.init))),
    words [38, 0, 6, 0, 0, 64, 0, 0, 64],
    meets_of (by decide), by decide⟩

theorem test_meets_RecordStoreCommands_release_passes :
    ∃ (b : Blk) (ws : List Word),
    Meets b 1 0x27 false ws ∧
    (firstFail [ fieldFail ws [anyW 1, anyW 2], need (!(b.build.isOpen && b.build.id == (addr64 ws 1))) 0x61 0,
      need ([Mode.armed, .setup, .expose].contains (b.mode dStore)) 0x60 0]) = none :=
  ⟨standing 1 false [39, 7,
    0] (withAux (fun a => { a with store := { a.store with segs := [⟨5, 0, 1, 0, List.replicate 64 0, [], [], 0, 0, false, false, false, false, 0, 0⟩] } }) (held dStore .armed (Blk.init))),
    words [39, 7, 0],
    meets_of (by decide), by decide⟩

theorem test_meets_RecordStoreCommands_release_fails :
    ∃ (b : Blk) (ws : List Word),
    Meets b 1 0x27 false ws ∧
    (firstFail [ fieldFail ws [anyW 1, anyW 2], need (!(b.build.isOpen && b.build.id == (addr64 ws 1))) 0x61 0,
      need ([Mode.armed, .setup, .expose].contains (b.mode dStore)) 0x60 0]).isSome = true :=
  ⟨standing 1 false [39, 7, 0] Blk.init,
    words [39, 7, 0],
    meets_of (by decide), by decide⟩

theorem test_meets_RecordStoreCommands_export_fails :
    ∃ (b : Blk) (ws : List Word),
    Meets b 1 0x2E false ws ∧
    (128 : Nat) ≠ dw ws 6 ∧
    b.exportOk [] = false :=
  ⟨standing 1 false [46, 5, 0, 0, 0, 0, 0] Blk.init,
    words [46, 5, 0, 0, 0, 0, 0],
    meets_of (by decide), by decide, by decide⟩

theorem test_meets_RecorderAndKeyCommands_read :
    ∃ (b : Blk) (ws : List Word),
    Meets b 1 0x28 false ws ∧
    evrReadFail ws = none :=
  ⟨standing 1 false [40, 1, 0, 0, 16384, 0, 0, 1048576] Blk.init,
    words [40, 1, 0, 0, 16384, 0, 0, 1048576],
    meets_of (by decide), by decide⟩

theorem test_meets_RecorderAndKeyCommands_read_fails :
    ∃ (b : Blk) (ws : List Word),
    Meets b 1 0x28 false ws ∧
    (evrReadFail ws).isSome = true :=
  ⟨standing 1 false [40, 1, 0, 0, 16385, 0, 0, 1048640] Blk.init,
    words [40, 1, 0, 0, 16385, 0, 0, 1048640],
    meets_of (by decide), by decide⟩

theorem test_meets_RecorderAndKeyCommands_nonce :
    ∃ (b : Blk) (ws : List Word),
    Meets b 1 0x29 false ws ∧
    bufferFail ws 32 = none :=
  ⟨standing 1 false [41, 0, 0, 0, 0, 0, 0, 32] Blk.init,
    words [41, 0, 0, 0, 0, 0, 0, 32],
    meets_of (by decide), by decide⟩

theorem test_meets_RecorderAndKeyCommands_nonce_fails :
    ∃ (b : Blk) (ws : List Word),
    Meets b 1 0x29 false ws ∧
    (bufferFail ws 32).isSome = true :=
  ⟨standing 1 false [41, 0, 0, 0, 0, 0, 0, 31] Blk.init,
    words [41, 0, 0, 0, 0, 0, 0, 31],
    meets_of (by decide), by decide⟩

theorem test_meets_RecorderAndKeyCommands_clear :
    ∃ (b : Blk) (ws : List Word),
    Meets b 1 0x2A false ws ∧
    bufferFail ws 104 = none ∧
    (fresh b).liveNonce b.aux.evrNonce = none :=
  ⟨standing 1 false [42, 0, 0, 0, 0, 0, 0, 104] Blk.init,
    words [42, 0, 0, 0, 0, 0, 0, 104],
    meets_of (by decide), by decide, by decide⟩

theorem test_meets_RecorderAndKeyCommands_clear_fails :
    ∃ (b : Blk) (ws : List Word),
    Meets b 1 0x2A false ws ∧
    (bufferFail ws 104).isSome = true :=
  ⟨standing 1 false [42, 0, 0, 0, 0, 0, 0, 103] Blk.init,
    words [42, 0, 0, 0, 0, 0, 0, 103],
    meets_of (by decide), by decide⟩

theorem test_meets_RecorderAndKeyCommands_life_nonce :
    ∃ (b : Blk) (ws : List Word),
    Meets b 1 0x2C false ws ∧
    bufferFail ws 32 = none :=
  ⟨standing 1 false [44, 0, 0, 0, 0, 0, 0, 32] Blk.init,
    words [44, 0, 0, 0, 0, 0, 0, 32],
    meets_of (by decide), by decide⟩

theorem test_meets_RecorderAndKeyCommands_life_nonce_fails :
    ∃ (b : Blk) (ws : List Word),
    Meets b 1 0x2C false ws ∧
    (bufferFail ws 32).isSome = true :=
  ⟨standing 1 false [44, 0, 0, 0, 0, 0, 0, 31] Blk.init,
    words [44, 0, 0, 0, 0, 0, 0, 31],
    meets_of (by decide), by decide⟩

theorem test_meets_RecorderAndKeyCommands_clear_waits :
    ∃ (b : Blk) (ws : List Word),
    Meets b 1 0x2A false ws ∧
    ((fresh b).liveNonce b.aux.evrNonce).isSome = true ∧
    b.evrProgrammable = false :=
  ⟨standing 1 false [42, 0, 0, 0, 0, 0, 0, 104] (withAux (fun a => { a with evrNonce := some ⟨[], 1⟩ }) (Blk.init)),
    words [42, 0, 0, 0, 0, 0, 0, 104],
    meets_of (by decide), by decide, by decide⟩

theorem test_meets_RecorderAndKeyCommands_clear_judged :
    ∃ (b : Blk) (ws : List Word),
    Meets b 1 0x2A false ws ∧
    ((fresh b).liveNonce b.aux.evrNonce).isSome = true ∧
    b.evrProgrammable = true ∧
    b.clearTokenOk ⟨[], 1⟩ [] = false :=
  ⟨standing 1 false [42, 0, 0, 0, 0, 0, 0,
    104] (withAux (fun a => { a with evrNonce := some ⟨[], 1⟩ }) (held dStore .armed Blk.init)),
    words [42, 0, 0, 0, 0, 0, 0, 104],
    meets_of (by decide), by decide, by decide, rfl⟩

theorem test_meets_RecorderAndKeyCommands_token_short :
    ∃ (b : Blk) (ws : List Word),
    Meets b 1 0x2D false ws ∧
    bufferFail ws 0 = none ∧
    ((fresh b).liveNonce b.aux.lcsNonce).isSome = true ∧
    dw ws 7 < 172 :=
  ⟨standing 1 false [45, 0, 0, 0, 0, 0, 0, 171] (withAux (fun a => { a with lcsNonce := some ⟨[], 1⟩ }) (Blk.init)),
    words [45, 0, 0, 0, 0, 0, 0, 171],
    meets_of (by decide), by decide, by decide, by decide⟩

theorem test_meets_RecorderAndKeyCommands_token :
    ∃ (b : Blk) (ws : List Word),
    Meets b 1 0x2D false ws ∧
    bufferFail ws 0 = none ∧
    ((fresh b).liveNonce b.aux.lcsNonce).isSome = true ∧
    172 ≤ dw ws 7 ∧
    b.lifeKey b.lifeCycle 0 = none ∧
    b.lifeBusy = false :=
  ⟨standing 1 false [45, 0, 0, 0, 0, 0, 0, 172] (withAux (fun a => { a with lcsNonce := some ⟨[], 1⟩ }) (Blk.init)),
    words [45, 0, 0, 0, 0, 0, 0, 172],
    meets_of (by decide), by decide, by decide, by decide, by decide, by decide⟩

theorem test_meets_RecorderAndKeyCommands_token_no_nonce :
    ∃ (b : Blk) (ws : List Word),
    Meets b 1 0x2D false ws ∧
    (fresh b).liveNonce b.aux.lcsNonce = none :=
  ⟨standing 1 false [45, 0, 0, 0, 0, 0, 0, 172] Blk.init,
    words [45, 0, 0, 0, 0, 0, 0, 172],
    meets_of (by decide), by decide⟩

theorem test_meets_TransitionsByCondition_resume :
    ∃ (b : Blk),
    Ready ⟨[], b⟩ ∧
    (b.mode 31 == .hold && b.cause 31 == causeCode .tickLate
      && b.a (Reg.SEQ_DOM_CFG 31) F.SEQ_DOM_CFG_AUTO_RESUME == 1 && b.mode dCore == .expose
      && decide (b.a (Reg.SEQ_DOM_CFG 31) F.SEQ_DOM_CFG_RESUME_TICKS ≤ (b.trowel 31).cleanTicks)) = true :=
  ⟨putF (Reg.SEQ_DOM_STAT 31) F.SEQ_DOM_STAT_CAUSE 4 (putF (Reg.SEQ_DOM_CFG 31 + 0x8000) F.SEQ_DOM_CFG_AUTO_RESUME 1 (withAux (fun a => { a with trowels := a.trowels.modify 31 fun t => { t with cleanTicks := 255 } }) (held 31 .hold (held dCore .expose Blk.init)))),
    ready_of (by decide), by decide⟩

theorem test_meets_TransitionsByCondition_drained :
    Ready ⟨[], held 47 .drain Blk.init⟩ ∧
    ((held 47 .drain Blk.init).mode 47 == .drain && (held 47 .drain Blk.init).drained 47) = true :=
  ⟨ready_of (by decide), by decide⟩

theorem test_meets_TransitionsByCondition_home :
    ∃ (b : Blk),
    Ready ⟨[], b⟩ ∧
    (b.coreHoming && b.timeReady) = true :=
  ⟨held dCore .home Blk.init,
    ready_of (by decide), by decide⟩

theorem test_meets_TransitionsByCondition_timeout :
    ∃ (b : Blk),
    Ready ⟨[], b⟩ ∧
    (b.coreHoming && !b.timeReady
      && decide (b.aux.homeFrom + b.f Reg.TIM_TB3 F.TIM_TB3_ACQ_S * 1000000000 ≤ (fresh b).ns2)) = true :=
  ⟨putF (Reg.PTP_INST_CFG 0) F.PTP_INST_CFG_EN 1 (withAux (fun a => { a with clk := { a.clk with tb2 := 600000000000 * 2 ^ 48 } }) (held dCore .home Blk.init)),
    ready_of (by decide), by decide⟩

/-- A run of one stroke, owned by head 0. -/
def aRun (p : Place) : Run where
  key := ⟨1, 0, 0, 0⟩
  home := 0
  ctx := 0
  strokes := 1
  elig := 1
  cluster := 0
  cls := 0
  tag := 0
  xmin := 0
  ymin := 0
  xmax := 1
  ymax := 1
  start := ⟨0, 0, 0⟩
  owner := 0
  place := p
  suspended := false
  stranded := false
  startedOnce := false
  point := none
  segs := []
  waits := 0
  starved := 0
  marks := []
  chosen := none
  limited := false

/-- A build in phase 3 of its one coat, whose one run is at a place. -/
def building (p : Place) (lit : Bool) : Blk → Blk := fun b =>
  { buildSet (fun x => { x with isOpen := true, coats := [⟨1, 1, 1, 0, 0, 0, false, false, 0, true, 3, false, false,
        [⟨0, 1, 0, [⟨0, 1, 0, 0, false, 0, none, []⟩]⟩]⟩] })
      (withAux (fun a => { a with
        psets := a.psets.set 0 { Pset.init with active := some ⟨1, List.replicate 16 0⟩ }
        ctxs := a.ctxs.modify 0 fun c => { c with
          held := if lit then [⟨words [3, 1], some ⟨1, 0, 0, 0⟩, false, true⟩] else [] } })
        (puts [(actOff (Reg.TRW_HEAD_WIN 0 2), 100), (actOff (Reg.TRW_HEAD_WIN 0 3), 100)]
          (putF Reg.SEQ_COAT F.SEQ_COAT_COAT 1 (putF Reg.SEQ_COAT F.SEQ_COAT_PHASE 3
            (held 0 .expose (held dCore .expose b)))))) with
    runs := ⟨[aRun p], 1, 0⟩ }

theorem test_meets_RunsStartAndMove_start_recorded :
    ∃ (b : Blk),
    Ready ⟨[], b⟩ ∧
    b.nextRun 0 = some (aRun .queued) ∧
    b.canStart 0 (aRun .queued) = true ∧
    (b.patchOf (aRun .queued).key).isSome = true ∧
    ((b.runCtx 0 (aRun .queued)).window 0).isEmpty = false :=
  ⟨building .queued true Blk.init,
    ready_of (by decide), by decide, by decide, by decide, by decide⟩

theorem test_meets_RunsStartAndMove_start_starved :
    ∃ (b : Blk),
    Ready ⟨[], b⟩ ∧
    b.nextRun 0 = some (aRun .queued) ∧
    b.canStart 0 (aRun .queued) = true ∧
    (b.patchOf (aRun .queued).key).isSome = true ∧
    ((b.runCtx 0 (aRun .queued)).window 0).isEmpty = true :=
  ⟨building .queued false Blk.init,
    ready_of (by decide), by decide, by decide, by decide, by decide⟩

theorem test_meets_RunsStartAndMove_none :
    Blk.init.nextRun 31 = none ∧
    Blk.init.engineRun 31 = none :=
  ⟨by decide, by decide⟩

theorem test_meets_RunsStartAndMove_suspend :
    ∃ (b : Blk),
    Ready ⟨[], b⟩ ∧
    b.mode 0 = .safe ∧
    b.engineRun 0 = some (aRun .executing) :=
  ⟨withAux (fun a => { a with trowels := a.trowels.modify 0 fun t => { t with run := some ⟨1, 0, 0, 0⟩ } }) (held 0 .safe (building .executing true Blk.init)),
    ready_of (by decide), by decide, by decide⟩

theorem test_meets_RunsStartAndMove_resume :
    ∃ (b : Blk),
    Ready ⟨[], b⟩ ∧
    b.engineRun 0 = some (aRun .executing) ∧
    (b.trowel 0).resume.isSome = true ∧
    ((b.trowel 0).atRest && (b.mode 0 == .expose || b.mode 0 == .drain) && !(b.lane 0).hold
      && ((b.trowel 0).cleared || (b.trowel 0).st == .hold) && (b.mode 0 == .expose
      || !(b.trowel 0).missed)) = true :=
  ⟨withAux (fun a => { a with trowels := a.trowels.modify 0 fun t => { t with run := some ⟨1, 0, 0, 0⟩, resume := some (.start 0), cleared := true } }) (building .executing true Blk.init),
    ready_of (by decide), by decide, by decide, by decide⟩

theorem test_meets_RunsStartAndMove_yield :
    ∃ (b : Blk),
    Ready ⟨[], b⟩ ∧
    ((b.trowel 31).st == .yield && decide (b.a Reg.OVL_EXCL F.OVL_EXCL_CLEAR_TICKS ≤ (b.trowel 31).probes)) = true :=
  ⟨withAux (fun a => { a with trowels := a.trowels.modify 31 fun t => { t with st := .yield, probes := 65535 } }) Blk.init,
    ready_of (by decide), by decide⟩

theorem test_meets_RunsStartAndMove_hold_clear :
    ∃ (b : Blk),
    Ready ⟨[], b⟩ ∧
    ((b.lane 31).hold && decide (b.a (Reg.HLK_LANE_CFG 31) F.HLK_LANE_CFG_LINK_CLEAR ≤ (b.lane 31).okRun)) = true :=
  ⟨laneSet 31 (fun y => { y with hold := true, okRun := 65535 }) Blk.init,
    ready_of (by decide), by decide⟩

theorem test_meets_RunsStartAndMove_transit :
    ∃ (b : Blk),
    Ready ⟨[], b⟩ ∧
    ((b.runs.runs.filter fun r => match r.place with | .transit t k => t == 0 && decide (k + 1 ≤ b.aux.clk.tick) | _ => false).length) = 1 :=
  ⟨building (.transit 0 0) true (withAux (fun a => { a with clk := { a.clk with tick := 2 } }) Blk.init),
    ready_of (by decide), by decide⟩

theorem test_meets_LaneEvents_signal :
    ∃ (b : Blk),
    Ready ⟨[], b⟩ ∧
    b.laneState 35 = 1 :=
  ⟨putF (Reg.HLK_LANE_STATE 35) F.HLK_LANE_STATE_STATE 1 Blk.init,
    ready_of (by decide), by decide⟩

theorem test_meets_LaneEvents_departed :
    ∃ (b : Blk),
    Ready ⟨[], b⟩ ∧
    (b.laneState 39 = 6 ∧ 36 ≤ 39) :=
  ⟨putF (Reg.HLK_LANE_STATE 39) F.HLK_LANE_STATE_STATE 6 Blk.init,
    ready_of (by decide), by decide⟩

theorem test_meets_LaneEvents_adapted_35 :
    ∃ (b : Blk),
    Ready ⟨[], b⟩ ∧
    b.laneState 35 = 2 ∧
    (b.lane 35).dfe = false ∧
    (b.lane 35).cal = true :=
  ⟨laneSet 35 (fun y => { y with cal := true, dfe := false }) (putF (Reg.HLK_LANE_STATE 35) F.HLK_LANE_STATE_STATE 2 Blk.init),
    ready_of (by decide), by decide, by decide, by decide⟩

theorem test_meets_LaneEvents_adapted_36 :
    ∃ (b : Blk),
    Ready ⟨[], b⟩ ∧
    b.laneState 36 = 2 ∧
    (b.lane 36).dfe = false ∧
    (b.lane 36).cal = true :=
  ⟨laneSet 36 (fun y => { y with cal := true, dfe := false }) (putF (Reg.HLK_LANE_STATE 36) F.HLK_LANE_STATE_STATE 2 Blk.init),
    ready_of (by decide), by decide, by decide, by decide⟩

theorem test_meets_LaneEvents_lost_signal :
    ∃ (b : Blk),
    Ready ⟨[], b⟩ ∧
    ((b.lane 39).signal && b.laneState 39 != 0) = true ∧
    b.laneSynced 39 = true :=
  ⟨laneSet 39 (fun y => { y with signal := true }) (putF (Reg.HLK_LANE_STATE 39) F.HLK_LANE_STATE_STATE 4 Blk.init),
    ready_of (by decide), by decide, by decide⟩

theorem test_meets_LaneEvents_link_fail :
    ∃ (b : Blk),
    Ready ⟨[], b⟩ ∧
    (1 ≤ b.laneState 0 ∧ b.laneState 0 ≤ 4 ∧ (b.lane 0).start + 10000000 ≤ b.ns2) :=
  ⟨laneSet 0 (fun y => { y with start := 0 }) (withAux (fun a => { a with clk := { a.clk with tb2 := 10000000 * 2 ^ 48 } }) (putF (Reg.HLK_LANE_STATE 0) F.HLK_LANE_STATE_STATE 1 Blk.init)),
    ready_of (by decide), by decide⟩

theorem test_meets_LatencyOfLanes_echo_outside :
    ∃ (b : Blk),
    Ready ⟨[], b⟩ ∧
    (b.lane 0).flying = true ∧
    b.laneSynced 0 = true ∧
    0 < b.aux.lanes.length ∧
    (b.lane 0).meas = .none :=
  ⟨laneSet 0 (fun y => { y with flying := true }) (putF (Reg.HLK_LANE_STATE 0) F.HLK_LANE_STATE_STATE 4 Blk.init),
    ready_of (by decide), by decide, by decide, by decide, by decide⟩

theorem test_meets_LatencyOfLanes_echo_last_close :
    ∃ (b : Blk),
    Ready ⟨[], b⟩ ∧
    (b.lane 0).flying = true ∧
    b.laneSynced 0 = true ∧
    0 < b.aux.lanes.length ∧
    ((b.lane 0).await - 1 = 0) ∧
    (((105 :: (b.lane 0).rtts).take 64).foldl max 0 - ((105 :: (b.lane 0).rtts).take 64).foldl min 105 ≤ 5) :=
  ⟨laneSet 0 (fun y => { y with flying := true, meas := .bringUp, await := 1, tries := 1, rtts := List.replicate 63 100 }) (putF (Reg.HLK_LANE_STATE 0) F.HLK_LANE_STATE_STATE 4 Blk.init),
    ready_of (by decide), by decide, by decide, by decide, by decide, by decide +kernel⟩

theorem test_meets_LatencyOfLanes_echo_last_wide :
    ∃ (b : Blk),
    Ready ⟨[], b⟩ ∧
    (b.lane 0).flying = true ∧
    b.laneSynced 0 = true ∧
    0 < b.aux.lanes.length ∧
    (b.lane 0).tries < 3 ∧
    (5 < ((106 :: (b.lane 0).rtts).take 64).foldl max 0 - ((106 :: (b.lane 0).rtts).take 64).foldl min 106) :=
  ⟨laneSet 0 (fun y => { y with flying := true, meas := .calibrate, await := 1, tries := 2, rtts := List.replicate 63 100 }) (putF (Reg.HLK_LANE_STATE 0) F.HLK_LANE_STATE_STATE 4 Blk.init),
    ready_of (by decide), by decide, by decide, by decide, by decide, by decide +kernel⟩

theorem test_meets_LatencyOfLanes_echo_third_wide :
    ∃ (b : Blk),
    Ready ⟨[], b⟩ ∧
    (b.lane 0).flying = true ∧
    b.laneSynced 0 = true ∧
    0 < b.aux.lanes.length ∧
    3 ≤ (b.lane 0).tries :=
  ⟨laneSet 0 (fun y => { y with flying := true, meas := .calibrate, await := 1, tries := 3, rtts := List.replicate 63 100 }) (putF (Reg.HLK_LANE_STATE 0) F.HLK_LANE_STATE_STATE 4 Blk.init),
    ready_of (by decide), by decide, by decide, by decide, by decide⟩

theorem test_meets_LatencyOfLanes_echo_more_to_come :
    ∃ (b : Blk),
    Ready ⟨[], b⟩ ∧
    (b.lane 0).flying = true ∧
    b.laneSynced 0 = true ∧
    0 < b.aux.lanes.length ∧
    (b.lane 0).meas ≠ .none ∧
    (b.lane 0).await - 1 ≠ 0 :=
  ⟨laneSet 0 (fun y => { y with flying := true, meas := .calibrate, await := 2 }) (putF (Reg.HLK_LANE_STATE 0) F.HLK_LANE_STATE_STATE 4 Blk.init),
    ready_of (by decide), by decide, by decide, by decide, by decide, by decide⟩

theorem test_meets_LatencyOfLanes_probe :
    ∃ (b : Blk),
    Ready ⟨[], b⟩ ∧
    (b.laneUp 31 && (b.lane 31).meas == .none && decide (4096 ≤ (b.lane 31).sinceProbe) && !(decide (32 ≤ 31)
      && decide (31 < 36))) = true :=
  ⟨laneSet 31 (fun y => { y with sinceProbe := 4096 }) (putF (Reg.HLK_LANE_STATE 31) F.HLK_LANE_STATE_STATE 5 Blk.init),
    ready_of (by decide), by decide⟩

/-- A frame of a head or bar: its words and their check value. -/
def framed (l : List Word) : List Word := l ++ [BitVec.ofNat 32 (crcWords l)]

theorem test_meets_LatencyOfLanes_capability :
    ∃ (b : Blk),
    Ready ⟨[], b⟩ ∧
    b.laneState 35 = 2 ∧
    (b.lane 35).dfe = true ∧
    (framed [0x10000, 1, 0, 0, 0]).length = 6 ∧
    crcOk (framed [0x10000, 1, 0, 0, 0]) = true ∧
    crcOk [0x10000, 1, 0, 0, 0, 0] = false ∧
    bits (((framed [0x10000, 1, 0, 0, 0]).getD 0 0).toNat) 16 2 = 1 :=
  ⟨laneSet 35 (fun y => { y with dfe := true }) (putF (Reg.HLK_LANE_STATE 35) F.HLK_LANE_STATE_STATE 2 Blk.init),
    ready_of (by decide), by decide, by decide, by decide, by decide +kernel, by decide +kernel, by decide⟩

/-- The downlink frame that an uplink frame of a test answers. -/
def downFrame : DownFrame := ⟨1, 0, false, false, [], false, [0, 0, 0], 0, 0, 0⟩

/-- An uplink frame of a head with a sequence number and, where asked for, samples that report an error. -/
def upFrame (seq : Nat) (bad : Bool) : List Word :=
  framed ([BitVec.ofNat 32 seq, 0, 0, 0, if bad then 0x101010 else 0] ++ List.replicate 28 0)

theorem test_meets_FramesHeard_head_taken :
    ∃ (b : Blk),
    Ready ⟨[], b⟩ ∧
    (((diagCapture 31 true (crcOk (upFrame 1 false)
      && 0 == 0) b.nextTick (upFrame 1 false)).run (fresh b)).lane 31).sent = some downFrame ∧
    (((diagCapture 31 true (crcOk (upFrame 1 false)
      && 0 == 0) b.nextTick (upFrame 1 false)).run (fresh b)).lane 31).rx = none ∧
    ((diagCapture 31 true (crcOk (upFrame 1 false)
      && 0 == 0) b.nextTick (upFrame 1 false)).run (fresh b)).laneUp 31 = true ∧
    (((diagCapture 31 true (crcOk (upFrame 1 false)
      && 0 == 0) b.nextTick (upFrame 1 false)).run (fresh b)).lane 31).broken = false ∧
    ((upFrame 1 false).length = 9 + pdCount 0 ∧ bits (((upFrame 1 false).getD 0 0).toNat) 16 2 = 0) ∧
    crcOk (upFrame 1 false) = true ∧
    (bits (((upFrame 1 false).getD 7 0).toNat) 0 3 = 0 ∧ downFrame.arm = bit (((upFrame 1 false).getD 7 0).toNat) 3) :=
  ⟨laneSet 31 (fun y => { y with sent := some downFrame }) (putF (Reg.HLK_LANE_STATE 31) F.HLK_LANE_STATE_STATE 5 Blk.init),
    ready_of (by decide), by decide, by decide, by decide, by decide, by decide, by decide +kernel, by decide⟩

theorem test_meets_FramesHeard_head_bad_samples :
    ∃ (b : Blk),
    Ready ⟨[], b⟩ ∧
    (((diagCapture 31 true (crcOk (upFrame 1 true)
      && 0 == 0) b.nextTick (upFrame 1 true)).run (fresh b)).lane 31).sent = some downFrame ∧
    (((diagCapture 31 true (crcOk (upFrame 1 true)
      && 0 == 0) b.nextTick (upFrame 1 true)).run (fresh b)).lane 31).rx = none ∧
    ((diagCapture 31 true (crcOk (upFrame 1 true)
      && 0 == 0) b.nextTick (upFrame 1 true)).run (fresh b)).laneUp 31 = true ∧
    (((diagCapture 31 true (crcOk (upFrame 1 true)
      && 0 == 0) b.nextTick (upFrame 1 true)).run (fresh b)).lane 31).broken = false ∧
    ((upFrame 1 true).length = 9 + pdCount 0 ∧ bits (((upFrame 1 true).getD 0 0).toNat) 16 2 = 0) ∧
    crcOk (upFrame 1 true) = true ∧
    (bits (((upFrame 1 true).getD 7 0).toNat) 0 3 = 0 ∧ downFrame.arm = bit (((upFrame 1 true).getD 7 0).toNat) 3) :=
  ⟨laneSet 31 (fun y => { y with sent := some downFrame }) (putF (Reg.HLK_LANE_STATE 31) F.HLK_LANE_STATE_STATE 5 Blk.init),
    ready_of (by decide), by decide, by decide, by decide, by decide, by decide, by decide +kernel, by decide⟩

theorem test_meets_FramesHeard_head_other_number :
    ∃ (b : Blk),
    Ready ⟨[], b⟩ ∧
    (((diagCapture 31 true (crcOk (upFrame 2 false)
      && 0 == 0) b.nextTick (upFrame 2 false)).run (fresh b)).lane 31).sent = some downFrame ∧
    (((diagCapture 31 true (crcOk (upFrame 2 false)
      && 0 == 0) b.nextTick (upFrame 2 false)).run (fresh b)).lane 31).rx = none ∧
    ((diagCapture 31 true (crcOk (upFrame 2 false)
      && 0 == 0) b.nextTick (upFrame 2 false)).run (fresh b)).laneUp 31 = true ∧
    (((diagCapture 31 true (crcOk (upFrame 2 false)
      && 0 == 0) b.nextTick (upFrame 2 false)).run (fresh b)).lane 31).broken = false ∧
    ((upFrame 2 false).length = 9 + pdCount 0 ∧ bits (((upFrame 2 false).getD 0 0).toNat) 16 2 = 0) ∧
    crcOk (upFrame 2 false) = true ∧
    (bits (((upFrame 2 false).getD 7 0).toNat) 0 3 = 0 ∧ downFrame.arm = bit (((upFrame 2 false).getD 7 0).toNat) 3) :=
  ⟨laneSet 31 (fun y => { y with sent := some downFrame }) (putF (Reg.HLK_LANE_STATE 31) F.HLK_LANE_STATE_STATE 5 Blk.init),
    ready_of (by decide), by decide, by decide, by decide, by decide, by decide, by decide +kernel, by decide⟩

theorem test_meets_FramesHeard_head_check :
    (List.replicate 34 (1 : Word)).length = 9 + pdCount 0 ∧
    crcOk (List.replicate 34 1) = false :=
  ⟨by decide, by decide +kernel⟩

theorem test_meets_FramesHeard_head_broken_or_late :
    ∃ (b : Blk),
    Ready ⟨[], b⟩ ∧
    (((diagCapture 31 true (crcOk (upFrame 0 false)
      && 0 == 0) b.nextTick (upFrame 0 false)).run (fresh b)).lane 31).broken = true ∧
    (0 < (((diagCapture 31 true (crcOk (upFrame 0 false)
      && 0 == 0) b.nextTick (upFrame 0 false)).run (fresh b)).lane 31).lost ∧ ((upFrame 0 false).getD 0 0).toNat % 65536 = (downFrame.seq + 65535) % 65536) :=
  ⟨laneSet 31 (fun y => { y with sent := some downFrame, lost := 1, broken := true }) (putF (Reg.HLK_LANE_STATE 31) F.HLK_LANE_STATE_STATE 5 Blk.init),
    ready_of (by decide), by decide, by decide⟩

theorem test_meets_FramesHeard_head_second :
    ∃ (b : Blk),
    Ready ⟨[], b⟩ ∧
    (((diagCapture 31 true (crcOk (upFrame 1 false)
      && 0 == 0) b.nextTick (upFrame 1 false)).run (fresh b)).lane 31).rx.isSome = true :=
  ⟨laneSet 31 (fun y => { y with sent := some downFrame, rx := some ⟨[0, 0, 0], [true, true, true], [], []⟩ }) (putF (Reg.HLK_LANE_STATE 31) F.HLK_LANE_STATE_STATE 5 Blk.init),
    ready_of (by decide), by decide⟩

theorem test_meets_FramesHeard_bar_0 :
    ∃ (b : Blk),
    Ready ⟨[], b⟩ ∧
    ((diagCapture 32 true (crcOk (framed [1, 0, 0, 0, 0]) && 0 == 0) b.nextTick (framed [1, 0, 0, 0,
      0])).run (fresh b)).laneUp 32 = true ∧
    (((diagCapture 32 true (crcOk (framed [1, 0, 0, 0, 0]) && 0 == 0) b.nextTick (framed [1, 0, 0, 0,
      0])).run (fresh b)).lane 32).broken = false ∧
    ((let type := bits (((framed [1, 0, 0, 0, 0]).getD 0 0).toNat) 16 2; type ≠ 1 ∧ (framed [1, 0, 0, 0,
      0]).length = if type = 0 then 6 else if type = 2 then 8 else 25)) ∧
    crcOk (framed [1, 0, 0, 0, 0]) = true ∧
    ((((diagCapture 32 true (crcOk (framed [1, 0, 0, 0, 0]) && 0 == 0) b.nextTick (framed [1, 0, 0, 0,
      0])).run (fresh b)).bar 0).half 0).rx = false ∧
    ((((diagCapture 32 true (crcOk (framed [1, 0, 0, 0, 0]) && 0 == 0) b.nextTick (framed [1, 0, 0, 0,
      0])).run (fresh b)).bar 0).half 0).sentSeq = some (((framed [1, 0, 0, 0, 0]).getD 0 0).toNat % 65536) :=
  ⟨withAux (fun a => { a with bars := a.bars.modify 0 fun y => { y with halves := y.halves.modify 0 fun z => { z with sentSeq := some 1 } } }) (putF (Reg.HLK_LANE_STATE 32) F.HLK_LANE_STATE_STATE 5 Blk.init),
    ready_of (by decide), by decide, by decide, by decide, by decide +kernel, by decide, by decide⟩

theorem test_meets_FramesHeard_bar_3 :
    ∃ (b : Blk),
    Ready ⟨[], b⟩ ∧
    ((diagCapture 35 true (crcOk (framed [0x20001, 0, 0, 0, 0, 0, 0]) && 0 == 0) b.nextTick (framed [0x20001, 0, 0,
      0, 0, 0, 0])).run (fresh b)).laneUp 35 = true ∧
    (((diagCapture 35 true (crcOk (framed [0x20001, 0, 0, 0, 0, 0, 0]) && 0 == 0) b.nextTick (framed [0x20001, 0, 0,
      0, 0, 0, 0])).run (fresh b)).lane 35).broken = false ∧
    ((let type := bits (((framed [0x20001, 0, 0, 0, 0, 0, 0]).getD 0 0).toNat) 16 2; type ≠ 1 ∧ (framed [0x20001, 0,
      0, 0, 0, 0, 0]).length = if type = 0 then 6 else if type = 2 then 8 else 25)) ∧
    crcOk (framed [0x20001, 0, 0, 0, 0, 0, 0]) = true ∧
    ((((diagCapture 35 true (crcOk (framed [0x20001, 0, 0, 0, 0, 0, 0]) && 0 == 0) b.nextTick (framed [0x20001, 0, 0,
      0, 0, 0, 0])).run (fresh b)).bar 1).half 1).rx = false ∧
    ((((diagCapture 35 true (crcOk (framed [0x20001, 0, 0, 0, 0, 0, 0]) && 0 == 0) b.nextTick (framed [0x20001, 0, 0,
      0, 0, 0, 0])).run (fresh b)).bar 1).half 1).sentSeq = some (((framed [0x20001, 0, 0, 0, 0, 0,
      0]).getD 0 0).toNat % 65536) :=
  ⟨withAux (fun a => { a with bars := a.bars.modify 1 fun y => { y with halves := y.halves.modify 1 fun z => { z with sentSeq := some 1 } } }) (putF (Reg.HLK_LANE_STATE 35) F.HLK_LANE_STATE_STATE 5 Blk.init),
    ready_of (by decide), by decide, by decide, by decide, by decide +kernel, by decide, by decide⟩

theorem test_meets_FramesHeard_bar_1 :
    ∃ (b : Blk),
    Ready ⟨[], b⟩ ∧
    ((diagCapture 33 true (crcOk (framed (0x30001 :: List.replicate 23 0))
      && 0 == 0) b.nextTick (framed (0x30001 :: List.replicate 23 0))).run (fresh b)).laneUp 33 = true ∧
    (((diagCapture 33 true (crcOk (framed (0x30001 :: List.replicate 23 0))
      && 0 == 0) b.nextTick (framed (0x30001 :: List.replicate 23 0))).run (fresh b)).lane 33).broken = false ∧
    ((let type := bits (((framed (0x30001 :: List.replicate 23 0)).getD 0 0).toNat) 16 2; type ≠ 1 ∧ (framed (0x30001 :: List.replicate 23 0)).length = if type = 0 then 6 else if type = 2 then 8 else 25)) ∧
    crcOk (framed (0x30001 :: List.replicate 23 0)) = true ∧
    ((((diagCapture 33 true (crcOk (framed (0x30001 :: List.replicate 23 0))
      && 0 == 0) b.nextTick (framed (0x30001 :: List.replicate 23 0))).run (fresh b)).bar 0).half 1).rx = false ∧
    ((((diagCapture 33 true (crcOk (framed (0x30001 :: List.replicate 23 0))
      && 0 == 0) b.nextTick (framed (0x30001 :: List.replicate 23 0))).run (fresh b)).bar 0).half 1).sentSeq = some (((framed (0x30001 :: List.replicate 23 0)).getD 0 0).toNat % 65536) :=
  ⟨withAux (fun a => { a with bars := a.bars.modify 0 fun y => { y with halves := y.halves.modify 1 fun z => { z with sentSeq := some 1 } } }) (putF (Reg.HLK_LANE_STATE 33) F.HLK_LANE_STATE_STATE 5 Blk.init),
    ready_of (by decide), by decide, by decide, by decide, by decide +kernel, by decide, by decide⟩

/-- A part whose cascade has four members and whose last lane is UP. -/
def cascadeOf : Blk := (put (actOff Reg.OVL_CASC_MEMBERS) 15 (putF (Reg.HLK_LANE_STATE 39) F.HLK_LANE_STATE_STATE 5 Blk.init))

theorem test_meets_CascadeExchange_frame :
    Ready ⟨[], cascadeOf⟩ ∧
    (cascadeOf.cascLane 3 && cascadeOf.laneUp 39) = true ∧
    (cascadeOf.lane 39).broken = false ∧
    crcOk (framed [3, 0, 0, BitVec.ofNat 32 (cascadeOf.cascCheck)]) = true ∧
    cascValid 3 (framed [3, 0, 0, BitVec.ofNat 32 (cascadeOf.cascCheck)]) = true ∧
    dw (framed [3, 0, 0, BitVec.ofNat 32 (cascadeOf.cascCheck)]) 1 = cascadeOf.aux.clk.tick % 4294967296 ∧
    dw (framed [3, 0, 0, BitVec.ofNat 32 (cascadeOf.cascCheck)]) 3 = cascadeOf.cascCheck :=
  ⟨ready_of (by decide), by decide, by decide, by decide +kernel, by decide +kernel, by decide, by decide +kernel⟩

theorem test_meets_CascadeExchange_bad_frames :
    crcOk [3, 0, 0, 0, 0] = false ∧
    cascValid 3 (framed [2, 0, 0, 0]) = false :=
  ⟨by decide +kernel, by decide +kernel⟩

theorem test_meets_CascadeExchange_miss :
    Ready ⟨[], cascadeOf⟩ ∧
    (cascadeOf.cascLane 3 && !(cascadeOf.peer 3).departed && !((cascadeOf.peer 3).seen
      && (cascadeOf.peer 3).tick == cascadeOf.aux.clk.tick)) = true ∧
    (cascadeOf.peer 3).misses + 1 < cascadeOf.a Reg.HLK_CASC_CFG F.HLK_CASC_CFG_DEPART_MISSES :=
  ⟨ready_of (by decide), by decide, by decide⟩

theorem test_meets_CascadeExchange_departs :
    ∃ (b : Blk),
    Ready ⟨[], b⟩ ∧
    b.a Reg.HLK_CASC_CFG F.HLK_CASC_CFG_DEPART_MISSES ≤ (b.peer 3).misses + 1 :=
  ⟨peerSet 3 (fun p => { p with misses := 255 }) cascadeOf,
    ready_of (by decide), by decide⟩

theorem test_meets_CascadeExchange_launch :
    Ready ⟨[], cascadeOf⟩ ∧
    (List.range 4).any cascadeOf.cascLane = true :=
  ⟨ready_of (by decide), by decide⟩

theorem test_meets_CascadeExchange_align_lost :
    ∃ (b : Blk),
    Ready ⟨[], b⟩ ∧
    (b.follower && b.f Reg.TIM_STAT F.TIM_STAT_ALIGNED == 1
      && decide (b.aux.align.lastRef + b.f Reg.TIM_TB3 F.TIM_TB3_HOLD_MS * 1000000 ≤ b.ns2)) = true :=
  ⟨putF Reg.TIM_TB3 F.TIM_TB3_ROLE 1 (putF Reg.TIM_STAT F.TIM_STAT_ALIGNED 1 (withAux (fun a => { a with clk := { a.clk with tb2 := 100000000000 * 2 ^ 48 } }) Blk.init)),
    ready_of (by decide), by decide⟩

/-- A camera in a mode with frames outstanding. -/
def camWith (c : Nat) (m : Mode) (fs : List CamFrame) (f : Cam → Cam) : Blk :=
  camSet c f { held (dCam c) m Blk.init with camBooks := Blk.init.camBooks.set c ⟨fs.length, 0, fs⟩ }

/-- A frame of camera 7, begun. -/
def aFrame : CamFrame := { Blk.init.newFrame 7 0 0 none with started := true }

theorem test_meets_CamerasRun_boundary :
    ∃ (b : Blk),
    Ready ⟨[], b⟩ ∧
    b.boundaryOfs 7 = some 0 ∧
    (b.camBook 7).frames.length < 2 ∧
    b.camBooks.length = 8 :=
  ⟨camWith 7 .setup [] id,
    ready_of (by decide), by decide, by decide, by decide⟩

theorem test_meets_CamerasRun_overrun :
    ∃ (b : Blk),
    Ready ⟨[], b⟩ ∧
    b.boundaryOfs 7 = some 0 ∧
    2 ≤ ((fresh b).camBook 7).frames.length :=
  ⟨camWith 7 .setup [aFrame, aFrame] id,
    ready_of (by decide), by decide, by decide⟩

theorem test_meets_CamerasRun_off :
    ∃ (b : Blk),
    Ready ⟨[], b⟩ ∧
    b.boundaryOfs 7 = none ∧
    b.camReceives 7 = false ∧
    (b.camBook 7).frames = [] ∧
    (b.cam 7).ended = [] ∧
    b.mode (dCam 7) ≠ .home :=
  ⟨camWith 7 .off [] id,
    ready_of (by decide), by decide, by decide, by decide, by decide, by decide⟩

theorem test_meets_CamerasRun_frame_again_and_end :
    ∃ (b : Blk),
    Ready ⟨[], b⟩ ∧
    b.camReceives 7 = true ∧
    (b.camBook 7).frames = [aFrame] ∧
    aFrame.started = true ∧
    (b.cam 7).discard = false :=
  ⟨camWith 7 .setup [aFrame] id,
    ready_of (by decide), by decide, by decide, by decide, by decide⟩

theorem test_meets_CamerasRun_extra_frame :
    ∃ (b : Blk),
    Ready ⟨[], b⟩ ∧
    b.camReceives 7 = true ∧
    (b.camBook 7).frames = [] ∧
    (b.cam 7).discard = true :=
  ⟨camWith 7 .setup [] (fun x => { x with discard := true }),
    ready_of (by decide), by decide, by decide, by decide⟩

/-- The type of a frame's lines. -/
def lineType (f : CamFrame) : Nat := 0x2A + capF f.cfg F.CAM_CFG_DT

theorem test_meets_CamerasRun_line :
    ∃ (b : Blk),
    Ready ⟨[], b⟩ ∧
    b.camReceives 7 = true ∧
    (lineType aFrame < 64 ∧ lineType aFrame ≠ 0) ∧
    aFrame.lines < capF aFrame.size F.CAM_SIZE_HEIGHT ∧
    aFrame.buf = none :=
  ⟨camWith 7 .setup [aFrame] id,
    ready_of (by decide), by decide, by decide, by decide, by decide⟩

theorem test_meets_CamerasRun_line_beyond_or_kept :
    capF ({ aFrame with lines := 64 } : CamFrame).size F.CAM_SIZE_HEIGHT ≤ 64 ∧
    ({ aFrame with buf := some 1 } : CamFrame).buf = some 1 :=
  ⟨by decide, by decide⟩

theorem test_meets_CamerasRun_lost :
    ∃ (b : Blk),
    Ready ⟨[], b⟩ ∧
    aFrame.bound + 2 * aFrame.period < b.now10 + b.tick10 :=
  ⟨withAux (fun a => { a with clk := { a.clk with tb3 := 10000000000 * 2 ^ 48 } }) (camWith 7 .setup [aFrame] id),
    ready_of (by decide), by decide⟩

theorem test_meets_CamerasRun_statistics :
    ∃ (b : Blk),
    Ready ⟨[], b⟩ ∧
    (fresh b).cam 7 = b.cam 7 ∧
    (b.cam 7).ended = [aFrame] :=
  ⟨camWith 7 .armed [] (fun x => { x with ended := [aFrame] }),
    ready_of (by decide), by decide, by decide⟩

theorem test_meets_CamerasRun_dark :
    ∃ (b : Blk),
    Ready ⟨[], b⟩ ∧
    b.mode (dCam 7) = .home ∧
    ((b.cam 7).dark.any fun d => decide (16 ≤ d.frames) && !d.written) = true :=
  ⟨camWith 7 .home [] (fun x => { x with dark := [⟨0, 16, 160, 16, false⟩] }),
    ready_of (by decide), by decide, by decide⟩

theorem test_meets_CamerasRun_defects_few :
    ∃ (b : Blk),
    Ready ⟨[], b⟩ ∧
    (b.mode (dCam 7) = .calibrate ∧ 16 ≤ (b.cam 7).mapFrames ∧ (b.cam 7).mapOk = none) :=
  ⟨camWith 7 .calibrate [] (fun x => { x with mapFrames := 16, mapSum := [1, 1] }),
    ready_of (by decide), by decide⟩

/-- A camera whose defect map has one pixel too many. -/
def spoilt : Blk := (camWith 7 .calibrate [] (fun x => { x with mapFrames := 16, mapSum := List.replicate 1025 1000000 ++ List.replicate 1025 0 }))

theorem test_meets_CamerasRun_defects_many :
    Ready ⟨[], spoilt⟩ ∧
    (spoilt.mode (dCam 7) = .calibrate ∧ 16 ≤ (spoilt.cam 7).mapFrames ∧ (spoilt.cam 7).mapOk = none) ∧
    (let m := (spoilt.cam 7).mapSum; let thr := spoilt.a (Reg.CAM_DEFECT 7) F.CAM_DEFECT_DEF_THR; 1024 < (m.zipIdx.filter fun (v, _) => decide (thr * 16 * m.length < v * m.length - m.sum) || decide (thr * 16 * m.length < m.sum - v * m.length)).length) :=
  ⟨ready_of (by decide), by decide, by decide +kernel⟩

theorem test_meets_LightHeatAndSupply_flash_lit :
    ∃ (b : Blk),
    Ready ⟨[], b⟩ ∧
    ((fresh b).led 3).due = [⟨0, 30000, LedSet.init⟩] ∧
    0 < b.now10 + b.tick10 ∧
    ((ledCorr 3).run (grpSet 3 (fun y => { y with cur := LedSet.init }) (grpSet 3 (fun y => { y with due := [] }) ((ledRefill 3 0).run (fresh b))))).ledEnergy 3 (((ledCorr 3).run (grpSet 3 (fun y => { y with cur := LedSet.init }) (grpSet 3 (fun y => { y with due := [] }) ((ledRefill 3 0).run (fresh b))))).ledReady 3) 30000 ≤ (((ledCorr 3).run (grpSet 3 (fun y => { y with cur := LedSet.init }) (grpSet 3 (fun y => { y with due := [] }) ((ledRefill 3 0).run (fresh b))))).led 3).level :=
  ⟨grpSet 3 (fun x => { x with due := [⟨0, 30000, LedSet.init⟩] }) Blk.init,
    ready_of (by decide), by decide, by decide, by decide⟩

theorem test_meets_LightHeatAndSupply_flash_dark :
    ∃ (b : Blk),
    Ready ⟨[], b⟩ ∧
    ((fresh b).led 3).due = [⟨0, 30000, ⟨0xFF01, 0, 0xFFFFFFFF, [1023, 0, 0, 0, 0, 0]⟩⟩] ∧
    0 < b.now10 + b.tick10 ∧
    (((ledCorr 3).run (grpSet 3 (fun y => { y with cur := ⟨0xFF01, 0, 0xFFFFFFFF, [1023, 0, 0, 0, 0, 0]⟩ }) (grpSet 3 (fun y => { y with due := [] }) ((ledRefill 3 0).run (fresh b))))).led 3).level < ((ledCorr 3).run (grpSet 3 (fun y => { y with cur := ⟨0xFF01, 0, 0xFFFFFFFF, [1023, 0, 0, 0, 0, 0]⟩ }) (grpSet 3 (fun y => { y with due := [] }) ((ledRefill 3 0).run (fresh b))))).ledEnergy 3 (((ledCorr 3).run (grpSet 3 (fun y => { y with cur := ⟨0xFF01, 0, 0xFFFFFFFF, [1023, 0, 0, 0, 0, 0]⟩ }) (grpSet 3 (fun y => { y with due := [] }) ((ledRefill 3 0).run (fresh b))))).ledReady 3) 30000 :=
  ⟨grpSet 3 (fun x => { x with due := [⟨0, 30000, ⟨0xFF01, 0, 0xFFFFFFFF, [1023, 0, 0, 0, 0, 0]⟩⟩] }) Blk.init,
    ready_of (by decide), by decide, by decide, by decide⟩

theorem test_meets_LightHeatAndSupply_flash_end :
    ∃ (b : Blk),
    Ready ⟨[], b⟩ ∧
    ((fresh b).led 3).flash = some (0, 200) ∧
    200 < b.now10 + b.tick10 :=
  ⟨grpSet 3 (fun x => { x with flash := some (0, 200) }) Blk.init,
    ready_of (by decide), by decide, by decide⟩

theorem test_meets_LightHeatAndSupply_sample :
    ∃ (b : Blk),
    Ready ⟨[], b⟩ ∧
    (((fresh b).ledCh 23).on = true ∧ ((fresh b).ledCh 23).sampled = false) ∧
    0 + 200 ≤ 200 ∧
    b.a Reg.LED_THR F.LED_THR_SHORT_VON ≤ 65535 :=
  ⟨chSet 23 (fun y => { y with on := true }) (grpSet 3 (fun x => { x with flash := some (0, 200) }) Blk.init),
    ready_of (by decide), by decide, by decide, by decide⟩

theorem test_meets_LightHeatAndSupply_probe :
    ∃ (b : Blk),
    Ready ⟨[], b⟩ ∧
    bit (b.a (Reg.LED_GRP_DRIVE 3) F.LED_GRP_DRIVE_CH_EN) 5 = true ∧
    ((fresh b).ledCh 23).on = false :=
  ⟨putF (actOff (Reg.LED_GRP_DRIVE 3)) F.LED_GRP_DRIVE_CH_EN 63 Blk.init,
    ready_of (by decide), by decide, by decide⟩

theorem test_meets_LightHeatAndSupply_temperature :
    Ready ⟨[], Blk.init⟩ ∧
    Blk.init.thmIdle 0 = false ∧
    Blk.init.thermInput 0 (some 320) = some (some 320) ∧
    Blk.init.thmIdle 191 = true ∧
    (¬ ((0 : Nat) < 24 ∧ Blk.init.tripAt ≤ (320 : Int))) :=
  ⟨ready_of (by decide), by decide, by decide, by decide, by decide⟩

theorem test_meets_LightHeatAndSupply_window_up :
    ∃ (b : Blk),
    Ready ⟨[], b⟩ ∧
    b.pmuOn = true ∧
    1000 * b.a Reg.PMU_CFG2 F.PMU_CFG2_WIN ≤ b.aux.pmu.ticks ∧
    b.aux.pmu.least < b.a Reg.PMU_CFG F.PMU_CFG_TARGET_PCT :=
  ⟨withAux (fun a => { a with pmu := { a.pmu with started := true, ticks := 1000000, least := 0 } }) (putF (actOff Reg.PMU_CFG) F.PMU_CFG_EN 1 Blk.init),
    ready_of (by decide), by decide, by decide, by decide⟩

theorem test_meets_LightHeatAndSupply_window_down :
    ∃ (b : Blk),
    Ready ⟨[], b⟩ ∧
    b.pmuOn = true ∧
    1000 * b.a Reg.PMU_CFG2 F.PMU_CFG2_WIN ≤ b.aux.pmu.ticks ∧
    b.a Reg.PMU_CFG F.PMU_CFG_TARGET_PCT + b.a Reg.PMU_CFG F.PMU_CFG_BAND_PCT ≤ b.aux.pmu.least ∧
    (b.aux.pmu.hold = 0 ∧ b.aux.pmu.loadPend = false ∧ b.aux.pmu.loadAt = none) :=
  ⟨withAux (fun a => { a with pmu := { a.pmu with started := true, ticks := 1000000, least := 100 } }) (putF (actOff Reg.PMU_CFG) F.PMU_CFG_EN 1 Blk.init),
    ready_of (by decide), by decide, by decide, by decide, by decide⟩

theorem test_meets_LightHeatAndSupply_supply :
    ∃ (b : Blk),
    Ready ⟨[], b⟩ ∧
    (∀ r ∈ b.rings, RingBalances r) ∧
    b.mode dCore ≠ .off ∧
    b.mode dCore ≠ .safe ∧
    Blk.init.mode dCore = .off :=
  ⟨held dCore .expose Blk.init,
    ready_of (by decide), balanced_of (by decide), by decide, by decide, by decide⟩

/-- A move of three steps. -/
def aMove : Move := ⟨0, 3, 256, 0, 1, [], true, 1, none, false⟩

/-- That move on its way, ended or not. -/
def going (ended : Bool) : Going := ⟨1, aMove, 0, 1, 1, 1, 0, 0, [], 0, 0, 3, ended, 0, false, false⟩

theorem test_meets_AxesAndEncoders_step :
    ∃ (b : Blk),
    Ready ⟨[], b⟩ ∧
    (∀ r ∈ b.rings, RingBalances r) ∧
    ((fresh b).mot 11).planned = [(0, true)] ∧
    0 < b.now10 + b.tick10 ∧
    b.tests (58 + 11 / 3) = false :=
  ⟨motSet 11 (fun y => { y with planned := [(0, true)] }) (held (axisDom 11) .expose (Blk.init)),
    ready_of (by decide), balanced_of (by decide), by decide, by decide, by decide⟩

theorem test_meets_AxesAndEncoders_boundary :
    ∃ (b : Blk),
    Ready ⟨[], b⟩ ∧
    (∀ r ∈ b.rings, RingBalances r) ∧
    b.nextMove 11 = some aMove :=
  ⟨motSet 11 (fun y => { y with queue := [aMove] }) (held (axisDom 11) .expose (Blk.init)),
    ready_of (by decide), balanced_of (by decide), by decide⟩

theorem test_meets_AxesAndEncoders_end :
    ∃ (b : Blk),
    Ready ⟨[], b⟩ ∧
    (∀ r ∈ b.rings, RingBalances r) ∧
    ((fresh b).mot 11).go = some (going false) ∧
    (going false).endAt < b.now10 + b.tick10 :=
  ⟨motSet 11 (fun y => { y with go := some (going false) }) (held (axisDom 11) .expose (Blk.init)),
    ready_of (by decide), balanced_of (by decide), by decide, by decide⟩

theorem test_meets_AxesAndEncoders_homing_first :
    ∃ (b : Blk),
    Ready ⟨[], b⟩ ∧
    (∀ r ∈ b.rings, RingBalances r) ∧
    b.mode (axisDom 9) = .home ∧
    b.homingAxis 3 = some 9 ∧
    ((fresh b).mot 9).home = 0 :=
  ⟨motSet 9 (fun y => { y with home := 0 }) (held (axisDom 9) .home (putF (actOff (Reg.MOT_AXIS_CFG 9)) F.MOT_AXIS_CFG_HOME_MODE 1 Blk.init)),
    ready_of (by decide), balanced_of (by decide), by decide, by decide, by decide⟩

theorem test_meets_AxesAndEncoders_homing_second :
    ∃ (b : Blk),
    Ready ⟨[], b⟩ ∧
    (∀ r ∈ b.rings, RingBalances r) ∧
    b.mode (axisDom 9) = .home ∧
    b.homingAxis 3 = some 9 ∧
    ((fresh b).mot 9).home = 2 :=
  ⟨motSet 9 (fun y => { y with home := 2 }) (held (axisDom 9) .home (putF (actOff (Reg.MOT_AXIS_CFG 9)) F.MOT_AXIS_CFG_HOME_MODE 1 Blk.init)),
    ready_of (by decide), balanced_of (by decide), by decide, by decide, by decide⟩

theorem test_meets_AxesAndEncoders_homing_fourth :
    ∃ (b : Blk),
    Ready ⟨[], b⟩ ∧
    (∀ r ∈ b.rings, RingBalances r) ∧
    b.mode (axisDom 9) = .home ∧
    b.homingAxis 3 = some 9 ∧
    ((fresh b).mot 9).home = 3 :=
  ⟨motSet 9 (fun y => { y with home := 3, homeMark := some 0 }) (held (axisDom 9) .home (putF (actOff (Reg.MOT_AXIS_CFG 9)) F.MOT_AXIS_CFG_HOME_MODE 1 Blk.init)),
    ready_of (by decide), balanced_of (by decide), by decide, by decide, by decide⟩

theorem test_meets_AxesAndEncoders_homing_fifth :
    ∃ (b : Blk),
    Ready ⟨[], b⟩ ∧
    (∀ r ∈ b.rings, RingBalances r) ∧
    b.mode (axisDom 9) = .home ∧
    b.homingAxis 3 = some 9 ∧
    ((fresh b).mot 9).home = 4 :=
  ⟨motSet 9 (fun y => { y with home := 4, latch := some 0 }) (held (axisDom 9) .home (putF (actOff (Reg.MOT_AXIS_CFG 9)) F.MOT_AXIS_CFG_HOME_MODE 1 Blk.init)),
    ready_of (by decide), balanced_of (by decide), by decide, by decide, by decide⟩

theorem test_meets_AxesAndEncoders_homing_last :
    ∃ (b : Blk),
    Ready ⟨[], b⟩ ∧
    (∀ r ∈ b.rings, RingBalances r) ∧
    b.mode (axisDom 9) = .home ∧
    b.homingAxis 3 = some 9 ∧
    ((fresh b).mot 9).home = 5 :=
  ⟨motSet 9 (fun y => { y with home := 5 }) (held (axisDom 9) .home (putF (actOff (Reg.MOT_AXIS_CFG 9)) F.MOT_AXIS_CFG_HOME_MODE 1 Blk.init)),
    ready_of (by decide), balanced_of (by decide), by decide, by decide, by decide⟩

theorem test_meets_AxesAndEncoders_homed :
    ∃ (b : Blk),
    Ready ⟨[], b⟩ ∧
    (∀ r ∈ b.rings, RingBalances r) ∧
    b.mode (axisDom 9) = .home ∧
    b.homingAxis 3 = none :=
  ⟨held (axisDom 9) .home Blk.init,
    ready_of (by decide), balanced_of (by decide), by decide, by decide⟩

theorem test_meets_AxesAndEncoders_first_word :
    ∃ (b : Blk),
    Ready ⟨[], b⟩ ∧
    (∀ r ∈ b.rings, RingBalances r) ∧
    (b.ssiMode 15 = true ∧ ((fresh b).enc 15).ssiAt + b.a (Reg.ENC_CFG 15) F.ENC_CFG_SSI_PAUSE * 100 ≤ b.now10) ∧
    ((fresh b).enc 15).ssi = none :=
  ⟨encSet 15 (fun y => { y with ssiAt := 0 }) (putF (actOff (Reg.ENC_CFG 15)) F.ENC_CFG_SSI_BITS 12 (putF (actOff (Reg.ENC_CFG 15)) F.ENC_CFG_MODE 1 (withAux (fun a => { a with clk := { a.clk with tb3 := 1000000000 * 2 ^ 48 } }) Blk.init))),
    ready_of (by decide), balanced_of (by decide), by decide, by decide⟩

theorem test_meets_AxesAndEncoders_next_word :
    ∃ (b : Blk),
    Ready ⟨[], b⟩ ∧
    (∀ r ∈ b.rings, RingBalances r) ∧
    ((fresh b).enc 15).ssi = some 0 ∧
    sgn 12 (1024 + 2 ^ 12 - 0) ≤ Int.ofNat (2 ^ (12 - 2)) ∧
    Int.ofNat (2 ^ (12 - 2)) < sgn 12 (1025 + 2 ^ 12 - 0) :=
  ⟨encSet 15 (fun y => { y with ssi := some 0 }) (putF (actOff (Reg.ENC_CFG 15)) F.ENC_CFG_SSI_BITS 12 (putF (actOff (Reg.ENC_CFG 15)) F.ENC_CFG_MODE 1 (withAux (fun a => { a with clk := { a.clk with tb3 := 1000000000 * 2 ^ 48 } }) Blk.init))),
    ready_of (by decide), balanced_of (by decide), by decide, by decide, by decide⟩

theorem test_meets_AxesAndEncoders_limit_1_11 :
    ∃ (b : Blk),
    Ready ⟨[], b⟩ ∧
    (∀ r ∈ b.rings, RingBalances r) ∧
    b.a (Reg.MOT_LIMMAP 23) F.MOT_LIMMAP_ROLE = 1 ∧
    b.a (Reg.MOT_LIMMAP 23) F.MOT_LIMMAP_AXIS = 11 :=
  ⟨putF (actOff (Reg.MOT_LIMMAP 23)) F.MOT_LIMMAP_ROLE 1 (putF (actOff (Reg.MOT_LIMMAP 23)) F.MOT_LIMMAP_AXIS 11 Blk.init),
    ready_of (by decide), balanced_of (by decide), by decide, by decide⟩

theorem test_meets_AxesAndEncoders_limit_2_0 :
    ∃ (b : Blk),
    Ready ⟨[], b⟩ ∧
    (∀ r ∈ b.rings, RingBalances r) ∧
    b.a (Reg.MOT_LIMMAP 23) F.MOT_LIMMAP_ROLE = 2 ∧
    b.a (Reg.MOT_LIMMAP 23) F.MOT_LIMMAP_AXIS = 0 :=
  ⟨putF (actOff (Reg.MOT_LIMMAP 23)) F.MOT_LIMMAP_ROLE 2 (putF (actOff (Reg.MOT_LIMMAP 23)) F.MOT_LIMMAP_AXIS 0 Blk.init),
    ready_of (by decide), balanced_of (by decide), by decide, by decide⟩

theorem test_meets_AxesAndEncoders_limit_3_11 :
    ∃ (b : Blk),
    Ready ⟨[], b⟩ ∧
    (∀ r ∈ b.rings, RingBalances r) ∧
    b.a (Reg.MOT_LIMMAP 23) F.MOT_LIMMAP_ROLE = 3 ∧
    b.a (Reg.MOT_LIMMAP 23) F.MOT_LIMMAP_AXIS = 11 :=
  ⟨putF (actOff (Reg.MOT_LIMMAP 23)) F.MOT_LIMMAP_ROLE 3 (putF (actOff (Reg.MOT_LIMMAP 23)) F.MOT_LIMMAP_AXIS 11 Blk.init),
    ready_of (by decide), balanced_of (by decide), by decide, by decide⟩

theorem test_meets_AxesAndEncoders_limit_1_12 :
    ∃ (b : Blk),
    Ready ⟨[], b⟩ ∧
    (∀ r ∈ b.rings, RingBalances r) ∧
    b.a (Reg.MOT_LIMMAP 23) F.MOT_LIMMAP_ROLE = 1 ∧
    b.a (Reg.MOT_LIMMAP 23) F.MOT_LIMMAP_AXIS = 12 :=
  ⟨putF (actOff (Reg.MOT_LIMMAP 23)) F.MOT_LIMMAP_ROLE 1 (putF (actOff (Reg.MOT_LIMMAP 23)) F.MOT_LIMMAP_AXIS 12 Blk.init),
    ready_of (by decide), balanced_of (by decide), by decide, by decide⟩

theorem test_meets_MemoryEvents_read :
    ∃ (b : Blk),
    Ready ⟨[], b⟩ ∧
    (∀ r ∈ b.rings, RingBalances r) ∧
    64 * 16777215 < b.dramSize ∧
    b.dramSize ≤ 64 * 16777216 ∧
    b.forwarded 0 = false ∧
    b.aux.poison.contains 0 = false :=
  ⟨putF Reg.DMC_STATE F.DMC_STATE_SIZE 1 Blk.init,
    ready_of (by decide), balanced_of (by decide), by decide, by decide, by decide, by decide⟩

theorem test_meets_MemoryEvents_scrub :
    ∃ (b : Blk),
    Ready ⟨[], b⟩ ∧
    (∀ r ∈ b.rings, RingBalances r) ∧
    (b.a Reg.DMC_SCRUB F.DMC_SCRUB_EN = 1 ∧ 64 * 5 < b.dramSize) ∧
    b.aux.poison.contains 5 = true ∧
    b.aux.poison.contains 6 = false :=
  ⟨withAux (fun a => { a with poison := [5] }) (putF (actOff Reg.DMC_SCRUB) F.DMC_SCRUB_EN 1 (putF Reg.DMC_STATE F.DMC_STATE_SIZE 1 Blk.init)),
    ready_of (by decide), balanced_of (by decide), by decide, by decide, by decide⟩

theorem test_meets_StorageAndRecorder_usable :
    ∃ (b : Blk),
    Ready ⟨[], b⟩ ∧
    (∀ r ∈ b.rings, RingBalances r) ∧
    (b.storeUsable = true ∧ nandMode (b.mode dStore) = true) ∧
    b.pageReady = false ∧
    b.nandStarts (b.mode dStore) 2 = true :=
  ⟨withAux (fun a => { a with store := { a.store with enumerated := true, scanned := true } }) (held dStore .setup Blk.init),
    ready_of (by decide), balanced_of (by decide), by decide, by decide, by decide⟩

theorem test_meets_StorageAndRecorder_in_flight :
    ∃ (b : Blk),
    Ready ⟨[], b⟩ ∧
    (∀ r ∈ b.rings, RingBalances r) ∧
    b.nandStarts (b.mode dStore) 0 = false ∧
    b.aux.store.flight.contains 0 = true :=
  ⟨withAux (fun a => { a with store := { a.store with enumerated := true, scanned := true, flight := [0] } }) (held dStore .setup Blk.init),
    ready_of (by decide), balanced_of (by decide), by decide, by decide⟩

theorem test_meets_StorageAndRecorder_asleep :
    Ready ⟨[], Blk.init⟩ ∧
    (∀ r ∈ Blk.init.rings, RingBalances r) ∧
    Blk.init.nandStarts (Blk.init.mode dStore) 0 = false ∧
    Blk.init.aux.store.flight.contains 0 = false ∧
    nandMode (Blk.init.mode dStore) = false ∧
    Blk.init.mode dStore ≠ .home :=
  ⟨ready_of (by decide), balanced_of (by decide), by decide, by decide, by decide, by decide⟩

theorem test_meets_StorageAndRecorder_recovery :
    ∃ (b : Blk),
    Ready ⟨[], b⟩ ∧
    (∀ r ∈ b.rings, RingBalances r) ∧
    (b.mode dStore = .home ∧ b.aux.store.enumerated = true ∧ b.aux.store.configBad = false ∧ b.aux.store.tableLost = false) ∧
    b.aux.trans = [] :=
  ⟨withAux (fun a => { a with store := { a.store with enumerated := true, scanned := true } }) (held dStore .home Blk.init),
    ready_of (by decide), balanced_of (by decide), by decide, by decide⟩

/-- A recorder with so many records staged. -/
def flushing (n : Nat) : Blk :=
  { held dStore .armed Blk.init with evr := { Blk.init.evr with staged := List.replicate n ⟨0, []⟩, oldestMs := 1 } }

theorem test_meets_StorageAndRecorder_flush :
    ∃ (b : Blk),
    Ready ⟨[], b⟩ ∧
    (∀ r ∈ b.rings, RingBalances r) ∧
    b.flushDue = true ∧
    b.evrProgrammable = true ∧
    (flushing 255).flushDue = false :=
  ⟨flushing 256,
    ready_of (by decide), balanced_of (by decide), by decide +kernel, by decide, by decide +kernel⟩

theorem test_meets_PtpMessages_link :
    ∃ (b : Blk),
    Ready ⟨[], b⟩ ∧
    b.f (Reg.PTP_PORT_STAT 1) F.PTP_PORT_STAT_LINK = 1 ∧
    Blk.init.f (Reg.PTP_PORT_STAT 0) F.PTP_PORT_STAT_LINK ≠ 1 :=
  ⟨putF (Reg.PTP_PORT_STAT 1) F.PTP_PORT_STAT_LINK 1 Blk.init,
    ready_of (by decide), by decide, by decide⟩

theorem test_meets_PtpMessages_two_step :
    ∃ (b : Blk),
    Ready ⟨[], b⟩ ∧
    (b.f (Reg.PTP_INST_CFG 1) F.PTP_INST_CFG_EN = 1 ∧ bit (b.f (Reg.PTP_INST_CFG 1) F.PTP_INST_CFG_PORTS) 1 = true) ∧
    twoStepMode (b.mode dCore) = true ∧
    b.freeId 1 = some 0 :=
  ⟨putF (Reg.PTP_INST_CFG 1) F.PTP_INST_CFG_EN 1 (putF (Reg.PTP_INST_CFG 1) F.PTP_INST_CFG_PORTS 2 (putF (Reg.PTP_PORT_STAT 1) F.PTP_PORT_STAT_LINK 1 (held dCore .expose Blk.init))),
    ready_of (by decide), by decide, by decide, by decide +kernel⟩

theorem test_meets_PtpMessages_one_step :
    ∃ (b : Blk),
    Ready ⟨[], b⟩ ∧
    twoStepMode (b.mode dCore) = false :=
  ⟨putF (Reg.PTP_INST_CFG 1) F.PTP_INST_CFG_EN 1 (putF (Reg.PTP_INST_CFG 1) F.PTP_INST_CFG_PORTS 2 Blk.init),
    ready_of (by decide), by decide⟩

/-- Every ID of the time-stamp queues is in flight. -/
def allFlying : Blk := { (putF (Reg.PTP_INST_CFG 1) F.PTP_INST_CFG_EN 1 (putF (Reg.PTP_INST_CFG 1) F.PTP_INST_CFG_PORTS 2 (held dCore .expose Blk.init))) with tsqs := Blk.init.tsqs.map fun q => { q with flight := (List.range 256).map fun i => ⟨i, 0, 0, 0⟩ } }

theorem test_meets_PtpMessages_no_id :
    Ready ⟨[], allFlying⟩ ∧
    allFlying.freeId 1 = none :=
  ⟨ready_of (by decide), by decide +kernel⟩

/-- A port whose time-stamp queue is full, with a frame in flight. -/
def fullQueue : Blk := { Blk.init with tsqs := Blk.init.tsqs.map fun q =>
  { q with queue := (List.range 16).map fun i => (⟨i, 0, 0, 0⟩, 0), flight := [⟨16, 0, 0, 0⟩] } }

theorem test_meets_PtpMessages_full_queue :
    Ready ⟨[], fullQueue⟩ ∧
    (16 ≤ ((fresh fullQueue).tsq 1).queue.length ∧ ∃ f ∈ ((fresh fullQueue).tsq 1).flight, f.id = 16) :=
  ⟨ready_of (by decide), ⟨by decide, ⟨16, 0, 0, 0⟩, by decide, rfl⟩⟩

theorem test_meets_PtpMessages_locking_2 :
    ∃ (b : Blk),
    Ready ⟨[], b⟩ ∧
    b.instState 1 = 2 :=
  ⟨putF (Reg.PTP_INST_STAT 1) F.PTP_INST_STAT_STATE 2 Blk.init,
    ready_of (by decide), by decide⟩

theorem test_meets_PtpMessages_locking_3 :
    ∃ (b : Blk),
    Ready ⟨[], b⟩ ∧
    b.instState 1 = 3 :=
  ⟨putF (Reg.PTP_INST_STAT 1) F.PTP_INST_STAT_STATE 3 Blk.init,
    ready_of (by decide), by decide⟩

theorem test_meets_TicksAndPhases_tick :
    ∃ (b : Blk),
    Ready ⟨[], b⟩ ∧
    (∀ r ∈ b.rings, RingBalances r) :=
  ⟨withAux (fun a => { a with clk := { a.clk with tick := 5 } }) Blk.init,
    ready_of (by decide), balanced_of (by decide)⟩

theorem test_meets_TicksAndPhases_no_coat :
    Ready ⟨[], Blk.init⟩ ∧
    (∀ r ∈ Blk.init.rings, RingBalances r) ∧
    Blk.init.openCoatOf = none ∧
    Blk.init.build.foldFor = none ∧
    (Blk.init.build.coats.find? fun c => c.stage == 4) = none :=
  ⟨ready_of (by decide), balanced_of (by decide), by decide, by decide, by decide⟩

theorem test_meets_TicksAndPhases_second :
    ∃ (b : Blk),
    Ready ⟨[], b⟩ ∧
    (∀ r ∈ b.rings, RingBalances r) ∧
    b.openCoatOf = some ⟨1, 1, 1, 0, 0, 0, true, false, 0, true, 1, false, false, []⟩ ∧
    b.phase1Over = true ∧
    b.mode dCore = .expose :=
  ⟨buildSet (fun x => { x with coats := [⟨1, 1, 1, 0, 0, 0, true, false, 0, true, 1, false, false, []⟩] }) (held dCore .expose Blk.init),
    ready_of (by decide), balanced_of (by decide), by decide, by decide, by decide⟩

theorem test_meets_TicksAndPhases_third_cut :
    ∃ (b : Blk),
    Ready ⟨[], b⟩ ∧
    (∀ r ∈ b.rings, RingBalances r) ∧
    b.openCoatOf = some ⟨1, 1, 1, 0, 0, 0, true, false, 0, true, 2, true, false, []⟩ ∧
    b.phase3Ready ⟨1, 1, 1, 0, 0, 0, true, false, 0, true, 2, true, false, []⟩ = true :=
  ⟨buildSet (fun x => { x with coats := [⟨1, 1, 1, 0, 0, 0, true, false, 0, true, 2, true, false, []⟩], p2Done := true }) (held dStore .armed (held dCore .expose Blk.init)),
    ready_of (by decide), balanced_of (by decide), by decide, by decide⟩

theorem test_meets_TicksAndPhases_third_begins :
    ∃ (b : Blk),
    Ready ⟨[], b⟩ ∧
    (∀ r ∈ b.rings, RingBalances r) ∧
    b.openCoatOf = some ⟨1, 1, 1, 0, 0, 0, true, false, 0, true, 2, false, false, []⟩ ∧
    b.phase3Ready ⟨1, 1, 1, 0, 0, 0, true, false, 0, true, 2, false, false, []⟩ = true :=
  ⟨buildSet (fun x => { x with coats := [⟨1, 1, 1, 0, 0, 0, true, false, 0, true, 2, false, false, []⟩], p2Done := true }) (held dStore .armed (held dCore .expose Blk.init)),
    ready_of (by decide), balanced_of (by decide), by decide, by decide⟩

theorem test_meets_TicksAndPhases_third_ends :
    ∃ (b : Blk),
    Ready ⟨[], b⟩ ∧
    (∀ r ∈ b.rings, RingBalances r) ∧
    b.openCoatOf = some ⟨1, 1, 1, 0, 0, 0, true, false, 0, true, 3, false, false, []⟩ ∧
    b.phase3Ready ⟨1, 1, 1, 0, 0, 0, true, false, 0, true, 3, false, false, []⟩ = false :=
  ⟨buildSet (fun x => { x with coats := [⟨1, 1, 1, 0, 0, 0, true, false, 0, true, 3, false, false, []⟩] }) (held dCore .expose Blk.init),
    ready_of (by decide), balanced_of (by decide), by decide, by decide⟩

theorem test_meets_TicksAndPhases_fold :
    ∃ (b : Blk),
    Ready ⟨[], b⟩ ∧
    (∀ r ∈ b.rings, RingBalances r) ∧
    b.build.foldFor = some 1 ∧
    b.entriesDue 1 = false :=
  ⟨buildSet (fun x => { x with foldFor := some 1 }) Blk.init,
    ready_of (by decide), balanced_of (by decide), by decide, by decide⟩

theorem test_meets_TicksAndPhases_fold_waits :
    ({ (buildSet (fun x => { x with foldFor := some 1 }) Blk.init) with camBooks := Blk.init.camBooks.set 7 ⟨1, 0, [{ aFrame with recorded := some 1 }]⟩ } : Blk).build.foldFor = some 1 ∧
    ({ (buildSet (fun x => { x with foldFor := some 1 }) Blk.init) with camBooks := Blk.init.camBooks.set 7 ⟨1, 0, [{ aFrame with recorded := some 1 }]⟩ } : Blk).entriesDue 1 = true :=
  ⟨by decide, by decide⟩

theorem test_meets_TicksAndPhases_durable :
    ∃ (b : Blk),
    Ready ⟨[], b⟩ ∧
    (∀ r ∈ b.rings, RingBalances r) ∧
    (b.build.coats.find? fun c => c.stage == 4) = some ⟨1, 1, 1, 0, 0, 0, true, false, 0, true, 4, false, false, []⟩ ∧
    (b.coatDurable 1 = true ∧ b.build.foldFor = none) :=
  ⟨withAux (fun a => { a with store := { a.store with segs := [⟨1, 0, 1, 0, List.replicate 64 0, [], [0], 0, 0, false, false, false, false, 0, 0⟩] } }) (buildSet (fun x => { x with coats := [⟨1, 1, 1, 0, 0, 0, true, false, 0, true, 4, false, false, []⟩] }) (held dCore .expose Blk.init)),
    ready_of (by decide), balanced_of (by decide), by decide, by decide⟩

theorem test_meets_TicksAndPhases_not_durable :
    (buildSet (fun x => { x with coats := [⟨1, 1, 1, 0, 0, 0, true, false, 0, true, 4, false, false, []⟩] }) (held dCore .expose Blk.init)).coatDurable 1 = false :=
  by decide

theorem test_meets_AnswersTestsAndShutdown_answer_early :
    ∃ (b : Blk),
    Ready ⟨[], b⟩ ∧
    (∀ r ∈ b.rings, RingBalances r) ∧
    (b.bar 1).auth = some ⟨[], 0, true⟩ ∧
    0 ≤ b.ns2 :=
  ⟨barSet 1 (fun x => { x with auth := some ⟨[], 0, true⟩ }) Blk.init,
    ready_of (by decide), balanced_of (by decide), by decide, by decide⟩

theorem test_meets_AnswersTestsAndShutdown_answer_judged :
    ∃ (b : Blk),
    Ready ⟨[], b⟩ ∧
    (∀ r ∈ b.rings, RingBalances r) ∧
    (b.bar 1).auth = some ⟨[], 0, false⟩ ∧
    0 ≤ b.ns2 :=
  ⟨barSet 1 (fun x => { x with auth := some ⟨[], 0, false⟩ }) Blk.init,
    ready_of (by decide), balanced_of (by decide), by decide, by decide⟩

theorem test_meets_AnswersTestsAndShutdown_in_time :
    ((barSet 1 (fun x => { x with auth := some ⟨[], 1, false⟩ }) Blk.init).bar 1).auth = some ⟨[], 1, false⟩ ∧
    (barSet 1 (fun x => { x with auth := some ⟨[], 1, false⟩ }) Blk.init).ns2 < 1 :=
  ⟨by decide, by decide⟩

theorem test_meets_AnswersTestsAndShutdown_shuts :
    ∃ (b : Blk) (ws : List Word),
    Meets b 0 0x2B false ws ∧
    (∀ r ∈ b.rings, RingBalances r) ∧
    fieldFail ws [] = none ∧
    b.shutdownBar = none :=
  ⟨standing 0 false [43] Blk.init,
    words [43],
    meets_of (by decide), balanced_of (by decide), by decide, by decide⟩

theorem test_meets_AnswersTestsAndShutdown_second :
    ∃ (b : Blk) (ws : List Word),
    Meets b 0 0x2B true ws ∧
    fieldFail ws [] = none :=
  ⟨standing 0 true [43] Blk.init,
    words [43],
    meets_of (by decide), by decide⟩

theorem test_meets_AnswersTestsAndShutdown_barred :
    ∃ (b : Blk) (ws : List Word),
    Meets b 0 0x2B false ws ∧
    b.shutdownBar = some 47 :=
  ⟨standing 0 false [43] (held 47 .expose Blk.init),
    words [43],
    meets_of (by decide), by decide⟩

theorem test_meets_AnswersTestsAndShutdown_field :
    ∃ (b : Blk) (ws : List Word),
    Meets b 0 0x2B false ws ∧
    (fieldFail ws []).isSome = true :=
  ⟨standing 0 false [43, 1] Blk.init,
    words [43, 1],
    meets_of (by decide), by decide⟩

theorem test_meets_AnswersTestsAndShutdown_test_of_0 :
    ∃ (b : Blk),
    Ready ⟨[], b⟩ ∧
    (∀ r ∈ b.rings, RingBalances r) ∧
    (b.mode 0 = .selftest ∧ b.aux.boot.tested.contains 0 = false) ∧
    ((b.unitsTested 0).filterMap fun u => ((List.range 168).map fun u => (⟨u, 1, 0,
      0⟩ : BistRes)).find? fun r => r.unit == u).length = (b.unitsTested 0).length ∧
    b.rowFailed 0 = false :=
  ⟨held 0 .selftest Blk.init,
    ready_of (by decide), balanced_of (by decide), by decide, by decide +kernel, by decide⟩

theorem test_meets_AnswersTestsAndShutdown_test_of_31 :
    ∃ (b : Blk),
    Ready ⟨[], b⟩ ∧
    (∀ r ∈ b.rings, RingBalances r) ∧
    (b.mode 31 = .selftest ∧ b.aux.boot.tested.contains 31 = false) ∧
    ((b.unitsTested 31).filterMap fun u => ((List.range 168).map fun u => (⟨u, 1, 0,
      0⟩ : BistRes)).find? fun r => r.unit == u).length = (b.unitsTested 31).length ∧
    b.rowFailed 31 = false :=
  ⟨held 31 .selftest Blk.init,
    ready_of (by decide), balanced_of (by decide), by decide, by decide +kernel, by decide⟩

theorem test_meets_AnswersTestsAndShutdown_test_of_32 :
    ∃ (b : Blk),
    Ready ⟨[], b⟩ ∧
    (∀ r ∈ b.rings, RingBalances r) ∧
    (b.mode 32 = .selftest ∧ b.aux.boot.tested.contains 32 = false) ∧
    ((b.unitsTested 32).filterMap fun u => ((List.range 168).map fun u => (⟨u, 1, 0,
      0⟩ : BistRes)).find? fun r => r.unit == u).length = (b.unitsTested 32).length ∧
    b.rowFailed 32 = false :=
  ⟨held 32 .selftest Blk.init,
    ready_of (by decide), balanced_of (by decide), by decide, by decide +kernel, by decide⟩

theorem test_meets_AnswersTestsAndShutdown_test_of_33 :
    ∃ (b : Blk),
    Ready ⟨[], b⟩ ∧
    (∀ r ∈ b.rings, RingBalances r) ∧
    (b.mode 33 = .selftest ∧ b.aux.boot.tested.contains 33 = false) ∧
    ((b.unitsTested 33).filterMap fun u => ((List.range 168).map fun u => (⟨u, 1, 0,
      0⟩ : BistRes)).find? fun r => r.unit == u).length = (b.unitsTested 33).length ∧
    b.rowFailed 33 = false :=
  ⟨held 33 .selftest Blk.init,
    ready_of (by decide), balanced_of (by decide), by decide, by decide +kernel, by decide⟩

theorem test_meets_AnswersTestsAndShutdown_test_of_34 :
    ∃ (b : Blk),
    Ready ⟨[], b⟩ ∧
    (∀ r ∈ b.rings, RingBalances r) ∧
    (b.mode 34 = .selftest ∧ b.aux.boot.tested.contains 34 = false) ∧
    ((b.unitsTested 34).filterMap fun u => ((List.range 168).map fun u => (⟨u, 1, 0,
      0⟩ : BistRes)).find? fun r => r.unit == u).length = (b.unitsTested 34).length ∧
    b.rowFailed 34 = false :=
  ⟨held 34 .selftest Blk.init,
    ready_of (by decide), balanced_of (by decide), by decide, by decide +kernel, by decide⟩

theorem test_meets_AnswersTestsAndShutdown_test_of_46 :
    ∃ (b : Blk),
    Ready ⟨[], b⟩ ∧
    (∀ r ∈ b.rings, RingBalances r) ∧
    (b.mode 46 = .selftest ∧ b.aux.boot.tested.contains 46 = false) ∧
    ((b.unitsTested 46).filterMap fun u => ((List.range 168).map fun u => (⟨u, 1, 0,
      0⟩ : BistRes)).find? fun r => r.unit == u).length = (b.unitsTested 46).length ∧
    b.rowFailed 46 = false :=
  ⟨held 46 .selftest Blk.init,
    ready_of (by decide), balanced_of (by decide), by decide, by decide +kernel, by decide⟩

theorem test_meets_AnswersTestsAndShutdown_test_of_47 :
    ∃ (b : Blk),
    Ready ⟨[], b⟩ ∧
    (∀ r ∈ b.rings, RingBalances r) ∧
    (b.mode 47 = .selftest ∧ b.aux.boot.tested.contains 47 = false) ∧
    ((b.unitsTested 47).filterMap fun u => ((List.range 168).map fun u => (⟨u, 1, 0,
      0⟩ : BistRes)).find? fun r => r.unit == u).length = (b.unitsTested 47).length ∧
    b.rowFailed 47 = false :=
  ⟨held 47 .selftest Blk.init,
    ready_of (by decide), balanced_of (by decide), by decide, by decide +kernel, by decide⟩

theorem test_meets_AnswersTestsAndShutdown_test_failed :
    (putF (Reg.BST_UNIT 18) F.BST_UNIT_RESULT 2 (held 0 .selftest Blk.init)).rowFailed 0 = true :=
  by decide

theorem test_meets_CalibrationRuns_good :
    ∃ (b : Blk),
    Ready ⟨[], b⟩ ∧
    (∀ r ∈ b.rings, RingBalances r) ∧
    b.calMayRun 42 = true ∧
    calPick (trimsAgree ((trimFields 42).take 1) (b.a Reg.CAL_CFG F.CAL_CFG_CODE_TOL)) none [((0 : Word), 0, 0),
      ((0 : Word), 0, 0)] = some (some ((0, 0, 0), (0, 0, 0))) ∧
    b.calGood 42 (calQuality 42 (0, 0, 0) (0, 0, 0)) = true ∧
    b.calGood 42 (calQuality 42 (0, 0, 65535) (0, 0, 65535)) = false :=
  ⟨held 38 .reset Blk.init,
    ready_of (by decide), balanced_of (by decide), by decide, by decide, by decide, by decide⟩

theorem test_meets_CalibrationRuns_apart :
    calPick (trimsAgree ((trimFields 42).take 1) ((held 38 .reset Blk.init).a Reg.CAL_CFG F.CAL_CFG_CODE_TOL)) none [((0 : Word), 0, 0), ((31 : Word), 0, 0), ((15 : Word), 0, 0)] = some none :=
  by decide

theorem test_meets_CalibrationRuns_none :
    Blk.init.calMayRun 42 = false ∧
    calPick (fun _ _ => true) none [] = none :=
  ⟨by decide, by decide⟩

theorem test_meets_CalibrationRuns_end_of_46_true :
    ∃ (b : Blk),
    Ready ⟨[], b⟩ ∧
    (∀ r ∈ b.rings, RingBalances r) ∧
    b.mode 46 = .calibrate ∧
    b.calOutcome 46 true = some true :=
  ⟨withAux (fun a => { a with cals := a.cals.map fun y => { y with ran := some true } }) (held 46 .calibrate Blk.init),
    ready_of (by decide), balanced_of (by decide), by decide, by decide⟩

theorem test_meets_CalibrationRuns_end_of_47_true :
    ∃ (b : Blk),
    Ready ⟨[], b⟩ ∧
    (∀ r ∈ b.rings, RingBalances r) ∧
    b.mode 47 = .calibrate ∧
    b.calOutcome 47 true = some true :=
  ⟨withAux (fun a => { a with cals := a.cals.map fun y => { y with ran := some true } }) (held 47 .calibrate Blk.init),
    ready_of (by decide), balanced_of (by decide), by decide, by decide⟩

theorem test_meets_CalibrationRuns_end_of_38_false :
    ∃ (b : Blk),
    Ready ⟨[], b⟩ ∧
    (∀ r ∈ b.rings, RingBalances r) ∧
    b.mode 38 = .calibrate ∧
    b.calOutcome 38 true = some false :=
  ⟨withAux (fun a => { a with cals := a.cals.map fun y => { y with ran := some false } }) (held 38 .calibrate Blk.init),
    ready_of (by decide), balanced_of (by decide), by decide, by decide⟩

theorem test_meets_CalibrationRuns_end_of_38_none :
    ∃ (b : Blk),
    Ready ⟨[], b⟩ ∧
    (∀ r ∈ b.rings, RingBalances r) ∧
    b.mode 38 = .calibrate ∧
    b.calOutcome 38 true = none :=
  ⟨withAux (fun a => { a with cals := a.cals.map fun y => { y with ran := none } }) (held 38 .calibrate Blk.init),
    ready_of (by decide), balanced_of (by decide), by decide, by decide⟩

theorem test_meets_OccurrenceClearsAndWindowWrites_all :
    Ready ⟨[], Blk.init⟩ ∧
    F.SYS_OCC_CLR_ALL.get (F.SYS_OCC_CLR_ALL.put 1 0) = 1 ∧
    F.SYS_OCC_CLR_ALL.get (F.SYS_OCC_CLR_BLOCK.put 24 0) ≠ 1 ∧
    F.SYS_OCC_CLR_BLOCK.get (F.SYS_OCC_CLR_BLOCK.put 24 0) < 25 ∧
    25 ≤ F.SYS_OCC_CLR_BLOCK.get (F.SYS_OCC_CLR_BLOCK.put 25 0) :=
  ⟨ready_of (by decide), by decide, by decide, by decide, by decide⟩

theorem test_meets_OccurrenceClearsAndWindowWrites_counter :
    ((findReg (Reg.LED_CH_STAT 0)).any fun h => !h.active && h.d.fields.any fun f => f.ty == .occ
      && f.lo / 32 == h.idx) = true :=
  by decide

theorem test_meets_OccurrenceClearsAndWindowWrites_window :
    Ready ⟨[], Blk.init⟩ ∧
    (unmappedRange 0x200000 1 || Blk.init.busyRange 0x200000 1) = false ∧
    (unmappedRange 0x1FFFFF 2 || Blk.init.busyRange 0x1FFFFF 2) = true ∧
    (unmappedRange 0x1000000 1 || Blk.init.busyRange 0x1000000 1) = true :=
  ⟨ready_of (by decide), by decide, by decide, by decide⟩

theorem test_meets_ModeSetsOfOneBead :
    Ready ⟨[], Blk.init⟩ ∧
    (∀ r ∈ Blk.init.rings, RingBalances r) ∧
    ([2, 3] : List (Fin 40)) ≠ [] :=
  ⟨ready_of (by decide), balanced_of (by decide), by decide⟩

end Sys2Proof.Tests
end

section
/-!
PROOFS. Register access (R9 to R12, R50, R63, R535 to R539): what a field holds after a write by its type, what a
4-byte write of a one-word register does in each place of its bead interval, and what a 4-byte read returns and clears.
-/
namespace Sys2Proof.Proofs

open Sys2Proof.Machine Sys2Proof.Safety Sys2Proof.Laws

/-! ### Fields by type (R9, R10) -/

/-- One step of `landValue`: a value once a write has reached one of its fields. -/
def landField (new v : Nat) (f : FieldDef) : Nat :=
  match f.ty with
  | .rw | .rws => putN f.lo f.w (bits new f.lo f.w) v
  | .w1c => putN f.lo f.w (Nat.land (bits v f.lo f.w) (2 ^ f.w - 1 - bits new f.lo f.w)) v
  | .wo | .rc | .occ => v

/-- What the bits of a field become when a write brings it other bits. -/
def fieldAfter (f : FieldDef) (old new : Nat) : Nat :=
  match f.ty with
  | .rw | .rws => new
  | .w1c => Nat.land old (2 ^ f.w - 1 - new)
  | .wo | .rc | .occ => old

/-- Two spans of bits have no bit in common. -/
def SpansApart (lo w lo' w' : Nat) : Prop := lo + w ≤ lo' ∨ lo' + w' ≤ lo

theorem landValue_eq_foldl (d : RegDef) (old new : Nat) : landValue d old new = d.fields.foldl (landField new) old := rfl

theorem land_bits_lt (x lo w y : Nat) : Nat.land (bits x lo w) y < 2 ^ w :=
  Nat.lt_of_le_of_lt Nat.and_le_left (Nat.mod_lt _ (Nat.two_pow_pos w))

theorem bits_landField_self (f : FieldDef) (new v : Nat) :
    bits (landField new v f) f.lo f.w = fieldAfter f (bits v f.lo f.w) (bits new f.lo f.w) := by
  unfold landField fieldAfter
  cases f.ty with
  | rw | rws => exact (bits_putN_same ..).trans (bits_idem ..)
  | w1c => exact (bits_putN_same ..).trans (Nat.mod_eq_of_lt (land_bits_lt ..))
  | wo | rc | occ => rfl

theorem bits_landField_disjoint (f : FieldDef) (new v lo w : Nat) (h : SpansApart f.lo f.w lo w) :
    bits (landField new v f) lo w = bits v lo w := by
  unfold landField
  cases f.ty with
  | rw | rws | w1c => exact bits_putN_apart _ _ _ _ _ _ h
  | wo | rc | occ => rfl

theorem bits_foldl_landField_disjoint (l : List FieldDef) (new v lo w : Nat) (h : ∀ f ∈ l, SpansApart f.lo f.w lo w) :
    bits (l.foldl (landField new) v) lo w = bits v lo w := by
  induction l generalizing v with
  | nil => rfl
  | cons g l ih =>
    obtain ⟨hg, hl⟩ := List.forall_mem_cons.mp h
    exact (ih _ hl).trans (bits_landField_disjoint g new v lo w hg)

theorem bits_foldl_landField_mem (l : List FieldDef) (new v : Nat)
    (h : l.Pairwise fun f g => SpansApart f.lo f.w g.lo g.w) (f : FieldDef) (hf : f ∈ l) :
    bits (l.foldl (landField new) v) f.lo f.w = fieldAfter f (bits v f.lo f.w) (bits new f.lo f.w) := by
  induction l generalizing v with
  | nil => cases hf
  | cons g l ih =>
    obtain ⟨hg, hl⟩ := List.pairwise_cons.mp h
    rw [List.foldl_cons]
    rcases List.mem_cons.mp hf with rfl | hf
    · rw [bits_foldl_landField_disjoint l _ _ _ _ fun k hk => (hg k hk).symm, bits_landField_self]
    · rw [ih _ hl hf, bits_landField_disjoint g _ _ _ _ (hg f hf)]

/-- Settles O19: later fields leave the bits of earlier ones alone, since no two overlap. -/
theorem fieldsByType : Obligations.FieldsByType := by
  intro d old new hp
  rw [landValue_eq_foldl]
  exact ⟨fun f hf => bits_foldl_landField_mem d.fields new old hp f hf,
    fun lo w h => bits_foldl_landField_disjoint d.fields new old lo w h⟩

/-! ### Commands of BAR0 access -/

theorem exec_registerWrite (off : BitVec 21) (n : Nat) (value : BitVec 64) (place : Fin 3) (s : State) :
    exec (.registerWrite off n value place) s = s.act (mmioWriteIn place off.toNat n value.toNat) := rfl

theorem exec_w1cClear (off : BitVec 21) (value hw : Word) (s : State) :
    exec (.w1cClear off value hw) s = s.act (w1cClearProg off.toNat value.toNat hw.toNat) := rfl

theorem exec_rcRead (off : BitVec 21) (n : Nat) (hw : Word) (s : State) :
    exec (.rcRead off n hw) s = s.act (.seq (barReadProg off.toNat n) (rcSets off.toNat hw)) := rfl

/-- A command completes as described where its program leaves that block, with no trigger taken. -/
theorem does_of_run {i : Instr} {s : State} {p : Prog} {x : Blk} (r : Ready s) (e : exec i s = s.act p)
    (h : p.run (fresh s.blk) = x) (q : NoTrigger x) : Does i s x := by
  obtain ⟨b, hb, ha⟩ := act_agrees s p x r h q
  exact ⟨b, e.trans hb, ha⟩

theorem mmioWriteIn_one (off n value : Nat) :
    mmioWriteIn (1 : Fin 3) off n value = lateWrite (mmioWriteProg off n value) := rfl

theorem mmioWriteIn_two_run (off n value : Nat) (b : Blk) (h : b.rejectsAt off n value = false) :
    (mmioWriteIn (2 : Fin 3) off n value).run b = (mmioWriteProg off n (leWords
      [b.beneath off (BitVec.ofNat 32 value), b.beneath (off + 4) (BitVec.ofNat 32 (value / 4294967296))])).run b := by
  show Prog.run (if b.rejectsAt off n value = true then _ else _) b = _
  rw [h]
  rfl

/-! ### A write of a plain one-word register -/

/-- A register of one word in a block whose registers only hold what is written, met at its offset. -/
def PlainAt (off : Nat) (h : Hit) : Prop :=
  findReg off = some h ∧ h.d.words = 1 ∧ h.idx = 0 ∧ h.readOnly = false ∧ plainBlock h.base = true

section
variable {off : Nat} {h : Hit}

/-- A 4-byte write that no rule rejects lands. -/
theorem mmioWrite_lands (p : PlainAt off h) (ha : off % 4 = 0) (x : Nat) (b : Blk)
    (rj : (unheld b).rejects h (x % 2 ^ 32) = false) :
    (mmioWriteProg off 4 x).run b = landed h (x % 2 ^ 32) (unheld b) := by
  obtain ⟨found, one, first, writable, plain⟩ := p
  rw [(mmioWrite_word off x b ha).1 h found one first]
  exact wholeWrite_plain h off _ _ writable plain rj

theorem mmioWrite_rejected (p : PlainAt off h) (ha : off % 4 = 0) (x : Nat) (b : Blk)
    (rj : (unheld b).rejects h (x % 2 ^ 32) = true) :
    (mmioWriteProg off 4 x).run b = refusedAt off (unheld b) := by
  obtain ⟨found, one, first, -, -⟩ := p
  rw [(mmioWrite_word off x b ha).1 h found one first, wholeWrite, Prog.run_get, rj]
  exact rejectedWrite_run off (unheld b)

theorem rejectsAt_word (p : PlainAt off h) (x : Nat) (b : Blk) : b.rejectsAt off 4 x = b.rejects h (x % 2 ^ 32) := by
  obtain ⟨found, one, first, -, -⟩ := p
  simp [Blk.rejectsAt, found, one, first]

end

theorem beneath_unheld (b : Blk) (off : Nat) (w : Word) : (unheld b).beneath off w = b.beneath off w := rfl

theorem leWords_pair_mod (v u : Word) : leWords [v, u] % 2 ^ 32 = v.toNat := by
  have hv := v.isLt
  simp only [leWords]
  omega

theorem lateWrite_run (p : Prog) (b : Blk) : (lateWrite p).run b = lateIn p.run b := rfl

theorem lateIn_congr {f g : Blk → Blk} {b : Blk}
    (h : f (withAux (fun a => { a with dirty := [] }) b) = g (withAux (fun a => { a with dirty := [] }) b)) :
    lateIn f b = lateIn g b := by
  unfold lateIn
  rw [h]

theorem lateIn_quiet {f : Blk → Blk} {b : Blk} (h : NoTrigger (f (withAux (fun a => { a with dirty := [] }) b))) :
    NoTrigger (lateIn f b) := h

theorem progEach_run_foldl {α : Type} (l : List α) (f : α → Prog) (b : Blk) :
    (progEach l f).run b = l.foldl (fun c x => (f x).run c) b := by
  induction l generalizing b with
  | nil => rfl
  | cons x l ih => exact ih _

theorem hardwareSets_run (off mask : Nat) (b : Blk) : (hardwareSets off mask).run b = hardwareSet off mask b := by
  refine (progEach_run_foldl _ _ b).trans ?_
  unfold hardwareSet
  congr 1
  funext c i
  rw [Prog.run_get]
  cases c.flagAt off i with
  | none => rfl
  | some fl => exact setFlag_run fl c

theorem quiet_hardwareSets (off mask : Nat) : Quiet (hardwareSets off mask) :=
  quiet_each fun i => keeps_get fun b => by
    cases b.flagAt off i with
    | none => exact quiet_skip
    | some fl => exact quiet_setFlag fl

theorem hardwareSet_quiet (off mask : Nat) {b : Blk} (q : NoTrigger b) : NoTrigger (hardwareSet off mask b) :=
  hardwareSets_run off mask b ▸ (quiet_hardwareSets off mask).noTrigger q

section
variable {s : State} {off : BitVec 21} {h : Hit}

theorem registerWrite_alone_lands (r : Ready s) (ha : off.toNat % 4 = 0) (p : PlainAt off.toNat h) (value : BitVec 64)
    (rj : (unheld (fresh s.blk)).rejects h (value.setWidth 32).toNat = false) :
    Does (.registerWrite off 4 value 0) s (landed h (value.setWidth 32).toNat (unheld (fresh s.blk))) := by
  rw [BitVec.toNat_setWidth] at rj ⊢
  exact does_of_run r (exec_registerWrite ..) (mmioWrite_lands p ha _ _ rj) (landed_quiet (unheld_quiet r.quiet))

theorem w1cClear_lands_then_sets (r : Ready s) (ha : off.toNat % 4 = 0) (p : PlainAt off.toNat h) (w hw : Word)
    (rj : (unheld (fresh s.blk)).rejects h w.toNat = false) :
    Does (.w1cClear off w hw) s (hardwareSet off.toNat hw.toNat (landed h w.toNat (unheld (fresh s.blk)))) := by
  have hm : w.toNat % 2 ^ 32 = w.toNat := Nat.mod_eq_of_lt w.isLt
  refine does_of_run r (exec_w1cClear ..) ?_ (hardwareSet_quiet _ _ (landed_quiet (unheld_quiet r.quiet)))
  have land := mmioWrite_lands p ha w.toNat (fresh s.blk) (by rwa [hm])
  rw [w1cClearProg, Prog.run_seq, land, hm, hardwareSets_run]

theorem registerWrite_before_lands_late (r : Ready s) (ha : off.toNat % 4 = 0) (p : PlainAt off.toNat h)
    (value : BitVec 64)
    (rj : (unheld (withAux (fun a => { a with dirty := [] }) (fresh s.blk))).rejects h (value.setWidth 32).toNat = false) :
    Does (.registerWrite off 4 value 1) s
      (lateIn (fun d => landed h (value.setWidth 32).toNat (unheld d)) (fresh s.blk)) := by
  rw [BitVec.toNat_setWidth] at rj ⊢
  refine does_of_run r (exec_registerWrite ..) ?_ (lateIn_quiet (landed_quiet (unheld_quiet r.quiet)))
  rw [mmioWriteIn_one, lateWrite_run]
  exact lateIn_congr (mmioWrite_lands p ha _ _ rj)

theorem registerWrite_after_lands_beneath (r : Ready s) (ha : off.toNat % 4 = 0) (p : PlainAt off.toNat h)
    (value : BitVec 64) (rf : (fresh s.blk).rejects h (value.setWidth 32).toNat = false)
    (rj : (unheld (fresh s.blk)).rejects h
      ((unheld (fresh s.blk)).beneath off.toNat (value.setWidth 32)).toNat = false) :
    Does (.registerWrite off 4 value 2) s (landed h
      ((unheld (fresh s.blk)).beneath off.toNat (value.setWidth 32)).toNat (unheld (fresh s.blk))) := by
  rw [beneath_unheld, ← BitVec.ofNat_toNat] at rj ⊢
  rw [BitVec.toNat_setWidth, ← rejectsAt_word p] at rf
  refine does_of_run r (exec_registerWrite ..) ?_ (landed_quiet (unheld_quiet r.quiet))
  have land := mmioWrite_lands p ha (leWords [(fresh s.blk).beneath off.toNat (BitVec.ofNat 32 value.toNat),
    (fresh s.blk).beneath (off.toNat + 4) (BitVec.ofNat 32 (value.toNat / 4294967296))]) (fresh s.blk)
  rw [leWords_pair_mod] at land
  exact (mmioWriteIn_two_run _ _ _ _ rf).trans (land rj)

theorem registerWrite_rejected (r : Ready s) (ha : off.toNat % 4 = 0) (p : PlainAt off.toNat h) (value : BitVec 64)
    (rj : (unheld (fresh s.blk)).rejects h (value.setWidth 32).toNat = true) :
    Does (.registerWrite off 4 value 0) s (refusedAt off.toNat (unheld (fresh s.blk))) := by
  rw [BitVec.toNat_setWidth] at rj
  exact does_of_run r (exec_registerWrite ..) (mmioWrite_rejected p ha _ _ rj)
    (flagged_quiet _ (put_quiet _ _ (unheld_quiet r.quiet)))

theorem registerWrite_unmapped (r : Ready s) (ha : off.toNat % 4 = 0) (hf : findReg off.toNat = none)
    (value : BitVec 64) :
    Does (.registerWrite off 4 value 0) s (flagged flUnmapped (put Reg.SYS_MAP_LAST (withF 0
      [(F.SYS_MAP_LAST_OFFSET, off.toNat), (F.SYS_MAP_LAST_SRC, 0), (F.SYS_MAP_LAST_KIND, 1)])
      (unheld (fresh s.blk)))) :=
  does_of_run r (exec_registerWrite ..)
    (((mmioWrite_word off.toNat value.toNat (fresh s.blk) ha).2 hf).trans (unmappedWrite_run _ _))
    (flagged_quiet _ (put_quiet _ _ (unheld_quiet r.quiet)))

end

/-- Settles O18: a 4-byte write is the whole write of its register, which lands, is rejected or meets none; its place in
the bead interval says which shadows are late and which bits a REG_WRITE keeps. -/
theorem registerWriteLands : Obligations.RegisterWriteLands := by
  rintro s off value hw _ _ r ha rfl rfl
  refine ⟨fun h found one first ro pl => ?_, fun hf => registerWrite_unmapped r ha hf value⟩
  have p : PlainAt off.toNat h := ⟨found, one, first, ro, pl⟩
  refine ⟨fun rj => ⟨?_, ?_, ?_, ?_⟩, registerWrite_rejected r ha p value⟩
  · exact w1cClear_lands_then_sets r ha p _ hw rj
  · exact registerWrite_alone_lands r ha p value rj
  · rintro _ rfl rc
    exact registerWrite_before_lands_late r ha p value rc
  · exact registerWrite_after_lands_beneath r ha p value

/-! ### A read of one word (R9, R11, R535) -/

theorem toWords_leWords_single (v : Word) : toWords 1 (leWords [v] / 256 ^ 0 % 256 ^ 4) = [v] := by
  have hv : v.toNat % 4294967296 = v.toNat := Nat.mod_eq_of_lt v.isLt
  simp [toWords, leWords, hv]

theorem barRead_word_run (off : Nat) (ha : off % 4 = 0) (b : Blk) :
    (barReadProg off 4).run b = (readOne off fun v => emit (.readData [v])).run b := by
  have hs : ¬ (4 = 0 ∨ 8 < 4 ∨ 8 < off % 8 + 4) := by omega
  have hlo : off / 4 * 4 = off := by omega
  have hhi : (off + 4 - 1) / 4 * 4 = off := by omega
  have cut : (fun v => emit (.readData (toWords ((4 + 3) / 4) (leWords [v] / 256 ^ (off % 4) % 256 ^ 4)))) =
      fun v => emit (.readData [v]) := funext fun v => by rw [ha, toWords_leWords_single]
  rw [barReadProg, if_neg hs, Prog.run_get]
  dsimp only
  rw [hlo, hhi, if_pos rfl, cut]

/-- A read that meets no register returns 0. -/
theorem barRead_word_unmapped (off : Nat) (ha : off % 4 = 0) (hf : findReg off = none) (b : Blk) :
    (barReadProg off 4).run b = shown (.readData [0]) b := by
  rw [barRead_word_run off ha, readOne, Prog.run_get, hf]
  rfl

/-- A read of a one-word register clears its RC fields and returns the word from before. -/
theorem barRead_word_found (off : Nat) (ha : off % 4 = 0) (h : Hit) (hf : findReg off = some h) (one : h.d.words = 1)
    (b : Blk) :
    (barReadProg off 4).run b = shown (.readData [b.readWord off]) ((touchWord off).run b) := by
  rw [barRead_word_run off ha]
  simp only [readOne, Prog.run_get, hf, one, if_true]
  rfl

theorem touchWord_run_of_rc (off : Nat) (h : Hit) (hf : findReg off = some h) (b : Blk)
    (rc : (h.d.fields.any fun f => f.ty == .rc) = true) :
    (touchWord off).run b = put off (clearRc h.d h.idx (b.w off)) b := by
  simp only [touchWord, Prog.run_get, hf, rc]
  rfl

theorem touchWord_run_of_no_rc (off : Nat) (h : Hit) (hf : findReg off = some h) (b : Blk)
    (rc : (h.d.fields.any fun f => f.ty == .rc) = false) : (touchWord off).run b = b := by
  simp only [touchWord, Prog.run_get, hf, rc]
  rfl

theorem rcSets_run_unmapped (off : Nat) (ha : off % 4 = 0) (hf : findReg off = none) (hw : Word) (b : Blk) :
    (rcSets off hw).run b = b := by
  have hlo : off / 4 * 4 = off := by omega
  rw [rcSets, Prog.run_get, hlo, hf]
  rfl

theorem rcSets_run (off : Nat) (ha : off % 4 = 0) (h : Hit) (hf : findReg off = some h) (hw : Word) (b : Blk) :
    (rcSets off hw).run b = countersRaised h off hw b := by
  have hlo : off / 4 * 4 = off := by omega
  rw [rcSets, Prog.run_get, hlo, hf]
  exact progEach_run_foldl _ _ _

theorem countersRaised_of_no_rc (h : Hit) (off : Nat) (hw : Word) (b : Blk)
    (rc : (h.d.fields.any fun f => f.ty == .rc) = false) : countersRaised h off hw b = b := by
  have none_rc : (h.d.fields.filter fun f => f.ty == .rc && f.lo / 32 == h.idx) = [] :=
    List.filter_eq_nil_iff.mpr fun f hf hc => List.any_eq_false.mp rc f hf (Bool.and_eq_true_iff.mp hc).1
  rw [countersRaised, none_rc]
  rfl

theorem quiet_rcSets (off : Nat) (hw : Word) : Quiet (rcSets off hw) :=
  keeps_get fun b => by
    cases findReg (off / 4 * 4) with
    | none => exact quiet_skip
    | some h => exact quiet_each fun _ => quiet_setF _ _ _

/-- Settles O20: the read touches the register and shows the word from before; what the hardware sets comes after. -/
theorem registerReads : Obligations.RegisterReads := by
  intro s off hw r ha
  refine ⟨fun h hf one => ⟨fun rc => ?_, fun rc => ?_⟩, fun hf => ?_⟩
  · refine does_of_run r (exec_rcRead ..) ?_ (shown_quiet _ r.quiet)
    rw [Prog.run_seq, barRead_word_found _ ha h hf one, touchWord_run_of_no_rc _ h hf _ rc, rcSets_run _ ha h hf,
      countersRaised_of_no_rc _ _ _ _ rc]
  · have raised := rcSets_run off.toNat ha h hf hw
    refine does_of_run r (exec_rcRead ..) ?_
      (raised _ ▸ (quiet_rcSets _ _).noTrigger (shown_quiet _ (put_quiet _ _ r.quiet)))
    rw [Prog.run_seq, barRead_word_found _ ha h hf one, touchWord_run_of_rc _ h hf _ rc, raised]
    rfl
  · refine does_of_run r (exec_rcRead ..) ?_ (shown_quiet _ r.quiet)
    rw [Prog.run_seq, barRead_word_unmapped _ ha hf, rcSets_run_unmapped _ ha hf]

end Sys2Proof.Proofs
end

section
/-!
PROOFS. SAFE entry of the core (R43, R54, R55, R57): by SAFE_IN_N, and by an abort request of each of the sources that
leave the host side as it is (R99 to R102, R104).
-/
namespace Sys2Proof.Proofs

open Sys2Proof.Machine Sys2Proof.Safety Sys2Proof.Laws

/-! ### Blocks with one register map -/

theorem mode_eq_of_regs_eq {b c : Blk} (h : b.regs = c.regs) (d : Nat) : b.mode d = c.mode d := by
  unfold Blk.mode Blk.f Blk.w
  rw [h]

theorem w_eq_of_regs_eq {b c : Blk} (h : b.regs = c.regs) (o : Nat) : b.w o = c.w o := by
  unfold Blk.w
  rw [h]

theorem f_eq_of_regs_eq {b c : Blk} (h : b.regs = c.regs) (o : Nat) (f : Fld) : b.f o f = c.f o f := by
  unfold Blk.f
  rw [w_eq_of_regs_eq h]

/-! ### SAFE_IN_N (R55) -/

theorem exec_safeIn (low : Bool) (s : State) : exec (.safeIn low) s = s.act (safeInProg low) := rfl

/-- The block once SAFE_IN_N was found low: the core's entry into SAFE is a trigger. -/
def safeInTaken (b : Blk) : Blk :=
  withAux (addSafe [⟨dCore, .safeIn, none⟩]) (withAux (fun a => { a with safeInLow := true }) b)

theorem safeInProg_low_run (b : Blk) : (safeInProg true).run b = safeInTaken b := rfl

theorem safeAll_of_regs_eq {b0 b1 b : Blk} (h : SafeAll b1 b) (e : b1.regs = b0.regs) : SafeAll b0 b :=
  ⟨h.core, fun d hd => mode_eq_of_regs_eq e d ▸ h.others d hd, fun o ho => (h.sys o ho).trans (w_eq_of_regs_eq e o),
    h.quiet⟩

/-- Settles O25: the core's entry is the one trigger of the command, and it takes the other domains along. -/
theorem safeInStopsTheMachine : Obligations.SafeInStopsTheMachine := by
  intro s r hr hoff hsafe
  have one : (safeInTaken (fresh s.blk)).aux.safeReq = [⟨dCore, .safeIn, none⟩] := by
    show s.blk.aux.safeReq ++ _ = _
    rw [r.quiet]
    rfl
  have all := finish_core s.blk (safeInTaken (fresh s.blk)) _ rfl (named_of_books hr) r.regs one hoff hsafe
  rw [← safeInProg_low_run] at all
  exact ⟨_, (exec_safeIn true s).trans (act_next s _ r.awake), safeAll_of_regs_eq all rfl, safeAll_lasers all⟩

/-! ### Abort requests (R99 to R102, R104) -/

/-- A block that meets an abort request as a command found another: same registers, no trigger taken, completion rings
named in eight bits, and the link as given. -/
def MeetsAbort (b0 : Blk) (up : Bool) (x : Blk) : Prop :=
  x.regs = b0.regs ∧ NoTrigger x ∧ Named x ∧ x.aux.linkUp = up

/-- What the block shows once an abort request was taken: SYS_ABORT, and the core in SAFE with the domains it stops. -/
def AbortTaken (b0 : Blk) (src quiescent : Nat) (b : Blk) : Prop :=
  AbortShown b0 src quiescent b ∧ b.mode dCore = .safe ∧
    (∀ d, d < 46 → b.mode d = if coreStops .safe d (b0.mode d) then .safe else b0.mode d) ∧ LasersOff b ∧ NoTrigger b

theorem abortShown_of_regs_eq {b0 b1 b : Blk} {src q : Nat} (h : AbortShown b1 src q b) (e : b1.regs = b0.regs) :
    AbortShown b0 src q b :=
  ⟨h.active, h.quiescent, h.source, by rw [h.count, f_eq_of_regs_eq e]⟩

theorem abortShown_of_word_eq {b0 b c : Blk} {src q : Nat} (h : AbortShown b0 src q b)
    (e : c.w Reg.SYS_ABORT = b.w Reg.SYS_ABORT) : AbortShown b0 src q c := by
  have f : ∀ g, c.f Reg.SYS_ABORT g = b.f Reg.SYS_ABORT g := fun g => by unfold Blk.f; rw [e]
  exact ⟨(f _).trans h.active, (f _).trans h.quiescent, (f _).trans h.source, (f _).trans h.count⟩

/-- The end of a command that has taken an abort request: the core enters SAFE, with the domains it stops. -/
theorem requested_stops {b0 x y : Blk} {src : Nat} {up : Bool} (m : MeetsAbort b0 up x) (q : Requested x src y)
    (hoff : b0.mode dCore ≠ .off) (hsafe : b0.mode dCore ≠ .safe) :
    AbortTaken b0 src (b2n up) ((finishProg b0).run y) := by
  obtain ⟨regs, quiet, -, link⟩ := m
  have one : y.aux.safeReq = [⟨dCore, .abort, none⟩] := by
    rw [q.triggers, quiet, List.nil_append]
  have mode : ∀ d, d < 0x700 → y.mode d = b0.mode d := fun d hd => (q.modes d hd).trans (mode_eq_of_regs_eq regs d)
  have core : y.mode dCore = b0.mode dCore := mode dCore (by decide)
  have all := finish_core b0 y _ rfl q.named q.regs one (by rwa [core]) (by rwa [core])
  have shown := abortShown_of_word_eq (abortShown_of_regs_eq q.shown regs) (all.sys Reg.SYS_ABORT (by decide))
  rw [link] at shown
  refine ⟨shown, all.core, fun d hd => ?_, safeAll_lasers all, all.quiet⟩
  rw [all.others d hd, mode d (by omega)]

/-- A command whose program comes to an abort request takes the core into SAFE with the domains it stops. -/
theorem abortRequest_stops {s : State} {p : Prog} {x : Blk} {src : Nat} {up : Bool} (r : Ready s)
    (idle : s.blk.abortActive = false) (hoff : s.blk.mode dCore ≠ .off) (hsafe : s.blk.mode dCore ≠ .safe)
    (hs : src < 16) (m : MeetsAbort s.blk up x) (h : p.run (fresh s.blk) = (abortRequest src).run x) :
    ∃ b, s.act p = .next ⟨s.pending, b⟩ ∧ AbortTaken s.blk src (b2n up) b := by
  have ⟨regs, _, named, _⟩ := m
  have idleX : x.abortActive = false := by
    unfold Blk.abortActive at idle ⊢
    rwa [f_eq_of_regs_eq regs]
  have q := abortRequest_effect src x hs named (by rw [regs]; exact r.regs) idleX
    (by rwa [mode_eq_of_regs_eq regs])
  rw [← h] at q
  exact ⟨_, act_next s p r.awake, requested_stops m q hoff hsafe⟩

theorem meetsAbort_fresh {s : State} (r : Ready s) (hr : ∀ q ∈ s.blk.rings, RingBalances q) :
    MeetsAbort s.blk s.blk.aux.linkUp (fresh s.blk) := ⟨rfl, r.quiet, named_of_books hr, rfl⟩

/-! The sources: SYS_ABORT.REQ, an ABORT descriptor at decode, the link going down, the host watchdog. -/

/-- A write of REQ to SYS_ABORT is not rejected: no field is out of range, no rule speaks of it, nothing lands. -/
theorem sysAbort_accepts (b : Blk) (w : regsWf b.regs = true) :
    b.rejects ⟨⟨"SYS_ABORT", 0x600, [], 1, 0x0, none, none, [⟨0, 1, .wo, 0, 1⟩, ⟨1, 1, .wo, 0, 1⟩]⟩, Reg.SYS_ABORT, 0,
      false⟩ (F.SYS_ABORT_REQ.put 1 0).toNat = false :=
  rejects_not b _ _ (by decide) (fun _ => rfl) (busiesLoad_wo _ _ b w rfl rfl rfl)

theorem sysAbortReq_run (b : Blk) (w : regsWf b.regs = true) :
    (regWriteProg Reg.SYS_ABORT (F.SYS_ABORT_REQ.put 1 0).toNat).run b = (abortRequest 1).run (unheld b) :=
  write_acts _ _ _ b w find_SYS_ABORT rfl rfl rfl rfl rfl rfl (sysAbort_accepts (unheld b) w)

/-- An ABORT descriptor that has not acted acts at decode, while no abort is active. -/
theorem abortProg_run (ring : Nat) (b : Blk) (d : Fetched) (h7 : ring ≤ 7) (idle : b.abortActive = false)
    (hd : (b.ring ring).fetched.find? (fun d => opcodeOf d.ws == 0x0F && !d.begun) = some d)
    (ok : fieldFail d.ws [] = none) :
    (abortProg ring).run b = (abortRequest 2).run ((Prim.ring ring .markAbort).apply b) := by
  have notBuild : isBuild ring = false := decide_eq_false (by omega)
  have waits : abortAt (b.ring ring).fetched = true :=
    List.any_eq_true.mpr ⟨d, List.mem_of_find?_eq_some hd, List.find?_some
      (p := fun d : Fetched => opcodeOf d.ws == 0x0F && !d.begun) hd⟩
  simp only [abortProg, Prog.run_get, notBuild, waits, idle, hd, ok]
  rfl

theorem meetsAbort_unheld {b0 b : Blk} {up : Bool} (m : MeetsAbort b0 up b) : MeetsAbort b0 up (unheld b) := m

/-- The host link of a block has gone down. -/
def linkCut (b : Blk) : Blk := withAux (fun a => { a with linkUp := false }) b

theorem meetsAbort_linkCut {b0 b : Blk} {up : Bool} (m : MeetsAbort b0 up b) : MeetsAbort b0 false (linkCut b) :=
  let ⟨regs, quiet, named, _⟩ := m
  ⟨regs, quiet, named, rfl⟩

theorem meetsAbort_markAbort {b0 b : Blk} {up : Bool} (ring : Nat) (m : MeetsAbort b0 up b) :
    MeetsAbort b0 up ((Prim.ring ring .markAbort).apply b) :=
  let ⟨regs, quiet, named, link⟩ := m
  ⟨regs, quiet, named_apply _ b named, link⟩

theorem dlDownProg_run (b : Blk) (hoff : b.mode dCore ≠ .off) :
    dlDownProg.run b = (abortRequest 4).run (linkCut b) := by
  have away : (b.mode dCore != .off) = true := bne_iff_ne.mpr hoff
  rw [dlDownProg, Prog.run_seq, modAux_withAux, progWhen_run, withAux_mode, away]
  rfl

theorem hostWatchdogProg_run (b : Blk) (hm : b.mode dCore = .expose ∨ b.mode dCore = .hold)
    (ms : b.f Reg.HIF_WD F.HIF_WD_WD_MS ≠ 0) (due : b.aux.wdFrom + b.f Reg.HIF_WD F.HIF_WD_WD_MS * 1000000 ≤ b.ns2) :
    hostWatchdogProg.run b = (abortRequest 5).run b := by
  have go : ((b.mode dCore == .expose || b.mode dCore == .hold) && b.f Reg.HIF_WD F.HIF_WD_WD_MS != 0 &&
      decide (b.aux.wdFrom + b.f Reg.HIF_WD F.HIF_WD_WD_MS * 1000000 ≤ b.ns2)) = true := by
    simp [hm, ms, due]
  rw [hostWatchdogProg, Prog.run_get]
  exact congrArg (fun c => (progIf c (abortRequest 5)).run b) go

/-- Settles O26: each source comes to the abort request on a block with the registers the command found. -/
theorem abortStopsTheMachine : Obligations.AbortStopsTheMachine := by
  intro s c src up r hr idle hoff hsafe hc
  have base := meetsAbort_fresh r hr
  rcases hc with ⟨rfl, rfl, rfl⟩ | ⟨ring, d, rfl, rfl, rfl, h7, hd, ok⟩ | ⟨rfl, rfl, rfl⟩ |
    ⟨rfl, rfl, rfl, hm, ms, due⟩
  · exact abortRequest_stops r idle hoff hsafe (by decide) (meetsAbort_unheld base)
      (sysAbortReq_run (fresh s.blk) r.regs)
  · exact abortRequest_stops r idle hoff hsafe (by decide) (meetsAbort_markAbort ring base)
      (abortProg_run ring (fresh s.blk) d h7 idle hd ok)
  · exact abortRequest_stops r idle hoff hsafe (by decide) (meetsAbort_linkCut base)
      (dlDownProg_run (fresh s.blk) hoff)
  · exact abortRequest_stops r idle hoff hsafe (by decide) base (hostWatchdogProg_run (fresh s.blk) hm ms due)

end Sys2Proof.Proofs
end

section
/-!
PROOFS. Mode requests: MODE_SET alone (R37 to R39, R82) and in company (R40), and the transitions that follow a condition
(R41, R460, R548).
-/
namespace Sys2Proof.Proofs

open Sys2Proof.Machine Sys2Proof.Safety Sys2Proof.Laws

/-- A command completes as described where its program leaves a block whose triggers, acted upon, give that block. -/
theorem does_safeTaken {i : Instr} {s : State} {p : Prog} {x : Blk} (r : Ready s)
    (hr : ∀ q ∈ s.blk.rings, RingBalances q) (e : exec i s = s.act p) (h : p.run (fresh s.blk) = x) : Does i s (safeTaken x) := by
  rw [Does, e]
  exact act_taken r hr h

/-! ### A MODE_SET alone in its bead interval (R82) -/

theorem exec_modeSet (ring : Fin 40) (others : List (Fin 40)) (s : State) :
    exec (.modeSet ring others) s = s.act (modeSetProg ring (others.map Fin.val)) := rfl

theorem modeSetProg_alone (ring : Nat) : modeSetProg ring [] = modeSetOne ring := rfl

section
variable {ring d : Nat} {h m : Mode} {b : Blk}

theorem modeSetBody_run_held (e : h = m) : (modeSetBody ring d h m).run b = (complete ring 0 (modeCode h)).run b := by
  rw [modeSetBody, Prog.run_get, if_pos e]
  rfl

theorem modeSetBody_run_refused (ne : h ≠ m) (rf : b.modeRefused d h m = true) :
    (modeSetBody ring d h m).run b = (complete ring 0x01 (modeCode h)).run b := by
  rw [modeSetBody, Prog.run_get, if_neg ne, if_pos rf]

theorem modeSetBody_run_accepted (ne : h ≠ m) (rf : b.modeRefused d h m = false) (nsafe : m ≠ .safe) :
    (modeSetBody ring d h m).run b = (complete ring 0 (modeCode m)).run (awaiting d m .command b) := by
  rw [modeSetBody, Prog.run_get, if_neg ne, if_neg (by rw [rf]; decide), if_neg nsafe, Prog.run_seq, requestMode_run]
  rfl

end

theorem modeRefused_fresh (b : Blk) (d : Nat) (h m : Mode) : (fresh b).modeRefused d h m = b.modeRefused d h m := rfl

/-- A MODE_SET that stands alone and passes its checks completes as its body, evaluated on the mode held, says. -/
theorem modeSet_does {s : State} {ring : Fin 40} {ws : List Word} {status detail : Nat} {x : Blk} (r : Ready s)
    (st : Stands s.blk ring 0x02 false ws) (ok : modeSetFail s.blk ws = none) (q : NoTrigger x)
    (e : (modeSetBody ring (bits (dw ws 1) 0 8) (s.blk.mode (bits (dw ws 1) 0 8)) (modeOf (bits (dw ws 1) 8 4))).run
      (fresh s.blk) = (complete ring status detail).run x) :
    Does (.modeSet ring []) s ((complete ring status detail).run x) := by
  rw [Does, exec_modeSet, List.map_nil, modeSetProg_alone]
  refine descr_does r st ?_ q
  rw [Prog.run_get, show modeSetFail (fresh s.blk) ws = none from ok]
  exact e

/-- Every row that a MODE_SET may name is a row of R36. -/
theorem row36_of_modeSetRow {h m : Mode} (row : modeSetRow h m = true) : row36 m h m = true := by
  cases h with
  | calibrate => simp [row36]
  | reset | selftest | home | drain => cases m <;> simp [row36, modeSetRow] at row ⊢
  | _ => exact row

/-- R37: a transition that R36 has from no mode CALIBRATE may have been entered from is refused. -/
theorem modeRefused_of_no_row {b : Blk} {d : Nat} {h m : Mode} (no : ∀ back, row36 back h m = false) :
    b.modeRefused d h m = true := by
  have row : modeSetRow h m = false := Bool.eq_false_iff.mpr fun t => by
    exact Bool.false_ne_true ((no m).symm.trans (row36_of_modeSetRow t))
  simp [Blk.modeRefused, row]

/-- Settles O13: the body refuses a transition that is no row of R36. -/
theorem modeSetOutsideTable : Obligations.ModeSetOutsideTable := by
  rintro s ring ws _ _ r st ok rfl rfl ne no
  exact modeSet_does r st ok r.quiet (modeSetBody_run_refused ne (modeRefused_of_no_row no))

/-- Settles O14: the body has nothing to do where the mode named is held. -/
theorem modeSetHeldMode : Obligations.ModeSetHeldMode := by
  rintro s ring ws _ r st ok rfl e
  exact modeSet_does r st ok r.quiet (modeSetBody_run_held e)

/-- Settles O15: the body accepts what is neither held nor refused, and it waits for the tick edge. -/
theorem modeSetAccepted : Obligations.ModeSetAccepted := by
  rintro s ring ws _ _ r st ok rfl rfl ne rf nsafe
  exact modeSet_does r st ok (awaiting_quiet _ _ _ r.quiet) (modeSetBody_run_accepted ne rf nsafe)

/-! ### MODE_SETs of one bead interval (R40) -/

/-- The place of a ring in the order of R40: by the mode its MODE_SET names, last where it holds none. -/
def ringRank (b : Blk) (r : Nat) : Nat :=
  match b.modeSetOf r with
  | some (_, m) => modeRank m
  | none => 4

theorem ringRank_lt (b : Blk) (r : Nat) : ringRank b r < 5 := by
  unfold ringRank
  split
  · next m _ => cases m <;> decide
  · decide

theorem byRank_eq (b : Blk) (rings : List Nat) : b.byRank rings =
    (List.range 5).flatMap fun k => (List.range 40).filter fun r => rings.contains r && ringRank b r == k := rfl

theorem mem_byRank (b : Blk) (rings : List Nat) (r : Nat) : r ∈ b.byRank rings ↔ r < 40 ∧ r ∈ rings := by
  have lt := ringRank_lt b r
  simp only [byRank_eq, List.mem_flatMap, List.mem_filter, List.mem_range, Bool.and_eq_true,
    List.contains_iff_mem, beq_iff_eq]
  constructor
  · rintro ⟨k, -, h40, hr, -⟩
    exact ⟨h40, hr⟩
  · rintro ⟨h40, hr⟩
    exact ⟨ringRank b r, lt, h40, hr, rfl⟩

/-- The order of R40: a lower rank first, and in one rank the lower ring number. -/
theorem byRank_pairwise (b : Blk) (rings : List Nat) : (b.byRank rings).Pairwise fun r q =>
    ringRank b r < ringRank b q ∨ ringRank b r = ringRank b q ∧ r < q := by
  have rankOf : ∀ {r k}, (r ∈ (List.range 40).filter fun r => rings.contains r && ringRank b r == k) →
      ringRank b r = k := fun h => by
    obtain ⟨-, hr⟩ := Bool.and_eq_true_iff.mp (List.mem_filter.mp h).2
    exact beq_iff_eq.mp hr
  rw [byRank_eq, List.pairwise_flatMap]
  refine ⟨fun k _ => ?_, ?_⟩
  · refine List.Pairwise.imp_of_mem ?_ (List.pairwise_lt_range.filter _)
    exact fun hr hq lt => .inr ⟨(rankOf hr).trans (rankOf hq).symm, lt⟩
  · refine List.pairwise_lt_range.imp fun {k l} lt r hr q hq => .inl ?_
    rwa [rankOf hr, rankOf hq]

theorem byRank_fresh (b : Blk) (rings : List Nat) : (fresh b).byRank rings = b.byRank rings := rfl

theorem modeSetProg_run_others (ring : Nat) (others : List Nat) (ne : others ≠ []) (b : Blk) :
    (modeSetProg ring others).run b = (modeSets (b.byRank (ring :: others)) []).run b := by
  rw [modeSetProg, if_neg ne, Prog.run_get]

/-- Settles O57: the rings are filtered out of 0 to 39 rank by rank. -/
theorem modeSetsOfOneBead : Obligations.ModeSetsOfOneBead := by
  intro s r hr rank ring others ne order
  have rank_eq : rank = ringRank s.blk := by
    funext x
    simp only [rank, ringRank]
    cases s.blk.modeSetOf x with
    | none => rfl
    | some y => obtain ⟨_, m⟩ := y; cases m <;> rfl
  refine ⟨?_, fun x => ?_, ?_⟩
  · refine does_safeTaken r hr (exec_modeSet ..) ?_
    rw [modeSetProg_run_others _ _ (by simpa using ne), byRank_fresh]
    rfl
  · rw [mem_byRank, List.mem_map]
    exact ⟨fun h => h.2, fun ⟨y, hy, e⟩ => ⟨e ▸ y.isLt, y, hy, e⟩⟩
  · rw [rank_eq]
    exact byRank_pairwise _ _

/-! ### Transitions that follow when a condition holds (R41, R460, R548) -/

/-- A command whose program asks for a mode under a condition makes the transition wait where the condition holds. -/
theorem request_does {i : Instr} {s : State} {p : Prog} {go : Bool} {d : Nat} {m : Mode} {x : Blk} (r : Ready s)
    (e : exec i s = s.act p) (q : NoTrigger x)
    (h : p.run (fresh s.blk) = if go then awaiting d m .done x else fresh s.blk) :
    Does i s (if go then awaiting d m .done x else fresh s.blk) :=
  does_of_run r e h (ite_quiet (awaiting_quiet _ _ _ q) r.quiet)

/-- Settles O41: each command is a request of its transition under its condition. -/
theorem transitionsByCondition : Obligations.TransitionsByCondition := by
  intro s r
  refine ⟨?_, ?_, ?_, ?_⟩
  · rintro h _ rfl
    exact request_does r rfl r.quiet (progWhen_go rfl (requestMode_run ..))
  · rintro d _ rfl
    exact request_does r rfl r.quiet (progWhen_go rfl (requestMode_run ..))
  · exact request_does r rfl r.quiet (progIf_go rfl (requestMode_run ..))
  · rintro _ rfl
    refine request_does r rfl (flagged_quiet _ r.quiet) (progIf_go rfl ?_)
    rw [Prog.run_seq, setFlag_run, requestMode_run]

end Sys2Proof.Proofs
end

section
/-!
PROOFS. Calibration: a run of a target (R484 to R487) and the end of CALIBRATE (R481).
-/
namespace Sys2Proof.Proofs

open Sys2Proof.Machine Sys2Proof.Safety Sys2Proof.Laws

/-! ### A run of a target (R484 to R487) -/

/-- The trim fields that a run of a target sets: of a camera in RESET the termination only (R479). -/
def runTrims (b : Blk) (t : Nat) : List (Nat × Nat × Bool) :=
  if b.termOnly t then (trimFields t).take 1 else trimFields t

/-- The governing reading is within CAL_DT of the temperature that the trims are for (R487). -/
def tempFits (b : Blk) (t : Nat) : Bool :=
  decide (absI (sgn 16 (b.reading (b.calReading t)) - sgn 16 (b.f (Reg.CAL_TEMP t) F.CAL_TEMP_TEMP)) ≤
    Int.ofNat (b.a Reg.CAL_CFG F.CAL_CFG_CAL_DT))

/-- What a run makes of its measurements (R484, R487). -/
def runPick (b : Blk) (t : Nat) (ms : List CalMeas) : Option (Option (CalMeas × CalMeas)) :=
  calPick (trimsAgree (runTrims b t) (b.a Reg.CAL_CFG F.CAL_CFG_CODE_TOL))
    (if (b.calTarget t).restored && tempFits b t then some (b.w (Reg.CAL_RES t)) else none) ms

/-- A run counts, and trims restored out of the temperature range are reported stale. -/
def runCounted (t : Nat) (b : Blk) : Blk :=
  let counted := putF (Reg.CAL_TSTAT t) F.CAL_TSTAT_RUNS (satInc 16 (b.f (Reg.CAL_TSTAT t) F.CAL_TSTAT_RUNS)) b
  if (b.calTarget t).restored && !tempFits b t then flagged (flCal 1) (putF Reg.CAL_LAST F.CAL_LAST_STALE_T t counted)
  else counted

/-- A run that is not accepted (R486). -/
def runFailed (t : Nat) (b : Blk) : Blk :=
  flagged (flCal 0) (putF Reg.CAL_LAST F.CAL_LAST_FAIL_T t (putF (Reg.CAL_TSTAT t) F.CAL_TSTAT_STATE 4
    (calSet t (fun _ => ⟨false, some false⟩) (runCounted t b))))

/-- A run that is accepted with two measurements (R484, R485). -/
def runStored (t : Nat) (x y : CalMeas) (b : Blk) : Blk :=
  let old := b.w (Reg.CAL_RES t)
  let q := calQuality t x y
  putF (Reg.CAL_DUE (t / 32)) ⟨t % 32, 1⟩ 0
    (putF (Reg.CAL_TSTAT t) F.CAL_TSTAT_STATE 1
      (putF (Reg.CAL_TEMP t) F.CAL_TEMP_TEMP (b.reading (b.calReading t))
        (put (Reg.CAL_QUAL t) (BitVec.ofNat 32 (q.1 % 65536 + q.2 % 65536 * 65536))
          (put (Reg.CAL_RES t) (BitVec.ofNat 32 ((trimsMean (runTrims b t) x.1 y.1).toNat +
              if b.termOnly t then old.toNat - old.toNat % 32 else 0))
            (calSet t (fun _ => ⟨false, some true⟩) (runCounted t b))))))

section
variable {t : Nat} {ms : List CalMeas} {b : Blk}

theorem modCal_run (f : CalTarget → CalTarget) : (modCal t f).run b = calSet t f b := rfl

theorem calRunProg_run_barred (h : b.calMayRun t = false) : (calRunProg t ms).run b = b := by
  simp only [calRunProg, Prog.run_get, h]
  split <;> rfl

theorem calRunProg_run_short (h : runPick b t ms = none) : (calRunProg t ms).run b = b := by
  unfold runPick runTrims tempFits at h
  simp only [calRunProg, Prog.run_get, h, Prog.run_skip]

/-- The head of a run, whatever its outcome. -/
theorem runCounted_run (k : Bool) (rest : List Prog) :
    (progAll (modF (Reg.CAL_TSTAT t) F.CAL_TSTAT_RUNS (satInc 16) ::
      progIf ((b.calTarget t).restored && !tempFits b t)
        (.seq (setF Reg.CAL_LAST F.CAL_LAST_STALE_T t) (setFlag (flCal 1))) ::
      modCal t (fun _ => ⟨false, some k⟩) :: rest)).run b =
      (progAll rest).run (calSet t (fun _ => ⟨false, some k⟩) (runCounted t b)) := by
  simp only [progAll_cons_run, modCal_run, modF_run_put]
  congr 2
  refine progIf_go rfl ?_
  rw [Prog.run_seq, setF_run_put, setFlag_run]

/-- A run is not accepted where no two measurements agree, or their quality is not good. -/
theorem calRunProg_run_failed {r : Option (CalMeas × CalMeas)} (h : b.calMayRun t = true)
    (p : runPick b t ms = some r) (g : ∀ x y, r = some (x, y) → b.calGood t (calQuality t x y) = false) :
    (calRunProg t ms).run b = (calAfter t false).run (runFailed t b) := by
  have head := runCounted_run (t := t) (b := b) false
  unfold runPick runTrims at p
  unfold tempFits at p head
  cases r with
  | none =>
    simp only [calRunProg, Prog.run_get, p, h]
    exact head _
  | some xy =>
    simp only [calRunProg, Prog.run_get, p, h, Option.map_some, Option.filter_some, g xy.1 xy.2 rfl]
    exact head _

theorem calRunProg_run_good {x y : CalMeas} (h : b.calMayRun t = true) (p : runPick b t ms = some (some (x, y)))
    (g : b.calGood t (calQuality t x y) = true) :
    (calRunProg t ms).run b = (calAfter t true).run (runStored t x y b) := by
  have head := runCounted_run (t := t) (b := b) true
  unfold runPick runTrims at p
  unfold tempFits at p head
  simp only [calRunProg, Prog.run_get, p, h, Option.map_some, Option.filter_some, g]
  exact head _

end

/-! ### The end of CALIBRATE (R481) -/

theorem kindOf_eq_head_iff (d : Nat) : kindOf d = .head ↔ d < 32 := by
  unfold kindOf
  repeat' split
  all_goals simp_all

section
variable {d ramps : Nat} {ok : Bool} {b : Blk}

theorem calibrateEndProg_run_elsewhere (h : b.mode d ≠ .calibrate) : (calibrateEndProg d ok ramps).run b = b := by
  rw [calibrateEndProg, Prog.run_get, if_pos h]
  rfl

theorem calibrateEndProg_run_open (h : b.calOutcome d ok = none) : (calibrateEndProg d ok ramps).run b = b := by
  rw [calibrateEndProg, Prog.run_get, h]
  split <;> rfl

theorem calibrateEndProg_run_bad (h : b.mode d = .calibrate) (o : b.calOutcome d ok = some false) :
    (calibrateEndProg d ok ramps).run b = awaiting d .setup .calFail b := by
  rw [calibrateEndProg, Prog.run_get, if_neg (not_not_intro h), o]
  rfl

theorem calibrateEndProg_run_good (h : b.mode d = .calibrate) (o : b.calOutcome d ok = some true) :
    (calibrateEndProg d ok ramps).run b =
      awaiting d (b.prevMode d) .done (if d < 32 then (servoLag d ramps).run b else b) := by
  rw [calibrateEndProg, Prog.run_get, if_neg (not_not_intro h), o]
  show awaiting _ _ _ ((progIf _ _).run b) = _
  rw [progIf_run]
  simp only [decide_eq_true_eq, kindOf_eq_head_iff]

end

/-- Settles O55: the cases of a run's measurements, and of the outcome of CALIBRATE. -/
theorem calibrationRuns : Obligations.CalibrationRuns := by
  intro s r hr b
  refine ⟨fun t ms => ?_, fun d ok ramps => ?_⟩
  · refine ⟨fun idle => ?_, fun may p => ?_, fun x y may p => ⟨fun bad => ?_, fun good => ?_⟩⟩
    · refine does_of_run r rfl ?_ r.quiet
      rcases idle with barred | short
      · exact calRunProg_run_barred barred
      · exact calRunProg_run_short short
    · exact does_safeTaken r hr rfl (calRunProg_run_failed may p fun _ _ e => nomatch e)
    · exact does_safeTaken r hr rfl (calRunProg_run_failed may p fun _ _ e => by cases e; exact bad)
    · exact does_safeTaken r hr rfl (calRunProg_run_good may p good)
  · refine ⟨fun idle => ?_, fun cal out => ?_, fun cal out => ?_⟩
    · refine does_of_run r rfl ?_ r.quiet
      rcases idle with elsewhere | still
      · exact calibrateEndProg_run_elsewhere elsewhere
      · exact calibrateEndProg_run_open still
    · exact does_of_run r rfl (calibrateEndProg_run_bad cal out) (awaiting_quiet _ _ _ r.quiet)
    · exact does_safeTaken r hr rfl (calibrateEndProg_run_good cal out)

end Sys2Proof.Proofs
end
